-- ==== Sys2Proof/Word.lean ====
section
/-! DEFINITION. The word types of the EAPC core (00_scope R9, R10): every datum the host, the meter reader or the
sequencer moves is one 32-bit word, and the two wide quantities (sample rate, sum of squares) are 64 bits. -/

namespace Sys2Proof

/-- One byte of BUF as a platform lays it out (20_memory R65). -/
abbrev Byte := BitVec 8

/-- One 32-bit word: a bus word, a register, a sample (20_memory R67). -/
abbrev Word := BitVec 32

/-- The bit pattern of an IEEE 754 binary32 value: sign 31, exponent 30:23, fraction 22:0 (00_scope R10). -/
abbrev F32 := BitVec 32

/-- The bit pattern of an IEEE 754 binary64 value: sign 63, exponent 62:52, fraction 51:0 (00_scope R10). -/
abbrev F64 := BitVec 64

/-- A 30-bit word address within one address space (30_encoding R91). -/
abbrev WordAddr := BitVec 30

/-- A channel number (30_encoding R93). -/
abbrev Chan := BitVec 6

/-- A sample index or a frame count (30_encoding R93, R96). -/
abbrev Index := BitVec 24

/-- A sequencer PHASE code (30_encoding R99). -/
abbrev PhaseCode := BitVec 5

end Sys2Proof
end

