-- ==== Sys2Proof/Syntax.lean ====
section
/-! DEFINITION. The instructions: one constructor per row of spec/opcode_table.json (30_encoding R104): five bus
transactions, five command words, seventeen micro-operations of the sequencer. -/

namespace Sys2Proof

/-- The 27 rows of the opcode table. A transaction carries its address fields and, for a write, its data word; a command
carries its frame count LEN; a micro-operation carries nothing, its operands are the sequencer position, the latches and
the scratch registers. -/
inductive Instr where
  /-- WR (44_host_commands R244): write `data` to the REG-space address `addr`. Register numbers are addresses below 256;
  every other address is reserved (30_encoding R92, R101). -/
  | wr (addr : WordAddr) (data : Word)
  /-- RD (R245): read the REG-space address `addr`. -/
  | rd (addr : WordAddr)
  /-- WRS (R246): write one sample of BUF. -/
  | wrs (chan : Chan) (index : Index) (data : Word)
  /-- RDS (R247): read one sample of BUF. -/
  | rds (chan : Chan) (index : Index)
  /-- RDGR (R243): the meter port's read of GR. -/
  | rdgr
  /-- PREPARE (R236). -/
  | prepare
  /-- PROCESS (R238) of `len` frames. -/
  | process (len : Index)
  /-- SRM (R239) of `len` frames. -/
  | srm (len : Index)
  /-- EGE (R241) of `len` frames. -/
  | ege (len : Index)
  /-- HEN (R242) of `len` frames. -/
  | hen (len : Index)
  /-- LATCH (R233). -/
  | latch
  /-- PREP (R237). -/
  | prep
  /-- DONE (R235). -/
  | done
  /-- S_INIT (41_spectral_ratio_modulator R161). -/
  | sInit
  /-- S_BPF (R162, R163). -/
  | sBpf
  /-- S_RMS (R164, R165). -/
  | sRms
  /-- S_RATIO (R166, R167, R168). -/
  | sRatio
  /-- E_COEF (42_envelope_gain_engine R182, R183, R184). -/
  | eCoef
  /-- E_DET (R185). -/
  | eDet
  /-- E_ENV (R186). -/
  | eEnv
  /-- E_GRC (R189). -/
  | eGrc
  /-- E_PUB (R190). -/
  | ePub
  /-- E_APPLY (R191). -/
  | eApply
  /-- H_GAIN (43_harmonic_enhancer R212, R213). -/
  | hGain
  /-- H_HPF (R211). -/
  | hHpf
  /-- H_SAT (R214). -/
  | hSat
  /-- H_MAC (R216). -/
  | hMac
deriving DecidableEq, Repr

end Sys2Proof
end

