-- ==== Sys2Proof/WellFormed.lean ====
section
/-! DEFINITION. When an instruction matches its own row of spec/opcode_table.json. The operand widths are in the types of
`Instr`, so one check is left: the ZERO field, bits 29:8, of a register transaction's header (30_encoding R92, R95). A WR or
RD whose address has one of those bits set matches no row; the core still answers it, as a reserved address (R101), so it
decodes and runs, and it is only not well-formed. Log 30. -/

namespace Sys2Proof

/-- Bits 29:8 of a REG-space address are zero (30_encoding R92). -/
def zeroFieldClear (addr : WordAddr) : Bool := addr >>> 8 == 0

/-- The instruction matches its row of the opcode table. -/
def wellFormed : Instr → Bool
  | .wr addr _ => zeroFieldClear addr
  | .rd addr => zeroFieldClear addr
  | .wrs _ _ _ => true
  | .rds _ _ => true
  | .rdgr => true
  | .prepare => true
  | .process _ => true
  | .srm _ => true
  | .ege _ => true
  | .hen _ => true
  | .latch => true
  | .prep => true
  | .done => true
  | .sInit => true
  | .sBpf => true
  | .sRms => true
  | .sRatio => true
  | .eCoef => true
  | .eDet => true
  | .eEnv => true
  | .eGrc => true
  | .ePub => true
  | .eApply => true
  | .hGain => true
  | .hHpf => true
  | .hSat => true
  | .hMac => true

end Sys2Proof
end

