-- ==== Sys2Proof/Decode.lean ====
section
/-! DEFINITION. The decoder and the encoder of 30_encoding. There is no instruction stream: a word is decoded where it is
found, a transaction header on port H or port M (R91, R94), a command word in the data of a WR to CMD (R96), a PHASE code in
the sequencer position (R99). `Bus` names the place. The decoder is total and rejects by name. -/

namespace Sys2Proof

/-- Where an encoded word is found (30_encoding R90). -/
inductive Bus where
  /-- The host port: a header, and for a write one data word (R91). -/
  | portH
  /-- The meter port: a header (R94). -/
  | portM
  /-- The data word of a WR to CMD (R96). -/
  | command
  /-- The sequencer's PHASE, zero-extended to a word (R99). -/
  | phase
deriving DecidableEq, Repr

/-- Why the words at a place are no instruction. -/
inductive Reject where
  /-- A port transaction with no header word (30_encoding R91). -/
  | noHeader
  /-- A write header with no data word after it (R91). -/
  | noData
  /-- More words than the format has (R90: all formats are fixed length). -/
  | extraWords
  /-- A header on port M other than 0x0000000A; the port answers 0 (R94). -/
  | notMeterRead
  /-- A command word that no CMD row matches: OP not 1 to 5, RSV not 0, or PREPARE with LEN not 0 (R100). -/
  | illegalCommand
  /-- PHASE is IDLE, a position and not an operation (R99). -/
  | idlePhase
  /-- A PHASE code the sequencer never takes (R99). -/
  | unusedPhase
deriving DecidableEq, Repr

/-! ## PHASE codes (30_encoding R99) -/

abbrev phaseIdle : PhaseCode := 0x00
abbrev phaseLatch : PhaseCode := 0x01
abbrev phasePrep : PhaseCode := 0x02
abbrev phaseDone : PhaseCode := 0x03
abbrev phaseSInit : PhaseCode := 0x08
abbrev phaseSBpf : PhaseCode := 0x09
abbrev phaseSRms : PhaseCode := 0x0A
abbrev phaseSRatio : PhaseCode := 0x0B
abbrev phaseECoef : PhaseCode := 0x10
abbrev phaseEDet : PhaseCode := 0x11
abbrev phaseEEnv : PhaseCode := 0x12
abbrev phaseEGrc : PhaseCode := 0x13
abbrev phaseEPub : PhaseCode := 0x14
abbrev phaseEApply : PhaseCode := 0x15
abbrev phaseHGain : PhaseCode := 0x18
abbrev phaseHHpf : PhaseCode := 0x19
abbrev phaseHSat : PhaseCode := 0x1A
abbrev phaseHMac : PhaseCode := 0x1B

/-! ## The fields of the three formats -/

/-- DIR, header bit 31 (30_encoding R91). -/
def headerIsWrite (h : Word) : Bool := h.getLsbD 31

/-- SPACE, header bit 30: 1 is BUF (R91). -/
def headerIsBuf (h : Word) : Bool := h.getLsbD 30

/-- ADDR, header bits 29:0 (R91). -/
def headerAddr (h : Word) : WordAddr := h.extractLsb' 0 30

/-- CHAN, address bits 29:24 in BUF space (R93). -/
def headerChan (h : Word) : Chan := h.extractLsb' 24 6

/-- INDEX, address bits 23:0 in BUF space (R93). -/
def headerIndex (h : Word) : Index := h.extractLsb' 0 24

/-- OP, command word bits 31:28 (R96). -/
def cmdOp (w : Word) : BitVec 4 := w.extractLsb' 28 4

/-- RSV, command word bits 27:24 (R96). -/
def cmdRsv (w : Word) : BitVec 4 := w.extractLsb' 24 4

/-- LEN, command word bits 23:0 (R96). -/
def cmdLen (w : Word) : Index := w.extractLsb' 0 24

/-! ## The decoder -/

/-- A transaction on port H: every header is legal (30_encoding R101). -/
def decodePortH : List Word → Except Reject Instr
  | [] => .error .noHeader
  | [h] =>
    if headerIsWrite h then .error .noData
    else if headerIsBuf h then .ok (.rds (headerChan h) (headerIndex h))
    else .ok (.rd (headerAddr h))
  | [h, d] =>
    if headerIsWrite h then
      if headerIsBuf h then .ok (.wrs (headerChan h) (headerIndex h) d)
      else .ok (.wr (headerAddr h) d)
    else .error .extraWords
  | _ :: _ :: _ :: _ => .error .extraWords

/-- A transaction on port M: the one header it accepts (30_encoding R94). -/
def decodePortM : List Word → Except Reject Instr
  | [] => .error .noHeader
  | [h] => if h = 0x0000000A then .ok .rdgr else .error .notMeterRead
  | _ :: _ :: _ => .error .extraWords

/-- A command word (30_encoding R97, R100). -/
def decodeCommand (w : Word) : Except Reject Instr :=
  if cmdRsv w ≠ 0 then .error .illegalCommand
  else if cmdOp w = 1 then
    if cmdLen w = 0 then .ok .prepare else .error .illegalCommand
  else if cmdOp w = 2 then .ok (.process (cmdLen w))
  else if cmdOp w = 3 then .ok (.srm (cmdLen w))
  else if cmdOp w = 4 then .ok (.ege (cmdLen w))
  else if cmdOp w = 5 then .ok (.hen (cmdLen w))
  else .error .illegalCommand

/-- A PHASE code (30_encoding R99). -/
def decodePhase (p : PhaseCode) : Except Reject Instr :=
  if p = phaseIdle then .error .idlePhase
  else if p = phaseLatch then .ok .latch
  else if p = phasePrep then .ok .prep
  else if p = phaseDone then .ok .done
  else if p = phaseSInit then .ok .sInit
  else if p = phaseSBpf then .ok .sBpf
  else if p = phaseSRms then .ok .sRms
  else if p = phaseSRatio then .ok .sRatio
  else if p = phaseECoef then .ok .eCoef
  else if p = phaseEDet then .ok .eDet
  else if p = phaseEEnv then .ok .eEnv
  else if p = phaseEGrc then .ok .eGrc
  else if p = phaseEPub then .ok .ePub
  else if p = phaseEApply then .ok .eApply
  else if p = phaseHGain then .ok .hGain
  else if p = phaseHHpf then .ok .hHpf
  else if p = phaseHSat then .ok .hSat
  else if p = phaseHMac then .ok .hMac
  else .error .unusedPhase

/-- The instruction that the words `ws` found at `b` stand for. -/
def decode (b : Bus) (ws : List Word) : Except Reject Instr :=
  match b with
  | .portH => decodePortH ws
  | .portM => decodePortM ws
  | .command =>
    match ws with
    | [] => .error .noHeader
    | [w] => decodeCommand w
    | _ :: _ :: _ => .error .extraWords
  | .phase =>
    match ws with
    | [] => .error .noHeader
    | [w] => if w.toNat < 32 then decodePhase (w.setWidth 5) else .error .unusedPhase
    | _ :: _ :: _ => .error .extraWords

/-! ## The encoder -/

/-- A transaction header from its fields (30_encoding R91). -/
def txnHeader (dir space : BitVec 1) (addr : WordAddr) : Word := dir ++ space ++ addr

/-- A command word from its fields, RSV zero (30_encoding R96). -/
def cmdWord (op : BitVec 4) (len : Index) : Word := op ++ (0 : BitVec 4) ++ len

/-- Where the words of an instruction are found (30_encoding R90, R95). -/
def busOf : Instr → Bus
  | .wr _ _ => .portH
  | .rd _ => .portH
  | .wrs _ _ _ => .portH
  | .rds _ _ => .portH
  | .rdgr => .portM
  | .prepare => .command
  | .process _ => .command
  | .srm _ => .command
  | .ege _ => .command
  | .hen _ => .command
  | .latch => .phase
  | .prep => .phase
  | .done => .phase
  | .sInit => .phase
  | .sBpf => .phase
  | .sRms => .phase
  | .sRatio => .phase
  | .eCoef => .phase
  | .eDet => .phase
  | .eEnv => .phase
  | .eGrc => .phase
  | .ePub => .phase
  | .eApply => .phase
  | .hGain => .phase
  | .hHpf => .phase
  | .hSat => .phase
  | .hMac => .phase

/-- The words of an instruction (30_encoding R95, R97, R99). -/
def encode : Instr → List Word
  | .wr addr data => [txnHeader 1 0 addr, data]
  | .rd addr => [txnHeader 0 0 addr]
  | .wrs chan index data => [txnHeader 1 1 (chan ++ index), data]
  | .rds chan index => [txnHeader 0 1 (chan ++ index)]
  | .rdgr => [0x0000000A]
  | .prepare => [cmdWord 1 0]
  | .process len => [cmdWord 2 len]
  | .srm len => [cmdWord 3 len]
  | .ege len => [cmdWord 4 len]
  | .hen len => [cmdWord 5 len]
  | .latch => [phaseLatch.setWidth 32]
  | .prep => [phasePrep.setWidth 32]
  | .done => [phaseDone.setWidth 32]
  | .sInit => [phaseSInit.setWidth 32]
  | .sBpf => [phaseSBpf.setWidth 32]
  | .sRms => [phaseSRms.setWidth 32]
  | .sRatio => [phaseSRatio.setWidth 32]
  | .eCoef => [phaseECoef.setWidth 32]
  | .eDet => [phaseEDet.setWidth 32]
  | .eEnv => [phaseEEnv.setWidth 32]
  | .eGrc => [phaseEGrc.setWidth 32]
  | .ePub => [phaseEPub.setWidth 32]
  | .eApply => [phaseEApply.setWidth 32]
  | .hGain => [phaseHGain.setWidth 32]
  | .hHpf => [phaseHHpf.setWidth 32]
  | .hSat => [phaseHSat.setWidth 32]
  | .hMac => [phaseHMac.setWidth 32]

/-! ## The opcode table's words -/

/-- A word of the table by itself does not say where it is found: 0x0000000A is RDGR on port M and RD of GR on port H, and
0x40000004 is EGE in CMD and RDS on port H. The row with the most fixed bits is taken: RDGR before RD, the command rows before
the transaction rows (log 25). -/
def tableBus (nbits : Nat) (w : Word) : Bus :=
  if nbits ≤ 8 then .phase
  else if w = 0x0000000A then .portM
  else match decodeCommand w with
    | .ok _ => .command
    | .error _ => .portH

/-- The words that the table word `w` stands for where it is found: a write transaction's data word is 0. -/
def tableWords (nbits : Nat) (w : Word) : List Word :=
  if tableBus nbits w = .portH ∧ headerIsWrite w then [w, 0] else [w]

/-- The instruction the decoder reads from an opcode-table word of `nbits` bits. -/
def decodeTableWord (nbits w : Nat) : Option Instr :=
  if w < 2 ^ 32 then
    match decode (tableBus nbits (BitVec.ofNat 32 w)) (tableWords nbits (BitVec.ofNat 32 w)) with
    | .ok i => some i
    | .error _ => none
  else none

end Sys2Proof
end

