-- ==== Sys2Proof/Config.lean ====
section
/-! DEFINITION. What an instance of the core fixes (00_scope R7), and the free values. The parameters NCH, MAXLEN, Num,
K_BPF, K_HPF, DB_FLOOR and SAFE_SR are arguments of the model (10_state R51); the host's `step` takes none, so they stand in
the state as the constant `Params` (log 4). The constants with no body are the values the spec leaves open: nothing can be
proved of them. Two more, the records and kernels that the spec does not give, stand in Machine/Admissible.lean, after the
properties that every admissible one has. -/

namespace Sys2Proof

/-- The numerics record `Num` of 40_numerics R122: total functions whose results depend on the operands alone. -/
structure Num where
  add32 : F32 → F32 → F32
  sub32 : F32 → F32 → F32
  mul32 : F32 → F32 → F32
  div32 : F32 → F32 → F32
  abs32 : F32 → F32
  neg32 : F32 → F32
  gt32 : F32 → F32 → Bool
  lt32 : F32 → F32 → Bool
  max32 : F32 → F32 → F32
  min32 : F32 → F32 → F32
  log10_32 : F32 → F32
  pow10_32 : F32 → F32
  cvt32to64 : F32 → F64
  cvt64to32 : F64 → F32
  cvtU24to64 : Index → F64
  gt64 : F64 → F64 → Bool
  isfinite64 : F64 → Bool
  add64 : F64 → F64 → F64
  mul64 : F64 → F64 → F64
  div64 : F64 → F64 → F64
  sqrt64 : F64 → F64
  exp64 : F64 → F64
  mac32 : F32 → F32 → F32 → F32 → F32
deriving Inhabited

/-- Coefficients of a filter: plain words, whatever the kernel makes of them (40_numerics R148, log 6). -/
abbrev KCoef := List Word

/-- The memory of one channel's filter: plain words, whatever the kernel makes of them (40_numerics R148, log 6). -/
abbrev KMem := List Word

/-- A filter kernel (40_numerics R148): its zero memory, its design from the sample rate, and its step from one input
sample and the memory to one output sample and the new memory. Total functions of these arguments alone, one for all
channels: that is R149 KP2, and KP3 with the memory carried. `overflows` is not the machine's: it says in which steps an
intermediate value overflows, which R149 KP4 speaks of (log 33). -/
structure Kernel where
  zero : KMem
  design : F64 → KCoef
  step : KCoef → KMem → F32 → F32 × KMem
  overflows : KCoef → KMem → F32 → Bool
deriving Inhabited

/-- Which numerics record an instance has (00_scope R7): the reference one (R124), its flush-to-zero form (R133), or an unknown
admissible one (R123). -/
inductive NumSel where
  | ref
  | flushed
  | other (n : Nat)
deriving DecidableEq, Repr

/-- Which filter kernel an instance has (00_scope R7): the identity test kernel K_ID (40_numerics R151), the informative
biquad K_RBJ (R150), or an unknown admissible one (R149). -/
inductive KernelSel where
  | identity
  | rbj
  | other (n : Nat)
deriving DecidableEq, Repr

/-- The parameters of one instance (00_scope R7). `nch` is the register CONFIG (10_state R36), `maxlen` the register MAXLEN
(R37). No instruction writes any of them. -/
structure Params where
  nch : BitVec 7
  maxlen : Index
  num : NumSel
  kBpf : KernelSel
  kHpf : KernelSel
  dbFloor : F32
  safeSr : F64
deriving DecidableEq, Repr

/-- The bounds of 00_scope R7: 1 ≤ NCH ≤ 64 and 1 ≤ MAXLEN ≤ 2^24 − 1. -/
def Params.wf (p : Params) : Bool :=
  decide (1 ≤ p.nch.toNat) && decide (p.nch.toNat ≤ 64) && decide (1 ≤ p.maxlen.toNat)

/-- How a platform maps the core's words onto bytes (20_memory R65). -/
inductive ByteOrder where
  | little
  | big
deriving DecidableEq, Repr

/-- 20_memory R65's platform parameter, at its default. -/
def Config.byteOrder : ByteOrder := .little

/-- The instance that State.reset describes. NCH and MAXLEN are DESIGN CHOICEs (log 4: the spec leaves them open; 2 and 1024
are those of 95_test_vectors); Num, DB_FLOOR and SAFE_SR have the spec's defaults (00_scope R7); the kernels are unknown
(log 6). Claims are stated for every instance. -/
def Config.params : Params where
  nch := 2
  maxlen := 1024
  num := .ref
  kBpf := .other 0
  kHpf := .other 1
  dbFloor := 0xC2C80000
  safeSr := 0x40E5888000000000

/-- The function of the record that a free result stands for. -/
inductive NumFn where
  | add32
  | sub32
  | mul32
  | div32
  | max32
  | min32
  | log10_32
  | pow10_32
  | cvt32to64
  | cvt64to32
  | mac32
  | gt32
  | lt32
deriving DecidableEq, Repr

/-- The F32 result of a function in a command, on operands, or with a result outside the admitted domain (40_numerics R134,
R147, 60_exceptions R281, 93_implementation_defined I1 to I3: no rule gives one). Free (log 8). -/
opaque Config.openResult32 : NumFn → List Word → F32

/-- The F64 result of a function on operands outside the admitted domain (R147). Free (log 8). -/
opaque Config.openResult64 : NumFn → List Word → F64

/-- The outcome of a comparison outside the admitted domain (R147). Free (log 8). -/
opaque Config.openCompare : NumFn → List Word → Bool

/-- The output sample and the memory of a filter (0 the band-pass, 1 the high-pass) in a command outside the admitted domain
(R147). Free (log 8). -/
opaque Config.openFilter : Nat → KCoef → KMem → F32 → F32 × KMem

/-- The bits of a NaN result in F32, by operation site and operands (40_numerics R134: not specified). Free (log 7). -/
opaque Config.nanBits32 : Nat → Word → Word → Word

/-- The bits of a NaN result in F64, by operation site and operands (40_numerics R134: not specified). Free (log 7). -/
opaque Config.nanBits64 : Nat → F64 → F64 → F64

/-- `log10_32` of an operand that is not greater than zero, for which 40_numerics R129 states no result. Free (log 10). -/
opaque Config.log10OutOfDomain : F32 → F32

/-- The word an RDS returns while a command runs (20_memory R72: unspecified), one for each draw. Free (log 18). -/
opaque Config.freeWord : Nat → Word

/-- Whether a read of a changing result register shows the old value (20_memory R85), one for each draw. Free (log 19). -/
opaque Config.freeBit : Nat → Bool

end Sys2Proof
end

