-- ==== Sys2Proof/Machine/Numerics.lean ====
section
/-! DEFINITION. The exact part of the reference numerics `Num_ref` (40_numerics R124 to R128, R131 to R133, R136): IEEE 754
addition, subtraction, multiplication, division, square root, comparison and conversion, rounded to nearest, ties to even.
Both formats are one set of functions over bit patterns read as natural numbers. A finite pattern's magnitude is an exact
natural number of units, the unit being the format's smallest subnormal; every operation computes the exact rational result
and rounds it once. Special operands not listed in R125 follow IEEE 754 (log 11); NaN patterns are free (log 7). At the end
stands `guarded`, which leaves the results outside the admitted domain (R147) free. -/

namespace Sys2Proof.Machine

/-- One of the two formats of 00_scope R10: precision in bits, minus the exponent of the smallest subnormal, the pattern of
+∞, and the weight of the sign bit. -/
structure Fmt where
  prec : Nat
  unit : Nat
  inf : Nat
  sign : Nat
deriving DecidableEq, Repr

/-- binary32. -/
def fmt32 : Fmt := ⟨24, 149, 0x7F800000, 0x80000000⟩

/-- binary64. -/
def fmt64 : Fmt := ⟨53, 1074, 0x7FF0000000000000, 0x8000000000000000⟩

/-- The sign bit is set. -/
def isNeg (f : Fmt) (c : Nat) : Bool := decide (f.sign ≤ c)

/-- The pattern is a NaN. -/
def isNaN (f : Fmt) (c : Nat) : Bool := decide (f.inf < c % f.sign)

/-- The pattern is an infinity. -/
def isInf (f : Fmt) (c : Nat) : Bool := decide (c % f.sign = f.inf)

/-- The magnitude of a pattern in units of the smallest subnormal, exact for every finite pattern; an infinity's is above
every finite one's. -/
def mag (f : Fmt) (c : Nat) : Nat :=
  let e := c % f.sign / 2 ^ (f.prec - 1)
  let frac := c % f.sign % 2 ^ (f.prec - 1)
  if e = 0 then frac else (2 ^ (f.prec - 1) + frac) * 2 ^ (e - 1)

/-- The pattern is a subnormal number. -/
def isSub (f : Fmt) (c : Nat) : Bool := decide (0 < mag f c) && decide (mag f c < 2 ^ (f.prec - 1))

/-- The signed value of a pattern, in units of the smallest subnormal. -/
def val (f : Fmt) (c : Nat) : Int := if isNeg f c then -(mag f c : Int) else (mag f c : Int)

/-- The magnitude pattern nearest to `num / den` units, ties to even, with no upper bound on the exponent (40_numerics
R124). `k` is the number of low bits beyond the precision; a significand that rounds up to the next power of two carries
into the exponent field of itself. -/
def roundUnits (f : Fmt) (num den : Nat) : Nat :=
  let k := (num / den).log2 + 1 - f.prec
  let d := den * 2 ^ k
  let m := num / d
  let r := num % d
  let up := decide (d < 2 * r) || (decide (2 * r = d) && decide (m % 2 = 1))
  k * 2 ^ (f.prec - 1) + (if up then m + 1 else m)

/-- The pattern nearest to `± num / den` units; a result beyond the largest finite pattern is the infinity of its sign
(R125). -/
def pack (f : Fmt) (neg : Bool) (num den : Nat) : Nat :=
  (if neg then f.sign else 0) + (if f.inf ≤ roundUnits f num den then f.inf else roundUnits f num den)

/-- A NaN pattern made of free bits: the sign and the fraction are free, the fraction is not zero (R134, log 7). -/
def nanCode (f : Fmt) (bits : Nat) : Nat :=
  let frac := bits % 2 ^ (f.prec - 1)
  (if isNeg f bits then f.sign else 0) + f.inf + (if frac = 0 then 1 else frac)

/-- The infinity of a sign. -/
def infCode (f : Fmt) (neg : Bool) : Nat := (if neg then f.sign else 0) + f.inf

/-- Sum of two patterns; `nan` is the pattern of a NaN result (R125). -/
def addCode (f : Fmt) (nan a b : Nat) : Nat :=
  if isNaN f a || isNaN f b then nan
  else if isInf f a then (if isInf f b && (isNeg f a != isNeg f b) then nan else a)
  else if isInf f b then b
  else
    let s := val f a + val f b
    if s = 0 then (if isNeg f a && isNeg f b then f.sign else 0)
    else pack f (decide (s < 0)) s.natAbs 1

/-- Product of two patterns (R125). -/
def mulCode (f : Fmt) (nan a b : Nat) : Nat :=
  let neg := isNeg f a != isNeg f b
  if isNaN f a || isNaN f b then nan
  else if isInf f a || isInf f b then
    (if mag f a = 0 ∨ mag f b = 0 then nan else infCode f neg)
  else pack f neg (mag f a * mag f b) (2 ^ f.unit)

/-- Quotient of two patterns (R125). -/
def divCode (f : Fmt) (nan a b : Nat) : Nat :=
  let neg := isNeg f a != isNeg f b
  if isNaN f a || isNaN f b then nan
  else if isInf f a then (if isInf f b then nan else infCode f neg)
  else if isInf f b then pack f neg 0 1
  else if mag f b = 0 then (if mag f a = 0 then nan else infCode f neg)
  else pack f neg (mag f a * 2 ^ f.unit) (mag f b)

/-- Ordered greater-than (R127): false with a NaN operand, +0.0 and −0.0 equal. -/
def gtCode (f : Fmt) (a b : Nat) : Bool :=
  !isNaN f a && !isNaN f b && decide (val f b < val f a)

/-- Newton's iteration for the integer square root, from above. -/
def isqrtLoop : Nat → Nat → Nat → Nat
  | 0, _, x => x
  | fuel + 1, n, x => if (x + n / x) / 2 < x then isqrtLoop fuel n ((x + n / x) / 2) else x

/-- The integer square root, rounded down. -/
def isqrt (n : Nat) : Nat := if n = 0 then 0 else isqrtLoop 64 n (2 ^ (n.log2 / 2 + 1))

/-- Square root of a pattern (R131). The integer root of the magnitude scaled by one unit has far more bits than the
precision, and an inexact root is marked by half a bit so that it cannot look like a tie. -/
def sqrtCode (f : Fmt) (nan a : Nat) : Nat :=
  if isNaN f a then nan
  else if mag f a = 0 then a
  else if isNeg f a then nan
  else if isInf f a then a
  else
    let r := isqrt (mag f a * 2 ^ f.unit)
    pack f false (2 * r + (if r * r = mag f a * 2 ^ f.unit then 0 else 1)) 2

/-- A value in units of one format, rounded to another (R132). -/
def cvtCode (src dst : Fmt) (nan a : Nat) : Nat :=
  if isNaN src a then nan
  else if isInf src a then infCode dst (isNeg src a)
  else pack dst (isNeg src a) (mag src a * 2 ^ dst.unit) (2 ^ src.unit)

/-! ## The F32 and F64 operations of `Num_ref` -/

/-- The F32 is neither an infinity nor a NaN. -/
def isFinite32 (x : F32) : Bool := !isNaN fmt32 x.toNat && !isInf fmt32 x.toNat

/-- The F64 is neither an infinity nor a NaN. -/
def isFinite64 (x : F64) : Bool := !isNaN fmt64 x.toNat && !isInf fmt64 x.toNat

/-- The free NaN of the operation numbered `site` on these operands. -/
def nan32 (site : Nat) (a b : Word) : Nat := nanCode fmt32 (Config.nanBits32 site a b).toNat

/-- The free NaN of the operation numbered `site` on these operands. -/
def nan64 (site : Nat) (a b : F64) : Nat := nanCode fmt64 (Config.nanBits64 site a b).toNat

/-- 1.0 as an F32 (R146). -/
def one32 : F32 := 0x3F800000

def refAdd32 (a b : F32) : F32 := BitVec.ofNat 32 (addCode fmt32 (nan32 0 a b) a.toNat b.toNat)

/-- Inverts bit 31 (R126). -/
def refNeg32 (a : F32) : F32 := a ^^^ 0x80000000

/-- Clears bit 31 (R126). -/
def refAbs32 (a : F32) : F32 := a &&& 0x7FFFFFFF

def refSub32 (a b : F32) : F32 := refAdd32 a (refNeg32 b)

/-- The product; a factor 1.0 returns the other operand whatever it is, NaNs included (R123 NP2). -/
def refMul32 (a b : F32) : F32 :=
  if b = one32 then a else BitVec.ofNat 32 (mulCode fmt32 (nan32 1 a b) a.toNat b.toNat)

def refDiv32 (a b : F32) : F32 := BitVec.ofNat 32 (divCode fmt32 (nan32 2 a b) a.toNat b.toNat)

def refGt32 (a b : F32) : Bool := gtCode fmt32 a.toNat b.toNat

def refLt32 (a b : F32) : Bool := refGt32 b a

/-- R128: the first operand wins ties and wins against a NaN. -/
def refMax32 (a b : F32) : F32 := if refLt32 a b then b else a

/-- R128. -/
def refMin32 (a b : F32) : F32 := if refLt32 b a then b else a

def refCvt32to64 (a : F32) : F64 :=
  BitVec.ofNat 64 (cvtCode fmt32 fmt64 (nan64 3 (a.setWidth 64) 0) a.toNat)

def refCvt64to32 (a : F64) : F32 :=
  BitVec.ofNat 32 (cvtCode fmt64 fmt32 (nan32 4 (a.extractLsb' 32 32) (a.extractLsb' 0 32)) a.toNat)

def refCvtU24to64 (n : Index) : F64 := BitVec.ofNat 64 (pack fmt64 false (n.toNat * 2 ^ fmt64.unit) 1)

def refGt64 (a b : F64) : Bool := gtCode fmt64 a.toNat b.toNat

def refIsFinite64 (a : F64) : Bool := isFinite64 a

def refAdd64 (a b : F64) : F64 := BitVec.ofNat 64 (addCode fmt64 (nan64 5 a b) a.toNat b.toNat)

def refMul64 (a b : F64) : F64 := BitVec.ofNat 64 (mulCode fmt64 (nan64 6 a b) a.toNat b.toNat)

def refDiv64 (a b : F64) : F64 := BitVec.ofNat 64 (divCode fmt64 (nan64 7 a b) a.toNat b.toNat)

def refSqrt64 (a : F64) : F64 := BitVec.ofNat 64 (sqrtCode fmt64 (nan64 8 a 0) a.toNat)

/-- R136: unfused, the products first, then the sum. -/
def refMac32 (a b c d : F32) : F32 := refAdd32 (refMul32 a b) (refMul32 c d)

/-! ## Flush to zero (R133) -/

/-- A subnormal number becomes the zero of its sign. -/
def flush32 (x : F32) : F32 :=
  if isSub fmt32 x.toNat then (if isNeg fmt32 x.toNat then 0x80000000 else 0x00000000) else x

/-- A subnormal number becomes the zero of its sign. -/
def flush64 (x : F64) : F64 :=
  if isSub fmt64 x.toNat then (if isNeg fmt64 x.toNat then 0x8000000000000000 else 0x0000000000000000) else x

/-- The magnitude is below 1.0. -/
def belowOne (x : F32) : Bool := decide (mag fmt32 x.toNat < 2 ^ fmt32.unit)

/-- The product with flush to zero. It is flushed where both factors are below 1.0 only: a product with 1.0 is the other factor
whatever it is (NP2), and between larger factors it may not fall (NP5). -/
def flushedMul (N : Num) (a b : F32) : F32 :=
  if belowOne a && belowOne b then flush32 (N.mul32 a b) else N.mul32 a b

/-- The record with flush to zero (R133): `N` with the subnormal results of products, quotients, powers and conversions to F32
flushed. Operands are not flushed, and neither are sums, comparisons and conversions to F64, because NP2, NP5 and NP7 of R123
hold for every operand (log 32). `mac32` is unfused (R136). -/
def flushed (N : Num) : Num :=
  { N with
    mul32 := flushedMul N
    div32 := fun a b => flush32 (N.div32 a b)
    pow10_32 := fun a => flush32 (N.pow10_32 a)
    cvt64to32 := fun a => flush32 (N.cvt64to32 a)
    mul64 := fun a b => flush64 (N.mul64 a b)
    div64 := fun a b => flush64 (N.div64 a b)
    exp64 := fun a => flush64 (N.exp64 a)
    mac32 := fun a b c d => N.add32 (flushedMul N a b) (flushedMul N c d) }

/-! ## A numerics record inside and outside the admitted domain -/

/-- `r` in an admitted command, where the operands and `r` are finite; else no rule gives the result, and it is free (R134,
R147, 60_exceptions R281, log 8). -/
def open32 (admitted : Bool) (fn : NumFn) (operands : List F32) (r : F32) : F32 :=
  if admitted && operands.all isFinite32 && isFinite32 r then r else Config.openResult32 fn operands

/-- `r` in an admitted command, where the operands are finite; else a free truth value (log 8). -/
def openBool (admitted : Bool) (fn : NumFn) (operands : List F32) (r : Bool) : Bool :=
  if admitted && operands.all isFinite32 then r else Config.openCompare fn operands

/-- The record as the core's rules use it: `N` in an admitted command (R147) without overflow, free results in any other
command and where an operand or a result in F32 is an infinity or a NaN (log 8). `abs32` and `neg32` are stated for every
operand (R126), and so are the functions on F64, whose infinities the rules use (R131, R142, 44_host_commands R237): what
comes of them is converted to F32. -/
def guarded (admitted : Bool) (N : Num) : Num :=
  { N with
    add32 := fun a b => open32 admitted .add32 [a, b] (N.add32 a b)
    sub32 := fun a b => open32 admitted .sub32 [a, b] (N.sub32 a b)
    mul32 := fun a b => open32 admitted .mul32 [a, b] (N.mul32 a b)
    div32 := fun a b => open32 admitted .div32 [a, b] (N.div32 a b)
    gt32 := fun a b => openBool admitted .gt32 [a, b] (N.gt32 a b)
    lt32 := fun a b => openBool admitted .lt32 [a, b] (N.lt32 a b)
    max32 := fun a b => open32 admitted .max32 [a, b] (N.max32 a b)
    min32 := fun a b => open32 admitted .min32 [a, b] (N.min32 a b)
    log10_32 := fun a => open32 admitted .log10_32 [a] (N.log10_32 a)
    pow10_32 := fun a => open32 admitted .pow10_32 [a] (N.pow10_32 a)
    cvt32to64 := fun a => if admitted && isFinite32 a then N.cvt32to64 a else Config.openResult64 .cvt32to64 [a]
    cvt64to32 := fun a =>
      if admitted && isFinite64 a && isFinite32 (N.cvt64to32 a) then N.cvt64to32 a
      else Config.openResult32 .cvt64to32 [a.extractLsb' 32 32, a.extractLsb' 0 32]
    mac32 := fun a b c d => open32 admitted .mac32 [a, b, c, d] (N.mac32 a b c d) }

/-- The F32 nearest to the rational `± num / den`, ties to even: how a decimal literal is read (40_numerics R146, 30_encoding
R102). -/
def nearest32 (neg : Bool) (num den : Nat) : F32 := BitVec.ofNat 32 (pack fmt32 neg (num * 2 ^ fmt32.unit) den)

/-- The F64 nearest to the rational `± num / den` (R146). -/
def nearest64 (neg : Bool) (num den : Nat) : F64 := BitVec.ofNat 64 (pack fmt64 neg (num * 2 ^ fmt64.unit) den)

end Sys2Proof.Machine
end

