-- ==== Sys2Proof/Machine/Admissible.lean ====
section
/-! DEFINITION. What the spec asks of the parameters that it leaves open: the properties NP1 to NP8 of a numerics record
(40_numerics R123) and KP1 and KP4 of a filter kernel (R149; KP2 and KP3 are the shape of `Kernel`), the values of patterns
that they speak of, and the free records and kernels of which these properties are all that can be proved. -/

namespace Sys2Proof.Machine

/-! ## Values of patterns (00_scope R10) -/

/-- The pattern is finite. -/
def finite32 (x : F32) : Prop := isNaN fmt32 x.toNat = false ∧ isInf fmt32 x.toNat = false

/-- The pattern is a NaN. -/
def nan32P (x : F32) : Prop := isNaN fmt32 x.toNat = true

/-- The pattern is a zero of either sign. -/
def zero32 (x : F32) : Prop := x = 0x00000000 ∨ x = 0x80000000

/-- The pattern is a zero of either sign. -/
def zero64 (x : F64) : Prop := x = 0x0000000000000000 ∨ x = 0x8000000000000000

/-- The real value of a finite F32 (00_scope R10). -/
def rat32 (x : F32) : ℚ := (val fmt32 x.toNat : ℚ) / 2 ^ 149

/-- The pattern is finite. -/
def finite64 (x : F64) : Prop := isNaN fmt64 x.toNat = false ∧ isInf fmt64 x.toNat = false

/-- The pattern is a NaN. -/
def nan64P (x : F64) : Prop := isNaN fmt64 x.toNat = true

/-- The real value of a finite F64 (00_scope R10). -/
def rat64 (x : F64) : ℚ := (val fmt64 x.toNat : ℚ) / 2 ^ 1074

/-- `a` is not above `b`, as values in which an infinity lies beyond every finite one, wherever both are numbers. -/
def le32 (a b : F32) : Prop := ¬nan32P a → ¬nan32P b → val fmt32 a.toNat ≤ val fmt32 b.toNat

/-- `a` is not above `b`, as values, wherever both are numbers. -/
def le64 (a b : F64) : Prop := ¬nan64P a → ¬nan64P b → val fmt64 a.toNat ≤ val fmt64 b.toNat

/-- The values of the finite F32. -/
def values32 : Set ℝ := { v | ∃ c : F32, finite32 c ∧ v = (rat32 c : ℝ) }

/-- The values of the finite F64. -/
def values64 : Set ℝ := { v | ∃ c : F64, finite64 c ∧ v = (rat64 c : ℝ) }

/-- Of the values of `S`, one at most is strictly nearer to `x` than `r` is. -/
def oneOfTwoNearest (S : Set ℝ) (x r : ℝ) : Prop :=
  ∀ c ∈ S, ∀ c' ∈ S, |x - c| < |x - r| → |x - c'| < |x - r| → c = c'

/-- NP8: where `x` is within the finite range, `r` is one of the two F32 values nearest to it; with flush to zero it may also be
a zero in the place of a subnormal one of the two (R133, log 32). -/
def nearTwo32 (ftz : Bool) (x : ℝ) (r : F32) : Prop :=
  |x| ≤ (rat32 0x7F7FFFFF : ℝ) →
    finite32 r ∧
      (oneOfTwoNearest values32 x (rat32 r) ∨
        ftz = true ∧ zero32 r ∧ ∃ v : F32, isSub fmt32 v.toNat = true ∧ oneOfTwoNearest values32 x (rat32 v))

/-- NP8 for F64. -/
def nearTwo64 (ftz : Bool) (x : ℝ) (r : F64) : Prop :=
  |x| ≤ (rat64 0x7FEFFFFFFFFFFFFF : ℝ) →
    finite64 r ∧
      (oneOfTwoNearest values64 x (rat64 r) ∨
        ftz = true ∧ zero64 r ∧ ∃ v : F64, isSub fmt64 v.toNat = true ∧ oneOfTwoNearest values64 x (rat64 v))

/-! ## Admissible numerics records (R122, R123) -/

/-- The comparisons as 40_numerics R122 gives them, on finite operands, and R128's maximum and minimum on all. -/
structure NumCompares (N : Num) : Prop where
  gt : ∀ a b, finite32 a → finite32 b → (N.gt32 a b = true ↔ rat32 b < rat32 a)
  lt : ∀ a b, finite32 a → finite32 b → (N.lt32 a b = true ↔ rat32 a < rat32 b)
  max : ∀ a b, N.max32 a b = if N.lt32 a b then b else a
  min : ∀ a b, N.min32 a b = if N.lt32 b a then b else a
  gt64 : ∀ a b, finite64 a → finite64 b → (N.gt64 a b = true ↔ rat64 b < rat64 a)
  isfinite : ∀ a, N.isfinite64 a = true ↔ finite64 a

/-- NP2: a factor 1.0, a factor zero, a zero summand. -/
structure NumNeutral (N : Num) : Prop where
  one : ∀ x, N.mul32 x 0x3F800000 = x
  mul : ∀ x z, finite32 x → zero32 z → zero32 (N.mul32 x z)
  add : ∀ x z, finite32 x → ¬zero32 x → zero32 z → N.add32 x z = x
  zeros : ∀ y z, zero32 y → zero32 z → zero32 (N.add32 y z)

/-- NP4: the exponential at and below zero. -/
structure NumExponential (N : Num) : Prop where
  unit : ∀ a, finite64 a → rat64 a ≤ 0 → finite64 (N.exp64 a) ∧ 0 ≤ rat64 (N.exp64 a) ∧ rat64 (N.exp64 a) ≤ 1
  bottom : N.exp64 0xFFF0000000000000 = 0x0000000000000000
  zero : N.exp64 0x0000000000000000 = 0x3FF0000000000000 ∧ N.exp64 0x8000000000000000 = 0x3FF0000000000000
  number : ∀ a, ¬nan64P a → ¬nan64P (N.exp64 a)

/-- NP5: the monotone functions, in each operand taken alone; a result that is a NaN is compared with nothing. -/
structure NumMonotone (N : Num) : Prop where
  add : ∀ a a' b, ¬nan32P a → ¬nan32P a' → ¬nan32P b → le32 a a' →
    le32 (N.add32 a b) (N.add32 a' b) ∧ le32 (N.add32 b a) (N.add32 b a')
  sub : ∀ a a' b, ¬nan32P a → ¬nan32P a' → ¬nan32P b → le32 a a' →
    le32 (N.sub32 a b) (N.sub32 a' b) ∧ le32 (N.sub32 b a') (N.sub32 b a)
  mul : ∀ a a' k, ¬nan32P a → ¬nan32P a' → ¬nan32P k → le32 a a' → le32 0x00000000 k →
    le32 (N.mul32 a k) (N.mul32 a' k) ∧ le32 (N.mul32 k a) (N.mul32 k a')
  log : ∀ a a', ¬nan32P a → ¬nan32P a' → 0 < rat32 a → le32 a a' → le32 (N.log10_32 a) (N.log10_32 a')
  pow : ∀ a a', ¬nan32P a → ¬nan32P a' → le32 a a' → le32 (N.pow10_32 a) (N.pow10_32 a')
  cvt : ∀ a a', ¬nan64P a → ¬nan64P a' → le64 a a' → le32 (N.cvt64to32 a) (N.cvt64to32 a')
  sqrt : ∀ a a', ¬nan64P a → ¬nan64P a' → le64 0x0000000000000000 a → le64 a a' → le64 (N.sqrt64 a) (N.sqrt64 a')

/-- NP7: the exact functions. -/
structure NumExact (N : Num) : Prop where
  abs : ∀ a, N.abs32 a = a &&& 0x7FFFFFFF
  neg : ∀ a, N.neg32 a = a ^^^ 0x80000000
  widen : ∀ a, finite32 a → finite64 (N.cvt32to64 a) ∧ rat64 (N.cvt32to64 a) = rat32 a
  count : ∀ n : Index, finite64 (N.cvtU24to64 n) ∧ rat64 (N.cvtU24to64 n) = n.toNat

/-- NP8 for the functions of R122 that round, on finite operands in the domain where the real-valued result exists. For
`mac32`, each product that is finite may be rounded first or not (R136, log 32). -/
structure NumNearest (ftz : Bool) (N : Num) : Prop where
  add : ∀ a b, finite32 a → finite32 b → nearTwo32 ftz (rat32 a + rat32 b) (N.add32 a b)
  sub : ∀ a b, finite32 a → finite32 b → nearTwo32 ftz (rat32 a - rat32 b) (N.sub32 a b)
  mul : ∀ a b, finite32 a → finite32 b → nearTwo32 ftz (rat32 a * rat32 b) (N.mul32 a b)
  div : ∀ a b, finite32 a → finite32 b → rat32 b ≠ 0 → nearTwo32 ftz (rat32 a / rat32 b) (N.div32 a b)
  log : ∀ a, finite32 a → 0 < rat32 a → nearTwo32 ftz (Real.logb 10 (rat32 a)) (N.log10_32 a)
  pow : ∀ a, finite32 a → nearTwo32 ftz ((10 : ℝ) ^ (rat32 a : ℝ)) (N.pow10_32 a)
  narrow : ∀ a, finite64 a → nearTwo32 ftz (rat64 a) (N.cvt64to32 a)
  mac : ∀ a b c d, finite32 a → finite32 b → finite32 c → finite32 d →
    finite32 (N.mul32 a b) → finite32 (N.mul32 c d) →
    ∃ p q : ℚ, (p = rat32 a * rat32 b ∨ p = rat32 (N.mul32 a b)) ∧ (q = rat32 c * rat32 d ∨ q = rat32 (N.mul32 c d)) ∧
      nearTwo32 ftz (p + q) (N.mac32 a b c d)
  add64 : ∀ a b, finite64 a → finite64 b → nearTwo64 ftz (rat64 a + rat64 b) (N.add64 a b)
  mul64 : ∀ a b, finite64 a → finite64 b → nearTwo64 ftz (rat64 a * rat64 b) (N.mul64 a b)
  div64 : ∀ a b, finite64 a → finite64 b → rat64 b ≠ 0 → nearTwo64 ftz (rat64 a / rat64 b) (N.div64 a b)
  sqrt64 : ∀ a, finite64 a → 0 ≤ rat64 a → nearTwo64 ftz (Real.sqrt (rat64 a)) (N.sqrt64 a)
  exp64 : ∀ a, finite64 a → nearTwo64 ftz (Real.exp (rat64 a)) (N.exp64 a)

/-- The properties of R123, for a record that keeps subnormal results (`ftz` false) or may flush them to zero (`ftz` true: R133
calls such a record admissible, and NP8 alone could tell the two apart; log 32). -/
structure NumProperties (ftz : Bool) (N : Num) : Prop where
  compares : NumCompares N
  np1 : N.pow10_32 0x00000000 = 0x3F800000 ∧ N.pow10_32 0x80000000 = 0x3F800000
  np2 : NumNeutral N
  np3 : N.div32 0x3F800000 0x3F800000 = 0x3F800000 ∧ N.sub32 0x3F800000 0x3F800000 = 0x00000000
  np4 : NumExponential N
  np5 : NumMonotone N
  np6 : N.log10_32 0x3F800000 = 0x00000000
  np7 : NumExact N
  np8 : NumNearest ftz N

/-- An admissible numerics record (R123). -/
def AdmissibleNum (N : Num) : Prop := NumProperties false N ∨ NumProperties true N

/-! ## Admissible filter kernels (R149) -/

/-- A predicate on memories that makes a kernel quiet with the coefficients `k`: its zero memory is quiet, and a quiet memory
answers a zero with a zero and stays quiet (KP1). -/
structure QuietKernel (K : Kernel) (k : KCoef) (quiet : KMem → Prop) : Prop where
  zero : quiet K.zero
  step : ∀ (m : KMem) (z : F32), quiet m → zero32 z → zero32 (K.step k m z).1 ∧ quiet (K.step k m z).2

/-- The memories reached from the zero memory by finite inputs, no intermediate value overflowing on the way (KP4, log 33). -/
inductive KernelReached (K : Kernel) (k : KCoef) : KMem → Prop where
  | zero : KernelReached K k K.zero
  | step (m : KMem) (x : F32) (h : KernelReached K k m) (hx : finite32 x) (ho : K.overflows k m x = false) :
      KernelReached K k (K.step k m x).2

/-- KP4 with the coefficients `k`: a finite input and a reached memory give a finite output unless an intermediate value
overflows. -/
def FiniteKernel (K : Kernel) (k : KCoef) : Prop :=
  ∀ (m : KMem) (x : F32), KernelReached K k m → finite32 x → K.overflows k m x = false → finite32 (K.step k m x).1

/-- An admissible kernel (R149): one quiet predicate for every designed coefficient set, and finite outputs with each. -/
def AdmissibleKernel (K : Kernel) : Prop :=
  (∃ quiet : KMem → Prop, ∀ sr : F64, QuietKernel K (K.design sr) quiet) ∧ ∀ sr : F64, FiniteKernel K (K.design sr)

end Sys2Proof.Machine

namespace Sys2Proof

/-- The admissible records other than Num_ref (00_scope R7, 40_numerics R124); none where an instance number has none. Free
(log 5). -/
opaque Config.otherNum : Nat → Option { N : Num // Machine.AdmissibleNum N }

/-- The admissible kernels that the spec does not give (40_numerics R148, 91_not_in_source N4); none where an instance number
has none. Free (log 6). -/
opaque Config.otherKernel : Nat → Option { K : Kernel // Machine.AdmissibleKernel K }

end Sys2Proof
end

