-- ==== Sys2Proof/Machine/Elementary.lean ====
section
/-! DEFINITION. The elementary functions of the reference numerics: `exp64`, `pow10_32`, `log10_32` (40_numerics R124, R129 to
R131: correctly rounded) and the sine and cosine that the informative kernel K_RBJ is designed with (R150). Each is evaluated
in fixed point with 320 fractional bits and rounded once; that 320 bits decide every rounding is PRESUMED (log 9). -/

namespace Sys2Proof.Machine

/-- The number of fractional bits of the fixed-point values of this file. -/
abbrev fxBits : Nat := 320

/-- 1 in fixed point. -/
def fxOne : Nat := 2 ^ fxBits

/-- ln 2, rounded down to 320 fractional bits. -/
def fxLn2 : Nat := 0xb17217f7d1cf79abc9e3b39803f2f6af40f343267298b62d8a0d175b8baafa2be7b876206debac98

/-- ln 10, rounded down to 320 fractional bits. -/
def fxLn10 : Nat := 0x24d763776aaa2b05ba95b58ae0b4c28a38a3fb3e76977e43a0f187a0807c0b5ca58bc0b5ec6a04173

/-- π / 2, rounded down to 320 fractional bits. -/
def fxHalfPi : Nat := 0x1921fb54442d18469898cc51701b839a252049c1114cf98e804177d4c76273644a29410f31c6809bb

/-- √2, rounded down to 320 fractional bits. -/
def fxSqrt2 : Nat := 0x16a09e667f3bcc908b2fb1366ea957d3e3adec17512775099da2f590b0667322a95f9060875714587

/-- The partial sums of Σ r^i / i!, from term `i` on. -/
def expSeries : Nat → Nat → Nat → Nat → Nat → Nat
  | 0, _, _, _, acc => acc
  | fuel + 1, i, term, r, acc =>
    expSeries fuel (i + 1) (term * r / fxOne / i) r (acc + term * r / fxOne / i)

/-- `e^x` for a fixed-point `x`, as `(t, k)` with `e^x ≈ t · 2^k / 2^320` and `t / 2^320` in [1, 2]. -/
def expFx (x : Int) : Nat × Int :=
  let k := x / (fxLn2 : Int)
  let r := (x - k * (fxLn2 : Int)).toNat
  (expSeries 90 1 fxOne r fxOne, k)

/-- The pattern nearest to `t · 2^k / 2^320`. -/
def packScaled (f : Fmt) (t : Nat) (k : Int) : Nat :=
  let s := k - (fxBits : Int) + (f.unit : Int)
  if 0 ≤ s then pack f false (t * 2 ^ s.toNat) 1 else pack f false t (2 ^ (-s).toNat)

/-- e to the power of a pattern (R131). Beyond ±800 the result is past overflow or past underflow to zero. -/
def expCode (f : Fmt) (nan a : Nat) : Nat :=
  if isNaN f a then nan
  else if (800 : Int) * 2 ^ f.unit ≤ val f a then f.inf
  else if val f a ≤ (-800 : Int) * 2 ^ f.unit then 0
  else
    let e := expFx (val f a * (fxOne : Int) / 2 ^ f.unit)
    packScaled f e.1 e.2

/-- 10 to the power of a pattern (R130). Beyond ±60 an F32 result is past overflow or past underflow to zero. -/
def pow10Code (f : Fmt) (nan a : Nat) : Nat :=
  if isNaN f a then nan
  else if (60 : Int) * 2 ^ f.unit ≤ val f a then f.inf
  else if val f a ≤ (-60 : Int) * 2 ^ f.unit then 0
  else
    let e := expFx (val f a * (fxLn10 : Int) / 2 ^ f.unit)
    packScaled f e.1 e.2

/-- The partial sums of Σ z^i / i over odd `i`, from term `i` on; `zp` is `z^i`, `zz` is `z²`. -/
def atanhSeries : Nat → Nat → Nat → Nat → Nat → Nat
  | 0, _, _, _, acc => acc
  | fuel + 1, i, zp, zz, acc => atanhSeries fuel (i + 2) (zp * zz / fxOne) zz (acc + zp / i)

/-- ln of `m` units of 2^(-unit), for `m ≥ 1`, in fixed point: `m` is split into a power of two and a factor in [1, 2). -/
def lnFx (unit m : Nat) : Int :=
  let l := m.log2
  let z := (m - 2 ^ l) * fxOne / (m + 2 ^ l)
  2 * (atanhSeries 110 1 z (z * z / fxOne) 0 : Int) + ((l : Int) - (unit : Int)) * (fxLn2 : Int)

/-- log to base 10 of a positive pattern (R129). -/
def log10Code (f : Fmt) (a : Nat) : Nat :=
  if isInf f a then f.inf
  else
    let v := lnFx f.unit (mag f a) * (fxOne : Int) / (fxLn10 : Int)
    pack f (decide (v < 0)) (v.natAbs * 2 ^ f.unit) fxOne

def refExp64 (a : F64) : F64 := BitVec.ofNat 64 (expCode fmt64 (nan64 9 a 0) a.toNat)

def refPow10 (a : F32) : F32 := BitVec.ofNat 32 (pow10Code fmt32 (nan32 10 a 0) a.toNat)

/-- `log10_32` (R129): used with a positive operand only, and stated for no other (log 10). -/
def refLog10 (a : F32) : F32 :=
  if refGt32 a 0 then BitVec.ofNat 32 (log10Code fmt32 a.toNat) else Config.log10OutOfDomain a

/-- `Num_ref`, the reference instantiation (R124). -/
def numRef : Num where
  add32 := refAdd32
  sub32 := refSub32
  mul32 := refMul32
  div32 := refDiv32
  abs32 := refAbs32
  neg32 := refNeg32
  gt32 := refGt32
  lt32 := refLt32
  max32 := refMax32
  min32 := refMin32
  log10_32 := refLog10
  pow10_32 := refPow10
  cvt32to64 := refCvt32to64
  cvt64to32 := refCvt64to32
  cvtU24to64 := refCvtU24to64
  gt64 := refGt64
  isfinite64 := refIsFinite64
  add64 := refAdd64
  mul64 := refMul64
  div64 := refDiv64
  sqrt64 := refSqrt64
  exp64 := refExp64
  mac32 := refMac32

/-- The numerics record of an instance (00_scope R7). -/
def recordOf (p : Params) : Num :=
  match p.num with
  | .ref => numRef
  | .flushed => flushed numRef
  | .other n =>
    match Config.otherNum n with
    | some N => N.val
    | none => numRef

/-- The functions of that record in an admitted command: free on infinities, NaNs and overflow (40_numerics R147, log 8). -/
def numOf (p : Params) : Num := guarded true (recordOf p)

/-! ## Sine and cosine -/

/-- The partial sums of an alternating series whose next term is the last one times `rr / ((i + 1)(i + 2))`. -/
def trigSeries : Nat → Nat → Int → Nat → Int → Int
  | 0, _, _, _, acc => acc
  | fuel + 1, i, term, rr, acc =>
    let next := -(term * (rr : Int) / (fxOne : Int)) / (((i + 1) * (i + 2) : Nat) : Int)
    trigSeries fuel (i + 2) next rr (acc + next)

/-- Sine and cosine of `turns · 2π`, for `turns` in [0, 1) in fixed point. -/
def sinCosTurns (turns : Nat) : Int × Int :=
  let q := 4 * turns / fxOne
  let r := 4 * turns % fxOne * fxHalfPi / fxOne
  let rr := r * r / fxOne
  let s := trigSeries 60 1 (r : Int) rr (r : Int)
  let c := trigSeries 60 0 (fxOne : Int) rr (fxOne : Int)
  if q = 0 then (s, c) else if q = 1 then (c, -s) else if q = 2 then (-s, -c) else (-c, s)

/-- `f0 / sr` modulo one turn, in fixed point: the angle `2π f0 / SR` of R150 as a fraction of a turn. -/
def turnsOf (f0 : Nat) (sr : F64) : Nat :=
  f0 * 2 ^ fmt64.unit % mag fmt64 sr.toNat * fxOne / mag fmt64 sr.toNat

/-- The F32 nearest to the rational `num / den`. -/
def coef32 (num : Int) (den : Int) : F32 := nearest32 (decide (num < 0)) num.natAbs den.toNat

/-! ## The concrete kernels -/

/-- K_ID (R151): no coefficients, no memory, the output is the input. -/
def kernelId : Kernel where
  zero := []
  design := fun _ => []
  step := fun _ m x => (x, m)
  overflows := fun _ _ _ => false

/-- K_RBJ's band-pass design at 1000 Hz, Q = 1.5 (R150, 00_scope R8): `b0, b1, b2, a1, a2`. -/
def rbjBandPass (sr : F64) : KCoef :=
  let sc := sinCosTurns (turnsOf 1000 sr)
  let one : Int := fxOne
  let alpha := sc.1 / 3
  [coef32 alpha (one + alpha), 0, coef32 (-alpha) (one + alpha),
   coef32 (-2 * sc.2) (one + alpha), coef32 (one - alpha) (one + alpha)]

/-- K_RBJ's high-pass design at 15000 Hz, Q = 1/√2 (R150, 00_scope R8): `b0, b1, b2, a1, a2`. -/
def rbjHighPass (sr : F64) : KCoef :=
  let sc := sinCosTurns (turnsOf 15000 sr)
  let one : Int := fxOne
  let alpha := sc.1 * one / (fxSqrt2 : Int)
  [coef32 (one + sc.2) (2 * (one + alpha)), coef32 (-(one + sc.2)) (one + alpha), coef32 (one + sc.2) (2 * (one + alpha)),
   coef32 (-2 * sc.2) (one + alpha), coef32 (one - alpha) (one + alpha)]

/-- K_RBJ's step, transposed direct form II (R150); a list entry that is not there reads as +0.0 (log 27). -/
def rbjStep (N : Num) (k : KCoef) (m : KMem) (x : F32) : F32 × KMem :=
  let y := N.add32 (N.mul32 (k.getD 0 0) x) (m.getD 0 0)
  (y, [N.add32 (N.sub32 (N.mul32 (k.getD 1 0) x) (N.mul32 (k.getD 3 0) y)) (m.getD 1 0),
       N.sub32 (N.mul32 (k.getD 2 0) x) (N.mul32 (k.getD 4 0) y)])

/-- The results of the nine operations of K_RBJ's step, in the order of R150. -/
def rbjValues (N : Num) (k : KCoef) (m : KMem) (x : F32) : List F32 :=
  let p0 := N.mul32 (k.getD 0 0) x
  let y := N.add32 p0 (m.getD 0 0)
  let p1 := N.mul32 (k.getD 1 0) x
  let q1 := N.mul32 (k.getD 3 0) y
  let d1 := N.sub32 p1 q1
  let p2 := N.mul32 (k.getD 2 0) x
  let q2 := N.mul32 (k.getD 4 0) y
  [p0, y, p1, q1, d1, N.add32 d1 (m.getD 1 0), p2, q2, N.sub32 p2 q2]

/-- K_RBJ over a record, with one of its two designs (R150). On infinities, NaNs and overflow its results are free (log 8). -/
def kernelRbj (N : Num) (design : F64 → KCoef) : Kernel where
  zero := [0, 0]
  design := design
  step := rbjStep (guarded true N)
  overflows := fun k m x => !(rbjValues N k m x).all isFinite32

/-- The kernel that a parameter chooses, K_RBJ being built over `N` with `design`. -/
def kernelOf (N : Num) (design : F64 → KCoef) (sel : KernelSel) : Kernel :=
  match sel with
  | .identity => kernelId
  | .rbj => kernelRbj N design
  | .other n =>
    match Config.otherKernel n with
    | some K => K.val
    | none => kernelId

/-- The band-pass kernel of an instance (00_scope R7). -/
def bpfOf (p : Params) : Kernel := kernelOf (recordOf p) rbjBandPass p.kBpf

/-- The high-pass kernel of an instance (00_scope R7). -/
def hpfOf (p : Params) : Kernel := kernelOf (recordOf p) rbjHighPass p.kHpf

/-- One step of the filter numbered `filter`: the kernel's in an admitted command, free in any other (R147, log 8). -/
def filterStep (admitted : Bool) (filter : Nat) (K : Kernel) (k : KCoef) (m : KMem) (x : F32) : F32 × KMem :=
  if admitted then K.step k m x else Config.openFilter filter k m x

end Sys2Proof.Machine
end

