-- ==== Sys2Proof/Machine/State.lean ====
section
/-! DEFINITION. The state of the core: every register of 10_state R20, the block buffer BUF (20_memory R62), the parameters of
the instance (00_scope R7, log 4), and the model's own fields: the pending inputs of the environment, the words last returned
on the two ports, the values GR has taken, and the counter of free values (INVENTORY.md, State). Plain data. -/

namespace Sys2Proof.Machine

/-- Why the machine stops with a fault. -/
inductive Fault where
  /-- A BUF word that nothing has written since reset is read, by RDS or by S_BPF, E_DET or H_HPF: 10_state R54 and
  93_implementation_defined I8 call this a fault. Safe: the hardware would go on with an unspecified word. -/
  | unwrittenWord
  /-- A micro-operation addresses a word outside BUF. 20_memory R64: the sequencer never generates such an address; only
  states that no run reaches do. Safe. -/
  | bufOutOfRange
deriving DecidableEq, Repr

/-- Why the machine refuses to give a step a meaning. -/
inductive Refusal where
  /-- Raised by `exec` for an instruction the model gives no meaning. Safe. -/
  | notModelled (mnemonic : String)
  /-- Raised by `step` when PHASE holds a code that the sequencer never takes (30_encoding R99); only states that no run
  reaches hold one. Safe. -/
  | unusedPhase
deriving DecidableEq, Repr

/-- One action of the environment (log 12). -/
inductive Input where
  /-- The host's transaction on port H: the header, and the data word on the bus, which a read does not use (30_encoding
  R91). -/
  | host (header data : Word)
  /-- A transaction on port M (R94). -/
  | meter (header data : Word)
  /-- The host offers a command word, and an accepted command runs to DONE in one step (44_host_commands R249, log 13). -/
  | command (word : Word)
  /-- The sequencer's turn: one micro-operation. -/
  | turn
  /-- The platform asserts power-on reset (70_reset R290). -/
  | powerOn
deriving DecidableEq, Repr

/-- BUF as bytes: (byte address, byte), addresses strictly rising; an address that is not listed has no value (log 2, log 3). -/
abbrev Memory := List Host.Cell

/-- The host-written registers (10_state R22 to R28). -/
structure HostRegs where
  reqSrLo : Word
  reqSrHi : Word
  reqBs : Word
  pThresh : F32
  pRatio : F32
  pAttack : F32
  pRelease : F32
  pOutgain : F32
deriving DecidableEq, Repr

/-- The result registers and the configuration in force (R32 to R35). -/
structure Results where
  gr : F32
  effRatio : F32
  srLo : Word
  srHi : Word
  blksz : Word
deriving DecidableEq, Repr

/-- The hidden signal-processing state that lasts from command to command (R39, R41 to R44). Of the 64 memories of each
filter the channels below NCH exist (log 23). -/
structure Hidden where
  env : F32
  bpfCoef : KCoef
  bpfMem : Vector KMem 64
  hpfCoef : KCoef
  hpfMem : Vector KMem 64
deriving DecidableEq, Repr

/-- The latches (R45). -/
structure Latches where
  op : BitVec 4
  len : Index
  thresh : F32
  ratio : F32
  attack : F32
  release : F32
  outgain : F32
  sr : F64
  bs : Word
deriving DecidableEq, Repr

/-- The smoothing coefficients, the scratch registers and the pipeline registers (R40, R46). Of the 64 entries of `sumsq` and
`lane` the channels below NCH exist (log 23). -/
structure Scratch where
  ac : F32
  rc : F32
  sumsq : Vector F64 64
  maxrms : F32
  ratioC : F32
  slope : F32
  lg : F32
  mix : F32
  level : F32
  grv : F32
  filt : F32
  sat : F32
  lane : Vector F32 64
deriving DecidableEq, Repr

/-- The sequencer position (R47). -/
structure Pos where
  phase : PhaseCode
  idx : Index
  ch : Chan
deriving DecidableEq, Repr

/-- The model's own fields: not registers of the core. -/
structure Ports where
  /-- The environment's pending actions, first one first (log 12). -/
  inputs : List Input
  /-- The data word last returned on port H (log 16). -/
  hResp : Word
  /-- The data word last returned on port M (log 16). -/
  mResp : Word
  /-- The command word W of the WR to CMD in progress, which LATCH reads (44_host_commands R231, R233; log 14). -/
  offered : Word
  /-- The values E_PUB has written to GR since the last command was accepted (R249, log 17). -/
  grLog : List F32
  /-- EFF_RATIO, SR_LO, SR_HI and BLKSZ as they were when the last command was accepted (20_memory R85, log 19). -/
  oldEffRatio : Word
  oldSrLo : Word
  oldSrHi : Word
  oldBlksz : Word
  /-- How many free values have been drawn (log 20). -/
  free : Nat
  /-- What the last LATCH copied, and the block its command reads, were finite (40_numerics R147, log 8). -/
  admitted : Bool
deriving DecidableEq, Repr

/-- The complete state (10_state R20). `status` holds bits 6:0 of STATUS; bits 31:7 read 0 (R31). -/
structure State where
  params : Params
  host : HostRegs
  status : BitVec 7
  res : Results
  hid : Hidden
  lat : Latches
  scr : Scratch
  pos : Pos
  buf : Memory
  io : Ports
deriving DecidableEq, Repr

/-- Power-on reset of an instance (10_state R52, 70_reset R290): STATUS 0, GR +0.0, the position IDLE, CONFIG and MAXLEN the
instance's. Every other register is unspecified there and holds 0 here (log 1: DESIGN CHOICE); BUF holds nothing (log 2). -/
def State.resetOf (p : Params) : State where
  params := p
  host := { reqSrLo := 0, reqSrHi := 0, reqBs := 0, pThresh := 0, pRatio := 0, pAttack := 0, pRelease := 0, pOutgain := 0 }
  status := 0
  res := { gr := 0, effRatio := 0, srLo := 0, srHi := 0, blksz := 0 }
  hid := { env := 0, bpfCoef := [], bpfMem := Vector.replicate 64 [], hpfCoef := [], hpfMem := Vector.replicate 64 [] }
  lat := { op := 0, len := 0, thresh := 0, ratio := 0, attack := 0, release := 0, outgain := 0, sr := 0, bs := 0 }
  scr := { ac := 0, rc := 0, sumsq := Vector.replicate 64 0, maxrms := 0, ratioC := 0, slope := 0, lg := 0, mix := 0,
           level := 0, grv := 0, filt := 0, sat := 0, lane := Vector.replicate 64 0 }
  pos := { phase := 0, idx := 0, ch := 0 }
  buf := []
  io := { inputs := [], hResp := 0, mResp := 0, offered := 0, grLog := [], oldEffRatio := 0, oldSrLo := 0, oldSrHi := 0,
          oldBlksz := 0, free := 0, admitted := true }

/-- The machine right after power-on reset: the instance of Config.lean. -/
def State.reset : State := State.resetOf Config.params

end Sys2Proof.Machine
end

