-- ==== Sys2Proof/Machine/Flags.lean ====
section
/-! DEFINITION. The bits of STATUS (10_state R31, R49): PREPARED and BUSY, and the five sticky conditions of 60_exceptions
R262. There are no arithmetic flags. -/

namespace Sys2Proof.Machine

/-- The sticky conditions (60_exceptions R262). -/
inductive Condition where
  | srdef
  | noprep
  | badcmd
  | badlen
  | cmdovr
deriving DecidableEq, Repr

/-- STATUS bit 0 (10_state R31). -/
def stPrepared : BitVec 7 := 0x01

/-- STATUS bit 1 (R31). -/
def stBusy : BitVec 7 := 0x02

/-- The bits a host write of 1 clears: 6:2 (R31). -/
def stSticky : BitVec 7 := 0x7C

/-- A condition's bit in STATUS: its code (60_exceptions R262). -/
def condBit : Condition → BitVec 7
  | .srdef => 0x04
  | .noprep => 0x08
  | .badcmd => 0x10
  | .badlen => 0x20
  | .cmdovr => 0x40

/-- PREPARED = 1. -/
def isPrepared (s : State) : Bool := s.status.getLsbD 0

/-- BUSY = 1. -/
def isBusy (s : State) : Bool := s.status.getLsbD 1

/-- Set the bits of a mask. -/
def stSet (st mask : BitVec 7) : BitVec 7 := st ||| mask

/-- Clear the bits of a mask. -/
def stClear (st mask : BitVec 7) : BitVec 7 := st &&& ~~~mask

/-- A host write of `d` to STATUS: bits 6:2 written as 1 are cleared, nothing else changes (44_host_commands R244). -/
def stWriteClear (st : BitVec 7) (d : Word) : BitVec 7 := stClear st (d.setWidth 7 &&& stSticky)

/-- What a read of STATUS returns (44_host_commands R245). -/
def stRead (st : BitVec 7) : Word := st.setWidth 32

end Sys2Proof.Machine
end

