-- ==== Sys2Proof/Machine/Operands.lean ====
section
/-! DEFINITION. The operands: literal constants (40_numerics R146), the derived operations of 40_numerics section 4 (R140 to
R145), the assembly of 64-bit operands (30_encoding R98), the legality of a command word (R100), buffer addresses (20_memory
R63), and the per-channel register files. -/

namespace Sys2Proof.Machine

/-! ## Literal constants (40_numerics R146) -/

def f32Zero : F32 := 0x00000000
def f32One : F32 := 0x3F800000
def f32Half : F32 := 0x3F000000
def f32Four : F32 := 0x40800000
def f32Twenty : F32 := 0x41A00000
def f32TwentyFour : F32 := 0x41C00000
def f32Point3 : F32 := 0x3E99999A
def f32Point1 : F32 := 0x3DCCCCCD
def f64Zero : F64 := 0x0000000000000000
def f64MinusOne : F64 := 0xBFF0000000000000
def f64Milli : F64 := 0x3F50624DD2F1A9FC

/-! ## Derived operations (40_numerics section 4), over any numerics record -/

/-- LinToDb (R140): `20 log10 x`, floored at DB_FLOOR; DB_FLOOR where `x` is not greater than zero. That a NaN and a negative
`x`, −∞ among them, give DB_FLOOR is R140's own, so it stands although R147 leaves runs with such values open (log 34). -/
def linToDb (N : Num) (dbFloor x : F32) : F32 :=
  if isNaN fmt32 x.toNat || isNeg fmt32 x.toNat then dbFloor
  else if N.gt32 x f32Zero then N.max32 dbFloor (N.mul32 f32Twenty (N.log10_32 x)) else dbFloor

/-- DbToLin (R141): 10 to the power `d / 20`. -/
def dbToLin (N : Num) (d : F32) : F32 := N.pow10_32 (N.div32 d f32Twenty)

/-- SmoothCoef (R142): `exp(-1 / (t * 0.001 * sr))` in F64, rounded once to F32. -/
def smoothCoef (N : Num) (t : F32) (sr : F64) : F32 :=
  N.cvt64to32 (N.exp64 (N.div64 f64MinusOne (N.mul64 (N.mul64 (N.cvt32to64 t) f64Milli) sr)))

/-- OnePole (R143): `k e + (1 - k) l`. -/
def onePole (N : Num) (k e l : F32) : F32 := N.add32 (N.mul32 k e) (N.mul32 (N.sub32 f32One k) l)

/-- Slope (R144): `1 - 1 / r`. -/
def slopeOf (N : Num) (r : F32) : F32 := N.sub32 f32One (N.div32 f32One r)

/-- One term of the sum of squares (R145, 41_spectral_ratio_modulator R163). -/
def addSquare (N : Num) (sum : F64) (y : F32) : F64 :=
  N.add64 sum (N.mul64 (N.cvt32to64 y) (N.cvt32to64 y))

/-- The root of the mean of a sum of `len` squares (R145, R164). -/
def rootMean (N : Num) (sum : F64) (len : Index) : F32 :=
  N.cvt64to32 (N.sqrt64 (N.div64 sum (N.cvtU24to64 len)))

/-- Rms (R145): the squares summed in ascending order from +0.0, the root of their mean. -/
def rms (N : Num) (ys : List F32) : F32 :=
  rootMean N (ys.foldl (addSquare N) f64Zero) (BitVec.ofNat 24 ys.length)

/-! ## 64-bit operands (30_encoding R98, 10_state R21) -/

/-- The requested sample rate, REQ_SR_HI ∥ REQ_SR_LO (10_state R22). -/
def requestedRate (s : State) : F64 := s.host.reqSrHi ++ s.host.reqSrLo

/-- The sample rate in force, SR_HI ∥ SR_LO (10_state R34). -/
def rateInForce (s : State) : F64 := s.res.srHi ++ s.res.srLo

/-! ## Command words (30_encoding R96, R100) -/

/-- The word is none of the five commands (R100, 60_exceptions R265). -/
def cmdIllegal (w : Word) : Bool :=
  !(decide (1 ≤ (cmdOp w).toNat) && decide ((cmdOp w).toNat ≤ 5)) || decide (cmdRsv w ≠ 0) ||
    (decide (cmdOp w = 1) && decide (cmdLen w ≠ 0))

/-! ## Buffer addresses (20_memory R63, R64) -/

/-- `BufAddr(c, n) = (c << 24) | n` (R63). -/
def bufAddr (c : Chan) (n : Index) : WordAddr := c ++ n

/-- Word (c, n) exists: c < NCH and n < MAXLEN (R62, R64). -/
def inBuf (p : Params) (c : Chan) (n : Index) : Bool :=
  decide (c.toNat < p.nch.toNat) && decide (n.toNat < p.maxlen.toNat)

/-! ## Per-channel register files (10_state R20) -/

/-- Entry `c` of a per-channel register file. -/
def laneGet {α : Type} (v : Vector α 64) (c : Chan) : α := v[c.toNat]'(by have := c.isLt; omega)

/-- Write entry `c` of a per-channel register file. -/
def laneSet {α : Type} (v : Vector α 64) (c : Chan) (x : α) : Vector α 64 :=
  v.set c.toNat x (by have := c.isLt; omega)

/-- The channels 0 .. NCH−1 in ascending order (92_eei_decisions D34). -/
def channels (p : Params) : List Chan := (List.range p.nch.toNat).map (BitVec.ofNat 6)

/-- Write one value to the entries of a list of channels. -/
def laneFill {α : Type} (cs : List Chan) (x : α) (v : Vector α 64) : Vector α 64 :=
  cs.foldl (fun v c => laneSet v c x) v

end Sys2Proof.Machine
end

