-- ==== Sys2Proof/Machine/Ops.lean ====
section
/-! DEFINITION. The named operations over memory and registers: BUF as bytes and as words (20_memory), the register map
(30_encoding R92), raising a sticky condition (60_exceptions R261, this core's whole exception mechanism: nothing is saved and
control goes nowhere, R271) and its acknowledgement (R272), the sequencer position and its order (44_host_commands R234),
acceptance of a command (R231, R233), and power-on reset (70_reset R290). -/

namespace Sys2Proof.Machine

/-! ## BUF: bytes -/

/-- The byte at an address; none where nothing has written it (10_state R54, log 2). -/
def readByte : Memory → Nat → Option Byte
  | [], _ => none
  | (k, b) :: rest, a => if a = k then some b else readByte rest a

/-- Write one byte, keeping the addresses strictly rising. -/
def writeByte : Memory → Nat → Byte → Memory
  | [], a, b => [(a, b)]
  | (k, v) :: rest, a, b =>
    if a < k then (a, b) :: (k, v) :: rest
    else if a = k then (a, b) :: rest
    else (k, v) :: writeByte rest a b

/-- The canonical form: addresses strictly rising. An unlisted address has no value, so no entry can equal it. -/
def Memory.wf : Memory → Bool
  | [] => true
  | [_] => true
  | (a, _) :: (b, y) :: rest => decide (a < b) && Memory.wf ((b, y) :: rest)

/-! ## BUF: words (20_memory R65, R67) -/

/-- The byte address of byte `i` of a word. -/
def byteAddr (w : WordAddr) (i : Nat) : Nat := 4 * w.toNat + i

/-- Which byte of a word, counted from bits 7:0, lies at offset `i` (R65). -/
def byteIndex (o : ByteOrder) (i : Nat) : Nat :=
  match o with
  | .little => i
  | .big => 3 - i

/-- The byte of `d` that lies at offset `i` of a word. -/
def wordByte (d : Word) (i : Nat) : Byte := d.extractLsb' (8 * byteIndex Config.byteOrder i) 8

/-- A word from its four bytes, bits 31:24 first. -/
def joinBytes (b3 b2 b1 b0 : Byte) : Word := b3 ++ b2 ++ b1 ++ b0

/-- MemRead of one word (00_scope R11); none where any of its bytes has no value. -/
def memRead (m : Memory) (w : WordAddr) : Option Word :=
  match readByte m (byteAddr w (byteIndex Config.byteOrder 3)), readByte m (byteAddr w (byteIndex Config.byteOrder 2)),
      readByte m (byteAddr w (byteIndex Config.byteOrder 1)), readByte m (byteAddr w (byteIndex Config.byteOrder 0)) with
  | some b3, some b2, some b1, some b0 => some (joinBytes b3 b2 b1 b0)
  | _, _, _, _ => none

/-- MemWrite of one word (R11): all four bytes. -/
def memWrite (m : Memory) (w : WordAddr) (d : Word) : Memory :=
  writeByte (writeByte (writeByte (writeByte m (byteAddr w 0) (wordByte d 0)) (byteAddr w 1) (wordByte d 1))
    (byteAddr w 2) (wordByte d 2)) (byteAddr w 3) (wordByte d 3)

/-- BUF[c][n] as a micro-operation or an RDS reads it: a fault outside BUF, and where nothing has written the word. -/
def readSample (s : State) (c : Chan) (n : Index) : Except Fault F32 :=
  if inBuf s.params c n then
    match memRead s.buf (bufAddr c n) with
    | some v => .ok v
    | none => .error .unwrittenWord
  else .error .bufOutOfRange

/-- BUF[c][n] ← v as a micro-operation writes it. -/
def writeSample (p : Params) (m : Memory) (c : Chan) (n : Index) (v : F32) : Except Fault Memory :=
  if inBuf p c n then .ok (memWrite m (bufAddr c n) v) else .error .bufOutOfRange

/-! ## Conditions (60_exceptions R261, R271, R272) -/

/-- `raise C`: set the condition's sticky bit; nothing else changes (R261). This is all that an exception is on this core:
nothing is saved, no mode changes, control goes nowhere (R260, R271). -/
def raise (c : Condition) (s : State) : State := { s with status := stSet s.status (condBit c) }

/-- The acknowledgement, a host write of `d` to STATUS, which is all that stands for a return (R272, 44_host_commands R244). -/
def acknowledge (d : Word) (s : State) : State := { s with status := stWriteClear s.status d }

/-! ## The sequencer position (10_state R47, 44_host_commands R234) -/

/-- The numerics of the running command. -/
def State.num (s : State) : Num := guarded s.io.admitted (recordOf s.params)

/-- Move to the start of a phase. -/
def goTo (p : PhaseCode) (s : State) : State := { s with pos := { phase := p, idx := 0, ch := 0 } }

/-- Move to a phase at the same sample and channel 0: the micro-operations of one frame (42_envelope_gain_engine R188). -/
def sameFrame (p : PhaseCode) (s : State) : State := { s with pos := { phase := p, idx := s.pos.idx, ch := 0 } }

/-- Move to a phase at the same sample and channel: the micro-operations of one pair (43_harmonic_enhancer R215). -/
def samePair (p : PhaseCode) (s : State) : State := { s with pos := { s.pos with phase := p } }

/-- The next pair (c, n), n in the inner loop, c in the outer one (R162, R215): `again` at it, or `finish` after the last. -/
def nextPair (again finish : PhaseCode) (s : State) : State :=
  if s.pos.idx.toNat + 1 < s.lat.len.toNat then { s with pos := { phase := again, idx := s.pos.idx + 1, ch := s.pos.ch } }
  else if s.pos.ch.toNat + 1 < s.params.nch.toNat then { s with pos := { phase := again, idx := 0, ch := s.pos.ch + 1 } }
  else goTo finish s

/-- The next channel: `again` at it, or `finish` after the last (R164). -/
def nextChan (again finish : PhaseCode) (s : State) : State :=
  if s.pos.ch.toNat + 1 < s.params.nch.toNat then { s with pos := { phase := again, idx := 0, ch := s.pos.ch + 1 } }
  else goTo finish s

/-- The next frame: `again` at it, or `finish` after the last (R188). -/
def nextFrame (again finish : PhaseCode) (s : State) : State :=
  if s.pos.idx.toNat + 1 < s.lat.len.toNat then { s with pos := { phase := again, idx := s.pos.idx + 1, ch := 0 } }
  else goTo finish s

/-- The first phase after LATCH (R234). An OP that is no command has no sequence and ends at once (log 15). -/
def afterLatch (op : BitVec 4) : PhaseCode :=
  if op = 1 then phasePrep
  else if op = 2 ∨ op = 3 then phaseSInit
  else if op = 4 then phaseECoef
  else if op = 5 then phaseHGain
  else phaseDone

/-- The phase after S_INIT: S_BPF and S_RMS are omitted when N = 0 (R234, 41_spectral_ratio_modulator R169). -/
def afterSInit (len : Index) : PhaseCode := if len = 0 then phaseSRatio else phaseSBpf

/-- The phase after the SRM stage: the EGE stage in PROCESS, else DONE (R234). -/
def afterSrm (op : BitVec 4) : PhaseCode := if op = 2 then phaseECoef else phaseDone

/-- The phase after the EGE stage: the HEN stage in PROCESS, else DONE (R234). -/
def afterEge (op : BitVec 4) : PhaseCode := if op = 2 then phaseHGain else phaseDone

/-- The phase after E_COEF: no frame runs when N = 0 (42_envelope_gain_engine R193). -/
def afterECoef (op : BitVec 4) (len : Index) : PhaseCode := if len = 0 then afterEge op else phaseEDet

/-- The phase after H_GAIN: no sample runs when N = 0 (43_harmonic_enhancer R217). -/
def afterHGain (len : Index) : PhaseCode := if len = 0 then phaseDone else phaseHHpf

/-- How many micro-operations a command takes at most (44_host_commands R235). -/
def uopBound (op : BitVec 4) (nch len : Nat) : Nat :=
  if op = 1 then 3
  else if op = 3 then 4 + nch * len + nch
  else if op = 4 then 3 + 5 * len
  else if op = 5 then 3 + 3 * nch * len
  else (4 + nch * len + nch) + (3 + 5 * len) + (3 + 3 * nch * len) - 4

/-! ## Latching and acceptance (44_host_commands R231, R233) -/

/-- The latches after LATCH of the command word `w`: each command latches only what it uses (R233). -/
def latched (w : Word) (s : State) : Latches :=
  let l := { s.lat with op := cmdOp w, len := cmdLen w }
  if cmdOp w = 1 then { l with sr := requestedRate s, bs := s.host.reqBs }
  else if cmdOp w = 2 then
    { l with thresh := s.host.pThresh, ratio := s.host.pRatio, attack := s.host.pAttack, release := s.host.pRelease,
             outgain := s.host.pOutgain }
  else if cmdOp w = 3 then { l with ratio := s.host.pRatio }
  else if cmdOp w = 4 then
    { l with thresh := s.host.pThresh, ratio := s.host.pRatio, attack := s.host.pAttack, release := s.host.pRelease }
  else if cmdOp w = 5 then { l with outgain := s.host.pOutgain }
  else l

/-- The F32 parameters that a command latches (R233). -/
def paramsUsed (op : BitVec 4) (h : HostRegs) : List F32 :=
  if op = 2 then [h.pThresh, h.pRatio, h.pAttack, h.pRelease, h.pOutgain]
  else if op = 3 then [h.pRatio]
  else if op = 4 then [h.pThresh, h.pRatio, h.pAttack, h.pRelease]
  else if op = 5 then [h.pOutgain]
  else []

/-- No word (c, n) of BUF with n < `len` holds an infinity or a NaN (40_numerics R147). -/
def blockFinite (p : Params) (m : Memory) (len : Nat) : Bool :=
  (channels p).all fun c => (List.range len).all fun n =>
    match memRead m (bufAddr c (BitVec.ofNat 24 n)) with
    | some v => isFinite32 v
    | none => true

/-- The command word's inputs are admitted (R147): every parameter it latches and every word of its block is finite. PREPARE
has neither. -/
def inputsAdmitted (w : Word) (s : State) : Bool :=
  (paramsUsed (cmdOp w) s.host).all isFinite32 &&
    (decide (cmdOp w = 1) || blockFinite s.params s.buf (cmdLen w).toNat)

/-- LATCH: copy the operands of the offered word, and move to the command's first phase (R233, R234; log 14). The model also
notes whether the command is one that R147 gives a meaning (log 8). -/
def latchOffered (s : State) : State :=
  goTo (afterLatch (cmdOp s.io.offered))
    { s with
      lat := latched s.io.offered s
      io := { s.io with admitted := inputsAdmitted s.io.offered s } }

/-- The last line of R231: BUSY ← 1, the position at LATCH, LATCH performed. The model also notes the word, the values that
20_memory R85 calls old, and starts a new list of GR values (log 14, 17, 19). -/
def accept (w : Word) (s : State) : State :=
  latchOffered
    { goTo phaseLatch s with
      status := stSet s.status stBusy
      io := { s.io with
        offered := w, grLog := [], oldEffRatio := s.res.effRatio, oldSrLo := s.res.srLo, oldSrHi := s.res.srHi,
        oldBlksz := s.res.blksz } }

/-- The condition that a word written to CMD raises, if any, in the order of R231 and 60_exceptions R269. -/
def offerCondition (w : Word) (s : State) : Option Condition :=
  if isBusy s then some .cmdovr
  else if cmdIllegal w then some .badcmd
  else if cmdOp w ≠ 1 ∧ isPrepared s = false then some .noprep
  else if cmdOp w ≠ 1 ∧ s.params.maxlen.toNat < (cmdLen w).toNat then some .badlen
  else none

/-- A WR of `w` to CMD (R231): raise a condition and drop the word, or accept it. -/
def offer (w : Word) (s : State) : State :=
  match offerCondition w s with
  | some c => raise c s
  | none => accept w s

/-! ## The register map (30_encoding R92) -/

/-- A host write of `d` to register `r` (44_host_commands R244): CMD offers a command, STATUS is write-one-to-clear, the
staging and parameter registers store the word bit for bit, the rest ignore it. -/
def writeReg (r : BitVec 8) (d : Word) (s : State) : State :=
  match r.toNat with
  | 0x00 => offer d s
  | 0x01 => acknowledge d s
  | 0x02 => { s with host.reqSrLo := d }
  | 0x03 => { s with host.reqSrHi := d }
  | 0x04 => { s with host.reqBs := d }
  | 0x05 => { s with host.pThresh := d }
  | 0x06 => { s with host.pRatio := d }
  | 0x07 => { s with host.pAttack := d }
  | 0x08 => { s with host.pRelease := d }
  | 0x09 => { s with host.pOutgain := d }
  | _ => s

/-- What register `r` holds (44_host_commands R245); CMD and the reserved numbers read 0. -/
def regValue (s : State) (r : BitVec 8) : Word :=
  match r.toNat with
  | 0x01 => stRead s.status
  | 0x02 => s.host.reqSrLo
  | 0x03 => s.host.reqSrHi
  | 0x04 => s.host.reqBs
  | 0x05 => s.host.pThresh
  | 0x06 => s.host.pRatio
  | 0x07 => s.host.pAttack
  | 0x08 => s.host.pRelease
  | 0x09 => s.host.pOutgain
  | 0x0A => s.res.gr
  | 0x0B => s.res.effRatio
  | 0x0C => s.res.srLo
  | 0x0D => s.res.srHi
  | 0x0E => s.res.blksz
  | 0x0F => s.params.nch.setWidth 32
  | 0x10 => s.params.maxlen.setWidth 32
  | _ => 0

/-- The value that register `r` had when the running command was accepted, if that command writes it (20_memory R85, log 19):
PREPARE writes SR_LO, SR_HI and BLKSZ, PROCESS and SRM write EFF_RATIO. -/
def oldValue (s : State) (r : BitVec 8) : Option Word :=
  if isBusy s then
    match r.toNat with
    | 0x0B => if s.lat.op = 2 ∨ s.lat.op = 3 then some s.io.oldEffRatio else none
    | 0x0C => if s.lat.op = 1 then some s.io.oldSrLo else none
    | 0x0D => if s.lat.op = 1 then some s.io.oldSrHi else none
    | 0x0E => if s.lat.op = 1 then some s.io.oldBlksz else none
    | _ => none
  else none

/-- Answer a read on port H with a word. -/
def respondH (d : Word) (s : State) : State := { s with io.hResp := d }

/-- Answer a read on port M with a word. -/
def respondM (d : Word) (s : State) : State := { s with io.mResp := d }

/-- Count one free value as drawn (log 20). -/
def drawFree (s : State) : State := { s with io.free := s.io.free + 1 }

/-- A host read of register `r` (44_host_commands R245). A register that the running command writes shows the old or the new
value (20_memory R85): a free choice (log 19). -/
def readReg (r : BitVec 8) (s : State) : State :=
  match oldValue s r with
  | some old => respondH (if Config.freeBit s.io.free then old else regValue s r) (drawFree s)
  | none => respondH (regValue s r) s

/-! ## Power-on reset (70_reset R290, R291) -/

/-- The reset input is asserted: the state of 10_state R52 for the same instance; a command in progress is abandoned. What
the environment still has to do and the words on the ports are not the core's and stay (log 21). -/
def powerOn (s : State) : State :=
  { State.resetOf s.params with
    io := { (State.resetOf s.params).io with
      inputs := s.io.inputs, hResp := s.io.hResp, mResp := s.io.mResp, free := s.io.free } }

end Sys2Proof.Machine
end

