-- ==== Sys2Proof/Machine/Control.lean ====
section
/-! DEFINITION. The micro-operations that every command has: LATCH, PREP, DONE (44_host_commands R233, R235, R237). -/

namespace Sys2Proof.Machine

/-- LATCH (R233): copy the operands of the offered command word into the latches. -/
def execLatch (s : State) : Host.Outcome State Fault Refusal := .next (latchOffered s)

/-- Step 1 of PREP (R237, 60_exceptions R264): a rate is valid when it is finite and greater than +0.0. -/
def rateValid (N : Num) (sr : F64) : Bool := N.isfinite64 sr && N.gt64 sr f64Zero

/-- The rate that PREP puts in force: the latched one, or SAFE_SR (R237 step 1). -/
def rateUsed (s : State) : F64 := if rateValid s.num s.lat.sr then s.lat.sr else s.params.safeSr

/-- The state after PREP, steps 1 to 6 of R237. -/
def prepared (s : State) : State :=
  let s1 := if rateValid s.num s.lat.sr then s else raise .srdef s
  { s1 with
    status := stSet s1.status stPrepared
    res := { s.res with srHi := (rateUsed s).extractLsb' 32 32, srLo := (rateUsed s).extractLsb' 0 32, blksz := s.lat.bs }
    hid :=
      { env := f32Zero
        bpfCoef := (bpfOf s.params).design (rateUsed s)
        bpfMem := laneFill (channels s.params) (bpfOf s.params).zero s.hid.bpfMem
        hpfCoef := (hpfOf s.params).design (rateUsed s)
        hpfMem := laneFill (channels s.params) (hpfOf s.params).zero s.hid.hpfMem } }

/-- PREP (R237), the body of PREPARE. -/
def execPrep (s : State) : Host.Outcome State Fault Refusal := .next (goTo phaseDone (prepared s))

/-- DONE (R235): BUSY ← 0, the position IDLE. -/
def execDone (s : State) : Host.Outcome State Fault Refusal :=
  .next (goTo phaseIdle { s with status := stClear s.status stBusy })

end Sys2Proof.Machine
end

