-- ==== Sys2Proof/Machine/Ege.lean ====
section
/-! DEFINITION. The micro-operations of the Envelope/Gain Engine (42_envelope_gain_engine). -/

namespace Sys2Proof.Machine

/-- The ratio operand (R181): EFF_RATIO in a PROCESS command, the latched ratio in an EGE command. -/
def ratioIn (s : State) : F32 := if s.lat.op = 2 then s.res.effRatio else s.lat.ratio

/-- E_COEF (R182 to R184): the clamped ratio, both smoothing coefficients, the slope. -/
def execECoef (s : State) : Host.Outcome State Fault Refusal :=
  let r := s.num.max32 (ratioIn s) f32One
  .next (goTo (afterECoef s.lat.op s.lat.len)
    { s with scr := { s.scr with
        ratioC := r
        ac := smoothCoef s.num s.lat.attack (rateInForce s)
        rc := smoothCoef s.num s.lat.release (rateInForce s)
        slope := slopeOf s.num r } })

/-- The lanes and the level of one frame, channel by channel (R185). -/
def detectLanes (s : State) : List Chan → Vector F32 64 → F32 → Except Fault (Vector F32 64 × F32)
  | [], lane, level => .ok (lane, level)
  | c :: cs, lane, level =>
    match readSample s c s.pos.idx with
    | .error f => .error f
    | .ok v => detectLanes s cs (laneSet lane c v) (s.num.max32 level (s.num.abs32 v))

/-- E_DET (R185): read the frame into the lanes; LEVEL is the largest magnitude. -/
def execEDet (s : State) : Host.Outcome State Fault Refusal :=
  match detectLanes s (channels s.params) s.scr.lane f32Zero with
  | .error f => .fault f
  | .ok (lane, level) => .next (sameFrame phaseEEnv { s with scr := { s.scr with lane := lane, level := level } })

/-- The coefficient of one frame (R186): attack where LEVEL exceeds ENV, else release. -/
def blendCoef (s : State) : F32 := if s.num.gt32 s.scr.level s.hid.env then s.scr.ac else s.scr.rc

/-- E_ENV (R186): one-pole update of ENV. -/
def execEEnv (s : State) : Host.Outcome State Fault Refusal :=
  .next (sameFrame phaseEGrc
    { s with hid := { s.hid with env := onePole s.num (blendCoef s) s.hid.env s.scr.level } })

/-- The static curve (R189): `(envDB - thr) * slope` above the threshold, +0.0 at it and below. -/
def gainReduction (N : Num) (envDb thr slope : F32) : F32 :=
  if N.gt32 envDb thr then N.mul32 (N.sub32 envDb thr) slope else f32Zero

/-- E_GRC (R189). -/
def execEGrc (s : State) : Host.Outcome State Fault Refusal :=
  .next (sameFrame phaseEPub
    { s with scr := { s.scr with
        grv := gainReduction s.num (linToDb s.num s.params.dbFloor s.hid.env) s.lat.thresh s.scr.slope } })

/-- E_PUB (R190): GR ← GRV. The model also lists the value (log 17). -/
def execEPub (s : State) : Host.Outcome State Fault Refusal :=
  .next (sameFrame phaseEApply
    { s with res := { s.res with gr := s.scr.grv }, io := { s.io with grLog := s.io.grLog ++ [s.scr.grv] } })

/-- The linear gain of one frame (R191): DbToLin of the negated gain reduction. -/
def frameGain (N : Num) (grv : F32) : F32 := dbToLin N (N.neg32 grv)

/-- The frame written back, channel by channel (R191). -/
def applyLanes (s : State) (g : F32) : List Chan → Memory → Except Fault Memory
  | [], m => .ok m
  | c :: cs, m =>
    match writeSample s.params m c s.pos.idx (s.num.mul32 (laneGet s.scr.lane c) g) with
    | .error f => .error f
    | .ok m' => applyLanes s g cs m'

/-- E_APPLY (R191): multiply every lane of the frame by one gain and write it to BUF. -/
def execEApply (s : State) : Host.Outcome State Fault Refusal :=
  match applyLanes s (frameGain s.num s.scr.grv) (channels s.params) s.buf with
  | .error f => .fault f
  | .ok m => .next (nextFrame phaseEDet (afterEge s.lat.op) { s with buf := m })

end Sys2Proof.Machine
end

