-- ==== Sys2Proof/Machine/Hen.lean ====
section
/-! DEFINITION. The micro-operations of the Harmonic Enhancer (43_harmonic_enhancer). -/

namespace Sys2Proof.Machine

/-- The mix amount (R213): `0.1 * max(0, gdb / 24)`. -/
def mixAmount (N : Num) (gdb : F32) : F32 :=
  N.mul32 f32Point1 (N.max32 f32Zero (N.div32 gdb f32TwentyFour))

/-- H_GAIN (R212, R213): the linear gain and the mix amount. -/
def execHGain (s : State) : Host.Outcome State Fault Refusal :=
  .next (goTo (afterHGain s.lat.len)
    { s with scr := { s.scr with lg := dbToLin s.num s.lat.outgain, mix := mixAmount s.num s.lat.outgain } })

/-- H_HPF on the sample `v` of the pair at the position (R211): the original into LANE[c], one step of the channel's
high-pass filter, its output into FILT. -/
def highPassed (v : F32) (s : State) : State :=
  let c := s.pos.ch
  let y := filterStep s.io.admitted 1 (hpfOf s.params) s.hid.hpfCoef (laneGet s.hid.hpfMem c) v
  { s with
    hid := { s.hid with hpfMem := laneSet s.hid.hpfMem c y.2 }
    scr := { s.scr with lane := laneSet s.scr.lane c v, filt := y.1 } }

/-- H_HPF (R211), once for every pair (c, n). -/
def execHHpf (s : State) : Host.Outcome State Fault Refusal :=
  match readSample s s.pos.ch s.pos.idx with
  | .error f => .fault f
  | .ok v => .next (samePair phaseHSat (highPassed v s))

/-- The saturation kernel (R214): `x + 0.5 x²`. -/
def saturate (N : Num) (x : F32) : F32 := N.add32 x (N.mul32 f32Half (N.mul32 x x))

/-- H_SAT (R214). -/
def execHSat (s : State) : Host.Outcome State Fault Refusal :=
  .next (samePair phaseHMac { s with scr := { s.scr with sat := saturate s.num s.scr.filt } })

/-- The output sample of the pair at the position (R216): the gain multiplies the original, the mix the saturated one. -/
def outputSample (s : State) : F32 :=
  s.num.mac32 (laneGet s.scr.lane s.pos.ch) s.scr.lg s.scr.sat s.scr.mix

/-- H_MAC (R216): write the output sample back to BUF. -/
def execHMac (s : State) : Host.Outcome State Fault Refusal :=
  match writeSample s.params s.buf s.pos.ch s.pos.idx (outputSample s) with
  | .error f => .fault f
  | .ok m => .next (nextPair phaseHHpf phaseDone { s with buf := m })

end Sys2Proof.Machine
end

