-- ==== Sys2Proof/Machine/Srm.lean ====
section
/-! DEFINITION. The micro-operations of the Spectral Ratio Modulator (41_spectral_ratio_modulator). They read BUF and never
write it (R160, R172). -/

namespace Sys2Proof.Machine

/-- S_INIT (R161): clear every SUMSQ[c] and MAXRMS. -/
def execSInit (s : State) : Host.Outcome State Fault Refusal :=
  .next (goTo (afterSInit s.lat.len)
    { s with scr := { s.scr with sumsq := laneFill (channels s.params) f64Zero s.scr.sumsq, maxrms := f32Zero } })

/-- S_BPF on the sample `v` of the pair at the position (R162, R163): one step of the channel's band-pass filter, its output
into FILT, the output's square into SUMSQ[c]. -/
def bandPassed (v : F32) (s : State) : State :=
  let c := s.pos.ch
  let y := filterStep s.io.admitted 0 (bpfOf s.params) s.hid.bpfCoef (laneGet s.hid.bpfMem c) v
  { s with
    hid := { s.hid with bpfMem := laneSet s.hid.bpfMem c y.2 }
    scr := { s.scr with filt := y.1, sumsq := laneSet s.scr.sumsq c (addSquare s.num (laneGet s.scr.sumsq c) y.1) } }

/-- S_BPF (R162, R163), once for every pair (c, n). -/
def execSBpf (s : State) : Host.Outcome State Fault Refusal :=
  match readSample s s.pos.ch s.pos.idx with
  | .error f => .fault f
  | .ok v => .next (nextPair phaseSBpf phaseSRms (bandPassed v s))

/-- S_RMS (R164, R165), once for every channel: its RMS, and the running maximum. -/
def execSRms (s : State) : Host.Outcome State Fault Refusal :=
  .next (nextChan phaseSRms phaseSRatio
    { s with scr := { s.scr with
        maxrms := s.num.max32 s.scr.maxrms (rootMean s.num (laneGet s.scr.sumsq s.pos.ch) s.lat.len) } })

/-- Core energy (R166). -/
def coreEnergy (N : Num) (maxrms : F32) : F32 := N.min32 (N.mul32 maxrms f32Four) f32One

/-- Reduction factor (R167). -/
def reductionFactor (N : Num) (e : F32) : F32 := N.mul32 f32Point3 e

/-- Effective ratio (R168): `r - (r - 1) rf`, not below 1. -/
def effectiveRatio (N : Num) (r rf : F32) : F32 :=
  N.max32 (N.sub32 r (N.mul32 (N.sub32 r f32One) rf)) f32One

/-- S_RATIO (R166 to R168): write EFF_RATIO. -/
def execSRatio (s : State) : Host.Outcome State Fault Refusal :=
  .next (goTo (afterSrm s.lat.op)
    { s with res := { s.res with
        effRatio := effectiveRatio s.num s.lat.ratio (reductionFactor s.num (coreEnergy s.num s.scr.maxrms)) } })

end Sys2Proof.Machine
end

