-- ==== Sys2Proof/Machine/Sequencer.lean ====
section
/-! DEFINITION. The sequencer by itself (10_state R47, R48): one micro-operation, and the run of an accepted command to DONE. -/

namespace Sys2Proof.Machine

/-- The micro-operation that PHASE names (30_encoding R99); IDLE waits (60_exceptions R280). -/
def seqStep (s : State) : Host.Outcome State Fault Refusal :=
  if s.pos.phase = phaseIdle then .next s
  else if s.pos.phase = phaseLatch then execLatch s
  else if s.pos.phase = phasePrep then execPrep s
  else if s.pos.phase = phaseDone then execDone s
  else if s.pos.phase = phaseSInit then execSInit s
  else if s.pos.phase = phaseSBpf then execSBpf s
  else if s.pos.phase = phaseSRms then execSRms s
  else if s.pos.phase = phaseSRatio then execSRatio s
  else if s.pos.phase = phaseECoef then execECoef s
  else if s.pos.phase = phaseEDet then execEDet s
  else if s.pos.phase = phaseEEnv then execEEnv s
  else if s.pos.phase = phaseEGrc then execEGrc s
  else if s.pos.phase = phaseEPub then execEPub s
  else if s.pos.phase = phaseEApply then execEApply s
  else if s.pos.phase = phaseHGain then execHGain s
  else if s.pos.phase = phaseHHpf then execHHpf s
  else if s.pos.phase = phaseHSat then execHSat s
  else if s.pos.phase = phaseHMac then execHMac s
  else .refused .unusedPhase

/-- At most `k` micro-operations, stopping at IDLE, at a fault and at a refusal. -/
def runSequencer : Nat → State → Host.Outcome State Fault Refusal
  | 0, s => .next s
  | k + 1, s =>
    if s.pos.phase = phaseIdle then .next s
    else
      match seqStep s with
      | .next t => runSequencer k t
      | .fault f => .fault f
      | .refused r => .refused r

/-- A command word offered at CMD and, if it is accepted, run to DONE (44_host_commands R231, R249). The number of
micro-operations is the bound of R235. A dropped word leaves the core as R261 says. -/
def runCommand (w : Word) (s : State) : Host.Outcome State Fault Refusal :=
  match offerCondition w s with
  | some c => .next (raise c s)
  | none => runSequencer (uopBound (cmdOp w) s.params.nch.toNat (cmdLen w).toNat) (accept w s)

end Sys2Proof.Machine
end

