-- ==== Sys2Proof/Machine/Commands.lean ====
section
/-! DEFINITION. The five commands (44_host_commands section 2) in the atomic view of R249: one step from the offer to DONE, or
to the sticky condition that drops it. The same command offered by a WR to CMD (execWr) is accepted in one step and then run
micro-operation by micro-operation, with meter reads and host transactions between (log 13). -/

namespace Sys2Proof.Machine

/-- PREPARE (R236): LATCH, PREP, DONE. -/
def execPrepare (s : State) : Host.Outcome State Fault Refusal := runCommand (cmdWord 1 0) s

/-- PROCESS (R238): LATCH, the SRM stage, the EGE stage with the ratio EFF_RATIO, the HEN stage, DONE. -/
def execProcess (len : Index) (s : State) : Host.Outcome State Fault Refusal := runCommand (cmdWord 2 len) s

/-- SRM (R239): LATCH, the SRM stage, DONE. -/
def execSrm (len : Index) (s : State) : Host.Outcome State Fault Refusal := runCommand (cmdWord 3 len) s

/-- EGE (R241): LATCH, the EGE stage with the latched ratio, DONE. -/
def execEge (len : Index) (s : State) : Host.Outcome State Fault Refusal := runCommand (cmdWord 4 len) s

/-- HEN (R242): LATCH, the HEN stage, DONE. -/
def execHen (len : Index) (s : State) : Host.Outcome State Fault Refusal := runCommand (cmdWord 5 len) s

end Sys2Proof.Machine
end

