-- ==== Sys2Proof/Machine/Transactions.lean ====
section
/-! DEFINITION. The five bus transactions (44_host_commands section 3). The word a read returns is left in the port's
response field (log 16). -/

namespace Sys2Proof.Machine

/-- Bits 29:8 of the address are not zero: a reserved location (30_encoding R92, 10_state R38). -/
def reservedAddr (addr : WordAddr) : Bool := !zeroFieldClear addr

/-- WR (R244): write a register; a reserved address is ignored. -/
def execWr (addr : WordAddr) (data : Word) (s : State) : Host.Outcome State Fault Refusal :=
  .next (if reservedAddr addr then s else writeReg (addr.setWidth 8) data s)

/-- RD (R245): read a register; a reserved address returns 0. -/
def execRd (addr : WordAddr) (s : State) : Host.Outcome State Fault Refusal :=
  .next (if reservedAddr addr then respondH 0 s else readReg (addr.setWidth 8) s)

/-- WRS (R246): ignored while BUSY = 1 (20_memory R72) and outside BUF (R64), else one word of BUF is written. -/
def execWrs (chan : Chan) (index : Index) (data : Word) (s : State) : Host.Outcome State Fault Refusal :=
  .next
    (if isBusy s then s
     else if inBuf s.params chan index then { s with buf := memWrite s.buf (bufAddr chan index) data }
     else s)

/-- RDS (R247): 0 outside BUF (R64); an unspecified word while BUSY = 1 (20_memory R72), which is a free value (log 18); else
one word of BUF, a fault where nothing has written it (10_state R54). -/
def execRds (chan : Chan) (index : Index) (s : State) : Host.Outcome State Fault Refusal :=
  if inBuf s.params chan index then
    if isBusy s then .next (respondH (Config.freeWord s.io.free) (drawFree s))
    else
      match readSample s chan index with
      | .error f => .fault f
      | .ok v => .next (respondH v s)
  else .next (respondH 0 s)

/-- RDGR (R243): the meter port returns GR, at any time, with no effect on the core. -/
def execRdgr (s : State) : Host.Outcome State Fault Refusal := .next (respondM s.res.gr s)

end Sys2Proof.Machine
end

