-- ==== Sys2Proof/Machine/Dispatch.lean ====
section
/-! DEFINITION. The meaning of every instruction: one arm per row of spec/opcode_table.json. -/

namespace Sys2Proof.Machine

def exec (i : Instr) (s : State) : Host.Outcome State Fault Refusal :=
  match i with
  | .wr addr data => Sys2Proof.Machine.execWr addr data s
  | .rd addr => Sys2Proof.Machine.execRd addr s
  | .wrs chan index data => Sys2Proof.Machine.execWrs chan index data s
  | .rds chan index => Sys2Proof.Machine.execRds chan index s
  | .rdgr => Sys2Proof.Machine.execRdgr s
  | .prepare => Sys2Proof.Machine.execPrepare s
  | .process len => Sys2Proof.Machine.execProcess len s
  | .srm len => Sys2Proof.Machine.execSrm len s
  | .ege len => Sys2Proof.Machine.execEge len s
  | .hen len => Sys2Proof.Machine.execHen len s
  | .latch => Sys2Proof.Machine.execLatch s
  | .prep => Sys2Proof.Machine.execPrep s
  | .done => Sys2Proof.Machine.execDone s
  | .sInit => Sys2Proof.Machine.execSInit s
  | .sBpf => Sys2Proof.Machine.execSBpf s
  | .sRms => Sys2Proof.Machine.execSRms s
  | .sRatio => Sys2Proof.Machine.execSRatio s
  | .eCoef => Sys2Proof.Machine.execECoef s
  | .eDet => Sys2Proof.Machine.execEDet s
  | .eEnv => Sys2Proof.Machine.execEEnv s
  | .eGrc => Sys2Proof.Machine.execEGrc s
  | .ePub => Sys2Proof.Machine.execEPub s
  | .eApply => Sys2Proof.Machine.execEApply s
  | .hGain => Sys2Proof.Machine.execHGain s
  | .hHpf => Sys2Proof.Machine.execHHpf s
  | .hSat => Sys2Proof.Machine.execHSat s
  | .hMac => Sys2Proof.Machine.execHMac s

end Sys2Proof.Machine
end

