-- ==== Sys2Proof/Machine/Fetch.lean ====
section
/-! DEFINITION. What the next step decodes, and what happens where the words at hand are no instruction. The environment's
pending inputs are taken in order; with none left, the sequencer has the turn (log 12). -/

namespace Sys2Proof.Machine

/-- The words of a transaction on port H: a header, and for a write its data word (30_encoding R91). -/
def hostWords (header data : Word) : List Word := if headerIsWrite header then [header, data] else [header]

/-- The words the sequencer decodes: its PHASE. -/
def phaseWords (s : State) : List Word := [s.pos.phase.setWidth 32]

/-- The place and the words that the next step decodes, and the state with the input that brought them consumed; no words for
power-on reset. -/
def fetch (s : State) : Option (Bus × List Word) × State :=
  match s.io.inputs with
  | [] => (some (.phase, phaseWords s), s)
  | .turn :: rest => (some (.phase, phaseWords s), { s with io := { s.io with inputs := rest } })
  | .host h d :: rest => (some (.portH, hostWords h d), { s with io := { s.io with inputs := rest } })
  | .meter h _ :: rest => (some (.portM, [h]), { s with io := { s.io with inputs := rest } })
  | .command w :: rest => (some (.command, [w]), { s with io := { s.io with inputs := rest } })
  | .powerOn :: rest => (none, { s with io := { s.io with inputs := rest } })

/-- A transaction on port M that is not the one read it accepts (30_encoding R94): a read is answered with 0, a write is
ignored (log 22). -/
def meterOther (header : Word) (s : State) : State := if headerIsWrite header then s else respondM 0 s

/-- What a step does where the words at hand are no instruction: an illegal command word is offered and dropped
(44_host_commands R231), the meter port answers 0 (30_encoding R94), an idle sequencer waits (60_exceptions R280). Every
header on port H is an instruction (30_encoding R101), so that line is never taken. -/
def notAnInstr (b : Bus) (ws : List Word) (e : Reject) (s : State) : Host.Outcome State Fault Refusal :=
  match b with
  | .portH => .next s
  | .portM => .next (meterOther (ws.headD 0) s)
  | .command => .next (offer (ws.headD 0) s)
  | .phase => if e = .idlePhase then .next s else .refused .unusedPhase

end Sys2Proof.Machine
end

