-- ==== Sys2Proof/Machine/Step.lean ====
section
/-! DEFINITION. One step of the core with its environment: fetch, decode, execute. -/

namespace Sys2Proof.Machine

/-- One step: the next input of the environment, or the sequencer's turn where none is pending. -/
def step (s : State) : Host.Outcome State Fault Refusal :=
  match fetch s with
  | (none, t) => .next (powerOn t)
  | (some (b, ws), t) =>
    match decode b ws with
    | .ok i => exec i t
    | .error e => notAnInstr b ws e t

/-- `s` with the opcode-table word `w` put where the next step fetches: a transaction or a command word as the first pending
input, a PHASE code in the sequencer position with the sequencer's turn next (log 26). -/
def State.withFetchWord (s : State) (nbits w : Nat) : State :=
  let word := BitVec.ofNat 32 w
  match tableBus nbits word with
  | .phase => { s with pos := { s.pos with phase := word.setWidth 5 }, io := { s.io with inputs := .turn :: s.io.inputs } }
  | .portM => { s with io := { s.io with inputs := .meter word 0 :: s.io.inputs } }
  | .command => { s with io := { s.io with inputs := .command word :: s.io.inputs } }
  | .portH => { s with io := { s.io with inputs := .host word 0 :: s.io.inputs } }

end Sys2Proof.Machine
end

