-- ==== Sys2Proof/Machine/Script.lean ====
section
/-! DEFINITION. The script of 30_encoding R102 and R103: its lines and pseudo-operations as inputs of the environment. A
command line is the WR to CMD it stands for; the sequencer's turns stand where the script waits. -/

namespace Sys2Proof.Machine

/-- A word that stands for the F32 nearest `± num / den` (R102: a decimal real with the suffix f). -/
def scriptReal (neg : Bool) (num den : Nat) : Word := nearest32 neg num den

/-- `WR <reg>, <word>`. -/
def scriptWr (r : BitVec 8) (d : Word) : Input := .host (txnHeader 1 0 (r.setWidth 30)) d

/-- `RD <reg>`. -/
def scriptRd (r : BitVec 8) : Input := .host (txnHeader 0 0 (r.setWidth 30)) 0

/-- `WRS <c>, <n>, <word>`. -/
def scriptWrs (c : Chan) (n : Index) (d : Word) : Input := .host (txnHeader 1 1 (bufAddr c n)) d

/-- `RDS <c>, <n>`. -/
def scriptRds (c : Chan) (n : Index) : Input := .host (txnHeader 0 1 (bufAddr c n)) 0

/-- `RDGR`. -/
def scriptRdgr : Input := .meter 0x0000000A 0

/-- `PREPARE`. -/
def scriptPrepare : Input := scriptWr 0x00 0x10000000

/-- `PROCESS <len>`. -/
def scriptProcess (len : Index) : Input := scriptWr 0x00 (cmdWord 2 len)

/-- `SRM <len>`. -/
def scriptSrm (len : Index) : Input := scriptWr 0x00 (cmdWord 3 len)

/-- `EGE <len>`. -/
def scriptEge (len : Index) : Input := scriptWr 0x00 (cmdWord 4 len)

/-- `HEN <len>`. -/
def scriptHen (len : Index) : Input := scriptWr 0x00 (cmdWord 5 len)

/-- `WAIT` (R103): read STATUS until BUSY = 0. Each of `polls` reads finds the sequencer one micro-operation further; the last
read is the one that finds BUSY = 0 when `polls` is at least the command's count of R235 (44_host_commands). -/
def scriptWait (polls : Nat) : List Input :=
  (List.replicate polls [scriptRd 0x01, .turn]).flatten ++ [scriptRd 0x01]

/-- `SETSR <real>` (R103), the real as its F64. -/
def scriptSetSr (sr : F64) : List Input :=
  [scriptWr 0x02 (sr.extractLsb' 0 32), scriptWr 0x03 (sr.extractLsb' 32 32)]

/-- `PREP <real>, <bs>` (R103). -/
def scriptPrep (sr : F64) (bs : Word) (polls : Nat) : List Input :=
  scriptSetSr sr ++ [scriptWr 0x04 bs, scriptPrepare] ++ scriptWait polls

/-- `SETP <thr>, <ratio>, <att>, <rel>, <gain>` (R103). -/
def scriptSetP (thr ratio att rel gain : F32) : List Input :=
  [scriptWr 0x05 thr, scriptWr 0x06 ratio, scriptWr 0x07 att, scriptWr 0x08 rel, scriptWr 0x09 gain]

/-- `CLRF <mask>` (R103). -/
def scriptClrf (mask : Word) : Input := scriptWr 0x01 mask

/-- `LOAD <c>: v0, v1, ...` (R103), from index `n` on. -/
def scriptLoad (c : Chan) : Index → List Word → List Input
  | _, [] => []
  | n, v :: vs => scriptWrs c n v :: scriptLoad c (n + 1) vs

/-- `DUMP <c>, <len>` (R103). -/
def scriptDump (c : Chan) (len : Nat) : List Input :=
  (List.range len).map (fun n => scriptRds c (BitVec.ofNat 24 n))

end Sys2Proof.Machine
end

