-- ==== Sys2Proof/Safety.lean ====
section
/-! DEFINITION. The terms in which claims are stated: idle and finished runs (70_reset R315), the invariant of the machine,
what the host owes before a command (R307), round-to-nearest-even (40_numerics R124), and the three stages as functions of the
block (41 R173, 42 R200, 43 R220). Admissible records and kernels are in Machine/Admissible.lean. -/

namespace Sys2Proof.Machine

/-! ## Runs -/

/-- No command is executing (10_state R47). -/
def State.idle (s : State) : Prop := isBusy s = false ∧ s.pos = { phase := phaseIdle, idx := 0, ch := 0 }

/-- A run is over (70_reset R315): nothing is pending and no command is in flight. -/
def State.runOver (s : State) : Prop := s.io.inputs = [] ∧ s.idle

/-- The same outcome with the next state changed by `f`. -/
def mapNext {φ ρ : Type} (f : State → State) : Host.Outcome State φ ρ → Host.Outcome State φ ρ
  | .next t => .next (f t)
  | .fault r => .fault r
  | .refused r => .refused r

/-- `s` with the pending inputs `l`. -/
def State.withInputs (s : State) (l : List Input) : State := { s with io := { s.io with inputs := l } }

/-- `s` with the host-written registers `h`. -/
def State.withHost (s : State) (h : HostRegs) : State := { s with host := h }

/-- `s` with the word `x` last returned on port M. -/
def State.withMResp (s : State) (x : Word) : State := { s with io := { s.io with mResp := x } }

/-- `s` with the STATUS bits of `m` set as well. -/
def State.withStatusBits (s : State) (m : BitVec 7) : State := { s with status := s.status ||| m }

/-- The environment's side of a state, which no command changes: what is pending, the words on the ports, the free values. -/
def State.environment (s : State) : List Input × Word × Word × Nat := (s.io.inputs, s.io.hResp, s.io.mResp, s.io.free)

/-- Word (c, n) of BUF has been written. -/
def State.written (s : State) (c : Chan) (n : Index) : Prop := (memRead s.buf (bufAddr c n)).isSome = true

/-- The host's duty of 70_reset R307 for a frame count. -/
def State.blockWritten (s : State) (len : Index) : Prop :=
  ∀ (c : Chan) (n : Index), c.toNat < s.params.nch.toNat → n.toNat < len.toNat → s.written c n

/-- No word of the block of `len` frames is an infinity or a NaN (40_numerics R147). -/
def State.blockAdmitted (s : State) (len : Index) : Prop :=
  ∀ (c : Chan) (n : Index), c.toNat < s.params.nch.toNat → n.toNat < len.toNat →
    ∀ v : F32, memRead s.buf (bufAddr c n) = some v → finite32 v

/-- The premise that R147 puts on every claim about a command: the parameters that it latches and the words of its block are
finite. -/
def State.admits (s : State) (latches : List F32) (len : Index) : Prop :=
  (∀ x ∈ latches, finite32 x) ∧ s.blockAdmitted len

/-- A command of `len` frames will be accepted: idle, prepared, the length within MAXLEN (44_host_commands R231), and the host
has written the block (70_reset R307). -/
structure State.ready (s : State) (len : Index) : Prop where
  notBusy : isBusy s = false
  prepared : isPrepared s = true
  length : len.toNat ≤ s.params.maxlen.toNat
  block : s.blockWritten len

/-! ## The invariant -/

/-- The phases of each stage (30_encoding R99). -/
def srmPhase (p : PhaseCode) : Bool := p == phaseSInit || p == phaseSBpf || p == phaseSRms || p == phaseSRatio
def egePhase (p : PhaseCode) : Bool :=
  p == phaseECoef || p == phaseEDet || p == phaseEEnv || p == phaseEGrc || p == phaseEPub || p == phaseEApply
def henPhase (p : PhaseCode) : Bool := p == phaseHGain || p == phaseHHpf || p == phaseHSat || p == phaseHMac

/-- The phases that a command's sequence has after LATCH (44_host_commands R234). -/
def phaseOfOp (op : BitVec 4) (p : PhaseCode) : Bool :=
  p == phaseDone || (op == 1 && p == phasePrep) || ((op == 2 || op == 3) && srmPhase p) ||
    ((op == 2 || op == 4) && egePhase p) || ((op == 2 || op == 5) && henPhase p)

/-- The phases that work on one sample or one frame: they have IDX < N (R234). -/
def samplePhase (p : PhaseCode) : Bool :=
  p == phaseSBpf || p == phaseEDet || p == phaseEEnv || p == phaseEGrc || p == phaseEPub || p == phaseEApply ||
    p == phaseHHpf || p == phaseHSat || p == phaseHMac

/-- The four bytes of a word have all been written, or none has (20_memory R67). -/
def wholeWords (m : Memory) : Prop :=
  ∀ w : WordAddr, memRead m w = none → ∀ i : Nat, i < 4 → readByte m (byteAddr w i) = none

/-- Every byte that has a value belongs to a word of BUF (20_memory R64, R70). -/
def bytesInBuf (p : Params) (m : Memory) : Prop :=
  ∀ (a : Nat), (readByte m a).isSome = true →
    ∃ (c : Chan) (n : Index), inBuf p c n = true ∧ a / 4 = (bufAddr c n).toNat

/-- What holds of the machine between any two steps. -/
structure State.Inv (s : State) : Prop where
  /-- The bounds of 00_scope R7. -/
  params : s.params.wf = true
  /-- BUF keeps its canonical form. -/
  bufWf : Memory.wf s.buf = true
  /-- BUF holds whole words (20_memory R67). -/
  bufWhole : wholeWords s.buf
  /-- BUF holds nothing outside its addresses (R64). -/
  bufIn : bytesInBuf s.params s.buf
  /-- BUSY is 1 exactly when PHASE is not IDLE (10_state R47). -/
  busy : isBusy s = true ↔ s.pos.phase ≠ phaseIdle
  /-- The position of an idle sequencer (R47). -/
  idlePos : s.pos.phase = phaseIdle → s.pos.idx = 0 ∧ s.pos.ch = 0
  /-- A running command is at a phase of its sequence; LATCH is over when the WR to CMD is (44_host_commands R231, R234). -/
  phase : s.pos.phase ≠ phaseIdle → phaseOfOp s.lat.op s.pos.phase = true
  /-- N ≤ MAXLEN (R232). -/
  len : s.pos.phase ≠ phaseIdle → s.lat.len.toNat ≤ s.params.maxlen.toNat
  /-- IDX counts from 0 to N − 1 (10_state R47). -/
  idx : samplePhase s.pos.phase = true → s.pos.idx.toNat < s.lat.len.toNat
  /-- CH counts from 0 to NCH − 1 (R47). -/
  ch : s.pos.ch.toNat < s.params.nch.toNat
  /-- S_RMS is skipped for an empty block, so it never divides by zero (41 R164, R169). -/
  rms : s.pos.phase = phaseSRms → s.lat.len ≠ 0
  /-- Only PREPARE runs unprepared (60_exceptions R266). -/
  ran : s.pos.phase ≠ phaseIdle → s.lat.op ≠ 1 → isPrepared s = true
  /-- The rate in force after PREPARE is a valid one, or SAFE_SR (10_state R34). -/
  rate : isPrepared s = true → rateValid s.num (rateInForce s) = true ∨ rateInForce s = s.params.safeSr

/-! ## Rounding (40_numerics R124) -/

/-- The least magnitude that rounds to an infinity: half a unit in the last place above the largest finite F32. -/
def overflow32 : ℚ := (2 - 1 / 2 ^ 24) * 2 ^ 127

/-- `r` is the F32 nearest to `x`, ties to even, an infinity of the sign of `x` beyond the largest finite F32 (40_numerics
R124, R125). -/
def nearestEven32 (x : ℚ) (r : F32) : Prop :=
  if overflow32 ≤ x then r = 0x7F800000
  else if x ≤ -overflow32 then r = 0xFF800000
  else
    finite32 r ∧
      ∀ c : F32, finite32 c →
        |x - rat32 r| < |x - rat32 c| ∨ rat32 c = rat32 r ∨ (|x - rat32 r| = |x - rat32 c| ∧ r.getLsbD 0 = false)

/-! ## The stages as functions of the block -/

/-- The samples 0 .. len−1 of channel `c`. -/
def channelBlock (m : Memory) (c : Chan) (len : Nat) : List F32 :=
  (List.range len).map (fun n => (memRead m (bufAddr c (BitVec.ofNat 24 n))).getD 0)

/-- Frame `n`: one sample of every channel. -/
def frameOf (p : Params) (m : Memory) (n : Nat) : List F32 :=
  (channels p).map (fun c => (memRead m (bufAddr c (BitVec.ofNat 24 n))).getD 0)

/-- Frames 0 .. len−1. -/
def framesOf (p : Params) (m : Memory) (len : Nat) : List (List F32) := (List.range len).map (frameOf p m)

/-- One channel through a filter, sample by sample: the outputs and the memory left (R148). -/
def filterRun (K : Kernel) (k : KCoef) : KMem → List F32 → List F32 × KMem
  | m, [] => ([], m)
  | m, x :: xs =>
    let y := K.step k m x
    let rest := filterRun K k y.2 xs
    (y.1 :: rest.1, rest.2)

/-- The largest RMS of the channels' band-passed copies, folded from +0.0 in ascending channel order; +0.0 for an empty block
(41 R164, R165, R169). -/
def maxRms (s : State) (len : Index) : F32 :=
  if len = 0 then f32Zero
  else
    (channels s.params).foldl
      (fun acc c =>
        (numOf s.params).max32 acc
          (rms (numOf s.params) (filterRun (bpfOf s.params) s.hid.bpfCoef (laneGet s.hid.bpfMem c)
            (channelBlock s.buf c len.toNat)).1))
      f32Zero

/-- The effective ratio that the SRM stage gives for a requested ratio (41 R173). -/
def srmRatio (s : State) (len : Index) (r : F32) : F32 :=
  let N := numOf s.params
  effectiveRatio N r (reductionFactor N (coreEnergy N (maxRms s len)))

/-- What one EGE stage fixes for all its frames (42 R182 to R184). -/
structure EgeSetup where
  ac : F32
  rc : F32
  slope : F32
  thresh : F32
deriving DecidableEq, Repr

/-- E_COEF from the command's operands (42 R182 to R184). -/
def egeSetup (N : Num) (sr : F64) (ratio thresh attack release : F32) : EgeSetup where
  ac := smoothCoef N attack sr
  rc := smoothCoef N release sr
  slope := slopeOf N (N.max32 ratio f32One)
  thresh := thresh

/-- The EGE stage over a list of frames (42 R200): the frames written back, the envelope left, the values GR takes. -/
def egeRun (N : Num) (dbFloor : F32) (k : EgeSetup) : F32 → List (List F32) → List (List F32) × F32 × List F32
  | env, [] => ([], env, [])
  | env, frame :: rest =>
    let level := frame.foldl (fun l x => N.max32 l (N.abs32 x)) f32Zero
    let env' := onePole N (if N.gt32 level env then k.ac else k.rc) env level
    let grv := gainReduction N (linToDb N dbFloor env') k.thresh k.slope
    let out := frame.map (fun x => N.mul32 x (frameGain N grv))
    let tail := egeRun N dbFloor k env' rest
    (out :: tail.1, tail.2.1, grv :: tail.2.2)

/-- One channel through the HEN stage (43 R220): the samples written back and the filter memory left. -/
def henRun (N : Num) (K : Kernel) (k : KCoef) (gdb : F32) : KMem → List F32 → List F32 × KMem
  | m, [] => ([], m)
  | m, x :: xs =>
    let y := K.step k m x
    let rest := henRun N K k gdb y.2 xs
    (N.mac32 x (dbToLin N gdb) (saturate N y.1) (mixAmount N gdb) :: rest.1, rest.2)

end Sys2Proof.Machine
end

