-- ==== Sys2Proof/Certificates/Slice0/Obligations.lean ====
section
/-! DEFINITION. The statements for the provers. Constants are written as the spec writes them: register numbers, PHASE codes,
STATUS bits and IEEE patterns in hexadecimal, formulas as the rules give them. Every statement about a next state says the
whole state: what is not named is as it was. `s.num` is the instance's record in an admitted command (40_numerics R147), and
free in any other and on overflow (log 8). Claims about a whole command take R147's premise (`State.admits`). -/

open Sys2Proof Sys2Proof.Machine

/-! ## Encoding (30_encoding) -/

/-- Decoding the words of an instruction, at the place where they are found, gives the instruction back: every operand at
every value, the reserved REG addresses among them (R91, R93, R95 to R97, R99). -/
def Obligations.DecodeEncodeAgree : Prop := ∀ i : Instr, decode (busOf i) (encode i) = .ok i

/-- An instruction is found at one place only and as one sequence of words only (R90, R91, R95 to R97, R99). -/
def Obligations.EncodingIsUnique : Prop :=
  ∀ (b : Bus) (ws : List Word) (i : Instr), decode b ws = .ok i → busOf i = b ∧ encode i = ws

/-- The words of the two tables of 30_encoding. A command word is decoded by comparing it with the five command rows of the
opcode table (R97, R104), and it is illegal exactly when its OP is not 1 to 5, its RSV is not 0, or it is a PREPARE with LEN not
0 (R100). Every header on port H is an instruction: DIR and SPACE choose the transaction, ADDR, CHAN and INDEX are its operands
(R91, R93, R101). -/
def Obligations.CommandAndHeaderWordsByTable : Prop :=
  (∀ W : Word,
    decode .command [W] =
      (if W &&& 0xFFFFFFFF = 0x10000000 then .ok .prepare
        else if W &&& 0xFF000000 = 0x20000000 then .ok (.process (W.extractLsb' 0 24))
        else if W &&& 0xFF000000 = 0x30000000 then .ok (.srm (W.extractLsb' 0 24))
        else if W &&& 0xFF000000 = 0x40000000 then .ok (.ege (W.extractLsb' 0 24))
        else if W &&& 0xFF000000 = 0x50000000 then .ok (.hen (W.extractLsb' 0 24))
        else .error .illegalCommand) ∧
    (decode .command [W] = .error .illegalCommand ↔
      (W.extractLsb' 28 4).toNat ∉ [1, 2, 3, 4, 5] ∨ W.extractLsb' 24 4 ≠ 0 ∨
        (W.extractLsb' 28 4 = 1 ∧ W.extractLsb' 0 24 ≠ 0))) ∧
  ∀ H D : Word,
    decode .portH (if H.getLsbD 31 then [H, D] else [H]) =
      .ok (if H.getLsbD 31 then
            (if H.getLsbD 30 then .wrs (H.extractLsb' 24 6) (H.extractLsb' 0 24) D else .wr (H.extractLsb' 0 30) D)
          else (if H.getLsbD 30 then .rds (H.extractLsb' 24 6) (H.extractLsb' 0 24) else .rd (H.extractLsb' 0 30)))

/-- A sanity check of the decoder on words written out from the encoding tables (R92, R93, R95, R97, R99). -/
def Obligations.SpecWordsDecode : Prop :=
  decode .portH [0x80000005, 0xC1200000] = .ok (.wr 5 0xC1200000) ∧
  decode .portH [0x0000000F] = .ok (.rd 0x0F) ∧
  decode .portH [0xC1000002, 0xBF666666] = .ok (.wrs 1 2 0xBF666666) ∧
  decode .portH [0x7F000003] = .ok (.rds 63 3) ∧
  decode .portM [0x0000000A] = .ok .rdgr ∧
  decode .command [0x10000000] = .ok .prepare ∧
  decode .command [0x20000004] = .ok (.process 4) ∧
  decode .command [0x50FFFFFF] = .ok (.hen 0xFFFFFF) ∧
  decode .command [0x21000004] = .error .illegalCommand ∧
  decode .phase [0x03] = .ok .done ∧
  decode .phase [0x0B] = .ok .sRatio ∧
  decode .phase [0x15] = .ok .eApply ∧
  decode .phase [0x1B] = .ok .hMac ∧
  decode .phase [0x04] = .error .unusedPhase

/-! ## The instance's numerics -/

/-- Num_ref has every property that R123 asks of an admissible record, NP1 to NP8, subnormal numbers kept (R124), and so has its
form with flush to zero (R133): the comparisons and the maximum of R122, the neutral operands, the exponential at and below
zero, monotone functions and exact functions on every operand, and for every function that rounds one of the two nearest values
wherever the result is in the finite range; with flush to zero a zero may stand in the place of a subnormal one of the two (the
model's reading, log 32). -/
def Obligations.RefAndFlushedRefHaveNP1ToNP8 : Prop := NumProperties false numRef ∧ NumProperties true (flushed numRef)

/-! ## The step, reset and the idle core -/

/-- A step runs the decoded instruction: the environment's first pending input is consumed and the instruction that its words
stand for is executed; the sequencer's PHASE is decoded where its turn is next or nothing is pending (the model's interleaving,
log 12). -/
def Obligations.StepRunsDecodedInstr : Prop :=
  ∀ (s : State) (i : Instr) (rest : List Input),
    (∀ H D : Word, s.io.inputs = .host H D :: rest →
      decode .portH (if H.getLsbD 31 then [H, D] else [H]) = .ok i → step s = exec i (s.withInputs rest)) ∧
    (∀ H D : Word, s.io.inputs = .meter H D :: rest → decode .portM [H] = .ok i → step s = exec i (s.withInputs rest)) ∧
    (∀ W : Word, s.io.inputs = .command W :: rest → decode .command [W] = .ok i → step s = exec i (s.withInputs rest)) ∧
    (s.io.inputs = .turn :: rest → decode .phase [s.pos.phase.setWidth 32] = .ok i → step s = exec i (s.withInputs rest)) ∧
    (s.io.inputs = [] → decode .phase [s.pos.phase.setWidth 32] = .ok i → step s = exec i s)

/-- A step where the words at hand are no instruction: an idle sequencer waits (R47, R280), and an illegal command word
offered in the atomic view is dropped with CMDOVR while BUSY = 1 and with BADCMD otherwise (R231, R265, R268). -/
def Obligations.StepWithoutInstruction : Prop :=
  ∀ (s : State) (rest : List Input),
    (s.pos.phase = 0x00 → s.io.inputs = [] → step s = .next s) ∧
    (s.pos.phase = 0x00 → s.io.inputs = .turn :: rest → step s = .next (s.withInputs rest)) ∧
    (∀ W : Word, s.io.inputs = .command W :: rest → (∀ i, decode .command [W] ≠ .ok i) →
      step s = .next { s.withInputs rest with
        status := s.status ||| (if s.status.getLsbD 1 then 0x40 else 0x10) })

/-- The state after power-on reset (R52, R290): STATUS 0, GR +0.0, the position (IDLE, 0, 0), CONFIG and MAXLEN the instance's, and
with nothing offered the core stays there; State.reset is this state for the instance of Config.lean. The reset input asserted
at any time, also while a command runs (R291), gives the same values, and what the environment still has to do stays pending. -/
def Obligations.PowerOnReset : Prop :=
  State.reset = State.resetOf Config.params ∧
  (∀ p : Params,
    (State.resetOf p).status = 0 ∧ (State.resetOf p).res.gr = 0x00000000 ∧
    (State.resetOf p).pos = { phase := 0x00, idx := 0, ch := 0 } ∧ (State.resetOf p).params = p ∧
    step (State.resetOf p) = .next (State.resetOf p)) ∧
  ∀ (s : State) (rest : List Input), s.io.inputs = .powerOn :: rest →
    ∃ t, step s = .next t ∧ t.status = 0 ∧ t.res.gr = 0x00000000 ∧ t.pos = { phase := 0x00, idx := 0, ch := 0 } ∧
      t.params = s.params ∧ t.io.inputs = rest

/-! ## Transactions (44_host_commands section 3) -/

/-- WR, register by register (R244). `offer` is the acceptance of R231, which `WrCmdOffers` states. -/
def Obligations.WrRegisters : Prop :=
  ∀ (addr : WordAddr) (D : Word) (s : State),
    exec (.wr addr D) s = .next (
      if addr.toNat = 0x00 then offer D s
      else if addr.toNat = 0x01 then { s with status := s.status &&& ~~~(D.extractLsb' 0 7 &&& 0x7C) }
      else if addr.toNat = 0x02 then { s with host := { s.host with reqSrLo := D } }
      else if addr.toNat = 0x03 then { s with host := { s.host with reqSrHi := D } }
      else if addr.toNat = 0x04 then { s with host := { s.host with reqBs := D } }
      else if addr.toNat = 0x05 then { s with host := { s.host with pThresh := D } }
      else if addr.toNat = 0x06 then { s with host := { s.host with pRatio := D } }
      else if addr.toNat = 0x07 then { s with host := { s.host with pAttack := D } }
      else if addr.toNat = 0x08 then { s with host := { s.host with pRelease := D } }
      else if addr.toNat = 0x09 then { s with host := { s.host with pOutgain := D } }
      else s)

/-- WR of a word to CMD (R231): the checks in their order, each setting one STATUS bit and changing nothing else; else BUSY is
set, the position is at LATCH, and LATCH is performed with the word in the same step. The model's own fields note the word, the
values that 20_memory R85 calls old, and start a new list of GR values (log 14, 17, 19). -/
def Obligations.WrCmdOffers : Prop :=
  ∀ (W : Word) (s : State),
    exec (.wr 0 W) s =
      if s.status.getLsbD 1 then .next { s with status := s.status ||| 0x40 }
      else if (W.extractLsb' 28 4).toNat ∉ [1, 2, 3, 4, 5] ∨ W.extractLsb' 24 4 ≠ 0 ∨
          (W.extractLsb' 28 4 = 1 ∧ W.extractLsb' 0 24 ≠ 0) then
        .next { s with status := s.status ||| 0x10 }
      else if W.extractLsb' 28 4 ≠ 1 ∧ s.status.getLsbD 0 = false then .next { s with status := s.status ||| 0x08 }
      else if W.extractLsb' 28 4 ≠ 1 ∧ s.params.maxlen.toNat < (W.extractLsb' 0 24).toNat then
        .next { s with status := s.status ||| 0x20 }
      else
        exec .latch { s with
          status := s.status ||| 0x02
          pos := { phase := 0x01, idx := 0, ch := 0 }
          io := { s.io with
            offered := W, grLog := [], oldEffRatio := s.res.effRatio, oldSrLo := s.res.srLo, oldSrHi := s.res.srHi,
            oldBlksz := s.res.blksz } }

/-- RD, register by register (R245): the register's word on port H, and no other effect. EFF_RATIO, SR_LO, SR_HI and BLKSZ read
while BUSY = 1 show the old or the new value (20_memory R85); which one is the model's free choice (log 19). -/
def Obligations.RdRegisters : Prop :=
  ∀ (addr : WordAddr) (s : State),
    let value : Word :=
      if addr.toNat = 0x01 then s.status.setWidth 32
      else if addr.toNat = 0x02 then s.host.reqSrLo
      else if addr.toNat = 0x03 then s.host.reqSrHi
      else if addr.toNat = 0x04 then s.host.reqBs
      else if addr.toNat = 0x05 then s.host.pThresh
      else if addr.toNat = 0x06 then s.host.pRatio
      else if addr.toNat = 0x07 then s.host.pAttack
      else if addr.toNat = 0x08 then s.host.pRelease
      else if addr.toNat = 0x09 then s.host.pOutgain
      else if addr.toNat = 0x0A then s.res.gr
      else if addr.toNat = 0x0B then s.res.effRatio
      else if addr.toNat = 0x0C then s.res.srLo
      else if addr.toNat = 0x0D then s.res.srHi
      else if addr.toNat = 0x0E then s.res.blksz
      else if addr.toNat = 0x0F then s.params.nch.setWidth 32
      else if addr.toNat = 0x10 then s.params.maxlen.setWidth 32
      else 0
    let old : Word :=
      if addr.toNat = 0x0B then s.io.oldEffRatio
      else if addr.toNat = 0x0C then s.io.oldSrLo
      else if addr.toNat = 0x0D then s.io.oldSrHi
      else s.io.oldBlksz
    if s.status.getLsbD 1 = true ∧ 0x0B ≤ addr.toNat ∧ addr.toNat ≤ 0x0E then
      ∃ (x : Word) (k : Nat),
        exec (.rd addr) s = .next { s with io := { s.io with hResp := x, free := k } } ∧ (x = value ∨ x = old)
    else exec (.rd addr) s = .next { s with io := { s.io with hResp := value } }

/-- WRS (R246): ignored while BUSY = 1, and where the word does not exist; else the four bytes of the one word are written,
the low byte first (20_memory R65), and every other byte reads as before. -/
def Obligations.WrsWritesOneWord : Prop :=
  ∀ (c : Chan) (n : Index) (D : Word) (s : State),
    ∃ m : Memory,
      exec (.wrs c n D) s = .next { s with buf := m } ∧
      if s.status.getLsbD 1 = true ∨ s.params.nch.toNat ≤ c.toNat ∨ s.params.maxlen.toNat ≤ n.toNat then m = s.buf
      else
        ∀ a : Nat, readByte m a =
          if a / 4 = c.toNat * 2 ^ 24 + n.toNat then some (D.extractLsb' (8 * (a % 4)) 8) else readByte s.buf a

/-- RDS (R247): 0 where the word does not exist; an unspecified word while BUSY = 1, free here (log 18); else the word of BUF,
and where nothing has written it the model's fault (10_state R54, log 2). -/
def Obligations.RdsReadsOneWord : Prop :=
  ∀ (c : Chan) (n : Index) (s : State),
    if s.params.nch.toNat ≤ c.toNat ∨ s.params.maxlen.toNat ≤ n.toNat then
      exec (.rds c n) s = .next { s with io := { s.io with hResp := 0 } }
    else if s.status.getLsbD 1 then
      ∃ (x : Word) (k : Nat), exec (.rds c n) s = .next { s with io := { s.io with hResp := x, free := k } }
    else
      (∀ v : Word,
        (∀ j : Nat, j < 4 → readByte s.buf (4 * (c.toNat * 2 ^ 24 + n.toNat) + j) = some (v.extractLsb' (8 * j) 8)) →
        exec (.rds c n) s = .next { s with io := { s.io with hResp := v } }) ∧
      (∀ j : Nat, j < 4 → readByte s.buf (4 * (c.toNat * 2 ^ 24 + n.toNat) + j) = none →
        exec (.rds c n) s = .fault .unwrittenWord)

/-- RDGR (R243): the meter port returns GR in every state, and changes nothing of the core; a host RD of GR returns the same
word. Port M accepts the header 0x0000000A alone: every other read is answered with 0, a write is ignored (R94); that a write
leaves the port's last returned word as it is is the model's reading (log 22). -/
def Obligations.MeterPortReturnsGr : Prop :=
  ∀ s : State,
    exec .rdgr s = .next { s with io := { s.io with mResp := s.res.gr } } ∧
    exec (.rd 0x0A) s = .next { s with io := { s.io with hResp := s.res.gr } } ∧
    ∀ (H D : Word) (rest : List Input), s.io.inputs = .meter H D :: rest →
      step s = .next { s with io := { s.io with
        inputs := rest
        mResp := if H = 0x0000000A then s.res.gr else if H.getLsbD 31 then s.io.mResp else 0 } }

/-! ## Control micro-operations -/

/-- LATCH (R233): OP and LEN of the offered word, and of the parameters exactly those that the command uses; the position moves
to the command's first phase (R234). The model's own field notes whether R147 gives the command a meaning (log 8). -/
def Obligations.LatchCopiesOperands : Prop :=
  ∀ s : State,
    let op := (s.io.offered.extractLsb' 28 4).toNat
    let used :=
      if op = 1 then []
      else if op = 2 then [s.host.pThresh, s.host.pRatio, s.host.pAttack, s.host.pRelease, s.host.pOutgain]
      else if op = 3 then [s.host.pRatio]
      else if op = 4 then [s.host.pThresh, s.host.pRatio, s.host.pAttack, s.host.pRelease]
      else [s.host.pOutgain]
    1 ≤ op → op ≤ 5 →
    ∃ b : Bool, (b = true ↔ op = 1 ∨ s.admits used (s.io.offered.extractLsb' 0 24)) ∧
    exec .latch s = .next { s with
      io := { s.io with admitted := b }
      lat := {
        op := s.io.offered.extractLsb' 28 4
        len := s.io.offered.extractLsb' 0 24
        thresh := if op = 2 ∨ op = 4 then s.host.pThresh else s.lat.thresh
        ratio := if op = 2 ∨ op = 3 ∨ op = 4 then s.host.pRatio else s.lat.ratio
        attack := if op = 2 ∨ op = 4 then s.host.pAttack else s.lat.attack
        release := if op = 2 ∨ op = 4 then s.host.pRelease else s.lat.release
        outgain := if op = 2 ∨ op = 5 then s.host.pOutgain else s.lat.outgain
        sr := if op = 1 then s.host.reqSrHi ++ s.host.reqSrLo else s.lat.sr
        bs := if op = 1 then s.host.reqBs else s.lat.bs }
      pos := {
        phase := if op = 1 then 0x02 else if op = 2 ∨ op = 3 then 0x08 else if op = 4 then 0x10 else 0x18
        idx := 0
        ch := 0 } }

/-- PREP (R237): the latched rate where it is finite and above 0, else SAFE_SR with SRDEF set; the rate and the block size in
force, both filters designed, every memory of an existing channel the kernel's zero, ENV +0.0, PREPARED set; then DONE (R234). -/
def Obligations.PrepConfigures : Prop :=
  ∀ s : State,
    let valid := s.num.isfinite64 s.lat.sr && s.num.gt64 s.lat.sr 0
    let sr := if valid then s.lat.sr else s.params.safeSr
    ∃ t : State,
      exec .prep s = .next t ∧
      t = { s with
        status := s.status ||| 0x01 ||| (if valid then 0 else 0x04)
        res := { s.res with srLo := t.res.srLo, srHi := t.res.srHi, blksz := s.lat.bs }
        hid := {
          env := 0
          bpfCoef := (bpfOf s.params).design sr
          bpfMem := t.hid.bpfMem
          hpfCoef := (hpfOf s.params).design sr
          hpfMem := t.hid.hpfMem }
        pos := { phase := 0x03, idx := 0, ch := 0 } } ∧
      t.res.srHi ++ t.res.srLo = sr ∧
      ∀ c : Chan,
        laneGet t.hid.bpfMem c = (if c ∈ channels s.params then (bpfOf s.params).zero else laneGet s.hid.bpfMem c) ∧
        laneGet t.hid.hpfMem c = (if c ∈ channels s.params then (hpfOf s.params).zero else laneGet s.hid.hpfMem c)

/-- DONE (R235): BUSY ← 0, the position (IDLE, 0, 0), nothing else. -/
def Obligations.DoneClearsBusy : Prop :=
  ∀ s : State,
    exec .done s = .next { s with status := s.status &&& 0x7D, pos := { phase := 0x00, idx := 0, ch := 0 } }

/-! ## The Spectral Ratio Modulator's micro-operations (41_spectral_ratio_modulator) -/

/-- S_INIT (R161): SUMSQ of every channel and MAXRMS are cleared; S_BPF follows, or S_RATIO for an empty block (R169). -/
def Obligations.SInitClears : Prop :=
  ∀ s : State,
    ∃ sumsq : Vector F64 64,
      exec .sInit s = .next { s with
        scr := { s.scr with sumsq := sumsq, maxrms := 0x00000000 }
        pos := { phase := if s.lat.len = 0 then 0x0B else 0x09, idx := 0, ch := 0 } } ∧
      ∀ c : Chan, laneGet sumsq c = if c ∈ channels s.params then 0 else laneGet s.scr.sumsq c

/-- S_BPF on a written word (R162, R163): one step of the channel's filter with the common coefficients (the kernel's own step in
an admitted command, free in any other: log 8), its output in FILT and its square added to the channel's sum; n runs in the
inner loop and c in the outer one. -/
def Obligations.SBpfFilters : Prop :=
  ∀ (s : State) (v : F32),
    s.pos.ch.toNat < s.params.nch.toNat → s.pos.idx.toNat < s.params.maxlen.toNat →
    memRead s.buf (bufAddr s.pos.ch s.pos.idx) = some v →
    let y := filterStep s.io.admitted 0 (bpfOf s.params) s.hid.bpfCoef (laneGet s.hid.bpfMem s.pos.ch) v
    let y64 := s.num.cvt32to64 y.1
    exec .sBpf s = .next { s with
      hid := { s.hid with bpfMem := laneSet s.hid.bpfMem s.pos.ch y.2 }
      scr := { s.scr with
        filt := y.1
        sumsq := laneSet s.scr.sumsq s.pos.ch (s.num.add64 (laneGet s.scr.sumsq s.pos.ch) (s.num.mul64 y64 y64)) }
      pos :=
        if s.pos.idx.toNat + 1 < s.lat.len.toNat then { phase := 0x09, idx := s.pos.idx + 1, ch := s.pos.ch }
        else if s.pos.ch.toNat + 1 < s.params.nch.toNat then { phase := 0x09, idx := 0, ch := s.pos.ch + 1 }
        else { phase := 0x0A, idx := 0, ch := 0 } }

/-- S_RMS (R164, R165): the channel's root mean square, and the running maximum with MAXRMS as first operand. -/
def Obligations.SRmsTakesMaximum : Prop :=
  ∀ s : State,
    let rms := s.num.cvt64to32 (s.num.sqrt64 (s.num.div64 (laneGet s.scr.sumsq s.pos.ch) (s.num.cvtU24to64 s.lat.len)))
    exec .sRms s = .next { s with
      scr := { s.scr with maxrms := s.num.max32 s.scr.maxrms rms }
      pos :=
        if s.pos.ch.toNat + 1 < s.params.nch.toNat then { phase := 0x0A, idx := 0, ch := s.pos.ch + 1 }
        else { phase := 0x0B, idx := 0, ch := 0 } }

/-- S_RATIO (R166, R167, R168): core energy, reduction factor, effective ratio and its floor, each operation as written; then
the EGE stage of a PROCESS, or DONE (R234). -/
def Obligations.SRatioWritesEffRatio : Prop :=
  ∀ s : State,
    let e := s.num.min32 (s.num.mul32 s.scr.maxrms 0x40800000) 0x3F800000
    let rf := s.num.mul32 0x3E99999A e
    let d := s.num.sub32 s.lat.ratio 0x3F800000
    let p := s.num.mul32 d rf
    let q := s.num.sub32 s.lat.ratio p
    exec .sRatio s = .next { s with
      res := { s.res with effRatio := s.num.max32 q 0x3F800000 }
      pos := { phase := if s.lat.op = 2 then 0x10 else 0x03, idx := 0, ch := 0 } }

/-! ## The Envelope/Gain Engine's micro-operations (42_envelope_gain_engine) -/

/-- E_COEF (R182, R183, R184): the clamped ratio, both smoothing coefficients from the latched times and the rate in force, the
slope; then the first frame, or the next stage for an empty block. -/
def Obligations.ECoefComputes : Prop :=
  ∀ s : State,
    let ratioIn := if s.lat.op = 2 then s.res.effRatio else s.lat.ratio
    let ratioC := s.num.max32 ratioIn 0x3F800000
    let coef := fun t : F32 =>
      s.num.cvt64to32 (s.num.exp64 (s.num.div64 0xBFF0000000000000
        (s.num.mul64 (s.num.mul64 (s.num.cvt32to64 t) 0x3F50624DD2F1A9FC) (s.res.srHi ++ s.res.srLo))))
    exec .eCoef s = .next { s with
      scr := { s.scr with
        ratioC := ratioC
        ac := coef s.lat.attack
        rc := coef s.lat.release
        slope := s.num.sub32 0x3F800000 (s.num.div32 0x3F800000 ratioC) }
      pos := {
        phase := if s.lat.len ≠ 0 then 0x11 else if s.lat.op = 2 then 0x18 else 0x03
        idx := 0
        ch := 0 } }

/-- E_DET on a written frame (R185): every lane takes its sample, and LEVEL is the magnitudes folded from +0.0 in ascending
channel order. -/
def Obligations.EDetDetectsLevel : Prop :=
  ∀ (s : State) (x : Chan → F32),
    s.pos.idx.toNat < s.params.maxlen.toNat →
    (∀ c : Chan, c.toNat < s.params.nch.toNat → memRead s.buf (bufAddr c s.pos.idx) = some (x c)) →
    ∃ lane : Vector F32 64,
      exec .eDet s = .next { s with
        scr := { s.scr with
          lane := lane
          level := (channels s.params).foldl (fun l c => s.num.max32 l (s.num.abs32 (x c))) 0x00000000 }
        pos := { phase := 0x12, idx := s.pos.idx, ch := 0 } } ∧
      ∀ c : Chan, laneGet lane c = if c ∈ channels s.params then x c else laneGet s.scr.lane c

/-- E_ENV (R186): the attack coefficient where LEVEL exceeds ENV, else the release coefficient; the one-pole blend. -/
def Obligations.EEnvBlends : Prop :=
  ∀ s : State,
    let k := if s.num.gt32 s.scr.level s.hid.env then s.scr.ac else s.scr.rc
    exec .eEnv s = .next { s with
      hid := { s.hid with
        env := s.num.add32 (s.num.mul32 k s.hid.env) (s.num.mul32 (s.num.sub32 0x3F800000 k) s.scr.level) }
      pos := { phase := 0x13, idx := s.pos.idx, ch := 0 } }

/-- E_GRC (R189, with LinToDb of 40_numerics R140): the static curve with a hard knee. A NaN and a negative ENV give DB_FLOOR as
R140 says, outside the admitted domain too: that is the model's reading (log 34). -/
def Obligations.EGrcStaticCurve : Prop :=
  ∀ s : State,
    let envDb :=
      if isNaN fmt32 s.hid.env.toNat = true ∨ s.hid.env.getLsbD 31 = true then s.params.dbFloor
      else if s.num.gt32 s.hid.env 0x00000000 then
        s.num.max32 s.params.dbFloor (s.num.mul32 0x41A00000 (s.num.log10_32 s.hid.env))
      else s.params.dbFloor
    exec .eGrc s = .next { s with
      scr := { s.scr with
        grv := if s.num.gt32 envDb s.lat.thresh then s.num.mul32 (s.num.sub32 envDb s.lat.thresh) s.scr.slope
               else 0x00000000 }
      pos := { phase := 0x14, idx := s.pos.idx, ch := 0 } }

/-- E_PUB (R190): GR ← GRV. The model also appends the value to its list (log 17). -/
def Obligations.EPubPublishes : Prop :=
  ∀ s : State,
    exec .ePub s = .next { s with
      res := { s.res with gr := s.scr.grv }
      io := { s.io with grLog := s.io.grLog ++ [s.scr.grv] }
      pos := { phase := 0x15, idx := s.pos.idx, ch := 0 } }

/-- E_APPLY (R191): the words of frame IDX become the lanes times one gain, every other byte of BUF reads as before; then the
next frame, or the next stage. -/
def Obligations.EApplyScalesFrame : Prop :=
  ∀ s : State,
    s.params.nch.toNat ≤ 64 → s.pos.idx.toNat < s.params.maxlen.toNat →
    let g := s.num.pow10_32 (s.num.div32 (s.num.neg32 s.scr.grv) 0x41A00000)
    ∃ m : Memory,
      exec .eApply s = .next { s with
        buf := m
        pos :=
          if s.pos.idx.toNat + 1 < s.lat.len.toNat then { phase := 0x11, idx := s.pos.idx + 1, ch := 0 }
          else { phase := if s.lat.op = 2 then 0x18 else 0x03, idx := 0, ch := 0 } } ∧
      ∀ a : Nat, readByte m a =
        if a / 4 / 2 ^ 24 < s.params.nch.toNat ∧ a / 4 % 2 ^ 24 = s.pos.idx.toNat then
          some ((s.num.mul32 (laneGet s.scr.lane (BitVec.ofNat 6 (a / 4 / 2 ^ 24))) g).extractLsb' (8 * (a % 4)) 8)
        else readByte s.buf a

/-! ## The Harmonic Enhancer's micro-operations (43_harmonic_enhancer) -/

/-- H_GAIN (R212, R213): the linear gain and the mix amount; then the first sample, or DONE for an empty block (R217). -/
def Obligations.HGainComputes : Prop :=
  ∀ s : State,
    exec .hGain s = .next { s with
      scr := { s.scr with
        lg := s.num.pow10_32 (s.num.div32 s.lat.outgain 0x41A00000)
        mix := s.num.mul32 0x3DCCCCCD (s.num.max32 0x00000000 (s.num.div32 s.lat.outgain 0x41C00000)) }
      pos := { phase := if s.lat.len = 0 then 0x03 else 0x19, idx := 0, ch := 0 } }

/-- H_HPF on a written word (R211): the original sample in the lane, one step of the channel's filter (the kernel's own step in an
admitted command, free in any other: log 8), its output in FILT. -/
def Obligations.HHpfFilters : Prop :=
  ∀ (s : State) (v : F32),
    s.pos.ch.toNat < s.params.nch.toNat → s.pos.idx.toNat < s.params.maxlen.toNat →
    memRead s.buf (bufAddr s.pos.ch s.pos.idx) = some v →
    let y := filterStep s.io.admitted 1 (hpfOf s.params) s.hid.hpfCoef (laneGet s.hid.hpfMem s.pos.ch) v
    exec .hHpf s = .next { s with
      hid := { s.hid with hpfMem := laneSet s.hid.hpfMem s.pos.ch y.2 }
      scr := { s.scr with lane := laneSet s.scr.lane s.pos.ch v, filt := y.1 }
      pos := { s.pos with phase := 0x1A } }

/-- H_SAT (R214): x + 0.5 x², the square first, then the half, then the sum. -/
def Obligations.HSatSaturates : Prop :=
  ∀ s : State,
    exec .hSat s = .next { s with
      scr := { s.scr with
        sat := s.num.add32 s.scr.filt (s.num.mul32 0x3F000000 (s.num.mul32 s.scr.filt s.scr.filt)) }
      pos := { s.pos with phase := 0x1B } }

/-- H_MAC (R216): the word of the pair becomes the lane times LG plus SAT times MIX, every other byte of BUF reads as before; n
runs in the inner loop and c in the outer one (R215). -/
def Obligations.HMacWritesBack : Prop :=
  ∀ s : State,
    s.pos.ch.toNat < s.params.nch.toNat → s.pos.idx.toNat < s.params.maxlen.toNat →
    ∃ m : Memory,
      exec .hMac s = .next { s with
        buf := m
        pos :=
          if s.pos.idx.toNat + 1 < s.lat.len.toNat then { phase := 0x19, idx := s.pos.idx + 1, ch := s.pos.ch }
          else if s.pos.ch.toNat + 1 < s.params.nch.toNat then { phase := 0x19, idx := 0, ch := s.pos.ch + 1 }
          else { phase := 0x03, idx := 0, ch := 0 } } ∧
      ∀ a : Nat, readByte m a =
        if a / 4 = s.pos.ch.toNat * 2 ^ 24 + s.pos.idx.toNat then
          some ((s.num.mac32 (laneGet s.scr.lane s.pos.ch) s.scr.lg s.scr.sat s.scr.mix).extractLsb' (8 * (a % 4)) 8)
        else readByte s.buf a

/-- S_BPF, H_HPF and E_DET on a word of BUF that nothing has written stop with the model's fault (10_state R54, R307, log 2). -/
def Obligations.UnwrittenSampleFaults : Prop :=
  ∀ s : State,
    (s.pos.ch.toNat < s.params.nch.toNat → s.pos.idx.toNat < s.params.maxlen.toNat →
      memRead s.buf (bufAddr s.pos.ch s.pos.idx) = none →
      exec .sBpf s = .fault .unwrittenWord ∧ exec .hHpf s = .fault .unwrittenWord) ∧
    (s.pos.idx.toNat < s.params.maxlen.toNat →
      (∃ c : Chan, c.toNat < s.params.nch.toNat ∧ memRead s.buf (bufAddr c s.pos.idx) = none) →
      exec .eDet s = .fault .unwrittenWord)

/-! ## Commands (44_host_commands section 2) -/

/-- A command offered in the atomic view and not accepted is dropped: one STATUS bit, the first of CMDOVR, NOPREP, BADLEN that
applies, and nothing else (R231, R266, R267, R268, R269). -/
def Obligations.CommandsDropped : Prop :=
  ∀ (W : Word) (i : Instr) (s : State), decode .command [W] = .ok i →
    (s.status.getLsbD 1 = true → exec i s = .next { s with status := s.status ||| 0x40 }) ∧
    (i ≠ .prepare → s.status.getLsbD 1 = false →
      (s.status.getLsbD 0 = false → exec i s = .next { s with status := s.status ||| 0x08 }) ∧
      (s.status.getLsbD 0 = true → s.params.maxlen.toNat < (W.extractLsb' 0 24).toNat →
        exec i s = .next { s with status := s.status ||| 0x20 }))

/-- PREPARE (R236, R53), prepared or not: SR, BLKSZ, both filters, ENV, PREPARED, and SRDEF when it replaces the rate; GR,
EFF_RATIO, BUF, the host-written registers and the other sticky bits are as they were, and the core is idle again. -/
def Obligations.PrepareCommand : Prop :=
  ∀ s : State, s.status.getLsbD 1 = false →
    let req := s.host.reqSrHi ++ s.host.reqSrLo
    let valid := s.num.isfinite64 req && s.num.gt64 req 0
    let sr := if valid then req else s.params.safeSr
    ∃ t : State,
      exec .prepare s = .next t ∧
      t = { s with
        status := s.status ||| 0x01 ||| (if valid then 0 else 0x04)
        res := { s.res with srLo := t.res.srLo, srHi := t.res.srHi, blksz := s.host.reqBs }
        hid := {
          env := 0
          bpfCoef := (bpfOf s.params).design sr
          bpfMem := t.hid.bpfMem
          hpfCoef := (hpfOf s.params).design sr
          hpfMem := t.hid.hpfMem }
        lat := { s.lat with op := 1, len := 0, sr := req, bs := s.host.reqBs }
        pos := { phase := 0x00, idx := 0, ch := 0 }
        io := t.io } ∧
      t.environment = s.environment ∧
      t.res.srHi ++ t.res.srLo = sr ∧
      ∀ c : Chan,
        laneGet t.hid.bpfMem c = (if c ∈ channels s.params then (bpfOf s.params).zero else laneGet s.hid.bpfMem c) ∧
        laneGet t.hid.hpfMem c = (if c ∈ channels s.params then (hpfOf s.params).zero else laneGet s.hid.hpfMem c)

/-- SRM (R239, R173): from every state in which it is accepted with its block written, on admitted inputs (R147), the command
completes; EFF_RATIO is the
ratio computed from the block's band-passed RMS values, each band-pass memory has seen its channel's samples in ascending
order, BUF is untouched (20_memory R74), and of the rest only latches and scratch change. -/
def Obligations.SrmCommand : Prop :=
  ∀ (s : State) (len : Index), s.params.wf = true → s.ready len → s.admits [s.host.pRatio] len →
    ∃ t : State,
      exec (.srm len) s = .next t ∧
      t = { s with
        res := { s.res with effRatio := srmRatio s len s.host.pRatio }
        hid := { s.hid with bpfMem := t.hid.bpfMem }
        lat := { s.lat with op := 3, len := len, ratio := s.host.pRatio }
        scr := { s.scr with sumsq := t.scr.sumsq, maxrms := t.scr.maxrms, filt := t.scr.filt }
        pos := { phase := 0x00, idx := 0, ch := 0 }
        io := t.io } ∧
      t.environment = s.environment ∧
      ∀ c : Chan, laneGet t.hid.bpfMem c =
        if c.toNat < s.params.nch.toNat then
          (filterRun (bpfOf s.params) s.hid.bpfCoef (laneGet s.hid.bpfMem c) (channelBlock s.buf c len.toNat)).2
        else laneGet s.hid.bpfMem c

/-- EGE (R241, R200): from every state in which it is accepted with its block written, on admitted inputs (R147), the command
completes; the frames written
back, the envelope left and the values GR takes are those of the per-frame algorithm with the host's ratio, and every byte
outside the block reads as before (20_memory R73). -/
def Obligations.EgeCommand : Prop :=
  ∀ (s : State) (len : Index), s.params.wf = true → s.ready len →
    s.admits [s.host.pThresh, s.host.pRatio, s.host.pAttack, s.host.pRelease] len →
    let k := egeSetup (numOf s.params) (rateInForce s) s.host.pRatio s.host.pThresh s.host.pAttack s.host.pRelease
    let r := egeRun (numOf s.params) s.params.dbFloor k s.hid.env (framesOf s.params s.buf len.toNat)
    ∃ t : State,
      exec (.ege len) s = .next t ∧
      t = { s with
        res := { s.res with gr := r.2.2.getLastD s.res.gr }
        hid := { s.hid with env := r.2.1 }
        lat := { s.lat with
          op := 4, len := len, thresh := s.host.pThresh, ratio := s.host.pRatio, attack := s.host.pAttack,
          release := s.host.pRelease }
        scr := { s.scr with
          ratioC := t.scr.ratioC, ac := t.scr.ac, rc := t.scr.rc, slope := t.scr.slope, level := t.scr.level,
          grv := t.scr.grv, lane := t.scr.lane }
        pos := { phase := 0x00, idx := 0, ch := 0 }
        buf := t.buf
        io := t.io } ∧
      t.environment = s.environment ∧
      t.io.grLog = r.2.2 ∧
      framesOf s.params t.buf len.toNat = r.1 ∧
      ∀ a : Nat, ¬(a / 4 / 2 ^ 24 < s.params.nch.toNat ∧ a / 4 % 2 ^ 24 < len.toNat) →
        readByte t.buf a = readByte s.buf a

/-- HEN (R242, R220): from every state in which it is accepted with its block written, on admitted inputs (R147), the command
completes; each channel's
samples and filter memory are those of the per-sample algorithm, and every byte outside the block reads as before (20_memory
R73). -/
def Obligations.HenCommand : Prop :=
  ∀ (s : State) (len : Index), s.params.wf = true → s.ready len → s.admits [s.host.pOutgain] len →
    let run := fun c : Chan =>
      henRun (numOf s.params) (hpfOf s.params) s.hid.hpfCoef s.host.pOutgain (laneGet s.hid.hpfMem c)
        (channelBlock s.buf c len.toNat)
    ∃ t : State,
      exec (.hen len) s = .next t ∧
      t = { s with
        hid := { s.hid with hpfMem := t.hid.hpfMem }
        lat := { s.lat with op := 5, len := len, outgain := s.host.pOutgain }
        scr := { s.scr with
          lg := t.scr.lg, mix := t.scr.mix, lane := t.scr.lane, filt := t.scr.filt, sat := t.scr.sat }
        pos := { phase := 0x00, idx := 0, ch := 0 }
        buf := t.buf
        io := t.io } ∧
      t.environment = s.environment ∧
      (∀ c : Chan, laneGet t.hid.hpfMem c =
        if c.toNat < s.params.nch.toNat then (run c).2 else laneGet s.hid.hpfMem c) ∧
      (∀ c : Chan, c.toNat < s.params.nch.toNat → channelBlock t.buf c len.toNat = (run c).1) ∧
      ∀ a : Nat, ¬(a / 4 / 2 ^ 24 < s.params.nch.toNat ∧ a / 4 % 2 ^ 24 < len.toNat) →
        readByte t.buf a = readByte s.buf a

/-- PROCESS (R238) is the three stages in their order, each over the whole block: the SRM command, the EGE command with the
ratio that the SRM stage has just written, the HEN command. From every state in which it is accepted with its block written, on
admitted inputs (R147), it completes, and with the results of that sequence wherever the values that one stage hands to the
next, the ratio and the block, have not overflowed (93_implementation_defined I3). -/
def Obligations.ProcessIsTheThreeStages : Prop :=
  ∀ (s : State) (len : Index), s.params.wf = true → s.ready len →
    s.admits [s.host.pThresh, s.host.pRatio, s.host.pAttack, s.host.pRelease, s.host.pOutgain] len →
    ∃ t t1 t2 t3 : State,
      exec (.srm len) s = .next t1 ∧
      exec (.ege len) (t1.withHost { s.host with pRatio := t1.res.effRatio }) = .next t2 ∧
      exec (.hen len) t2 = .next t3 ∧
      exec (.process len) s = .next t ∧
      t.environment = s.environment ∧
      (finite32 t1.res.effRatio → t2.blockAdmitted len →
        t = { s with
          res := t3.res
          hid := t3.hid
          lat := { s.lat with
            op := 2, len := len, thresh := s.host.pThresh, ratio := s.host.pRatio, attack := s.host.pAttack,
            release := s.host.pRelease, outgain := s.host.pOutgain }
          scr := t3.scr
          pos := { phase := 0x00, idx := 0, ch := 0 }
          buf := t3.buf
          io := t.io } ∧
        t.io.grLog = t2.io.grLog)

/-- Zero-length commands (R248) need no written block: on admitted parameters (R147) they complete; EGE and HEN leave BUF, ENV, GR,
EFF_RATIO and both filter memories alone, SRM and PROCESS also write EFF_RATIO, under Num_ref with the requested ratio floored
at 1.0 (R169). -/
def Obligations.ZeroLengthCommands : Prop :=
  ∀ s : State, s.status.getLsbD 1 = false → s.status.getLsbD 0 = true →
    (∀ x ∈ [(Instr.ege 0, [s.host.pThresh, s.host.pRatio, s.host.pAttack, s.host.pRelease]), (Instr.hen 0, [s.host.pOutgain])],
      s.admits x.2 0 →
      ∃ t, exec x.1 s = .next t ∧
        t = { s with lat := t.lat, scr := t.scr, pos := { phase := 0x00, idx := 0, ch := 0 }, io := t.io } ∧
        t.environment = s.environment) ∧
    (∀ x ∈ [(Instr.srm 0, [s.host.pRatio]),
        (Instr.process 0, [s.host.pThresh, s.host.pRatio, s.host.pAttack, s.host.pRelease, s.host.pOutgain])],
      s.admits x.2 0 →
      ∃ t, exec x.1 s = .next t ∧
        t = { s with
          res := { s.res with effRatio := t.res.effRatio }
          lat := t.lat, scr := t.scr, pos := { phase := 0x00, idx := 0, ch := 0 }, io := t.io } ∧
        t.environment = s.environment ∧
        (s.params.num = .ref → t.res.effRatio = numRef.max32 s.host.pRatio 0x3F800000))

/-- The atomic view (R249): a command run in one step ends as the WR of its word to CMD, followed by the sequencer's
micro-operations one step at a time, within the bound of R235; the same state, or the same fault. -/
def Obligations.AtomicCommandIsSequencerRun : Prop :=
  ∀ (W : Word) (i : Instr) (s : State), decode .command [W] = .ok i → s.idle → s.io.inputs = [] →
    exec i s =
      Host.Core.run Sys2Proof.core (1 + uopBound (W.extractLsb' 28 4) s.params.nch.toNat (W.extractLsb' 0 24).toNat)
        (s.withInputs [.host 0x80000000 W])

/-- Every command in progress reaches DONE (R235): from every state of the invariant the sequencer alone, within the bound of
its command, comes to (IDLE, 0, 0) with BUSY = 0, unless it reads a word that nothing has written. -/
def Obligations.CommandsReachDone : Prop :=
  ∀ s : State, s.Inv → s.io.inputs = [] →
    ∃ k : Nat, k ≤ uopBound s.lat.op s.params.nch.toNat s.lat.len.toNat ∧
      ((∃ t : State, Host.Core.run Sys2Proof.core k s = .next t ∧ t.idle) ∨
        Host.Core.run Sys2Proof.core k s = .fault Fault.unwrittenWord)

/-! ## Invariants and whole-machine rules -/

/-- The invariant holds after reset. -/
def Obligations.ResetSatisfiesInv : Prop := State.reset.Inv

/-- Every step keeps the invariant: the bounds of the instance, BUF canonical, whole and inside its addresses, BUSY exactly
while PHASE is not IDLE, the position one that the running command takes, N ≤ MAXLEN, IDX < N, CH < NCH, no command but PREPARE
running unprepared, and a valid rate in force (R7, R47, R64, R67, R121, R232, R234). -/
def Obligations.StepKeepsInv : Prop := ∀ s t : State, s.Inv → step s = .next t → t.Inv

/-- In a state of the invariant no step is refused, and the one fault left is the read of a word that nothing has written: the
sequencer never generates an address outside BUF (R64) and never takes an unused PHASE code (R99). -/
def Obligations.InvStepsAreSafe : Prop :=
  ∀ s : State, s.Inv → (∃ t, step s = .next t) ∨ step s = .fault .unwrittenWord

/-- Who writes what (R32 to R35, R39, R41 to R44, R73, R275): a transaction or a micro-operation that changes a register or BUF
is the one that the rules name as its writer; nothing changes the instance. -/
def Obligations.EachRegisterHasItsWriters : Prop :=
  ∀ (i : Instr) (s t : State), busOf i ≠ .command → exec i s = .next t →
    t.params = s.params ∧
    (t.host ≠ s.host → ∃ a D, i = .wr a D) ∧
    (t.res.gr ≠ s.res.gr → i = .ePub) ∧
    (t.res.effRatio ≠ s.res.effRatio → i = .sRatio) ∧
    (t.res.srLo ≠ s.res.srLo ∨ t.res.srHi ≠ s.res.srHi ∨ t.res.blksz ≠ s.res.blksz → i = .prep) ∧
    (t.hid.env ≠ s.hid.env → i = .prep ∨ i = .eEnv) ∧
    (t.hid.bpfCoef ≠ s.hid.bpfCoef ∨ t.hid.hpfCoef ≠ s.hid.hpfCoef → i = .prep) ∧
    (t.hid.bpfMem ≠ s.hid.bpfMem → i = .prep ∨ i = .sBpf) ∧
    (t.hid.hpfMem ≠ s.hid.hpfMem → i = .prep ∨ i = .hHpf) ∧
    (t.lat ≠ s.lat → i = .latch ∨ ∃ D, i = .wr 0 D) ∧
    (t.buf ≠ s.buf → i = .eApply ∨ i = .hMac ∨ ∃ c n D, i = .wrs c n D)

/-- Who changes each STATUS bit, and how (R31, R262): PREPARED is set by PREP, BUSY set by a WR to CMD and cleared by DONE, SRDEF
set by PREP, the four drop conditions set by a WR to CMD, and a sticky bit cleared only by a WR of 1 to it. No step, a whole
command among them, clears PREPARED, but power-on reset. -/
def Obligations.EachStatusBitHasItsWriters : Prop :=
  (∀ s t : State, step s = .next t → s.status.getLsbD 0 = true → t.status.getLsbD 0 = false →
    ∃ rest, s.io.inputs = .powerOn :: rest) ∧
  ∀ (i : Instr) (s t : State) (k : Nat), busOf i ≠ .command → exec i s = .next t → k < 7 →
    (s.status.getLsbD k = false → t.status.getLsbD k = true →
      (i = .prep ∧ (k = 0 ∨ k = 2)) ∨ ((∃ D, i = .wr 0 D) ∧ (k = 1 ∨ 3 ≤ k))) ∧
    (s.status.getLsbD k = true → t.status.getLsbD k = false →
      (i = .done ∧ k = 1) ∨ (2 ≤ k ∧ ∃ D, i = .wr 1 D ∧ D.getLsbD k = true))

/-- A meter read does not interfere (R68, R80, R243): whatever word a read left on port M, every other instruction, whole
commands among them, does exactly what it does without it. -/
def Obligations.MeterReadsDoNotInterfere : Prop :=
  ∀ (i : Instr) (s : State) (x : Word), i ≠ .rdgr →
    exec i (s.withMResp x) = mapNext (fun t => t.withMResp x) (exec i s)

/-- A parameter or staging write while a command runs does not affect it (R83, R45): no micro-operation but LATCH, which
acceptance performs, reads or writes the host-written registers. -/
def Obligations.ParameterWritesWait : Prop :=
  ∀ (i : Instr) (s : State) (h : HostRegs), busOf i = .phase → i ≠ .latch →
    exec i (s.withHost h) = mapNext (fun t => t.withHost h) (exec i s)

/-- A sticky bit that is set never blocks, delays or alters any later command or transaction (R261); a read of STATUS shows it and
a write to STATUS may clear it. -/
def Obligations.StickyBitsNeverBlock : Prop :=
  ∀ (i : Instr) (s : State) (m : BitVec 7), m &&& 0x7C = m → i ≠ .rd 1 → (∀ D, i ≠ .wr 1 D) →
    exec i (s.withStatusBits m) = mapNext (fun t => t.withStatusBits m) (exec i s)

/-- PREPARE is the soft reset (R292): two cores with the same parameters and block, prepared with the same rate, give the same
results on the next block, on admitted inputs (R147), whatever they did before. -/
def Obligations.PrepareForgetsThePast : Prop :=
  ∀ (s1 s2 t1 t2 u1 : State) (len : Index),
    s1.params.wf = true → s2.params = s1.params → s2.host = s1.host → s2.buf = s1.buf →
    s1.admits [s1.host.pThresh, s1.host.pRatio, s1.host.pAttack, s1.host.pRelease, s1.host.pOutgain] len →
    s1.status.getLsbD 1 = false → s2.status.getLsbD 1 = false → len.toNat ≤ s1.params.maxlen.toNat →
    exec .prepare s1 = .next t1 → exec .prepare s2 = .next t2 → exec (.process len) t1 = .next u1 →
    ∃ u2 : State, exec (.process len) t2 = .next u2 ∧
      u2.buf = u1.buf ∧ u2.hid.env = u1.hid.env ∧ u2.res.effRatio = u1.res.effRatio ∧ u2.io.grLog = u1.io.grLog ∧
      (∀ c : Chan, c.toNat < s1.params.nch.toNat →
        laneGet u2.hid.bpfMem c = laneGet u1.hid.bpfMem c ∧ laneGet u2.hid.hpfMem c = laneGet u1.hid.hpfMem c)

/-! ## Arithmetic (40_numerics) -/

/-- Num_ref's sum, difference, product and quotient of finite operands are the nearest F32, ties to even, overflowing to the
infinity of the sign (R124, R125). -/
def Obligations.RefArithmeticIsNearestEven : Prop :=
  ∀ a b : F32, finite32 a → finite32 b →
    nearestEven32 (rat32 a + rat32 b) (numRef.add32 a b) ∧
    nearestEven32 (rat32 a - rat32 b) (numRef.sub32 a b) ∧
    nearestEven32 (rat32 a * rat32 b) (numRef.mul32 a b) ∧
    (rat32 b ≠ 0 → nearestEven32 (rat32 a / rat32 b) (numRef.div32 a b))

/-- Zeros and special operands under Num_ref (R125): the sign of an exact zero, the cases that give a NaN, and a finite non-zero
value divided by a zero. -/
def Obligations.RefSpecialOperands : Prop :=
  (∀ a : F32, finite32 a →
    numRef.add32 a (a ^^^ 0x80000000) = 0x00000000 ∧ numRef.sub32 a a = 0x00000000) ∧
  (∀ a z : F32, finite32 a → zero32 z →
    numRef.mul32 a z = (a ^^^ z) &&& 0x80000000 ∧ numRef.mul32 z a = (a ^^^ z) &&& 0x80000000) ∧
  (∀ a z : F32, finite32 a → ¬zero32 a → zero32 z →
    numRef.div32 z a = (a ^^^ z) &&& 0x80000000 ∧ numRef.div32 a z = ((a ^^^ z) &&& 0x80000000) ||| 0x7F800000) ∧
  (∀ a b : F32, nan32P a ∨ nan32P b →
    nan32P (numRef.add32 a b) ∧ nan32P (numRef.sub32 a b) ∧ nan32P (numRef.mul32 a b) ∧ nan32P (numRef.div32 a b)) ∧
  (∀ a b : F32, a &&& 0x7FFFFFFF = 0x7F800000 → b &&& 0x7FFFFFFF = 0x7F800000 →
    nan32P (numRef.sub32 a a) ∧ nan32P (numRef.div32 a b)) ∧
  (∀ a z : F32, a &&& 0x7FFFFFFF = 0x7F800000 → zero32 z → nan32P (numRef.mul32 a z) ∧ nan32P (numRef.mul32 z a)) ∧
  (∀ z y : F32, zero32 z → zero32 y → nan32P (numRef.div32 z y))

/-- Comparison, magnitude, negation, maximum and minimum under Num_ref (R126, R127, R128), and step 1 of PREP (R237, R264): a
rate is valid exactly when it is a finite number above 0, and the default SAFE_SR is one. -/
def Obligations.RefComparisons : Prop :=
  (∀ x : F64, (numRef.isfinite64 x && numRef.gt64 x 0) = true ↔ finite64 x ∧ 0 < rat64 x) ∧
  (numRef.isfinite64 0x40E5888000000000 && numRef.gt64 0x40E5888000000000 0) = true ∧
  (∀ a b : F32, finite32 a → finite32 b → (numRef.gt32 a b = true ↔ rat32 b < rat32 a)) ∧
  (∀ a : F32, finite32 a →
    numRef.gt32 0x7F800000 a = true ∧ numRef.gt32 a 0xFF800000 = true ∧
    numRef.gt32 a 0x7F800000 = false ∧ numRef.gt32 0xFF800000 a = false) ∧
  (∀ a b : F32, nan32P a ∨ nan32P b → numRef.gt32 a b = false) ∧
  (∀ a b : F64, finite64 a → finite64 b → (numRef.gt64 a b = true ↔ rat64 b < rat64 a)) ∧
  (∀ a b : F32, numRef.lt32 a b = numRef.gt32 b a) ∧
  (∀ (a : F32) (k : Nat), k < 32 →
    (numRef.abs32 a).getLsbD k = (a.getLsbD k && decide (k ≠ 31)) ∧
    (numRef.neg32 a).getLsbD k = (a.getLsbD k != decide (k = 31))) ∧
  (∀ a : F32, finite32 a → rat32 (numRef.abs32 a) = |rat32 a| ∧ rat32 (numRef.neg32 a) = -rat32 a) ∧
  (∀ a b : F32,
    (rat32 a < rat32 b → finite32 a → finite32 b → numRef.max32 a b = b ∧ numRef.min32 b a = a) ∧
    (rat32 b ≤ rat32 a → finite32 a → finite32 b → numRef.max32 a b = a ∧ numRef.min32 b a = b) ∧
    (nan32P a ∨ nan32P b → numRef.max32 a b = a ∧ numRef.min32 a b = a))

/-- The conversions under Num_ref are exact (R132), the square of an F32 is exact in F64 (R145), and so is a frame count (R121). -/
def Obligations.RefConversionsAreExact : Prop :=
  (∀ a : F32, finite32 a →
    finite64 (numRef.cvt32to64 a) ∧ rat64 (numRef.cvt32to64 a) = rat32 a ∧
    rat64 (numRef.mul64 (numRef.cvt32to64 a) (numRef.cvt32to64 a)) = rat32 a * rat32 a ∧
    (¬zero32 a → numRef.cvt64to32 (numRef.cvt32to64 a) = a)) ∧
  (∀ n : Index, finite64 (numRef.cvtU24to64 n) ∧ rat64 (numRef.cvtU24to64 n) = n.toNat)

/-- Properties NP1, NP2, NP3 and NP6 of R123, and the three values that NP4 fixes, for Num_ref. -/
def Obligations.RefNP1NP2NP3NP6AndValuesOfNP4 : Prop :=
  (∀ z : F32, zero32 z → numRef.pow10_32 z = 0x3F800000) ∧
  (∀ x : F32, numRef.mul32 x 0x3F800000 = x) ∧
  (∀ x z : F32, finite32 x → zero32 z → zero32 (numRef.mul32 x z)) ∧
  (∀ x z : F32, finite32 x → ¬zero32 x → zero32 z → numRef.add32 x z = x) ∧
  (∀ y z : F32, zero32 y → zero32 z → zero32 (numRef.add32 y z)) ∧
  numRef.div32 0x3F800000 0x3F800000 = 0x3F800000 ∧
  numRef.sub32 0x3F800000 0x3F800000 = 0x00000000 ∧
  numRef.log10_32 0x3F800000 = 0x00000000 ∧
  numRef.exp64 0xFFF0000000000000 = 0 ∧
  numRef.exp64 0x0000000000000000 = 0x3FF0000000000000 ∧ numRef.exp64 0x8000000000000000 = 0x3FF0000000000000

/-- The ratio-modulation bound under Num_ref (R171): for a finite requested ratio of at least 1.0 and any RMS that is finite, not
negative, and whose product with 4.0 does not overflow, in an admitted command (R147), S_RATIO writes a finite EFF_RATIO that is neither below 1.0 nor
above the requested ratio. -/
def Obligations.EffectiveRatioBound : Prop :=
  ∀ s : State, s.params.num = .ref → s.io.admitted = true → finite32 s.lat.ratio → numRef.lt32 s.lat.ratio 0x3F800000 = false →
    finite32 s.scr.maxrms → s.scr.maxrms.getLsbD 31 = false → finite32 (numRef.mul32 s.scr.maxrms 0x40800000) →
    ∃ t : State, exec .sRatio s = .next t ∧ finite32 t.res.effRatio ∧
      numRef.lt32 t.res.effRatio 0x3F800000 = false ∧ numRef.gt32 t.res.effRatio s.lat.ratio = false

/-- Monotonicity in the threshold at one frame, under Num_ref (R194): raising the threshold never raises GRV, and GRV is not
negative. The premises are those of an admitted command without overflow (R147): a finite level in dB, finite thresholds, a slope
that is finite and not negative, a finite difference and a finite product. -/
def Obligations.ThresholdMonotone : Prop :=
  ∀ (s : State) (thr : F32),
    let envDb := linToDb s.num s.params.dbFloor s.hid.env
    s.params.num = .ref → s.io.admitted = true → finite32 envDb → finite32 s.lat.thresh → finite32 thr →
    numRef.gt32 s.lat.thresh thr = false → finite32 (numRef.sub32 envDb s.lat.thresh) →
    finite32 s.scr.slope → s.scr.slope.getLsbD 31 = false →
    finite32 (numRef.mul32 (numRef.sub32 envDb s.lat.thresh) s.scr.slope) →
    ∃ t t' : State,
      exec .eGrc s = .next t ∧ exec .eGrc { s with lat := { s.lat with thresh := thr } } = .next t' ∧
      numRef.gt32 t'.scr.grv t.scr.grv = false ∧ t'.scr.grv.getLsbD 31 = false ∧ t.scr.grv.getLsbD 31 = false

/-- The ratio clamp under Num_ref (R195): two EGE commands on admitted inputs (R147) whose ratios are both at most 1.0 leave the same state, bit for bit, but
for the ratio register and its latch; and E_COEF then has RATIO_C = 1.0 and SLOPE = +0.0. -/
def Obligations.RatiosBelowOneAreOne : Prop :=
  (∀ (s : State) (len : Index) (r1 r2 : F32), s.params.num = .ref →
    s.admits [s.host.pThresh, r1, r2, s.host.pAttack, s.host.pRelease] len → numRef.gt32 r1 0x3F800000 = false → numRef.gt32 r2 0x3F800000 = false →
    mapNext (fun t => { t with host := s.host, lat := s.lat }) (exec (.ege len) (s.withHost { s.host with pRatio := r1 })) =
      mapNext (fun t => { t with host := s.host, lat := s.lat })
        (exec (.ege len) (s.withHost { s.host with pRatio := r2 }))) ∧
  (∀ s : State, s.params.num = .ref → s.io.admitted = true → s.lat.op = 4 → finite32 s.lat.ratio → numRef.gt32 s.lat.ratio 0x3F800000 = false →
    ∃ t : State, exec .eCoef s = .next t ∧ t.scr.ratioC = 0x3F800000 ∧ t.scr.slope = 0x00000000)

/-- The concrete kernels are admissible (R149 to R151). K_ID is quiet with every memory. K_RBJ over Num_ref, with any coefficients
that are finite words, is quiet with a memory of zeros (KP1) and gives finite outputs (KP4); both its designs give finite words
at every rate, so each is an admissible kernel. -/
def Obligations.ConcreteKernelsAreAdmissible : Prop :=
  (∀ k : KCoef, QuietKernel kernelId k (fun _ => True)) ∧ AdmissibleKernel kernelId ∧
  (∀ (design : F64 → KCoef) (k : KCoef), (∀ w ∈ k, finite32 w) →
    QuietKernel (kernelRbj numRef design) k (fun m => ∀ w ∈ m, zero32 w) ∧ FiniteKernel (kernelRbj numRef design) k) ∧
  AdmissibleKernel (kernelRbj numRef rbjBandPass) ∧ AdmissibleKernel (kernelRbj numRef rbjHighPass) ∧
  ∀ (sr : F64), ∀ w ∈ rbjBandPass sr ++ rbjHighPass sr, finite32 w

/-- Silence through the HEN under Num_ref (R218): a block of zeros, quiet filter memories and a finite gain, linear gain and
mix give a block of zeros. -/
def Obligations.SilenceStaysSilent : Prop :=
  ∀ (s : State) (len : Index) (quiet : KMem → Prop),
    s.params.wf = true → s.params.num = .ref → s.ready len →
    QuietKernel (hpfOf s.params) s.hid.hpfCoef quiet →
    (∀ c : Chan, c.toNat < s.params.nch.toNat → quiet (laneGet s.hid.hpfMem c)) →
    (∀ (c : Chan) (n : Index) (v : F32), c.toNat < s.params.nch.toNat → n.toNat < len.toNat →
      memRead s.buf (bufAddr c n) = some v → zero32 v) →
    finite32 s.host.pOutgain → finite32 (numRef.pow10_32 (numRef.div32 s.host.pOutgain 0x41A00000)) →
    finite32 (numRef.mul32 0x3DCCCCCD (numRef.max32 0x00000000 (numRef.div32 s.host.pOutgain 0x41C00000))) →
    ∃ t : State, exec (.hen len) s = .next t ∧
      ∀ (c : Chan) (n : Index), c.toNat < s.params.nch.toNat → n.toNat < len.toNat →
        ∃ z : F32, memRead t.buf (bufAddr c n) = some z ∧ zero32 z
end

