-- ==== Sys2Proof/Laws/Encoding.lean ====
section
/-! SUPPORT. The fields of an encoded word, read back. -/

namespace Sys2Proof

/-! ## Transaction headers (30_encoding R91) -/

theorem headerIsWrite_txnHeader (d s : BitVec 1) (a : WordAddr) : headerIsWrite (txnHeader d s a) = d.getLsbD 0 := by
  unfold headerIsWrite txnHeader
  rw [BitVec.getLsbD_append, BitVec.getLsbD_append]; rfl

theorem headerIsBuf_txnHeader (d s : BitVec 1) (a : WordAddr) : headerIsBuf (txnHeader d s a) = s.getLsbD 0 := by
  unfold headerIsBuf txnHeader
  rw [BitVec.getLsbD_append, BitVec.getLsbD_append]; rfl

theorem headerAddr_txnHeader (d s : BitVec 1) (a : WordAddr) : headerAddr (txnHeader d s a) = a := by
  refine BitVec.eq_of_getLsbD_eq fun i hi => ?_
  simp only [headerAddr, txnHeader, BitVec.getLsbD_extractLsb', BitVec.getLsbD_append]
  simp [hi]

theorem headerChan_txnHeader (d s : BitVec 1) (c : Chan) (n : Index) : headerChan (txnHeader d s (c ++ n)) = c := by
  refine BitVec.eq_of_getLsbD_eq fun i hi => ?_
  simp only [headerChan, txnHeader, BitVec.getLsbD_extractLsb', BitVec.getLsbD_append]
  simp [hi, show 24 + i < 30 by omega]

theorem headerIndex_txnHeader (d s : BitVec 1) (c : Chan) (n : Index) : headerIndex (txnHeader d s (c ++ n)) = n := by
  refine BitVec.eq_of_getLsbD_eq fun i hi => ?_
  simp only [headerIndex, txnHeader, BitVec.getLsbD_extractLsb', BitVec.getLsbD_append]
  simp [hi, show i < 30 by omega]

/-! ## Command words (30_encoding R96) -/

theorem cmdOp_cmdWord (op : BitVec 4) (n : Index) : cmdOp (cmdWord op n) = op := by
  refine BitVec.eq_of_getLsbD_eq fun i hi => ?_
  simp only [cmdOp, cmdWord, BitVec.getLsbD_extractLsb', BitVec.getLsbD_append]
  simp [hi, show ¬(28 + i < 24) by omega, show ¬(28 + i - 24 < 4) by omega, show 28 + i - 24 - 4 = i by omega]

theorem cmdRsv_cmdWord (op : BitVec 4) (n : Index) : cmdRsv (cmdWord op n) = 0 := by
  refine BitVec.eq_of_getLsbD_eq fun i hi => ?_
  simp only [cmdRsv, cmdWord, BitVec.getLsbD_extractLsb', BitVec.getLsbD_append]
  simp [hi]

theorem cmdLen_cmdWord (op : BitVec 4) (n : Index) : cmdLen (cmdWord op n) = n := by
  refine BitVec.eq_of_getLsbD_eq fun i hi => ?_
  simp only [cmdLen, cmdWord, BitVec.getLsbD_extractLsb', BitVec.getLsbD_append]
  simp [hi]

/-- A command word with a zero RSV is made of its other two fields. -/
theorem cmdWord_fields (w : Word) (h : cmdRsv w = 0) : cmdWord (cmdOp w) (cmdLen w) = w := by
  refine BitVec.eq_of_getLsbD_eq fun i hi => ?_
  have h' : ∀ j, j < 4 → w.getLsbD (24 + j) = false := by
    intro j hj
    have := congrArg (fun x : BitVec 4 => x.getLsbD j) h
    simpa [cmdRsv, hj] using this
  simp only [cmdOp, cmdLen, cmdWord, BitVec.getLsbD_append, BitVec.getLsbD_extractLsb']
  by_cases h1 : i < 24
  · simp [h1]
  · by_cases h2 : i < 28
    · have := h' (i - 24) (by omega)
      rw [show 24 + (i - 24) = i by omega] at this
      simp [h1, show i - 24 < 4 by omega, this]
    · simp [h1, show ¬(i - 24 < 4) by omega, show i - 24 - 4 < 4 by omega, show 28 + (i - 24 - 4) = i by omega]

end Sys2Proof
end

