-- ==== Sys2Proof/Laws/Flush.lean ====
section
/-! SUPPORT. A record with flush to zero is admissible (40_numerics R133): what flushing does to a pattern and to its value, that
the two nearest values survive it, and that the flushed form of a record with NP1 to NP8 has them. -/

namespace Sys2Proof.Machine

/-! ## Subnormal patterns -/

/-- A subnormal pattern has the exponent field zero. -/
theorem isSub_exponent {f : Fmt} {c : Nat} (h : isSub f c = true) : c % f.sign / 2 ^ (f.prec - 1) = 0 := by
  simp only [isSub, Bool.and_eq_true, decide_eq_true_eq] at h
  by_contra he
  have h2 := h.2
  simp only [mag, he, if_false] at h2
  have : 2 ^ (f.prec - 1) * 1 ≤
      (2 ^ (f.prec - 1) + c % f.sign % 2 ^ (f.prec - 1)) * 2 ^ (c % f.sign / 2 ^ (f.prec - 1) - 1) :=
    Nat.mul_le_mul (Nat.le_add_right _ _) Nat.one_le_two_pow
  omega

theorem isSub_lt {f : Fmt} {c : Nat} (h : isSub f c = true) : c % f.sign < 2 ^ (f.prec - 1) := by
  have := isSub_exponent h
  rw [Nat.div_eq_zero_iff] at this
  exact this.resolve_left (by positivity)

/-- A pattern that is not subnormal is zero or of full precision. -/
theorem mag_of_not_sub {f : Fmt} {c : Nat} (h : isSub f c = false) : mag f c = 0 ∨ 2 ^ (f.prec - 1) ≤ mag f c := by
  simp only [isSub, Bool.and_eq_false_iff, decide_eq_false_iff_not] at h
  omega

theorem val_natAbs (f : Fmt) (c : Nat) : (val f c).natAbs = mag f c := by unfold val; split <;> simp

/-! ## Flushing -/

theorem flush32_of_not_sub {x : F32} (h : isSub fmt32 x.toNat = false) : flush32 x = x := by simp [flush32, h]

theorem flush64_of_not_sub {x : F64} (h : isSub fmt64 x.toNat = false) : flush64 x = x := by simp [flush64, h]

/-- All that flushing can do: nothing, or a zero for a subnormal number. -/
theorem flush32_cases (x : F32) :
    (isSub fmt32 x.toNat = false ∧ flush32 x = x) ∨ (isSub fmt32 x.toNat = true ∧ zero32 (flush32 x)) := by
  cases h : isSub fmt32 x.toNat
  · exact .inl ⟨rfl, flush32_of_not_sub h⟩
  · refine .inr ⟨rfl, ?_⟩
    simp only [flush32, h, if_true, zero32]
    cases isNeg fmt32 x.toNat <;> simp

theorem flush64_cases (x : F64) :
    (isSub fmt64 x.toNat = false ∧ flush64 x = x) ∨
      (isSub fmt64 x.toNat = true ∧ zero64 (flush64 x)) := by
  cases h : isSub fmt64 x.toNat
  · exact .inl ⟨rfl, flush64_of_not_sub h⟩
  · refine .inr ⟨rfl, ?_⟩
    simp only [flush64, h, if_true, zero64]
    cases isNeg fmt64 x.toNat <;> simp

/-- A zero is finite, not subnormal, and its value is 0. -/
theorem zero32_facts {x : F32} (h : zero32 x) : finite32 x ∧ isSub fmt32 x.toNat = false ∧ val fmt32 x.toNat = 0 := by
  rcases h with rfl | rfl <;> exact ⟨⟨by decide, by decide⟩, by decide, by decide⟩

theorem zero64_facts {x : F64} (h : zero64 x) : finite64 x ∧ isSub fmt64 x.toNat = false ∧ val fmt64 x.toNat = 0 := by
  rcases h with rfl | rfl <;> exact ⟨⟨by decide, by decide⟩, by decide, by decide⟩

theorem sub_finite32 {x : F32} (h : isSub fmt32 x.toNat = true) : finite32 x := by
  have := isSub_lt h
  simp only [fmt32] at this
  exact ⟨decide_eq_false (by simp only [fmt32]; omega), decide_eq_false (by simp only [fmt32]; omega)⟩

theorem sub_finite64 {x : F64} (h : isSub fmt64 x.toNat = true) : finite64 x := by
  have := isSub_lt h
  simp only [fmt64] at this
  exact ⟨decide_eq_false (by simp only [fmt64]; omega), decide_eq_false (by simp only [fmt64]; omega)⟩

theorem flush32_finite {x : F32} : finite32 (flush32 x) ↔ finite32 x := by
  rcases flush32_cases x with ⟨h, e⟩ | ⟨h, hz⟩
  · rw [e]
  · exact ⟨fun _ => sub_finite32 h, fun _ => (zero32_facts hz).1⟩

theorem flush64_finite {x : F64} : finite64 (flush64 x) ↔ finite64 x := by
  rcases flush64_cases x with ⟨h, e⟩ | ⟨h, hz⟩
  · rw [e]
  · exact ⟨fun _ => sub_finite64 h, fun _ => (zero64_facts hz).1⟩

theorem flush32_nan {x : F32} : nan32P (flush32 x) ↔ nan32P x := by
  rcases flush32_cases x with ⟨h, e⟩ | ⟨h, hz⟩
  · rw [e]
  · have h1 := (sub_finite32 h).1
    have h2 := (zero32_facts hz).1.1
    simp [nan32P, h1, h2]

theorem flush64_nan {x : F64} : nan64P (flush64 x) ↔ nan64P x := by
  rcases flush64_cases x with ⟨h, e⟩ | ⟨h, hz⟩
  · rw [e]
  · have h1 := (sub_finite64 h).1
    have h2 := (zero64_facts hz).1.1
    simp [nan64P, h1, h2]

/-- The value of a flushed pattern: the same, or 0 for a value below full precision. -/
theorem val_flush32 (x : F32) :
    (val fmt32 (flush32 x).toNat = val fmt32 x.toNat ∧ (val fmt32 x.toNat = 0 ∨ 2 ^ 23 ≤ (val fmt32 x.toNat).natAbs)) ∨
      (val fmt32 (flush32 x).toNat = 0 ∧ (val fmt32 x.toNat).natAbs < 2 ^ 23) := by
  rw [val_natAbs]
  rcases flush32_cases x with ⟨h, e⟩ | ⟨h, hz⟩
  · refine .inl ⟨by rw [e], ?_⟩
    rw [← Int.natAbs_eq_zero, val_natAbs]
    exact mag_of_not_sub h
  · refine .inr ⟨(zero32_facts hz).2.2, ?_⟩
    simp only [isSub, Bool.and_eq_true, decide_eq_true_eq] at h
    exact h.2

theorem val_flush64 (x : F64) :
    (val fmt64 (flush64 x).toNat = val fmt64 x.toNat ∧ (val fmt64 x.toNat = 0 ∨ 2 ^ 52 ≤ (val fmt64 x.toNat).natAbs)) ∨
      (val fmt64 (flush64 x).toNat = 0 ∧ (val fmt64 x.toNat).natAbs < 2 ^ 52) := by
  rw [val_natAbs]
  rcases flush64_cases x with ⟨h, e⟩ | ⟨h, hz⟩
  · refine .inl ⟨by rw [e], ?_⟩
    rw [← Int.natAbs_eq_zero, val_natAbs]
    exact mag_of_not_sub h
  · refine .inr ⟨(zero64_facts hz).2.2, ?_⟩
    simp only [isSub, Bool.and_eq_true, decide_eq_true_eq] at h
    exact h.2

/-- Flushing keeps the order of values. -/
theorem flush32_mono {a b : F32} (h : le32 a b) : le32 (flush32 a) (flush32 b) := by
  intro ha hb
  have := h (mt flush32_nan.2 ha) (mt flush32_nan.2 hb)
  rcases val_flush32 a with ⟨ea, ca⟩ | ⟨ea, ca⟩ <;> rcases val_flush32 b with ⟨eb, cb⟩ | ⟨eb, cb⟩ <;> rw [ea, eb] <;> omega

theorem flush64_mono {a b : F64} (h : le64 a b) : le64 (flush64 a) (flush64 b) := by
  intro ha hb
  have := h (mt flush64_nan.2 ha) (mt flush64_nan.2 hb)
  rcases val_flush64 a with ⟨ea, ca⟩ | ⟨ea, ca⟩ <;> rcases val_flush64 b with ⟨eb, cb⟩ | ⟨eb, cb⟩ <;> rw [ea, eb] <;> omega

/-! ## The two nearest values -/

/-- One of the two nearest values, flushed, is what NP8 allows with flush to zero. -/
theorem nearTwo32_flush {x : ℝ} {r : F32} (h : nearTwo32 false x r) : nearTwo32 true x (flush32 r) := by
  intro hx
  obtain ⟨hf, hn | ⟨e, -⟩⟩ := h hx
  · refine ⟨flush32_finite.2 hf, ?_⟩
    rcases flush32_cases r with ⟨-, e⟩ | ⟨hs, hz⟩
    · rw [e]; exact .inl hn
    · exact .inr ⟨rfl, hz, r, hs, hn⟩
  · cases e

theorem nearTwo64_flush {x : ℝ} {r : F64} (h : nearTwo64 false x r) : nearTwo64 true x (flush64 r) := by
  intro hx
  obtain ⟨hf, hn | ⟨e, -⟩⟩ := h hx
  · refine ⟨flush64_finite.2 hf, ?_⟩
    rcases flush64_cases r with ⟨-, e⟩ | ⟨hs, hz⟩
    · rw [e]; exact .inl hn
    · exact .inr ⟨rfl, hz, r, hs, hn⟩
  · cases e

/-- What is allowed without flush to zero is allowed with it. -/
theorem nearTwo32_weaken {x : ℝ} {r : F32} (h : nearTwo32 false x r) : nearTwo32 true x r := fun hx =>
  ⟨(h hx).1, (h hx).2.imp id fun ⟨e, _⟩ => by cases e⟩

theorem nearTwo64_weaken {x : ℝ} {r : F64} (h : nearTwo64 false x r) : nearTwo64 true x r := fun hx =>
  ⟨(h hx).1, (h hx).2.imp id fun ⟨e, _⟩ => by cases e⟩

/-! ## The flushed form of an admissible record -/

theorem flush32_zero {x : F32} (h : zero32 x) : flush32 x = x := flush32_of_not_sub (zero32_facts h).2.1

/-- The patterns that R123 names: the zeros, −∞ and 1.0 are not flushed. -/
theorem flush32_consts : flush32 0x00000000 = 0x00000000 ∧ flush32 0x80000000 = 0x80000000 ∧ flush32 0x3F800000 = 0x3F800000 := by
  decide

theorem flush64_consts : flush64 0x0000000000000000 = 0x0000000000000000 ∧ flush64 0x3FF0000000000000 = 0x3FF0000000000000 := by
  decide +kernel

theorem le64_rat {a b : F64} (ha : finite64 a) (hb : finite64 b) : le64 a b ↔ rat64 a ≤ rat64 b := by
  have : le64 a b ↔ val fmt64 a.toNat ≤ val fmt64 b.toNat :=
    ⟨fun h => h (by simp [nan64P, ha.1]) (by simp [nan64P, hb.1]), fun h _ _ => h⟩
  rw [this, rat64, rat64, div_le_div_iff_of_pos_right (by positivity), Int.cast_le]

/-- `belowOne` of the value. -/
theorem belowOne_val {x : F32} : belowOne x = true ↔ (val fmt32 x.toNat).natAbs < 2 ^ 149 := by
  rw [val_natAbs, belowOne, decide_eq_true_eq]; rfl

/-- All that the flushed product can do. -/
theorem flushedMul_cases (N : Num) (a b : F32) :
    ((belowOne a = false ∨ belowOne b = false) ∧ flushedMul N a b = N.mul32 a b) ∨
      (belowOne a = true ∧ belowOne b = true ∧ flushedMul N a b = flush32 (N.mul32 a b)) := by
  unfold flushedMul
  cases belowOne a <;> cases belowOne b <;> simp

theorem flushedMul_nearTwo {N : Num} {x : ℝ} {a b : F32} (h : nearTwo32 false x (N.mul32 a b)) :
    nearTwo32 true x (flushedMul N a b) := by
  rcases flushedMul_cases N a b with ⟨-, e⟩ | ⟨-, -, e⟩ <;> rw [e]
  · exact nearTwo32_weaken h
  · exact nearTwo32_flush h

/-- Flushing takes a value towards zero, to zero at most. -/
theorem le32_flush_left {v w : F32} (h : le32 v w) (h0 : ¬nan32P w → 0 ≤ val fmt32 w.toNat) : le32 (flush32 v) w := by
  intro hv hw
  have := h (mt flush32_nan.2 hv) hw
  have := h0 hw
  rcases val_flush32 v with ⟨e, -⟩ | ⟨e, -⟩ <;> rw [e] <;> omega

theorem le32_flush_right {v w : F32} (h : le32 v w) (h0 : ¬nan32P v → val fmt32 v.toNat ≤ 0) : le32 v (flush32 w) := by
  intro hv hw
  have := h hv (mt flush32_nan.2 hw)
  have := h0 hv
  rcases val_flush32 w with ⟨e, -⟩ | ⟨e, -⟩ <;> rw [e] <;> omega

/-- A monotone product is monotone when it is flushed where the moving factor `a` is below 1.0 too. `f` is the product as a
function of that factor, zero at zero. -/
theorem flushed_mono {f : F32 → F32} {g : F32 → F32} (z : F32) (hz : zero32 z) (hfz : zero32 (f z))
    (hf : ∀ a a', ¬nan32P a → ¬nan32P a' → le32 a a' → le32 (f a) (f a'))
    (hg : ∀ a, (belowOne a = false ∧ g a = f a) ∨ (belowOne a = true ∧ g a = flush32 (f a)))
    (a a' : F32) (ha : ¬nan32P a) (ha' : ¬nan32P a') (hle : le32 a a') : le32 (g a) (g a') := by
  have hv := hle ha ha'
  have hn : ∀ {x : F32}, zero32 x → ¬nan32P x := fun h => by simp [nan32P, (zero32_facts h).1.1]
  rcases hg a with ⟨ba, ea⟩ | ⟨ba, ea⟩ <;> rcases hg a' with ⟨ba', ea'⟩ | ⟨ba', ea'⟩ <;> rw [ea, ea']
  · exact hf a a' ha ha' hle
  · refine le32_flush_right (hf a a' ha ha' hle) fun hfa => ?_
    have hb : ¬(val fmt32 a.toNat).natAbs < 2 ^ 149 := by rw [← belowOne_val, ba]; simp
    have hb' := belowOne_val.1 ba'
    have h0 : le32 a z := fun _ _ => by rw [(zero32_facts hz).2.2]; omega
    have := hf a z ha (hn hz) h0 hfa (hn hfz)
    rwa [(zero32_facts hfz).2.2] at this
  · refine le32_flush_left (hf a a' ha ha' hle) fun hfa => ?_
    have hb := belowOne_val.1 ba
    have hb' : ¬(val fmt32 a'.toNat).natAbs < 2 ^ 149 := by rw [← belowOne_val, ba']; simp
    have h0 : le32 z a' := fun _ _ => by rw [(zero32_facts hz).2.2]; omega
    have := hf z a' (hn hz) ha' h0 (hn hfz) hfa
    rwa [(zero32_facts hfz).2.2] at this
  · exact flush32_mono (hf a a' ha ha' hle)

section Flushed
variable {N : Num}

theorem flushed_neutral (h : NumNeutral N) : NumNeutral (flushed N) where
  one x := by
    show flushedMul N x 0x3F800000 = x
    rcases flushedMul_cases N x 0x3F800000 with ⟨-, e⟩ | ⟨-, hb, -⟩
    · rw [e, h.one x]
    · exact absurd hb (by decide)
  mul x z hx hz := by
    show zero32 (flushedMul N x z)
    have h0 := h.mul x z hx hz
    rcases flushedMul_cases N x z with ⟨-, e⟩ | ⟨-, -, e⟩ <;> rw [e]
    · exact h0
    · rwa [flush32_zero h0]
  add := h.add
  zeros := h.zeros

theorem flushed_exponential (h : NumExponential N) : NumExponential (flushed N) where
  unit a ha h0 := by
    have f0 : finite64 0x0000000000000000 := ⟨by decide, by decide⟩
    have f1 : finite64 0x3FF0000000000000 := ⟨by decide, by decide⟩
    have r0 : rat64 0x0000000000000000 = 0 := by
      rw [rat64, show val fmt64 (0 : F64).toNat = 0 by decide, Int.cast_zero, zero_div]
    have r1 : rat64 0x3FF0000000000000 = 1 := by
      rw [rat64, show val fmt64 (0x3FF0000000000000 : F64).toNat = 2 ^ 1074 by decide +kernel, Int.cast_pow, Int.cast_ofNat,
        div_self (pow_ne_zero _ two_ne_zero)]
    obtain ⟨hf, hl, hu⟩ := h.unit a ha h0
    refine ⟨flush64_finite.2 hf, ?_, ?_⟩
    · have := flush64_mono ((le64_rat f0 hf).2 (by rw [r0]; exact hl))
      rw [flush64_consts.1] at this
      rw [← r0]; exact (le64_rat f0 (flush64_finite.2 hf)).1 this
    · have := flush64_mono ((le64_rat hf f1).2 (by rw [r1]; exact hu))
      rw [flush64_consts.2] at this
      rw [← r1]; exact (le64_rat (flush64_finite.2 hf) f1).1 this
  bottom := by
    show flush64 (N.exp64 _) = _
    rw [h.bottom, flush64_consts.1]
  zero := by
    constructor <;> show flush64 (N.exp64 _) = _
    · rw [h.zero.1, flush64_consts.2]
    · rw [h.zero.2, flush64_consts.2]
  number a ha := mt flush64_nan.1 (h.number a ha)

/-- NP5 of the flushed record. `hz`: a product with a zero first factor is a zero too, which NP2 says of the second. -/
theorem flushed_monotone (h : NumMonotone N) (h2 : NumNeutral N)
    (hz : ∀ z k, zero32 z → finite32 k → zero32 (N.mul32 z k)) : NumMonotone (flushed N) where
  add := h.add
  sub := h.sub
  mul a a' k ha ha' hk hle h0 := by
    have z0 : zero32 0x00000000 := .inl rfl
    cases bk : belowOne k
    · have e1 : ∀ x, flushedMul N x k = N.mul32 x k := fun x => by simp [flushedMul, bk]
      have e2 : ∀ x, flushedMul N k x = N.mul32 k x := fun x => by simp [flushedMul, bk]
      simp only [flushed, e1, e2]
      exact h.mul a a' k ha ha' hk hle h0
    · have hkf : finite32 k := by
        have := belowOne_val.1 bk
        rw [val_natAbs] at this
        refine ⟨by simpa [nan32P] using hk, ?_⟩
        by_contra hi
        have hi : isInf fmt32 k.toNat = true := by simpa using hi
        have : mag fmt32 k.toNat = 2 ^ 277 := by
          rw [isInf, decide_eq_true_eq] at hi
          simp only [mag, hi]; decide +kernel
        omega
      constructor
      · exact flushed_mono (f := fun x => N.mul32 x k) (g := fun x => flushedMul N x k) 0x00000000 z0 (hz _ k z0 hkf)
          (fun x x' hx hx' hl => (h.mul x x' k hx hx' hk hl h0).1)
          (fun x => by cases bx : belowOne x <;> simp [flushedMul, bk, bx]) a a' ha ha' hle
      · exact flushed_mono (f := fun x => N.mul32 k x) (g := fun x => flushedMul N k x) 0x00000000 z0 (h2.mul k _ hkf z0)
          (fun x x' hx hx' hl => (h.mul x x' k hx hx' hk hl h0).2)
          (fun x => by cases bx : belowOne x <;> simp [flushedMul, bk, bx]) a a' ha ha' hle
  log := h.log
  pow a a' ha ha' hle := flush32_mono (h.pow a a' ha ha' hle)
  cvt a a' ha ha' hle := flush32_mono (h.cvt a a' ha ha' hle)
  sqrt := h.sqrt

theorem flushed_nearest (h : NumNearest false N) : NumNearest true (flushed N) where
  add a b ha hb := nearTwo32_weaken (h.add a b ha hb)
  sub a b ha hb := nearTwo32_weaken (h.sub a b ha hb)
  mul a b ha hb := flushedMul_nearTwo (h.mul a b ha hb)
  div a b ha hb h0 := nearTwo32_flush (h.div a b ha hb h0)
  log a ha h0 := nearTwo32_weaken (h.log a ha h0)
  pow a ha := nearTwo32_flush (h.pow a ha)
  narrow a ha := nearTwo32_flush (h.narrow a ha)
  mac _ _ _ _ _ _ _ _ hp hq := ⟨_, _, .inr rfl, .inr rfl, nearTwo32_weaken (h.add _ _ hp hq)⟩
  add64 a b ha hb := nearTwo64_weaken (h.add64 a b ha hb)
  mul64 a b ha hb := nearTwo64_flush (h.mul64 a b ha hb)
  div64 a b ha hb h0 := nearTwo64_flush (h.div64 a b ha hb h0)
  sqrt64 a ha h0 := nearTwo64_weaken (h.sqrt64 a ha h0)
  exp64 a ha := nearTwo64_flush (h.exp64 a ha)

/-- The flushed form of a record with NP1 to NP8 is admissible (R133). -/
theorem flushed_properties (h : NumProperties false N) (hz : ∀ z k, zero32 z → finite32 k → zero32 (N.mul32 z k)) :
    NumProperties true (flushed N) where
  compares := ⟨h.compares.gt, h.compares.lt, h.compares.max, h.compares.min, h.compares.gt64, h.compares.isfinite⟩
  np1 := by
    constructor <;> show flush32 (N.pow10_32 _) = _
    · rw [h.np1.1, flush32_consts.2.2]
    · rw [h.np1.2, flush32_consts.2.2]
  np2 := flushed_neutral h.np2
  np3 := ⟨by show flush32 (N.div32 _ _) = _; rw [h.np3.1, flush32_consts.2.2], h.np3.2⟩
  np4 := flushed_exponential h.np4
  np5 := flushed_monotone h.np5 h.np2 hz
  np6 := h.np6
  np7 := ⟨h.np7.abs, h.np7.neg, h.np7.widen, h.np7.count⟩
  np8 := flushed_nearest h.np8

end Flushed

/-! ## Num_ref's products of zeros -/

theorem zero32_mag {x : F32} (h : zero32 x) : mag fmt32 x.toNat = 0 := by rcases h with rfl | rfl <;> decide

/-- Nothing rounds to a zero. -/
theorem pack32_zero (neg : Bool) (d : Nat) : zero32 (BitVec.ofNat 32 (pack fmt32 neg 0 d)) := by
  have h : pack fmt32 neg 0 d = if neg then 2147483648 else 0 := by cases neg <;> simp [pack, roundUnits, fmt32]
  cases neg <;> simp [h, zero32]

/-- The premise of `flushed_properties`, of Num_ref: a product whose first factor is a zero is a zero (R125). -/
theorem refMul32_zero_left (z k : F32) (hz : zero32 z) (hk : finite32 k) : zero32 (refMul32 z k) := by
  unfold refMul32
  split
  · exact hz
  · obtain ⟨⟨hn, hi⟩, -, -⟩ := zero32_facts hz
    have : mulCode fmt32 (nan32 1 z k) z.toNat k.toNat =
        pack fmt32 (isNeg fmt32 z.toNat != isNeg fmt32 k.toNat) 0 (2 ^ fmt32.unit) := by
      simp [mulCode, hn, hi, hk.1, hk.2, zero32_mag hz]
    rw [this]; exact pack32_zero _ _

end Sys2Proof.Machine
end

