-- ==== Sys2Proof/Laws/Memory.lean ====
section
/-! SUPPORT. The laws of BUF: bytes, words, samples. Each operation keeps the canonical form, a read after a write to the same
place gives the value written, and a write leaves every other place alone. -/

namespace Sys2Proof.Machine

/-! ## Bytes -/

/-- A read after a write of one byte; no canonical form is needed. -/
theorem readByte_writeByte (m : Memory) (a : Nat) (b : Byte) (x : Nat) :
    readByte (writeByte m a b) x = if x = a then some b else readByte m x := by
  induction m with
  | nil => simp [writeByte, readByte]
  | cons kv rest ih =>
    obtain ⟨k, v⟩ := kv
    simp only [writeByte]
    split
    · simp [readByte]
    · split
      · subst_vars; simp only [readByte]; split <;> simp_all
      · simp only [readByte, ih]; split <;> split <;> simp_all

theorem wf_cons_iff (k : Nat) (v : Byte) (rest : Memory) :
    Memory.wf ((k, v) :: rest) = true ↔ (∀ p ∈ rest.head?, k < p.1) ∧ Memory.wf rest = true := by
  cases rest with
  | nil => simp [Memory.wf]
  | cons p r => obtain ⟨a, b⟩ := p; simp [Memory.wf]

/-- Writing a byte keeps the canonical form. -/
theorem wf_writeByte (m : Memory) (a : Nat) (b : Byte) (h : Memory.wf m = true) :
    Memory.wf (writeByte m a b) = true := by
  induction m with
  | nil => rfl
  | cons kv rest ih =>
    obtain ⟨k, v⟩ := kv
    simp only [writeByte]
    rw [wf_cons_iff] at h
    split
    · rw [wf_cons_iff, wf_cons_iff]; exact ⟨by simpa, h⟩
    · split
      · subst_vars; rw [wf_cons_iff]; exact h
      · rw [wf_cons_iff]
        refine ⟨?_, ih h.2⟩
        cases rest with
        | nil => simp [writeByte]; omega
        | cons p r =>
          obtain ⟨j, w⟩ := p
          have hj : k < j := h.1 (j, w) (by simp)
          simp only [writeByte]
          split
          · simp; omega
          · split <;> simp <;> omega

/-! ## Words -/

/-- The bytes of `joinBytes` are the bytes of the word, in BUF's byte order. -/
theorem joinBytes_wordByte (d : Word) :
    joinBytes (wordByte d (byteIndex Config.byteOrder 3)) (wordByte d (byteIndex Config.byteOrder 2))
      (wordByte d (byteIndex Config.byteOrder 1)) (wordByte d (byteIndex Config.byteOrder 0)) = d := by
  simp only [joinBytes, wordByte, byteIndex, Config.byteOrder]
  ext i hi
  simp only [BitVec.getElem_append, BitVec.getElem_extractLsb']
  split
  · simp; congr 1
  · split
    · simp; rw [BitVec.getElem_eq_testBit_toNat, BitVec.getLsbD]; congr 1; omega
    · split
      · simp; rw [BitVec.getElem_eq_testBit_toNat, BitVec.getLsbD]; congr 1; omega
      · simp; rw [BitVec.getElem_eq_testBit_toNat, BitVec.getLsbD]; congr 1; omega

/-- Writing a word keeps the canonical form. -/
theorem wf_memWrite (m : Memory) (w : WordAddr) (d : Word) (h : Memory.wf m = true) :
    Memory.wf (memWrite m w d) = true := by
  unfold memWrite
  exact wf_writeByte _ _ _ (wf_writeByte _ _ _ (wf_writeByte _ _ _ (wf_writeByte _ _ _ h)))

/-- Every byte after a write of a word: the word's own four bytes, and the bytes that were there elsewhere. -/
theorem readByte_memWrite (m : Memory) (w : WordAddr) (d : Word) (x : Nat) :
    readByte (memWrite m w d) x = if x / 4 = w.toNat then some (wordByte d (x % 4)) else readByte m x := by
  simp only [memWrite, readByte_writeByte, byteAddr]
  by_cases h3 : x = 4 * w.toNat + 3
  · rw [if_pos h3, if_pos (by omega), show x % 4 = 3 by omega]
  rw [if_neg h3]
  by_cases h2 : x = 4 * w.toNat + 2
  · rw [if_pos h2, if_pos (by omega), show x % 4 = 2 by omega]
  rw [if_neg h2]
  by_cases h1 : x = 4 * w.toNat + 1
  · rw [if_pos h1, if_pos (by omega), show x % 4 = 1 by omega]
  rw [if_neg h1]
  by_cases h0 : x = 4 * w.toNat + 0
  · rw [if_pos h0, if_pos (by omega), show x % 4 = 0 by omega]
  rw [if_neg h0, if_neg (by omega)]

/-- A word's bytes, read one by one. -/
theorem memRead_congr (m m' : Memory) (w : WordAddr)
    (h : ∀ i, i < 4 → readByte m (byteAddr w i) = readByte m' (byteAddr w i)) : memRead m w = memRead m' w := by
  unfold memRead
  simp only [byteIndex, Config.byteOrder]
  rw [h 0 (by omega), h 1 (by omega), h 2 (by omega), h 3 (by omega)]

/-- A read after a write to the same word gives the word written. -/
theorem memRead_memWrite_same (m : Memory) (w : WordAddr) (d : Word) :
    memRead (memWrite m w d) w = some d := by
  have hb : ∀ i, i < 4 → readByte (memWrite m w d) (byteAddr w i) = some (wordByte d i) := by
    intro i hi
    rw [readByte_memWrite, if_pos (by simp only [byteAddr]; omega)]
    congr 2; simp only [byteAddr]; omega
  unfold memRead
  simp only [byteIndex, Config.byteOrder]
  rw [hb 0 (by omega), hb 1 (by omega), hb 2 (by omega), hb 3 (by omega)]
  exact congrArg some (joinBytes_wordByte d)

/-- A write to one word leaves every other word alone. -/
theorem memRead_memWrite_other (m : Memory) (w w' : WordAddr) (d : Word) (hne : w' ≠ w) :
    memRead (memWrite m w d) w' = memRead m w' := by
  refine memRead_congr _ _ _ fun i hi => ?_
  rw [readByte_memWrite, if_neg]
  have : w'.toNat ≠ w.toNat := fun e => hne (BitVec.eq_of_toNat_eq e)
  simp only [byteAddr]; omega

theorem memRead_memWrite (m : Memory) (w w' : WordAddr) (d : Word) :
    memRead (memWrite m w d) w' = if w' = w then some d else memRead m w' := by
  split
  · subst_vars; exact memRead_memWrite_same m w' d
  · exact memRead_memWrite_other m w w' d ‹_›

/-! ## Samples -/

theorem bufAddr_toNat (c : Chan) (n : Index) : (bufAddr c n).toNat = c.toNat * 2 ^ 24 + n.toNat := by
  unfold bufAddr
  rw [BitVec.toNat_append, Nat.shiftLeft_eq, Nat.mul_comm, ← Nat.two_pow_add_eq_or_of_lt n.isLt]

/-- Different samples have different addresses (20_memory R63). -/
theorem bufAddr_inj {c c' : Chan} {n n' : Index} (h : bufAddr c n = bufAddr c' n') : c = c' ∧ n = n' := by
  have h' := congrArg BitVec.toNat h
  rw [bufAddr_toNat, bufAddr_toNat] at h'
  have := n.isLt
  have := n'.isLt
  exact ⟨BitVec.eq_of_toNat_eq (by omega), BitVec.eq_of_toNat_eq (by omega)⟩

/-- What a read of a sample can answer, and when. -/
theorem readSample_eq (s : State) (c : Chan) (n : Index) :
    readSample s c n =
      if inBuf s.params c n = true then
        match memRead s.buf (bufAddr c n) with
        | some v => .ok v
        | none => .error .unwrittenWord
      else .error .bufOutOfRange := rfl

theorem readSample_ok_iff (s : State) (c : Chan) (n : Index) (v : F32) :
    readSample s c n = .ok v ↔ inBuf s.params c n = true ∧ memRead s.buf (bufAddr c n) = some v := by
  rw [readSample_eq]
  split
  · cases h : memRead s.buf (bufAddr c n) <;> simp_all
  · simp_all

/-- A read of a sample depends on the instance and on the sample's word. -/
theorem readSample_congr (s t : State) (c : Chan) (n : Index) (hp : t.params = s.params)
    (hm : memRead t.buf (bufAddr c n) = memRead s.buf (bufAddr c n)) : readSample t c n = readSample s c n := by
  rw [readSample_eq, readSample_eq, hp, hm]

theorem writeSample_ok_iff (p : Params) (m m' : Memory) (c : Chan) (n : Index) (v : F32) :
    writeSample p m c n v = .ok m' ↔ inBuf p c n = true ∧ m' = memWrite m (bufAddr c n) v := by
  unfold writeSample
  by_cases h : inBuf p c n = true
  · rw [if_pos h]; exact ⟨fun e => ⟨h, (Except.ok.inj e).symm⟩, fun e => congrArg _ e.2.symm⟩
  · rw [if_neg h]; exact ⟨fun e => (nomatch e), fun e => absurd e.1 h⟩

theorem inBuf_iff (p : Params) (c : Chan) (n : Index) :
    inBuf p c n = true ↔ c.toNat < p.nch.toNat ∧ n.toNat < p.maxlen.toNat := by
  simp [inBuf]

/-- The memory of a core right after reset has the canonical form. -/
theorem wf_resetOf (p : Params) : Memory.wf (State.resetOf p).buf = true := rfl

end Sys2Proof.Machine
end

