-- ==== Sys2Proof/Laws/Lanes.lean ====
section
/-! SUPPORT. The per-channel register files, the loops over the channels, and what each loop of a micro-operation can do. -/

namespace Sys2Proof.Machine

/-! ## One entry -/

theorem laneGet_laneSet {α : Type} (v : Vector α 64) (c c' : Chan) (x : α) :
    laneGet (laneSet v c x) c' = if c = c' then x else laneGet v c' := by
  unfold laneGet laneSet
  rw [Vector.getElem_set]
  by_cases h : c = c'
  · subst h; simp
  · rw [if_neg h, if_neg (fun e => h (BitVec.eq_of_toNat_eq e))]

@[simp] theorem laneGet_laneSet_same {α : Type} (v : Vector α 64) (c : Chan) (x : α) :
    laneGet (laneSet v c x) c = x := by rw [laneGet_laneSet, if_pos rfl]

theorem laneGet_laneSet_other {α : Type} (v : Vector α 64) {c c' : Chan} (x : α) (h : c ≠ c') :
    laneGet (laneSet v c x) c' = laneGet v c' := by rw [laneGet_laneSet, if_neg h]

/-- Two register files with the same entries are equal. -/
theorem lane_ext {α : Type} {v w : Vector α 64} (h : ∀ c, laneGet v c = laneGet w c) : v = w := by
  ext i hi
  have := h (BitVec.ofNat 6 i)
  unfold laneGet at this
  simpa [BitVec.toNat_ofNat, Nat.mod_eq_of_lt hi] using this

@[simp] theorem laneGet_replicate {α : Type} (x : α) (c : Chan) : laneGet (Vector.replicate 64 x) c = x := by
  simp [laneGet]

/-! ## The channels -/

theorem mem_channels (p : Params) (c : Chan) : c ∈ channels p ↔ c.toNat < p.nch.toNat := by
  unfold channels
  simp only [List.mem_map, List.mem_range]
  constructor
  · rintro ⟨k, hk, rfl⟩
    rw [BitVec.toNat_ofNat]
    exact lt_of_le_of_lt (Nat.mod_le _ _) hk
  · intro hc
    exact ⟨c.toNat, hc, by simp⟩

theorem channels_nodup (p : Params) (h : p.nch.toNat ≤ 64) : (channels p).Nodup := by
  unfold channels
  refine List.Nodup.map_on ?_ List.nodup_range
  intro x hx y hy e
  have := congrArg BitVec.toNat e
  simp only [List.mem_range] at hx hy
  simp only [BitVec.toNat_ofNat] at this
  omega

@[simp] theorem channels_length (p : Params) : (channels p).length = p.nch.toNat := by simp [channels]

/-- Filling some entries writes those and leaves the others alone. -/
theorem laneGet_laneFill {α : Type} (cs : List Chan) (x : α) (v : Vector α 64) (c : Chan) :
    laneGet (laneFill cs x v) c = if c ∈ cs then x else laneGet v c := by
  unfold laneFill
  induction cs generalizing v with
  | nil => simp
  | cons d ds ih =>
    rw [List.foldl_cons, ih, laneGet_laneSet]
    by_cases h : c ∈ ds
    · simp [h]
    · by_cases e : d = c
      · simp [e]
      · simp [h, e, Ne.symm e]

/-! ## The two loops of a frame -/

/-- All that the detection loop can do: it fills the lanes of the channels with the samples of the frame and folds their
magnitudes into the level, or it answers the fault of one sample's read. -/
theorem detectLanes_spec (s : State) (cs : List Chan) (lane : Vector F32 64) (level : F32) :
    (∃ vs : List F32,
        List.Forall₂ (fun c v => readSample s c s.pos.idx = .ok v) cs vs ∧
        detectLanes s cs lane level =
          .ok ((cs.zip vs).foldl (fun l p => laneSet l p.1 p.2) lane,
            vs.foldl (fun l v => s.num.max32 l (s.num.abs32 v)) level)) ∨
      ∃ f c, c ∈ cs ∧ readSample s c s.pos.idx = .error f ∧ detectLanes s cs lane level = .error f := by
  induction cs generalizing lane level with
  | nil => exact .inl ⟨[], .nil, rfl⟩
  | cons c cs ih =>
    cases h : readSample s c s.pos.idx with
    | error f => exact .inr ⟨f, c, by simp, h, by simp [detectLanes, h]⟩
    | ok v =>
      have hd : detectLanes s (c :: cs) lane level =
          detectLanes s cs (laneSet lane c v) (s.num.max32 level (s.num.abs32 v)) := by simp [detectLanes, h]
      rw [hd]
      rcases ih (laneSet lane c v) (s.num.max32 level (s.num.abs32 v)) with ⟨vs, hvs, e⟩ | ⟨f, c', hc', hf, e⟩
      · exact .inl ⟨v :: vs, .cons h hvs, by simpa using e⟩
      · exact .inr ⟨f, c', by simp [hc'], hf, e⟩

/-- The write-back loop, where every word of the frame exists. -/
theorem applyLanes_ok (s : State) (g : F32) (cs : List Chan) (m : Memory)
    (h : ∀ c ∈ cs, inBuf s.params c s.pos.idx = true) :
    applyLanes s g cs m =
      .ok (cs.foldl (fun m c => memWrite m (bufAddr c s.pos.idx) (s.num.mul32 (laneGet s.scr.lane c) g)) m) := by
  induction cs generalizing m with
  | nil => rfl
  | cons c cs ih =>
    have hc : writeSample s.params m c s.pos.idx (s.num.mul32 (laneGet s.scr.lane c) g) =
        .ok (memWrite m (bufAddr c s.pos.idx) (s.num.mul32 (laneGet s.scr.lane c) g)) := by
      rw [writeSample_ok_iff]; exact ⟨h c (by simp), rfl⟩
    simp only [applyLanes, hc, List.foldl_cons]
    exact ih _ fun d hd => h d (by simp [hd])

/-- If the write-back loop answers a memory, every word of the frame exists. -/
theorem applyLanes_inBuf (s : State) (g : F32) (cs : List Chan) (m m' : Memory) (h : applyLanes s g cs m = .ok m') :
    ∀ c ∈ cs, inBuf s.params c s.pos.idx = true := by
  induction cs generalizing m with
  | nil => simp
  | cons c cs ih =>
    simp only [applyLanes] at h
    split at h
    · cases h
    · rename_i m1 h1
      rw [writeSample_ok_iff] at h1
      intro d hd
      rcases List.mem_cons.1 hd with rfl | hd
      · exact h1.1
      · exact ih _ h d hd

/-- The words of BUF after the write-back of a list of channels. -/
theorem memRead_foldl_memWrite (cs : List Chan) (n : Index) (f : Chan → Word) (m : Memory) (w : WordAddr) :
    memRead (cs.foldl (fun m c => memWrite m (bufAddr c n) (f c)) m) w =
      if w.setWidth 24 = n ∧ w.extractLsb' 24 6 ∈ cs then some (f (w.extractLsb' 24 6)) else memRead m w := by
  have hw : ∀ c : Chan, w = bufAddr c n ↔ w.extractLsb' 24 6 = c ∧ w.setWidth 24 = n := by
    intro c
    constructor
    · rintro rfl
      refine ⟨BitVec.eq_of_toNat_eq ?_, BitVec.eq_of_toNat_eq ?_⟩
      · rw [BitVec.extractLsb'_toNat, bufAddr_toNat, Nat.shiftRight_eq_div_pow]
        have := n.isLt; have := c.isLt; omega
      · rw [BitVec.toNat_setWidth, bufAddr_toNat]
        have := n.isLt; omega
    · rintro ⟨rfl, rfl⟩
      refine BitVec.eq_of_toNat_eq ?_
      rw [bufAddr_toNat, BitVec.extractLsb'_toNat, BitVec.toNat_setWidth, Nat.shiftRight_eq_div_pow]
      have := w.isLt; omega
  induction cs generalizing m with
  | nil => simp
  | cons c cs ih =>
    rw [List.foldl_cons, ih, memRead_memWrite]
    by_cases h : w.setWidth 24 = n ∧ w.extractLsb' 24 6 ∈ cs
    · rw [if_pos h, if_pos ⟨h.1, by simp [h.2]⟩]
    · rw [if_neg h]
      by_cases e : w = bufAddr c n
      · have e' := (hw c).1 e
        rw [if_pos e, if_pos ⟨e'.2, by simp [e'.1]⟩, e'.1]
      · rw [if_neg e, if_neg]
        rintro ⟨h1, h2⟩
        rcases List.mem_cons.1 h2 with h2 | h2
        · exact e ((hw c).2 ⟨h2, h1⟩)
        · exact h ⟨h1, h2⟩

end Sys2Proof.Machine
end

