-- ==== Sys2Proof/Laws/State.lean ====
section
/-! SUPPORT. What each named update of the state leaves alone and what it changes: one lemma per field, so that no proof
unfolds a record update. -/

namespace Sys2Proof.Machine

/-! ## The sequencer position -/

@[simp] theorem goTo_params (p : PhaseCode) (s : State) : (goTo p s).params = s.params := rfl
@[simp] theorem goTo_host (p : PhaseCode) (s : State) : (goTo p s).host = s.host := rfl
@[simp] theorem goTo_status (p : PhaseCode) (s : State) : (goTo p s).status = s.status := rfl
@[simp] theorem goTo_res (p : PhaseCode) (s : State) : (goTo p s).res = s.res := rfl
@[simp] theorem goTo_hid (p : PhaseCode) (s : State) : (goTo p s).hid = s.hid := rfl
@[simp] theorem goTo_lat (p : PhaseCode) (s : State) : (goTo p s).lat = s.lat := rfl
@[simp] theorem goTo_scr (p : PhaseCode) (s : State) : (goTo p s).scr = s.scr := rfl
@[simp] theorem goTo_pos (p : PhaseCode) (s : State) : (goTo p s).pos = { phase := p, idx := 0, ch := 0 } := rfl
@[simp] theorem goTo_buf (p : PhaseCode) (s : State) : (goTo p s).buf = s.buf := rfl
@[simp] theorem goTo_io (p : PhaseCode) (s : State) : (goTo p s).io = s.io := rfl

@[simp] theorem sameFrame_params (p : PhaseCode) (s : State) : (sameFrame p s).params = s.params := rfl
@[simp] theorem sameFrame_host (p : PhaseCode) (s : State) : (sameFrame p s).host = s.host := rfl
@[simp] theorem sameFrame_status (p : PhaseCode) (s : State) : (sameFrame p s).status = s.status := rfl
@[simp] theorem sameFrame_res (p : PhaseCode) (s : State) : (sameFrame p s).res = s.res := rfl
@[simp] theorem sameFrame_hid (p : PhaseCode) (s : State) : (sameFrame p s).hid = s.hid := rfl
@[simp] theorem sameFrame_lat (p : PhaseCode) (s : State) : (sameFrame p s).lat = s.lat := rfl
@[simp] theorem sameFrame_scr (p : PhaseCode) (s : State) : (sameFrame p s).scr = s.scr := rfl
@[simp] theorem sameFrame_pos (p : PhaseCode) (s : State) : (sameFrame p s).pos = { phase := p, idx := s.pos.idx, ch := 0 } :=
    rfl
@[simp] theorem sameFrame_buf (p : PhaseCode) (s : State) : (sameFrame p s).buf = s.buf := rfl
@[simp] theorem sameFrame_io (p : PhaseCode) (s : State) : (sameFrame p s).io = s.io := rfl

@[simp] theorem samePair_params (p : PhaseCode) (s : State) : (samePair p s).params = s.params := rfl
@[simp] theorem samePair_host (p : PhaseCode) (s : State) : (samePair p s).host = s.host := rfl
@[simp] theorem samePair_status (p : PhaseCode) (s : State) : (samePair p s).status = s.status := rfl
@[simp] theorem samePair_res (p : PhaseCode) (s : State) : (samePair p s).res = s.res := rfl
@[simp] theorem samePair_hid (p : PhaseCode) (s : State) : (samePair p s).hid = s.hid := rfl
@[simp] theorem samePair_lat (p : PhaseCode) (s : State) : (samePair p s).lat = s.lat := rfl
@[simp] theorem samePair_scr (p : PhaseCode) (s : State) : (samePair p s).scr = s.scr := rfl
@[simp] theorem samePair_pos (p : PhaseCode) (s : State) : (samePair p s).pos = { s.pos with phase := p } := rfl
@[simp] theorem samePair_buf (p : PhaseCode) (s : State) : (samePair p s).buf = s.buf := rfl
@[simp] theorem samePair_io (p : PhaseCode) (s : State) : (samePair p s).io = s.io := rfl

@[simp] theorem nextPair_params (a f : PhaseCode) (s : State) : (nextPair a f s).params = s.params :=
    by
  unfold nextPair; split <;> (try split) <;> rfl
@[simp] theorem nextPair_host (a f : PhaseCode) (s : State) : (nextPair a f s).host = s.host :=
    by
  unfold nextPair; split <;> (try split) <;> rfl
@[simp] theorem nextPair_status (a f : PhaseCode) (s : State) : (nextPair a f s).status = s.status :=
    by
  unfold nextPair; split <;> (try split) <;> rfl
@[simp] theorem nextPair_res (a f : PhaseCode) (s : State) : (nextPair a f s).res = s.res :=
    by
  unfold nextPair; split <;> (try split) <;> rfl
@[simp] theorem nextPair_hid (a f : PhaseCode) (s : State) : (nextPair a f s).hid = s.hid :=
    by
  unfold nextPair; split <;> (try split) <;> rfl
@[simp] theorem nextPair_lat (a f : PhaseCode) (s : State) : (nextPair a f s).lat = s.lat :=
    by
  unfold nextPair; split <;> (try split) <;> rfl
@[simp] theorem nextPair_scr (a f : PhaseCode) (s : State) : (nextPair a f s).scr = s.scr :=
    by
  unfold nextPair; split <;> (try split) <;> rfl
@[simp] theorem nextPair_buf (a f : PhaseCode) (s : State) : (nextPair a f s).buf = s.buf :=
    by
  unfold nextPair; split <;> (try split) <;> rfl
@[simp] theorem nextPair_io (a f : PhaseCode) (s : State) : (nextPair a f s).io = s.io :=
    by
  unfold nextPair; split <;> (try split) <;> rfl

@[simp] theorem nextChan_params (a f : PhaseCode) (s : State) : (nextChan a f s).params = s.params :=
    by
  unfold nextChan; split <;> rfl
@[simp] theorem nextChan_host (a f : PhaseCode) (s : State) : (nextChan a f s).host = s.host :=
    by
  unfold nextChan; split <;> rfl
@[simp] theorem nextChan_status (a f : PhaseCode) (s : State) : (nextChan a f s).status = s.status :=
    by
  unfold nextChan; split <;> rfl
@[simp] theorem nextChan_res (a f : PhaseCode) (s : State) : (nextChan a f s).res = s.res :=
    by
  unfold nextChan; split <;> rfl
@[simp] theorem nextChan_hid (a f : PhaseCode) (s : State) : (nextChan a f s).hid = s.hid :=
    by
  unfold nextChan; split <;> rfl
@[simp] theorem nextChan_lat (a f : PhaseCode) (s : State) : (nextChan a f s).lat = s.lat :=
    by
  unfold nextChan; split <;> rfl
@[simp] theorem nextChan_scr (a f : PhaseCode) (s : State) : (nextChan a f s).scr = s.scr :=
    by
  unfold nextChan; split <;> rfl
@[simp] theorem nextChan_buf (a f : PhaseCode) (s : State) : (nextChan a f s).buf = s.buf :=
    by
  unfold nextChan; split <;> rfl
@[simp] theorem nextChan_io (a f : PhaseCode) (s : State) : (nextChan a f s).io = s.io :=
    by
  unfold nextChan; split <;> rfl

@[simp] theorem nextFrame_params (a f : PhaseCode) (s : State) : (nextFrame a f s).params = s.params :=
    by
  unfold nextFrame; split <;> rfl
@[simp] theorem nextFrame_host (a f : PhaseCode) (s : State) : (nextFrame a f s).host = s.host :=
    by
  unfold nextFrame; split <;> rfl
@[simp] theorem nextFrame_status (a f : PhaseCode) (s : State) : (nextFrame a f s).status = s.status :=
    by
  unfold nextFrame; split <;> rfl
@[simp] theorem nextFrame_res (a f : PhaseCode) (s : State) : (nextFrame a f s).res = s.res :=
    by
  unfold nextFrame; split <;> rfl
@[simp] theorem nextFrame_hid (a f : PhaseCode) (s : State) : (nextFrame a f s).hid = s.hid :=
    by
  unfold nextFrame; split <;> rfl
@[simp] theorem nextFrame_lat (a f : PhaseCode) (s : State) : (nextFrame a f s).lat = s.lat :=
    by
  unfold nextFrame; split <;> rfl
@[simp] theorem nextFrame_scr (a f : PhaseCode) (s : State) : (nextFrame a f s).scr = s.scr :=
    by
  unfold nextFrame; split <;> rfl
@[simp] theorem nextFrame_buf (a f : PhaseCode) (s : State) : (nextFrame a f s).buf = s.buf :=
    by
  unfold nextFrame; split <;> rfl
@[simp] theorem nextFrame_io (a f : PhaseCode) (s : State) : (nextFrame a f s).io = s.io :=
    by
  unfold nextFrame; split <;> rfl

/-! ## Conditions -/

@[simp] theorem raise_params (c : Condition) (s : State) : (raise c s).params = s.params := rfl
@[simp] theorem raise_host (c : Condition) (s : State) : (raise c s).host = s.host := rfl
@[simp] theorem raise_status (c : Condition) (s : State) : (raise c s).status = s.status ||| condBit c := rfl
@[simp] theorem raise_res (c : Condition) (s : State) : (raise c s).res = s.res := rfl
@[simp] theorem raise_hid (c : Condition) (s : State) : (raise c s).hid = s.hid := rfl
@[simp] theorem raise_lat (c : Condition) (s : State) : (raise c s).lat = s.lat := rfl
@[simp] theorem raise_scr (c : Condition) (s : State) : (raise c s).scr = s.scr := rfl
@[simp] theorem raise_pos (c : Condition) (s : State) : (raise c s).pos = s.pos := rfl
@[simp] theorem raise_buf (c : Condition) (s : State) : (raise c s).buf = s.buf := rfl
@[simp] theorem raise_io (c : Condition) (s : State) : (raise c s).io = s.io := rfl

@[simp] theorem acknowledge_params (d : Word) (s : State) : (acknowledge d s).params = s.params := rfl
@[simp] theorem acknowledge_host (d : Word) (s : State) : (acknowledge d s).host = s.host := rfl
@[simp] theorem acknowledge_status (d : Word) (s : State) : (acknowledge d s).status = stWriteClear s.status d := rfl
@[simp] theorem acknowledge_res (d : Word) (s : State) : (acknowledge d s).res = s.res := rfl
@[simp] theorem acknowledge_hid (d : Word) (s : State) : (acknowledge d s).hid = s.hid := rfl
@[simp] theorem acknowledge_lat (d : Word) (s : State) : (acknowledge d s).lat = s.lat := rfl
@[simp] theorem acknowledge_scr (d : Word) (s : State) : (acknowledge d s).scr = s.scr := rfl
@[simp] theorem acknowledge_pos (d : Word) (s : State) : (acknowledge d s).pos = s.pos := rfl
@[simp] theorem acknowledge_buf (d : Word) (s : State) : (acknowledge d s).buf = s.buf := rfl
@[simp] theorem acknowledge_io (d : Word) (s : State) : (acknowledge d s).io = s.io := rfl

/-! ## The ports -/

@[simp] theorem respondH_params (d : Word) (s : State) : (respondH d s).params = s.params := rfl
@[simp] theorem respondH_host (d : Word) (s : State) : (respondH d s).host = s.host := rfl
@[simp] theorem respondH_status (d : Word) (s : State) : (respondH d s).status = s.status := rfl
@[simp] theorem respondH_res (d : Word) (s : State) : (respondH d s).res = s.res := rfl
@[simp] theorem respondH_hid (d : Word) (s : State) : (respondH d s).hid = s.hid := rfl
@[simp] theorem respondH_lat (d : Word) (s : State) : (respondH d s).lat = s.lat := rfl
@[simp] theorem respondH_scr (d : Word) (s : State) : (respondH d s).scr = s.scr := rfl
@[simp] theorem respondH_pos (d : Word) (s : State) : (respondH d s).pos = s.pos := rfl
@[simp] theorem respondH_buf (d : Word) (s : State) : (respondH d s).buf = s.buf := rfl
@[simp] theorem respondH_io (d : Word) (s : State) : (respondH d s).io = { s.io with hResp := d } := rfl

@[simp] theorem respondM_params (d : Word) (s : State) : (respondM d s).params = s.params := rfl
@[simp] theorem respondM_host (d : Word) (s : State) : (respondM d s).host = s.host := rfl
@[simp] theorem respondM_status (d : Word) (s : State) : (respondM d s).status = s.status := rfl
@[simp] theorem respondM_res (d : Word) (s : State) : (respondM d s).res = s.res := rfl
@[simp] theorem respondM_hid (d : Word) (s : State) : (respondM d s).hid = s.hid := rfl
@[simp] theorem respondM_lat (d : Word) (s : State) : (respondM d s).lat = s.lat := rfl
@[simp] theorem respondM_scr (d : Word) (s : State) : (respondM d s).scr = s.scr := rfl
@[simp] theorem respondM_pos (d : Word) (s : State) : (respondM d s).pos = s.pos := rfl
@[simp] theorem respondM_buf (d : Word) (s : State) : (respondM d s).buf = s.buf := rfl
@[simp] theorem respondM_io (d : Word) (s : State) : (respondM d s).io = { s.io with mResp := d } := rfl

@[simp] theorem drawFree_params (s : State) : (drawFree s).params = s.params := rfl
@[simp] theorem drawFree_host (s : State) : (drawFree s).host = s.host := rfl
@[simp] theorem drawFree_status (s : State) : (drawFree s).status = s.status := rfl
@[simp] theorem drawFree_res (s : State) : (drawFree s).res = s.res := rfl
@[simp] theorem drawFree_hid (s : State) : (drawFree s).hid = s.hid := rfl
@[simp] theorem drawFree_lat (s : State) : (drawFree s).lat = s.lat := rfl
@[simp] theorem drawFree_scr (s : State) : (drawFree s).scr = s.scr := rfl
@[simp] theorem drawFree_pos (s : State) : (drawFree s).pos = s.pos := rfl
@[simp] theorem drawFree_buf (s : State) : (drawFree s).buf = s.buf := rfl
@[simp] theorem drawFree_io (s : State) : (drawFree s).io = { s.io with free := s.io.free + 1 } := rfl

/-! ## Latching and acceptance -/

@[simp] theorem latchOffered_params (s : State) : (latchOffered s).params = s.params := rfl
@[simp] theorem latchOffered_host (s : State) : (latchOffered s).host = s.host := rfl
@[simp] theorem latchOffered_status (s : State) : (latchOffered s).status = s.status := rfl
@[simp] theorem latchOffered_res (s : State) : (latchOffered s).res = s.res := rfl
@[simp] theorem latchOffered_hid (s : State) : (latchOffered s).hid = s.hid := rfl
@[simp] theorem latchOffered_lat (s : State) : (latchOffered s).lat = latched s.io.offered s := rfl
@[simp] theorem latchOffered_scr (s : State) : (latchOffered s).scr = s.scr := rfl
@[simp] theorem latchOffered_pos (s : State) : (latchOffered s).pos = { phase := afterLatch (cmdOp s.io.offered), idx := 0, ch := 0 } :=
    rfl
@[simp] theorem latchOffered_buf (s : State) : (latchOffered s).buf = s.buf := rfl
@[simp] theorem latchOffered_io (s : State) : (latchOffered s).io = { s.io with admitted := inputsAdmitted s.io.offered s } :=
    rfl

@[simp] theorem accept_params (w : Word) (s : State) : (accept w s).params = s.params := rfl
@[simp] theorem accept_host (w : Word) (s : State) : (accept w s).host = s.host := rfl
@[simp] theorem accept_status (w : Word) (s : State) : (accept w s).status = s.status ||| stBusy := rfl
@[simp] theorem accept_res (w : Word) (s : State) : (accept w s).res = s.res := rfl
@[simp] theorem accept_hid (w : Word) (s : State) : (accept w s).hid = s.hid := rfl
@[simp] theorem accept_lat (w : Word) (s : State) : (accept w s).lat = latched w s := rfl
@[simp] theorem accept_scr (w : Word) (s : State) : (accept w s).scr = s.scr := rfl
@[simp] theorem accept_pos (w : Word) (s : State) : (accept w s).pos = { phase := afterLatch (cmdOp w), idx := 0, ch := 0 } :=
    rfl
@[simp] theorem accept_buf (w : Word) (s : State) : (accept w s).buf = s.buf := rfl
@[simp] theorem accept_io (w : Word) (s : State) : (accept w s).io = 
      { s.io with
        offered := w, grLog := [], oldEffRatio := s.res.effRatio, oldSrLo := s.res.srLo, oldSrHi := s.res.srHi,
        oldBlksz := s.res.blksz, admitted := inputsAdmitted w s } :=
    rfl

/-! ## The bodies of PREP, S_BPF and H_HPF -/

@[simp] theorem prepared_params (s : State) : (prepared s).params = s.params := by
  unfold prepared; split <;> rfl
@[simp] theorem prepared_host (s : State) : (prepared s).host = s.host := by
  unfold prepared; split <;> rfl
@[simp] theorem prepared_status (s : State) : (prepared s).status = (if rateValid s.num s.lat.sr then s.status else s.status ||| condBit .srdef) ||| stPrepared :=
    by
  unfold prepared; split <;> rfl
@[simp] theorem prepared_res (s : State) : (prepared s).res = 
      { s.res with srHi := (rateUsed s).extractLsb' 32 32, srLo := (rateUsed s).extractLsb' 0 32, blksz := s.lat.bs } :=
    by
  unfold prepared; split <;> rfl
@[simp] theorem prepared_lat (s : State) : (prepared s).lat = s.lat := by
  unfold prepared; split <;> rfl
@[simp] theorem prepared_scr (s : State) : (prepared s).scr = s.scr := by
  unfold prepared; split <;> rfl
@[simp] theorem prepared_pos (s : State) : (prepared s).pos = s.pos := by
  unfold prepared; split <;> rfl
@[simp] theorem prepared_buf (s : State) : (prepared s).buf = s.buf := by
  unfold prepared; split <;> rfl
@[simp] theorem prepared_io (s : State) : (prepared s).io = s.io := by
  unfold prepared; split <;> rfl

@[simp] theorem bandPassed_params (v : F32) (s : State) : (bandPassed v s).params = s.params := rfl
@[simp] theorem bandPassed_host (v : F32) (s : State) : (bandPassed v s).host = s.host := rfl
@[simp] theorem bandPassed_status (v : F32) (s : State) : (bandPassed v s).status = s.status := rfl
@[simp] theorem bandPassed_res (v : F32) (s : State) : (bandPassed v s).res = s.res := rfl
@[simp] theorem bandPassed_lat (v : F32) (s : State) : (bandPassed v s).lat = s.lat := rfl
@[simp] theorem bandPassed_pos (v : F32) (s : State) : (bandPassed v s).pos = s.pos := rfl
@[simp] theorem bandPassed_buf (v : F32) (s : State) : (bandPassed v s).buf = s.buf := rfl
@[simp] theorem bandPassed_io (v : F32) (s : State) : (bandPassed v s).io = s.io := rfl

@[simp] theorem highPassed_params (v : F32) (s : State) : (highPassed v s).params = s.params := rfl
@[simp] theorem highPassed_host (v : F32) (s : State) : (highPassed v s).host = s.host := rfl
@[simp] theorem highPassed_status (v : F32) (s : State) : (highPassed v s).status = s.status := rfl
@[simp] theorem highPassed_res (v : F32) (s : State) : (highPassed v s).res = s.res := rfl
@[simp] theorem highPassed_lat (v : F32) (s : State) : (highPassed v s).lat = s.lat := rfl
@[simp] theorem highPassed_pos (v : F32) (s : State) : (highPassed v s).pos = s.pos := rfl
@[simp] theorem highPassed_buf (v : F32) (s : State) : (highPassed v s).buf = s.buf := rfl
@[simp] theorem highPassed_io (v : F32) (s : State) : (highPassed v s).io = s.io := rfl

/-! ## The meter port -/

@[simp] theorem meterOther_params (h : Word) (s : State) : (meterOther h s).params = s.params :=
    by
  unfold meterOther; split <;> rfl
@[simp] theorem meterOther_host (h : Word) (s : State) : (meterOther h s).host = s.host :=
    by
  unfold meterOther; split <;> rfl
@[simp] theorem meterOther_status (h : Word) (s : State) : (meterOther h s).status = s.status :=
    by
  unfold meterOther; split <;> rfl
@[simp] theorem meterOther_res (h : Word) (s : State) : (meterOther h s).res = s.res :=
    by
  unfold meterOther; split <;> rfl
@[simp] theorem meterOther_hid (h : Word) (s : State) : (meterOther h s).hid = s.hid :=
    by
  unfold meterOther; split <;> rfl
@[simp] theorem meterOther_lat (h : Word) (s : State) : (meterOther h s).lat = s.lat :=
    by
  unfold meterOther; split <;> rfl
@[simp] theorem meterOther_scr (h : Word) (s : State) : (meterOther h s).scr = s.scr :=
    by
  unfold meterOther; split <;> rfl
@[simp] theorem meterOther_pos (h : Word) (s : State) : (meterOther h s).pos = s.pos :=
    by
  unfold meterOther; split <;> rfl
@[simp] theorem meterOther_buf (h : Word) (s : State) : (meterOther h s).buf = s.buf :=
    by
  unfold meterOther; split <;> rfl

/-! ## Power-on reset -/

@[simp] theorem powerOn_params (s : State) : (powerOn s).params = s.params := rfl
@[simp] theorem powerOn_host (s : State) : (powerOn s).host = (State.resetOf s.params).host := rfl
@[simp] theorem powerOn_status (s : State) : (powerOn s).status = (State.resetOf s.params).status := rfl
@[simp] theorem powerOn_res (s : State) : (powerOn s).res = (State.resetOf s.params).res := rfl
@[simp] theorem powerOn_hid (s : State) : (powerOn s).hid = (State.resetOf s.params).hid := rfl
@[simp] theorem powerOn_lat (s : State) : (powerOn s).lat = (State.resetOf s.params).lat := rfl
@[simp] theorem powerOn_scr (s : State) : (powerOn s).scr = (State.resetOf s.params).scr := rfl
@[simp] theorem powerOn_pos (s : State) : (powerOn s).pos = (State.resetOf s.params).pos := rfl
@[simp] theorem powerOn_buf (s : State) : (powerOn s).buf = (State.resetOf s.params).buf := rfl

end Sys2Proof.Machine
end

