-- ==== Sys2Proof/Laws/Sequencer.lean ====
section
/-! SUPPORT. What the sequencer, the command port and the meta-operations over the position can do, each said once: the later
proofs cite these and unfold nothing. -/

namespace Sys2Proof.Machine

/-! ## PHASE codes -/

/-- A PHASE code decodes to a micro-operation only, and to the one whose code it is. -/
theorem decodePhase_spec (p : PhaseCode) (i : Instr) (h : decodePhase p = .ok i) :
    busOf i = .phase ∧ encode i = [p.setWidth 32] := by
  have key : (match decodePhase p with
      | .ok i => decide (busOf i = .phase ∧ encode i = [p.setWidth 32])
      | .error _ => true) = true := by
    clear h; revert p; decide
  rw [h] at key
  simpa using key

/-- The PHASE codes of two equal words are equal. -/
theorem phase_inj {p q : PhaseCode} (h : [p.setWidth 32] = [q.setWidth 32]) : p = q := by
  have h' := congrArg BitVec.toNat (List.cons.inj h).1
  simp only [BitVec.toNat_setWidth] at h'
  have := p.isLt
  have := q.isLt
  exact BitVec.eq_of_toNat_eq (by omega)

/-- The word of a PHASE code decodes as the code. -/
theorem decode_phaseWord (p : PhaseCode) : decode .phase [p.setWidth 32] = decodePhase p := by
  have hp := p.isLt
  simp only [decode]
  rw [if_pos (by rw [BitVec.toNat_setWidth]; omega)]
  congr 1
  refine BitVec.eq_of_toNat_eq ?_
  rw [BitVec.toNat_setWidth, BitVec.toNat_setWidth]
  omega

/-- The sequencer's turn: the micro-operation that PHASE decodes to, a wait at IDLE, a refusal elsewhere. -/
theorem seqStep_eq (s : State) :
    seqStep s = match decodePhase s.pos.phase with
      | .ok i => exec i s
      | .error e => if e = .idlePhase then .next s else .refused .unusedPhase := by
  let g : Except Reject Instr → Host.Outcome State Fault Refusal := fun x =>
    match x with
    | .ok i => exec i s
    | .error e => if e = .idlePhase then .next s else .refused .unusedPhase
  change seqStep s = g (decodePhase s.pos.phase)
  unfold decodePhase
  simp only [apply_ite g]
  rfl

/-- A step with nothing pending is the sequencer's turn. -/
theorem step_of_no_input (s : State) (h : s.io.inputs = []) : step s = seqStep s := by
  rw [seqStep_eq]
  unfold step fetch
  simp only [h, phaseWords, decode_phaseWord]
  cases decodePhase s.pos.phase with
  | ok i => rfl
  | error e => rfl

/-! ## Runs of the sequencer -/

theorem runSequencer_idle (k : Nat) (s : State) (h : s.pos.phase = phaseIdle) : runSequencer k s = .next s := by
  cases k with
  | zero => rfl
  | succ k => simp only [runSequencer, if_pos h]

theorem runSequencer_next (k : Nat) (s t : State) (h : s.pos.phase ≠ phaseIdle) (ht : seqStep s = .next t) :
    runSequencer (k + 1) s = runSequencer k t := by
  simp only [runSequencer, if_neg h, ht]

theorem runSequencer_fault (k : Nat) (s : State) (f : Fault) (h : s.pos.phase ≠ phaseIdle)
    (hf : seqStep s = .fault f) : runSequencer (k + 1) s = .fault f := by
  simp only [runSequencer, if_neg h, hf]

/-- A property that every micro-operation keeps holds after a run of the sequencer. -/
theorem runSequencer_induct (P : State → Prop) (hP : ∀ s t, P s → seqStep s = .next t → P t) (k : Nat) :
    ∀ s t, P s → runSequencer k s = .next t → P t := by
  induction k with
  | zero => intro s t hs h; cases h; exact hs
  | succ k ih =>
    intro s t hs h
    simp only [runSequencer] at h
    split at h
    · cases h; exact hs
    · split at h
      · rename_i u hu; exact ih u t (hP s u hs hu) h
      · cases h
      · cases h

/-! ## Counters -/

theorem idx_succ {i n : Index} (h : i.toNat + 1 < n.toNat) : (i + 1).toNat = i.toNat + 1 := by
  have := n.isLt
  rw [BitVec.toNat_add]; simp; omega

theorem ch_succ {c : Chan} {n : Nat} (h : c.toNat + 1 < n) (hn : n ≤ 64) : (c + 1).toNat = c.toNat + 1 := by
  rw [BitVec.toNat_add]; simp; omega

/-! ## The next position -/

/-- The next pair: the next sample, the next channel's first sample, or the end. -/
theorem nextPair_cases (a f : PhaseCode) (s : State) :
    (s.pos.idx.toNat + 1 < s.lat.len.toNat ∧
      nextPair a f s = { s with pos := { phase := a, idx := s.pos.idx + 1, ch := s.pos.ch } }) ∨
    (s.lat.len.toNat ≤ s.pos.idx.toNat + 1 ∧ s.pos.ch.toNat + 1 < s.params.nch.toNat ∧
      nextPair a f s = { s with pos := { phase := a, idx := 0, ch := s.pos.ch + 1 } }) ∨
    (s.lat.len.toNat ≤ s.pos.idx.toNat + 1 ∧ s.params.nch.toNat ≤ s.pos.ch.toNat + 1 ∧ nextPair a f s = goTo f s) := by
  unfold nextPair
  split
  · exact .inl ⟨‹_›, rfl⟩
  · split
    · exact .inr (.inl ⟨by omega, ‹_›, rfl⟩)
    · exact .inr (.inr ⟨by omega, by omega, rfl⟩)

/-- The next channel, or the end. -/
theorem nextChan_cases (a f : PhaseCode) (s : State) :
    (s.pos.ch.toNat + 1 < s.params.nch.toNat ∧
      nextChan a f s = { s with pos := { phase := a, idx := 0, ch := s.pos.ch + 1 } }) ∨
    (s.params.nch.toNat ≤ s.pos.ch.toNat + 1 ∧ nextChan a f s = goTo f s) := by
  unfold nextChan
  split
  · exact .inl ⟨‹_›, rfl⟩
  · exact .inr ⟨by omega, rfl⟩

/-- The next frame, or the end. -/
theorem nextFrame_cases (a f : PhaseCode) (s : State) :
    (s.pos.idx.toNat + 1 < s.lat.len.toNat ∧
      nextFrame a f s = { s with pos := { phase := a, idx := s.pos.idx + 1, ch := 0 } }) ∨
    (s.lat.len.toNat ≤ s.pos.idx.toNat + 1 ∧ nextFrame a f s = goTo f s) := by
  unfold nextFrame
  split
  · exact .inl ⟨‹_›, rfl⟩
  · exact .inr ⟨by omega, rfl⟩

/-! ## Offers -/

theorem latched_op (w : Word) (s : State) : (latched w s).op = cmdOp w := by
  unfold latched; dsimp only; (repeat' split) <;> rfl

theorem latched_len (w : Word) (s : State) : (latched w s).len = cmdLen w := by
  unfold latched; dsimp only; (repeat' split) <;> rfl

/-- An offer raises the condition that applies, or is accepted. -/
theorem offer_cases (w : Word) (s : State) :
    (∃ c, offerCondition w s = some c ∧ offer w s = raise c s) ∨
      (offerCondition w s = none ∧ offer w s = accept w s) := by
  unfold offer
  cases h : offerCondition w s with
  | some c => exact .inl ⟨c, rfl, rfl⟩
  | none => exact .inr ⟨rfl, rfl⟩

/-- What it takes for an offer to be accepted (44_host_commands R231). -/
theorem offerCondition_none (w : Word) (s : State) :
    offerCondition w s = none ↔
      isBusy s = false ∧ cmdIllegal w = false ∧
        (cmdOp w ≠ 1 → isPrepared s = true ∧ (cmdLen w).toNat ≤ s.params.maxlen.toNat) := by
  unfold offerCondition
  cases hb : isBusy s
  · cases hi : cmdIllegal w
    · by_cases h1 : cmdOp w = 1
      · simp [h1]
      · have h1' : ¬cmdOp w = 1#4 := h1
        cases hp : isPrepared s <;> simp [h1']
    · simp
  · simp

/-- A legal command word has one of the five operation codes, and PREPARE has LEN = 0. -/
theorem cmdIllegal_false {w : Word} (h : cmdIllegal w = false) :
    (cmdOp w = 1 ∨ cmdOp w = 2 ∨ cmdOp w = 3 ∨ cmdOp w = 4 ∨ cmdOp w = 5) ∧ cmdRsv w = 0 ∧
      (cmdOp w = 1 → cmdLen w = 0) := by
  unfold cmdIllegal at h
  simp only [Bool.or_eq_false_iff, Bool.not_eq_false', Bool.and_eq_true, decide_eq_true_eq, decide_eq_false_iff_not,
    Bool.and_eq_false_iff, not_not] at h
  obtain ⟨⟨⟨h1, h5⟩, hr⟩, hl⟩ := h
  refine ⟨?_, hr, fun e => hl.resolve_left (not_not.2 e)⟩
  revert h1 h5
  generalize cmdOp w = x
  revert x
  decide

/-- A command in the atomic view: the dropped offer, or the run from acceptance. -/
theorem runCommand_cases (w : Word) (s : State) :
    (∃ c, offerCondition w s = some c ∧ runCommand w s = .next (raise c s)) ∨
      (offerCondition w s = none ∧
        runCommand w s = runSequencer (uopBound (cmdOp w) s.params.nch.toNat (cmdLen w).toNat) (accept w s)) := by
  unfold runCommand
  cases h : offerCondition w s with
  | some c => exact .inl ⟨c, rfl, rfl⟩
  | none => exact .inr ⟨rfl, rfl⟩

/-! ## Register reads -/

/-- A host read changes the port's word, and at most the count of free values. -/
theorem readReg_cases (r : BitVec 8) (s : State) :
    ∃ x k, readReg r s = { s with io := { s.io with hResp := x, free := k } } := by
  unfold readReg
  split
  · exact ⟨_, _, rfl⟩
  · exact ⟨_, _, rfl⟩

/-! ## Micro-operations that read or write BUF -/

theorem execSBpf_next {s t : State} (h : execSBpf s = .next t) :
    ∃ v, readSample s s.pos.ch s.pos.idx = .ok v ∧ t = nextPair phaseSBpf phaseSRms (bandPassed v s) := by
  unfold execSBpf at h
  split at h
  · cases h
  · cases h; exact ⟨_, ‹_›, rfl⟩

theorem execHHpf_next {s t : State} (h : execHHpf s = .next t) :
    ∃ v, readSample s s.pos.ch s.pos.idx = .ok v ∧ t = samePair phaseHSat (highPassed v s) := by
  unfold execHHpf at h
  split at h
  · cases h
  · cases h; exact ⟨_, ‹_›, rfl⟩

theorem execEDet_next {s t : State} (h : execEDet s = .next t) :
    ∃ lane level, detectLanes s (channels s.params) s.scr.lane f32Zero = .ok (lane, level) ∧
      t = sameFrame phaseEEnv { s with scr := { s.scr with lane := lane, level := level } } := by
  unfold execEDet at h
  split at h
  · cases h
  · cases h; exact ⟨_, _, ‹_›, rfl⟩

theorem execEApply_next {s t : State} (h : execEApply s = .next t) :
    (∀ c ∈ channels s.params, inBuf s.params c s.pos.idx = true) ∧
      t = nextFrame phaseEDet (afterEge s.lat.op)
        { s with
          buf := (channels s.params).foldl
            (fun m c => memWrite m (bufAddr c s.pos.idx)
              (s.num.mul32 (laneGet s.scr.lane c) (frameGain s.num s.scr.grv))) s.buf } := by
  unfold execEApply at h
  split at h
  · cases h
  · rename_i m hm
    have hin := applyLanes_inBuf _ _ _ _ _ hm
    rw [applyLanes_ok _ _ _ _ hin] at hm
    cases hm; cases h
    exact ⟨hin, rfl⟩

theorem execHMac_next {s t : State} (h : execHMac s = .next t) :
    inBuf s.params s.pos.ch s.pos.idx = true ∧
      t = nextPair phaseHHpf phaseDone
        { s with buf := memWrite s.buf (bufAddr s.pos.ch s.pos.idx) (outputSample s) } := by
  unfold execHMac at h
  split at h
  · cases h
  · rename_i m hm
    rw [writeSample_ok_iff] at hm
    cases h
    exact ⟨hm.1, by rw [hm.2]⟩

end Sys2Proof.Machine
end

