-- ==== Sys2Proof/Laws/Invariant.lean ====
section
/-! SUPPORT. How the invariant moves with each named update of the state: one lemma per update. The invariant of a micro-operation
follows from these and from the phases that its command takes. -/

namespace Sys2Proof.Machine

/-! ## The instance and the phases -/

theorem wf_bounds {p : Params} (h : p.wf = true) : 1 ≤ p.nch.toNat ∧ p.nch.toNat ≤ 64 ∧ 1 ≤ p.maxlen.toNat := by
  unfold Params.wf at h; simpa [and_assoc] using h

theorem phaseOfOp_srm (op : BitVec 4) (p : PhaseCode) (hp : srmPhase p = true) (h : phaseOfOp op p = true) :
    op = 2 ∨ op = 3 := by revert op p; decide

theorem phaseOfOp_ege (op : BitVec 4) (p : PhaseCode) (hp : egePhase p = true) (h : phaseOfOp op p = true) :
    op = 2 ∨ op = 4 := by revert op p; decide

theorem phaseOfOp_hen (op : BitVec 4) (p : PhaseCode) (hp : henPhase p = true) (h : phaseOfOp op p = true) :
    op = 2 ∨ op = 5 := by revert op p; decide

theorem phaseOfOp_done (op : BitVec 4) : phaseOfOp op phaseDone = true := rfl

/-! ## Updates that keep the sequencer where it is -/

theorem State.Inv.io {s : State} (h : s.Inv) (x : Ports) : ({ s with io := x } : State).Inv :=
  ⟨h.params, h.bufWf, h.bufWhole, h.bufIn, h.busy, h.idlePos, h.phase, h.len, h.idx, h.ch, h.rms, h.ran, h.rate⟩

theorem State.Inv.host {s : State} (h : s.Inv) (x : HostRegs) : ({ s with host := x } : State).Inv :=
  ⟨h.params, h.bufWf, h.bufWhole, h.bufIn, h.busy, h.idlePos, h.phase, h.len, h.idx, h.ch, h.rms, h.ran, h.rate⟩

/-- A change of sticky bits. -/
theorem State.Inv.status {s : State} (h : s.Inv) (x : BitVec 7) (h0 : x.getLsbD 0 = s.status.getLsbD 0)
    (h1 : x.getLsbD 1 = s.status.getLsbD 1) : ({ s with status := x } : State).Inv :=
  ⟨h.params, h.bufWf, h.bufWhole, h.bufIn, by unfold isBusy; simp only [h1]; exact h.busy, h.idlePos, h.phase, h.len,
    h.idx, h.ch, h.rms, by unfold isPrepared; simp only [h0]; exact h.ran,
    by unfold isPrepared; simp only [h0]; exact h.rate⟩

theorem State.Inv.raise {s : State} (h : s.Inv) (c : Condition) : (raise c s).Inv := by
  refine h.status _ ?_ ?_ <;> cases c <;> simp [stSet, condBit]

theorem State.Inv.acknowledge {s : State} (h : s.Inv) (d : Word) : (acknowledge d s).Inv := by
  refine h.status _ ?_ ?_ <;> simp [stWriteClear, stClear, stSticky]

/-- A write of a word that exists keeps BUF canonical, whole and inside its addresses. -/
theorem State.Inv.memWrite {s : State} (h : s.Inv) (c : Chan) (n : Index) (v : Word)
    (hin : inBuf s.params c n = true) : ({ s with buf := memWrite s.buf (bufAddr c n) v } : State).Inv := by
  refine { h with bufWf := wf_memWrite _ _ _ h.bufWf, bufWhole := ?_, bufIn := ?_ }
  · intro w hw i hi
    rw [memRead_memWrite] at hw
    split at hw
    · cases hw
    · rename_i hne
      rw [readByte_memWrite, if_neg]
      · exact h.bufWhole w hw i hi
      · simp only [byteAddr]
        intro e
        exact hne (BitVec.eq_of_toNat_eq (by omega))
  · intro a ha
    simp only [readByte_memWrite] at ha
    split at ha
    · rename_i e; exact ⟨c, n, hin, e⟩
    · exact h.bufIn a ha

/-- The same for a frame. -/
theorem State.Inv.frame {s : State} (cs : List Chan) (n : Index) (f : Chan → Word) (h : s.Inv)
    (hin : ∀ c ∈ cs, inBuf s.params c n = true) :
    ({ s with buf := cs.foldl (fun m c => Sys2Proof.Machine.memWrite m (bufAddr c n) (f c)) s.buf } : State).Inv := by
  induction cs generalizing s with
  | nil => exact h
  | cons c cs ih => exact ih (h.memWrite c n (f c) (hin c (by simp))) fun d hd => hin d (by simp [hd])

/-! ## Updates that move the sequencer -/

/-- The sequencer moves within its command; nothing else that the invariant reads changes. -/
theorem State.Inv.move {s t : State} (h : s.Inv) (hp : t.params = s.params) (hb : t.buf = s.buf)
    (hs : t.status = s.status) (hl : t.lat = s.lat) (hr : rateInForce t = rateInForce s)
    (hrun : s.pos.phase ≠ phaseIdle) (ht : t.pos.phase ≠ phaseIdle) (ho : phaseOfOp s.lat.op t.pos.phase = true)
    (hi : samplePhase t.pos.phase = true → t.pos.idx.toNat < s.lat.len.toNat)
    (hc : t.pos.ch.toNat < s.params.nch.toNat) (hm : t.pos.phase = phaseSRms → s.lat.len ≠ 0) : t.Inv where
  params := by rw [hp]; exact h.params
  bufWf := by rw [hb]; exact h.bufWf
  bufWhole := by rw [hb]; exact h.bufWhole
  bufIn := by rw [hb, hp]; exact h.bufIn
  busy := by
    unfold isBusy; rw [hs]
    exact ⟨fun _ => ht, fun _ => h.busy.2 hrun⟩
  idlePos := fun e => absurd e ht
  phase := fun _ => by rw [hl]; exact ho
  len := fun _ => by rw [hl, hp]; exact h.len hrun
  idx := by rw [hl]; exact hi
  ch := by rw [hp]; exact hc
  rms := by rw [hl]; exact hm
  ran := fun _ => by unfold isPrepared; rw [hl, hs]; exact h.ran hrun
  rate := by
    unfold isPrepared
    rw [hs, hr, hp, show rateValid t.num = rateValid s.num by unfold State.num; rw [hp]; rfl]
    exact h.rate

/-- To the start of a phase. -/
theorem State.Inv.goTo {s t : State} (f : PhaseCode) (h : s.Inv) (hp : t.params = s.params) (hb : t.buf = s.buf)
    (hs : t.status = s.status) (hl : t.lat = s.lat) (hr : rateInForce t = rateInForce s)
    (hrun : s.pos.phase ≠ phaseIdle) (hf : f ≠ phaseIdle) (hof : phaseOfOp s.lat.op f = true)
    (hfs : samplePhase f = true → 0 < s.lat.len.toNat) (hm : f = phaseSRms → s.lat.len ≠ 0) : (goTo f t).Inv :=
  h.move hp hb hs hl hr hrun hf hof (fun e => hfs e)
    (by rw [goTo_pos]; exact (wf_bounds h.params).1) hm

/-- To the next pair. -/
theorem State.Inv.nextPair {s t : State} (a f : PhaseCode) (h : s.Inv) (hp : t.params = s.params) (hb : t.buf = s.buf)
    (hs : t.status = s.status) (hl : t.lat = s.lat) (hr : rateInForce t = rateInForce s) (hpos : t.pos = s.pos)
    (hrun : s.pos.phase ≠ phaseIdle) (ha : a ≠ phaseIdle) (hf : f ≠ phaseIdle) (hoa : phaseOfOp s.lat.op a = true)
    (hof : phaseOfOp s.lat.op f = true) (hi : 0 < s.lat.len.toNat) (hfs : samplePhase f = false) :
    (nextPair a f t).Inv := by
  have hw := wf_bounds h.params
  have hlen : s.lat.len ≠ 0 := by rintro e; rw [e] at hi; simp at hi
  rcases nextPair_cases a f t with ⟨hlt, e⟩ | ⟨-, hlt, e⟩ | ⟨-, -, e⟩ <;> rw [e]
  · rw [hl, hpos] at hlt
    exact h.move hp hb hs hl hr hrun ha hoa (fun _ => by simp only [hpos, idx_succ hlt]; exact hlt)
      (by simp only [hpos]; exact h.ch) fun _ => hlen
  · rw [hp, hpos] at hlt
    exact h.move hp hb hs hl hr hrun ha hoa (fun _ => hi)
      (by simp only [hpos, ch_succ hlt hw.2.1]; exact hlt) fun _ => hlen
  · exact h.goTo f hp hb hs hl hr hrun hf hof (fun e => by rw [hfs] at e; cases e) fun _ => hlen

/-- To another phase of the same frame. -/
theorem State.Inv.sameFrame {s t : State} (f : PhaseCode) (h : s.Inv) (hp : t.params = s.params) (hb : t.buf = s.buf)
    (hs : t.status = s.status) (hl : t.lat = s.lat) (hr : rateInForce t = rateInForce s) (hpos : t.pos = s.pos)
    (hrun : s.pos.phase ≠ phaseIdle) (hf : f ≠ phaseIdle) (hof : phaseOfOp s.lat.op f = true)
    (hsp : samplePhase s.pos.phase = true) (hm : f ≠ phaseSRms) : (sameFrame f t).Inv :=
  h.move hp hb hs hl hr hrun hf hof (fun _ => by rw [sameFrame_pos, hpos]; exact h.idx hsp)
    (by rw [sameFrame_pos]; exact (wf_bounds h.params).1) fun e => absurd e hm

/-- To another phase of the same pair. -/
theorem State.Inv.samePair {s t : State} (f : PhaseCode) (h : s.Inv) (hp : t.params = s.params) (hb : t.buf = s.buf)
    (hs : t.status = s.status) (hl : t.lat = s.lat) (hr : rateInForce t = rateInForce s) (hpos : t.pos = s.pos)
    (hrun : s.pos.phase ≠ phaseIdle) (hf : f ≠ phaseIdle) (hof : phaseOfOp s.lat.op f = true)
    (hsp : samplePhase s.pos.phase = true) (hm : f ≠ phaseSRms) : (samePair f t).Inv :=
  h.move hp hb hs hl hr hrun hf hof (fun _ => by rw [samePair_pos, hpos]; exact h.idx hsp)
    (by rw [samePair_pos, hpos]; exact h.ch) fun e => absurd e hm

/-! ## Where the invariant puts a sample -/

/-- A micro-operation that works on a sample works on a word that exists. -/
theorem State.Inv.inBuf {s : State} (h : s.Inv) (hsp : samplePhase s.pos.phase = true) (c : Chan)
    (hc : c.toNat < s.params.nch.toNat) : inBuf s.params c s.pos.idx = true := by
  have hrun : s.pos.phase ≠ phaseIdle := by intro e; rw [e] at hsp; cases hsp
  have := h.idx hsp
  have := h.len hrun
  exact (inBuf_iff _ _ _).2 ⟨hc, by omega⟩

end Sys2Proof.Machine
end

