-- ==== Sys2Proof/Laws/Numerics.lean ====
section
/-! SUPPORT. What the instance's numerics do inside the admitted domain (40_numerics R147): in an admitted command each function
of `guarded` is that of the record where the operands, and an F32 result, are finite. When a block is admitted. And R149 KP3:
a filter's run over a block cut in two. -/

namespace Sys2Proof.Machine

theorem isFinite32_iff (x : F32) : isFinite32 x = true ↔ finite32 x := by simp [isFinite32, finite32]

theorem isFinite64_iff (x : F64) : isFinite64 x = true ↔ finite64 x := by simp [isFinite64, finite64]

/-- A result that the guard lets through. -/
theorem open32_of_finite (fn : NumFn) (operands : List F32) (r : F32) (ha : ∀ a ∈ operands, finite32 a) (hr : finite32 r) :
    open32 true fn operands r = r := by
  have h : operands.all isFinite32 = true := List.all_eq_true.2 fun a h => (isFinite32_iff a).2 (ha a h)
  simp [open32, h, (isFinite32_iff r).2 hr]

/-- All that the guard can do: the result itself, or the free one where the command is not admitted, or an operand or the result
is not finite. -/
theorem open32_cases (admitted : Bool) (fn : NumFn) (operands : List F32) (r : F32) :
    (open32 admitted fn operands r = r ∧ admitted = true ∧ (∀ a ∈ operands, finite32 a) ∧ finite32 r) ∨
      (open32 admitted fn operands r = Config.openResult32 fn operands ∧
        ¬(admitted = true ∧ (∀ a ∈ operands, finite32 a) ∧ finite32 r)) := by
  have h : (admitted && operands.all isFinite32 && isFinite32 r) = true ↔
      admitted = true ∧ (∀ a ∈ operands, finite32 a) ∧ finite32 r := by
    simp [List.all_eq_true, isFinite32_iff, and_assoc]
  unfold open32
  split
  · exact .inl ⟨rfl, h.1 ‹_›⟩
  · exact .inr ⟨rfl, fun hf => ‹¬_› (h.2 hf)⟩

/-- A result that the guard leaves open: an operand or the result is an infinity or a NaN. -/
theorem open32_of_not_finite (fn : NumFn) (operands : List F32) (r : F32)
    (h : (operands.all isFinite32 && isFinite32 r) = false) :
    open32 true fn operands r = Config.openResult32 fn operands := by simp [open32, h]

/-- In a command that is not admitted every result is left open. -/
theorem open32_of_not_admitted (fn : NumFn) (operands : List F32) (r : F32) :
    open32 false fn operands r = Config.openResult32 fn operands := rfl

/-- A comparison that the guard lets through. -/
theorem openBool_of_finite (fn : NumFn) (operands : List F32) (r : Bool) (ha : ∀ a ∈ operands, finite32 a) :
    openBool true fn operands r = r := by
  have h : operands.all isFinite32 = true := List.all_eq_true.2 fun a h => (isFinite32_iff a).2 (ha a h)
  simp [openBool, h]

section Functions
variable (N : Num) {a b c d : F32}

theorem guarded_add32 (ha : finite32 a) (hb : finite32 b) (hr : finite32 (N.add32 a b)) :
    (guarded true N).add32 a b = N.add32 a b := open32_of_finite _ _ _ (by simp [ha, hb]) hr

theorem guarded_sub32 (ha : finite32 a) (hb : finite32 b) (hr : finite32 (N.sub32 a b)) :
    (guarded true N).sub32 a b = N.sub32 a b := open32_of_finite _ _ _ (by simp [ha, hb]) hr

theorem guarded_mul32 (ha : finite32 a) (hb : finite32 b) (hr : finite32 (N.mul32 a b)) :
    (guarded true N).mul32 a b = N.mul32 a b := open32_of_finite _ _ _ (by simp [ha, hb]) hr

theorem guarded_mul32_open (hr : ¬finite32 (N.mul32 a b)) :
    (guarded true N).mul32 a b = Config.openResult32 .mul32 [a, b] :=
  open32_of_not_finite _ _ _ (by rw [Bool.eq_false_iff.2 (mt (isFinite32_iff _).1 hr), Bool.and_false])

theorem guarded_div32 (ha : finite32 a) (hb : finite32 b) (hr : finite32 (N.div32 a b)) :
    (guarded true N).div32 a b = N.div32 a b := open32_of_finite _ _ _ (by simp [ha, hb]) hr

theorem guarded_max32 (ha : finite32 a) (hb : finite32 b) (hr : finite32 (N.max32 a b)) :
    (guarded true N).max32 a b = N.max32 a b := open32_of_finite _ _ _ (by simp [ha, hb]) hr

theorem guarded_min32 (ha : finite32 a) (hb : finite32 b) (hr : finite32 (N.min32 a b)) :
    (guarded true N).min32 a b = N.min32 a b := open32_of_finite _ _ _ (by simp [ha, hb]) hr

theorem guarded_log10 (ha : finite32 a) (hr : finite32 (N.log10_32 a)) : (guarded true N).log10_32 a = N.log10_32 a :=
  open32_of_finite _ _ _ (by simp [ha]) hr

theorem guarded_pow10 (ha : finite32 a) (hr : finite32 (N.pow10_32 a)) : (guarded true N).pow10_32 a = N.pow10_32 a :=
  open32_of_finite _ _ _ (by simp [ha]) hr

theorem guarded_mac32 (ha : finite32 a) (hb : finite32 b) (hc : finite32 c) (hd : finite32 d)
    (hr : finite32 (N.mac32 a b c d)) : (guarded true N).mac32 a b c d = N.mac32 a b c d :=
  open32_of_finite _ _ _ (by simp [ha, hb, hc, hd]) hr

theorem guarded_gt32 (ha : finite32 a) (hb : finite32 b) : (guarded true N).gt32 a b = N.gt32 a b :=
  openBool_of_finite _ _ _ (by simp [ha, hb])

theorem guarded_lt32 (ha : finite32 a) (hb : finite32 b) : (guarded true N).lt32 a b = N.lt32 a b :=
  openBool_of_finite _ _ _ (by simp [ha, hb])

theorem guarded_cvt32to64 (ha : finite32 a) : (guarded true N).cvt32to64 a = N.cvt32to64 a := by
  simp [guarded, (isFinite32_iff a).2 ha]

theorem guarded_cvt64to32 {x : F64} (hx : finite64 x) (hr : finite32 (N.cvt64to32 x)) :
    (guarded true N).cvt64to32 x = N.cvt64to32 x := by
  simp [guarded, (isFinite64_iff x).2 hx, (isFinite32_iff _).2 hr]

variable (ok : Bool)

@[simp] theorem guarded_abs32 : (guarded ok N).abs32 = N.abs32 := rfl
@[simp] theorem guarded_neg32 : (guarded ok N).neg32 = N.neg32 := rfl
@[simp] theorem guarded_cvtU24to64 : (guarded ok N).cvtU24to64 = N.cvtU24to64 := rfl
@[simp] theorem guarded_gt64 : (guarded ok N).gt64 = N.gt64 := rfl
@[simp] theorem guarded_isfinite64 : (guarded ok N).isfinite64 = N.isfinite64 := rfl
@[simp] theorem guarded_add64 : (guarded ok N).add64 = N.add64 := rfl
@[simp] theorem guarded_mul64 : (guarded ok N).mul64 = N.mul64 := rfl
@[simp] theorem guarded_div64 : (guarded ok N).div64 = N.div64 := rfl
@[simp] theorem guarded_sqrt64 : (guarded ok N).sqrt64 = N.sqrt64 := rfl
@[simp] theorem guarded_exp64 : (guarded ok N).exp64 = N.exp64 := rfl

end Functions

/-- The numerics of an admitted command are those of the instance. -/
theorem State.num_admitted {s : State} (h : s.io.admitted = true) : s.num = numOf s.params := by
  simp [State.num, numOf, h]

/-- The record of an instance with Num_ref. -/
theorem numOf_ref {p : Params} (h : p.num = .ref) : numOf p = guarded true numRef := by simp [numOf, recordOf, h]

/-- The test of a rate in PREP does not depend on the command (44_host_commands R237). -/
theorem rateValid_num (s : State) (sr : F64) : rateValid s.num sr = rateValid (recordOf s.params) sr := rfl

/-- An instance's record is Num_ref, its flushed form, or an admissible one (R123). -/
theorem recordOf_cases (p : Params) :
    recordOf p = numRef ∨ recordOf p = flushed numRef ∨ AdmissibleNum (recordOf p) := by
  unfold recordOf
  split
  · exact .inl rfl
  · exact .inr (.inl rfl)
  · split
    · exact .inr (.inr (Subtype.property _))
    · exact .inl rfl

/-- PREP's test of a rate, in every admissible record: finite and above zero, however small (44_host_commands R237). -/
theorem rateValid_iff {N : Num} (h : NumCompares N) (sr : F64) :
    rateValid N sr = true ↔ finite64 sr ∧ 0 < rat64 sr := by
  have f0 : finite64 f64Zero := ⟨by decide, by decide⟩
  have r0 : rat64 f64Zero = 0 := by rw [rat64, show val fmt64 f64Zero.toNat = 0 by decide, Int.cast_zero, zero_div]
  rw [rateValid, Bool.and_eq_true, h.isfinite]
  exact and_congr_right fun hf => by rw [h.gt64 _ _ hf f0, r0]

theorem rateValid_flushed (N : Num) (sr : F64) : rateValid (flushed N) sr = rateValid N sr := rfl

/-- A gain of 1.0 leaves a finite sample as it is, whatever the admissible record (R191, R195). -/
theorem guarded_mul_one {N : Num} {x : F32} (h : NumNeutral N) (hx : finite32 x) :
    (guarded true N).mul32 x 0x3F800000 = x := by
  rw [guarded_mul32 N hx ⟨by decide, by decide⟩ (by rwa [h.one]), h.one]

/-- A filter of an admitted command is its kernel. -/
@[simp] theorem filterStep_true (filter : Nat) (K : Kernel) : filterStep true filter K = K.step := rfl

/-- A kernel of an instance is one of the two concrete ones or an admissible one (R149). -/
theorem kernelOf_cases (N : Num) (design : F64 → KCoef) (sel : KernelSel) :
    kernelOf N design sel = kernelId ∨ kernelOf N design sel = kernelRbj N design ∨ AdmissibleKernel (kernelOf N design sel) := by
  unfold kernelOf
  split
  · exact .inl rfl
  · exact .inr (.inl rfl)
  · split
    · exact .inr (.inr (Subtype.property _))
    · exact .inl rfl

/-- `blockFinite` says what R147 asks of the block. -/
theorem blockFinite_iff (s : State) (len : Index) :
    blockFinite s.params s.buf len.toNat = true ↔ s.blockAdmitted len := by
  constructor
  · intro h c n hc hl v hv
    have h1 := List.all_eq_true.1 (List.all_eq_true.1 h c ((mem_channels _ _).2 hc)) n.toNat (List.mem_range.2 hl)
    rw [BitVec.ofNat_toNat, BitVec.setWidth_eq, hv] at h1
    exact (isFinite32_iff v).1 h1
  · intro h
    refine List.all_eq_true.2 fun c hc => List.all_eq_true.2 fun n hl => ?_
    have hl := List.mem_range.1 hl
    have hlen := len.isLt
    split
    · rename_i v hv
      refine (isFinite32_iff v).2 (h c _ ((mem_channels _ _).1 hc) ?_ v hv)
      rw [BitVec.toNat_ofNat, Nat.mod_eq_of_lt (by omega)]; exact hl
    · rfl

/-- KP3 (R149): a block cut in two, the memory carried from the first part to the second, gives the outputs and the memory of
the whole. -/
theorem filterRun_append (K : Kernel) (k : KCoef) (m : KMem) (xs ys : List F32) :
    filterRun K k m (xs ++ ys) =
      ((filterRun K k m xs).1 ++ (filterRun K k (filterRun K k m xs).2 ys).1,
        (filterRun K k (filterRun K k m xs).2 ys).2) := by
  induction xs generalizing m with
  | nil => rfl
  | cons x xs ih => simp [filterRun, ih]

end Sys2Proof.Machine
end

