-- ==== Sys2Proof/Laws/PerInstr.lean ====
section
/-! SUPPORT. One statement for every instruction: the first word that the encoder writes for a well-formed instruction matches the
instruction's own row of spec/opcode_table.json (30_encoding R104). -/

namespace Sys2Proof.Laws

/-- The match word of the instruction's row. -/
def RowMatch.bits : Instr → Word
  | .wr _ _ => 0x80000000
  | .rd _ => 0x00000000
  | .wrs _ _ _ => 0xC0000000
  | .rds _ _ => 0x40000000
  | .rdgr => 0x0000000A
  | .prepare => 0x10000000
  | .process _ => 0x20000000
  | .srm _ => 0x30000000
  | .ege _ => 0x40000000
  | .hen _ => 0x50000000
  | .latch => 0x01
  | .prep => 0x02
  | .done => 0x03
  | .sInit => 0x08
  | .sBpf => 0x09
  | .sRms => 0x0A
  | .sRatio => 0x0B
  | .eCoef => 0x10
  | .eDet => 0x11
  | .eEnv => 0x12
  | .eGrc => 0x13
  | .ePub => 0x14
  | .eApply => 0x15
  | .hGain => 0x18
  | .hHpf => 0x19
  | .hSat => 0x1A
  | .hMac => 0x1B

/-- The mask of the instruction's row. -/
def RowMatch.mask : Instr → Word
  | .wr _ _ => 0xFFFFFF00
  | .rd _ => 0xFFFFFF00
  | .wrs _ _ _ => 0xC0000000
  | .rds _ _ => 0xC0000000
  | .rdgr => 0xFFFFFFFF
  | .prepare => 0xFFFFFFFF
  | .process _ => 0xFF000000
  | .srm _ => 0xFF000000
  | .ege _ => 0xFF000000
  | .hen _ => 0xFF000000
  | .latch => 0x1F
  | .prep => 0x1F
  | .done => 0x1F
  | .sInit => 0x1F
  | .sBpf => 0x1F
  | .sRms => 0x1F
  | .sRatio => 0x1F
  | .eCoef => 0x1F
  | .eDet => 0x1F
  | .eEnv => 0x1F
  | .eGrc => 0x1F
  | .ePub => 0x1F
  | .eApply => 0x1F
  | .hGain => 0x1F
  | .hHpf => 0x1F
  | .hSat => 0x1F
  | .hMac => 0x1F

/-- A well-formed instruction's first word, masked, is its row's match word. -/
def RowMatch.Statement (i : Instr) : Prop :=
  wellFormed i = true → ∃ w rest, encode i = w :: rest ∧ w &&& RowMatch.mask i = RowMatch.bits i

/-- Two words are equal when their bits are, the bits of the header of a transaction being at hand. -/
theorem RowMatch.header_bit (d s : BitVec 1) (a : WordAddr) (i : Nat) (hi : i < 32) :
    (txnHeader d s a).getLsbD i =
      if i < 30 then a.getLsbD i else if i = 30 then s.getLsbD 0 else d.getLsbD 0 := by
  unfold txnHeader
  rw [BitVec.getLsbD_append, BitVec.getLsbD_append]
  by_cases h : i < 30
  · simp [h]
  · by_cases h1 : i = 30
    · subst h1; rfl
    · have : i = 31 := by omega
      subst this; rfl

/-- The word of a register transaction whose address has a zero ZERO field. -/
theorem RowMatch.header_reg (d : BitVec 1) (a : WordAddr) (h : zeroFieldClear a = true) :
    txnHeader d 0 a &&& 0xFFFFFF00 = txnHeader d 0 0 := by
  have hz : ∀ i, 8 ≤ i → a.getLsbD i = false := by
    intro i hi
    have := congrArg (fun x : WordAddr => x.getLsbD (i - 8)) (beq_iff_eq.1 h)
    simpa [BitVec.getLsbD_ushiftRight, show 8 + (i - 8) = i by omega] using this
  have hm : ∀ i, i < 32 → (0xFFFFFF00 : Word).getLsbD i = decide (8 ≤ i) := by decide
  refine BitVec.eq_of_getLsbD_eq fun i hi => ?_
  rw [BitVec.getLsbD_and, header_bit _ _ _ _ hi, header_bit _ _ _ _ hi, hm i hi]
  by_cases h8 : 8 ≤ i
  · simp [h8, hz i h8]
  · simp [h8, show i < 30 by omega]

/-- The word of a sample transaction. -/
theorem RowMatch.header_buf (d : BitVec 1) (a : WordAddr) : txnHeader d 1 a &&& 0xC0000000 = txnHeader d 1 0 := by
  have hm : ∀ i, i < 32 → (0xC0000000 : Word).getLsbD i = decide (30 ≤ i) := by decide
  refine BitVec.eq_of_getLsbD_eq fun i hi => ?_
  rw [BitVec.getLsbD_and, header_bit _ _ _ _ hi, header_bit _ _ _ _ hi, hm i hi]
  by_cases h : i < 30
  · simp [h]
  · simp [h, show 30 ≤ i by omega]

/-- The word of a command. -/
theorem RowMatch.command (op : BitVec 4) (n : Index) : cmdWord op n &&& 0xFF000000 = cmdWord op 0 := by
  have hm : ∀ i, i < 32 → (0xFF000000 : Word).getLsbD i = decide (24 ≤ i) := by decide
  refine BitVec.eq_of_getLsbD_eq fun i hi => ?_
  unfold cmdWord
  simp only [BitVec.getLsbD_and, BitVec.getLsbD_append, hm i hi]
  by_cases h : i < 24
  · simp [h]
  · simp [h, show 24 ≤ i by omega]

theorem RowMatch.wr (addr : WordAddr) (data : Word) : RowMatch.Statement (.wr addr data) := fun h =>
  ⟨_, _, rfl, RowMatch.header_reg _ _ h⟩

theorem RowMatch.rd (addr : WordAddr) : RowMatch.Statement (.rd addr) := fun h =>
  ⟨_, _, rfl, RowMatch.header_reg _ _ h⟩

theorem RowMatch.wrs (chan : Chan) (index : Index) (data : Word) : RowMatch.Statement (.wrs chan index data) := fun _ =>
  ⟨_, _, rfl, RowMatch.header_buf _ _⟩

theorem RowMatch.rds (chan : Chan) (index : Index) : RowMatch.Statement (.rds chan index) := fun _ =>
  ⟨_, _, rfl, RowMatch.header_buf _ _⟩

theorem RowMatch.rdgr : RowMatch.Statement .rdgr := fun _ => ⟨_, _, rfl, by decide⟩

theorem RowMatch.prepare : RowMatch.Statement .prepare := fun _ => ⟨_, _, rfl, by decide⟩

theorem RowMatch.process (len : Index) : RowMatch.Statement (.process len) := fun _ => ⟨_, _, rfl, RowMatch.command _ _⟩

theorem RowMatch.srm (len : Index) : RowMatch.Statement (.srm len) := fun _ => ⟨_, _, rfl, RowMatch.command _ _⟩

theorem RowMatch.ege (len : Index) : RowMatch.Statement (.ege len) := fun _ => ⟨_, _, rfl, RowMatch.command _ _⟩

theorem RowMatch.hen (len : Index) : RowMatch.Statement (.hen len) := fun _ => ⟨_, _, rfl, RowMatch.command _ _⟩

theorem RowMatch.latch : RowMatch.Statement .latch := fun _ => ⟨_, _, rfl, by decide⟩

theorem RowMatch.prep : RowMatch.Statement .prep := fun _ => ⟨_, _, rfl, by decide⟩

theorem RowMatch.done : RowMatch.Statement .done := fun _ => ⟨_, _, rfl, by decide⟩

theorem RowMatch.sInit : RowMatch.Statement .sInit := fun _ => ⟨_, _, rfl, by decide⟩

theorem RowMatch.sBpf : RowMatch.Statement .sBpf := fun _ => ⟨_, _, rfl, by decide⟩

theorem RowMatch.sRms : RowMatch.Statement .sRms := fun _ => ⟨_, _, rfl, by decide⟩

theorem RowMatch.sRatio : RowMatch.Statement .sRatio := fun _ => ⟨_, _, rfl, by decide⟩

theorem RowMatch.eCoef : RowMatch.Statement .eCoef := fun _ => ⟨_, _, rfl, by decide⟩

theorem RowMatch.eDet : RowMatch.Statement .eDet := fun _ => ⟨_, _, rfl, by decide⟩

theorem RowMatch.eEnv : RowMatch.Statement .eEnv := fun _ => ⟨_, _, rfl, by decide⟩

theorem RowMatch.eGrc : RowMatch.Statement .eGrc := fun _ => ⟨_, _, rfl, by decide⟩

theorem RowMatch.ePub : RowMatch.Statement .ePub := fun _ => ⟨_, _, rfl, by decide⟩

theorem RowMatch.eApply : RowMatch.Statement .eApply := fun _ => ⟨_, _, rfl, by decide⟩

theorem RowMatch.hGain : RowMatch.Statement .hGain := fun _ => ⟨_, _, rfl, by decide⟩

theorem RowMatch.hHpf : RowMatch.Statement .hHpf := fun _ => ⟨_, _, rfl, by decide⟩

theorem RowMatch.hSat : RowMatch.Statement .hSat := fun _ => ⟨_, _, rfl, by decide⟩

theorem RowMatch.hMac : RowMatch.Statement .hMac := fun _ => ⟨_, _, rfl, by decide⟩

end Sys2Proof.Laws
end

