-- ==== Sys2Proof/Tests/Slice0.lean ====
section
/-! SUPPORT. The model's own tests. Expected values are copied from the spec: the vectors of 95_test_vectors by their ids, or
the rule named. Words written out in binary follow the patterns of 30_encoding R95, R97, R99. The last part shows, for every
obligation that has premises, a state and operands that meet them. -/

namespace Sys2Proof.Machine

set_option Elab.async false

/-! ## WellFormed: each check refuses an ill-formed term, and lets the terms beside it pass -/

theorem test_wellFormed_wr : wellFormed (.wr 0x100 0) = false ∧ wellFormed (.wr 0x20000000 0) = false ∧ wellFormed (.wr 0xFF 0) = true := by
  decide

theorem test_wellFormed_rd : wellFormed (.rd 0x111) = false ∧ wellFormed (.rd 0x3FFFFF00) = false ∧ wellFormed (.rd 0x10) = true := by
  decide

/-! ## Decoding: words written out from the encoding tables (30_encoding), vectors X1 to X24, X30 -/

theorem test_decode_wr :
    decode .portH [0b10000000000000000000000000000101, 0xC1200000] = .ok (.wr 0x05 0xC1200000) ∧
    decode .portH [0x800000FF, 7] = .ok (.wr 0xFF 7) := by decide

theorem test_decode_rd :
    decode .portH [0b00000000000000000000000000000001] = .ok (.rd 0x01) ∧
    decode .portH [0x0000000A] = .ok (.rd 0x0A) ∧ decode .portH [0x00000111] = .ok (.rd 0x111) := by decide

theorem test_decode_wrs :
    decode .portH [0b11000001000000000000000000000010, 0xBF666666] = .ok (.wrs 1 2 0xBF666666) ∧
    bufAddr 1 2 = 0x01000002 := by decide

theorem test_decode_rds :
    decode .portH [0b01000000000000000000000000000011] = .ok (.rds 0 3) ∧
    decode .portH [0x7F000000] = .ok (.rds 63 0) ∧ decode .portH [0x40FFFFFF] = .ok (.rds 0 0xFFFFFF) := by decide

theorem test_decode_rdgr :
    decode .portM [0b00000000000000000000000000001010] = .ok .rdgr ∧ decode .portM [0x00000001] = .error .notMeterRead := by
  decide

theorem test_decode_commands :
    decode .command [0b00010000000000000000000000000000] = .ok .prepare ∧
    decode .command [0b00100000000000000000000000000100] = .ok (.process 4) ∧
    decode .command [0x20000000] = .ok (.process 0) ∧
    decode .command [0b00110000000000000000000100000000] = .ok (.srm 256) ∧
    decode .command [0x40FFFFFF] = .ok (.ege 16777215) ∧
    decode .command [0b01010000000000000000000000000001] = .ok (.hen 1) := by decide

theorem test_decode_illegal_commands :
    ([0x10000001, 0x00000000, 0x60000000, 0xF0000000, 0x21000004, 0x2F000004] : List Word).map (fun w => decode .command [w]) =
      List.replicate 6 (.error .illegalCommand) := by decide

theorem test_decode_phases :
    ([0b00001, 0b00010, 0b00011, 0b01000, 0b01001, 0b01010, 0b01011, 0b10000, 0b10001, 0b10010, 0b10011, 0b10100, 0b10101,
        0b11000, 0b11001, 0b11010, 0b11011] : List Word).map (fun w => decode .phase [w]) =
      [.ok .latch, .ok .prep, .ok .done, .ok .sInit, .ok .sBpf, .ok .sRms, .ok .sRatio, .ok .eCoef, .ok .eDet, .ok .eEnv,
        .ok .eGrc, .ok .ePub, .ok .eApply, .ok .hGain, .ok .hHpf, .ok .hSat, .ok .hMac] := by decide

theorem test_decode_unused_phases :
    decode .phase [0b00000] = .error .idlePhase ∧
    ([4, 5, 6, 7, 12, 13, 14, 15, 22, 23, 28, 29, 30, 31, 32] : List Word).map (fun w => decode .phase [w]) =
      List.replicate 15 (.error .unusedPhase) := by decide

/-- Rows of spec/opcode_table.json, their variable bits zero: a row without its data word, a command row, a micro-operation. -/
theorem test_decodeTableWord :
    decodeTableWord 32 0x80000000 = some (.wr 0 0) ∧ decodeTableWord 32 0xC0000000 = some (.wrs 0 0 0) ∧
    decodeTableWord 32 0x0000000A = some .rdgr ∧ decodeTableWord 32 0x20000000 = some (.process 0) ∧
    decodeTableWord 8 0x15 = some .eApply := by decide

/-- The sequencer's fetch: a placed micro-operation is the next instruction that runs. -/
theorem test_withFetchWord :
    (match step (State.reset.withFetchWord 8 0x1A) with | .next t => t.pos.phase | _ => 0) = phaseHMac := by decide +kernel

/-! ## A small machine -/

/-- Two channels of four frames, K_ID on both sides, Num_ref, the spec's DB_FLOOR and SAFE_SR. -/
def testParams : Params where
  nch := 2
  maxlen := 4
  num := .ref
  kBpf := .identity
  kHpf := .identity
  dbFloor := 0xC2C80000
  safeSr := 0x40E5888000000000

/-- The block of 95_test_vectors section 8: channel 0 is 0.5, −1.0, 0.25, 0.0, channel 1 is 0.1, 0.2, −0.9, 0.0. -/
def testBlock : List (Chan × Index × F32) :=
  [(0, 0, 0x3F000000), (0, 1, 0xBF800000), (0, 2, 0x3E800000), (0, 3, 0x00000000), (1, 0, 0x3DCCCCCD), (1, 1, 0x3E4CCCCD),
    (1, 2, 0xBF666666), (1, 3, 0x00000000)]

/-- A list of words loaded into a BUF. -/
def loadedBuf (l : List (Chan × Index × F32)) (m : Memory) : Memory :=
  l.foldl (fun m x => memWrite m (bufAddr x.1 x.2.1) x.2.2) m

/-- BUF with the block and nothing else. -/
def testBuf : Memory := loadedBuf testBlock []

/-- Prepared at 48000.0 with the parameters of program P4, the block loaded. -/
def testState : State :=
  { State.resetOf testParams with
    status := 0x01
    host := {
      reqSrLo := 0x00000000, reqSrHi := 0x40E77000, reqBs := 4, pThresh := 0xC1A00000, pRatio := 0x40800000,
      pAttack := 0x3DCCCCCD, pRelease := 0x41200000, pOutgain := 0x41400000 }
    res := { gr := 0, effRatio := 0, srLo := 0x00000000, srHi := 0x40E77000, blksz := 4 }
    buf := testBuf }

/-- The same machine at a phase of a running command, with the latches that PROCESS 4 takes. -/
def testAt (p : PhaseCode) (idx : Index) (ch : Chan) : State :=
  { testState with
    status := 0x03
    lat := {
      op := 2, len := 4, thresh := 0xC1A00000, ratio := 0x40800000, attack := 0x3DCCCCCD, release := 0x41200000,
      outgain := 0x41400000, sr := 0x40E7700000000000, bs := 4 }
    pos := { phase := p, idx := idx, ch := ch } }

/-- What `f` shows of the next state. -/
def shown {α : Type} (f : State → α) (o : Host.Outcome State Fault Refusal) : Option α :=
  match o with
  | .next t => some (f t)
  | _ => none

/-- The fault of an outcome. -/
def faultOf (o : Host.Outcome State Fault Refusal) : Option Fault :=
  match o with
  | .fault r => some r
  | _ => none

/-- A word of BUF. -/
def wordAt (c : Chan) (n : Index) (s : State) : Option Word := memRead s.buf (bufAddr c n)

/-- A whole channel of the small machine. -/
def chanAt (c : Chan) (s : State) : List F32 := channelBlock s.buf c 4

/-! ## Transactions -/

/-- Q10, Q11, Q12 (STATUS write-one-to-clear), and a parameter register. -/
theorem test_wr :
    shown (·.status) (exec (.wr 1 0x00000014) { testState with status := 0x7D }) = some 0x69 ∧
    shown (·.status) (exec (.wr 1 0xFFFFFFFF) { testState with status := 0x7D }) = some 0x01 ∧
    shown (·.status) (exec (.wr 1 0x00000003) { testState with status := 0x03 }) = some 0x03 ∧
    shown (·.host.pThresh) (exec (.wr 5 0xC1200000) (testAt phaseSBpf 1 0)) = some 0xC1200000 := by decide +kernel

/-- Q1, Q2, Q3, Q4, Q5, Q6, Q7, Q8 with MAXLEN 4 in place of 1024. -/
theorem test_wr_cmd :
    shown (·.status) (exec (.wr 0 0x20000004) State.reset) = some 0x08 ∧
    shown (·.status) (exec (.wr 0 0x60000000) State.reset) = some 0x10 ∧
    shown (·.status) (exec (.wr 0 0x10000000) State.reset) = some 0x02 ∧
    shown (·.status) (exec (.wr 0 0x20000005) testState) = some 0x21 ∧
    shown (·.status) (exec (.wr 0 0x20000004) testState) = some 0x03 ∧
    shown (·.status) (exec (.wr 0 0x21000005) testState) = some 0x11 ∧
    shown (·.status) (exec (.wr 0 0x20000004) (testAt phaseSBpf 1 0)) = some 0x43 ∧
    shown (·.status) (exec (.wr 0 0x60000000) (testAt phaseSBpf 1 0)) = some 0x43 := by decide +kernel

/-- X29 (a STATUS read), CONFIG and MAXLEN, X9 (a reserved address). -/
theorem test_rd :
    shown (·.io.hResp) (exec (.rd 0x01) { testState with status := 0x1D }) = some 0x0000001D ∧
    shown (·.io.hResp) (exec (.rd 0x0F) testState) = some 2 ∧
    shown (·.io.hResp) (exec (.rd 0x10) testState) = some 4 ∧
    shown (·.io.hResp) (exec (.rd 0x111) { testState with io.hResp := 9 }) = some 0 := by decide +kernel

/-- R246: one word, the low byte at the lowest address; ignored while BUSY and outside BUF. -/
theorem test_wrs :
    shown (fun t => (readByte t.buf 0x04000008, readByte t.buf 0x0400000B)) (exec (.wrs 1 2 0xBF666667) testState) =
      some (some 0x67, some 0xBF) ∧
    shown (wordAt 1 2) (exec (.wrs 1 2 7) (testAt phaseSBpf 1 0)) = some (some 0xBF666666) ∧
    shown (·.buf) (exec (.wrs 2 0 7) testState) = some testBuf := by decide +kernel

/-- R247, X8, X11: a written word, an absent word, and the fault of 10_state R54. -/
theorem test_rds :
    shown (·.io.hResp) (exec (.rds 1 1) testState) = some 0x3E4CCCCD ∧
    shown (·.io.hResp) (exec (.rds 63 0) testState) = some 0 ∧
    shown (·.io.hResp) (exec (.rds 0 0xFFFFFF) testState) = some 0 ∧
    faultOf (exec (.rds 1 3) { testState with buf := [] }) = some .unwrittenWord := by decide +kernel

/-- R243. -/
theorem test_rdgr :
    shown (fun t => (t.io.mResp, t.pos.phase)) (exec .rdgr { testAt phaseEPub 1 0 with res.gr := 0x40F00000 }) =
      some (0x40F00000, phaseEPub) := by decide +kernel

/-! ## Commands in the atomic view (P2, P3, P4, S11, Q20 to Q27) -/

/-- Q20, Q21, Q24, Q27: the rate in force, STATUS, and BLKSZ. -/
theorem test_prepare :
    (([(0x40E77000, 0x00), (0x00000000, 0x00), (0x7FF00000, 0x00), (0x40E77000, 0x05)] : List (Word × BitVec 7)).map
      (fun x => shown (fun t => (rateInForce t, t.status, t.res.blksz))
        (exec .prepare { testState with status := x.2, host := { testState.host with reqSrHi := x.1, reqBs := 512 } }))) =
      [some (0x40E7700000000000, 0x01, 0x200), some (0x40E5888000000000, 0x05, 0x200),
       some (0x40E5888000000000, 0x05, 0x200), some (0x40E7700000000000, 0x05, 0x200)] := by decide +kernel

/-- Program P4. -/
theorem test_process :
    shown (fun t => (chanAt 0 t, chanAt 1 t, t.hid.env)) (exec (.process 4) testState) =
      some ([0x400164F1, 0xC00516E3, 0x3ECF8AF8, 0x00000000], [0x3ECE84D6, 0x3ED5C40F, 0xBFBA40DE, 0x00000000], 0x3EC42B67) := by
  decide +kernel

/-- Program P4: GR, EFF_RATIO, STATUS; and Q4. -/
theorem test_process_results :
    shown (fun t => (t.res.gr, t.res.effRatio, t.status)) (exec (.process 4) testState) =
      some (0x40FCEA5C, 0x40466666, 0x01) ∧
    shown (·.status) (exec (.process 5) testState) = some 0x21 := by decide +kernel

/-- S11, S9, S10. -/
theorem test_srm :
    shown (·.res.effRatio) (exec (.srm 4) testState) = some 0x40466666 ∧
    shown (·.res.effRatio) (exec (.srm 0) testState) = some 0x40800000 ∧
    shown (·.res.effRatio) (exec (.srm 0) { testState with host.pRatio := 0x3F000000 }) = some 0x3F800000 := by decide +kernel

/-- E20: the block, the values GR takes, the envelope left. -/
theorem test_ege :
    shown (fun t => (chanAt 0 t, t.io.grLog, t.hid.env)) (exec (.ege 4) testState) =
      some ([0x3F000000, 0xBEF6EC04, 0x3DBAAB0A, 0x00000000], [0x00000000, 0x40CAB1D1, 0x410C3954, 0x410C01BD], 0x3EC42B67) := by
  decide +kernel

/-- E15: ratio 0.5 changes no word, and the envelope runs. -/
theorem test_ege_ratio_clamp :
    shown (fun t => (t.buf, t.hid.env)) (exec (.ege 4) { testState with host.pRatio := 0x3F000000 }) =
      some (testBuf, 0x3EC42B67) := by decide +kernel

/-- H21 (program P3), channel 1; H23: gain 0.0 changes no word. -/
theorem test_hen :
    shown (chanAt 1) (exec (.hen 4) testState) = some [0x3ECE84D6, 0x3F4EA59A, 0xC066E4CC, 0x00000000] ∧
    shown (·.buf) (exec (.hen 4) { testState with host.pOutgain := 0 }) = some testBuf := by decide +kernel

/-! ## Micro-operations -/

/-- R233: SRM latches the ratio alone, and S_INIT follows (R234). -/
theorem test_latch :
    shown (fun t => (t.lat.ratio, t.lat.thresh, t.lat.len, t.pos.phase))
      (exec .latch { testState with io.offered := 0x30000003 }) = some (0x40800000, 0, 3, 0x08) := by decide +kernel

/-- Q23 (−1.0), Q26 (the smallest subnormal). -/
theorem test_prep :
    shown rateInForce (exec .prep { testState with lat.sr := 0xBFF0000000000000 }) = some 0x40E5888000000000 ∧
    shown rateInForce (exec .prep { testState with lat.sr := 0x0000000000000001 }) = some 0x0000000000000001 ∧
    shown (·.hid.env) (exec .prep { testState with hid.env := 0x3F000000 }) = some 0 := by decide +kernel

/-- R235; Q7 at its DONE. -/
theorem test_done :
    shown (fun t => (t.status, t.pos.phase)) (exec .done { testAt phaseDone 0 0 with status := 0x43 }) = some (0x41, 0x00) := by
  decide +kernel

/-- R161. -/
theorem test_sInit :
    shown (fun t => (laneGet t.scr.sumsq 1, t.scr.maxrms, t.pos.phase))
      (exec .sInit { testAt phaseSInit 0 0 with scr.sumsq := Vector.replicate 64 5, scr.maxrms := 7 }) =
      some (0, 0, 0x09) := by decide +kernel

/-- R163 on the word −1.0 with SUMSQ 0.25: 1.25; n in the inner loop. -/
theorem test_sBpf :
    shown (fun t => (t.scr.filt, laneGet t.scr.sumsq 0, t.pos))
      (exec .sBpf { testAt phaseSBpf 1 0 with scr.sumsq := Vector.replicate 64 0x3FD0000000000000 }) =
      some (0xBF800000, 0x3FF4000000000000, { phase := 0x09, idx := 2, ch := 0 }) ∧
    shown (·.pos) (exec .sBpf (testAt phaseSBpf 3 0)) = some { phase := 0x09, idx := 0, ch := 1 } ∧
    shown (·.pos) (exec .sBpf (testAt phaseSBpf 3 1)) = some { phase := 0x0A, idx := 0, ch := 0 } := by decide +kernel

/-- A49 and A51: the sums of S11, and the running maximum. -/
theorem test_sRms :
    shown (·.scr.maxrms) (exec .sRms { testAt phaseSRms 0 0 with scr.sumsq := Vector.replicate 64 0x3FF5000000000000 }) =
      some 0x3F12A476 ∧
    shown (·.scr.maxrms)
      (exec .sRms { testAt phaseSRms 0 1 with scr.sumsq := Vector.replicate 64 0x3FEB851EA2147AE6, scr.maxrms := 0x3F12A476 }) =
      some 0x3F12A476 := by decide +kernel

/-- S1, S3, S5. -/
theorem test_sRatio :
    shown (·.res.effRatio) (exec .sRatio { testAt phaseSRatio 0 0 with scr.maxrms := 0x3DCCCCCD }) = some 0x4068F5C2 ∧
    shown (·.res.effRatio) (exec .sRatio { testAt phaseSRatio 0 0 with scr.maxrms := 0x3E000000, lat.ratio := 0x41A00000 }) =
      some 0x41893333 ∧
    shown (·.res.effRatio) (exec .sRatio { testAt phaseSRatio 0 0 with scr.maxrms := 0x3F12A476, lat.ratio := 0x3F000000 }) =
      some 0x3F800000 := by decide +kernel

/-- E1, in an EGE command. -/
theorem test_eCoef :
    shown (fun t => (t.scr.ratioC, t.scr.ac, t.scr.rc, t.scr.slope)) (exec .eCoef { testAt phaseECoef 0 0 with lat.op := 4 }) =
      some (0x40800000, 0x3F4FDB0F, 0x3F7F779C, 0x3F400000) := by decide +kernel

/-- E2; and the ratio operand of a PROCESS command is EFF_RATIO (R181; A48). -/
theorem test_eCoef_ratio :
    shown (fun t => (t.scr.ratioC, t.scr.slope))
      (exec .eCoef { testAt phaseECoef 0 0 with lat.op := 4, lat.ratio := 0xC0400000 }) = some (0x3F800000, 0x00000000) ∧
    shown (·.scr.slope) (exec .eCoef { testAt phaseECoef 0 0 with res.effRatio := 0x40466666 }) = some 0x3F2D6B5A := by
  decide +kernel

/-- Section 5.2, frame 1, and its lanes. -/
theorem test_eDet :
    shown (fun t => (t.scr.level, laneGet t.scr.lane 0, laneGet t.scr.lane 1)) (exec .eDet (testAt phaseEDet 1 0)) =
      some (0x3F800000, 0xBF800000, 0x3E4CCCCD) := by decide +kernel

/-- E4, E4b, E4c. -/
theorem test_eEnv :
    (([(0x3F000000, 0x3F000000), (0x00000000, 0x3F000000), (0x3F000000, 0x00000000)] : List (F32 × F32)).map
      (fun x => shown (·.hid.env)
        (exec .eEnv { testAt phaseEEnv 1 0 with
          hid.env := x.1, scr.level := x.2, scr.ac := 0x3F4FDB0F, scr.rc := 0x3F7F779C }))) =
      [some 0x3F000000, some 0x3DC093C4, some 0x3EFF779C] := by decide +kernel

/-- E5, E6 (threshold −10.0), E8, E8b, E9 (threshold −20.0). -/
theorem test_eGrc :
    (([(0x3F000000, 0xC1200000), (0x3F800000, 0xC1200000), (0x3DCCCCCD, 0xC1A00000), (0x3DCCCCCE, 0xC1A00000),
        (0x00000000, 0xC1A00000)] : List (F32 × F32)).map
      (fun x => shown (·.scr.grv)
        (exec .eGrc { testAt phaseEGrc 1 0 with hid.env := x.1, lat.thresh := x.2, scr.slope := 0x3F400000 }))) =
      [some 0x403F02DD, some 0x40F00000, some 0x00000000, some 0x35C00000, some 0x00000000] := by decide +kernel

/-- R190. -/
theorem test_ePub :
    shown (fun t => (t.res.gr, t.io.grLog, t.pos.phase)) (exec .ePub { testAt phaseEPub 1 0 with scr.grv := 0x403F02DD }) =
      some (0x403F02DD, [0x403F02DD], 0x15) := by decide +kernel

/-- E5b: the words of the frame alone, and the position after the last frame. -/
theorem test_eApply :
    shown (fun t => (wordAt 0 3 t, wordAt 1 3 t, wordAt 1 2 t, t.pos.phase))
      (exec .eApply { testAt phaseEApply 3 0 with scr.grv := 0x403F02DD, scr.lane := Vector.replicate 64 0x3F800000 }) =
      some (some 0x3F358E89, some 0x3F358E89, some 0xBF666666, 0x18) := by decide +kernel

/-- H11, H13, H15, H16, H17. -/
theorem test_hGain :
    (([0x41C00000, 0x40C00000, 0x80000000, 0xC0C00000] : List F32).map
      (fun g => shown (fun t => (t.scr.lg, t.scr.mix)) (exec .hGain { testAt phaseHGain 0 0 with lat.outgain := g }))) =
      [some (0x417D953B, 0x3DCCCCCD), some (0x3FFF64C2, 0x3CCCCCCD), some (0x3F800000, 0x00000000),
       some (0x3F004DCE, 0x00000000)] ∧
    shown (·.scr.mix) (exec .hGain { testAt phaseHGain 0 0 with lat.outgain := 0x42400000 }) = some 0x3E4CCCCD := by
  decide +kernel

/-- H25, the first sample: K_RBJ with a quiet memory and the coefficients of Q20. -/
theorem test_hHpf :
    shown (fun t => (t.scr.filt, laneGet t.hid.hpfMem 0, laneGet t.scr.lane 0, t.pos.phase))
      (exec .hHpf { testAt phaseHHpf 0 0 with
        params := { testParams with kHpf := .rbj }
        hid.hpfCoef := [0x3E3F2CCD, 0xBEBF2CCD, 0x3E3F2CCD, 0x3EED0636, 0x3E56BF9F]
        hid.hpfMem := Vector.replicate 64 [0, 0]
        buf := memWrite [] (bufAddr 0 0) 0x3F800000 }) =
      some (0x3E3F2CCD, [0xBEEB6D14, 0x3E17152A], 0x3F800000, 0x1A) := by decide +kernel

/-- H1, H2, H3, H4, H6, and the last value of H7. -/
theorem test_hSat :
    (([0x3F000000, 0xBF800000, 0x3E800000, 0x80000000, 0xC0000000, 0xBF666666] : List F32).map
      (fun x => shown (·.scr.sat) (exec .hSat { testAt phaseHSat 0 0 with scr.filt := x }))) =
      [some 0x3F200000, some 0xBF000000, some 0x3E900000, some 0x00000000, some 0x00000000, some 0xBEFD70A4] := by
  decide +kernel

/-- H21 by A53: the gain multiplies the original sample, the mix the saturated one. -/
theorem test_hMac :
    shown (fun t => (wordAt 0 0 t, wordAt 0 1 t, t.pos))
      (exec .hMac { testAt phaseHMac 0 0 with
        scr.lane := Vector.replicate 64 0x3F000000, scr.lg := 0x407EC9E2, scr.sat := 0x3F200000, scr.mix := 0x3D4CCCCD }) =
      some (some 0x400164F1, some 0xBF800000, { phase := 0x19, idx := 1, ch := 0 }) := by decide +kernel

/-! ## Arithmetic (section 3) and the filters' designs (Q20 to Q25) -/

/-- A4, A6 to A11, A54. -/
theorem test_arithmetic :
    numRef.mul32 0x3E99999A 0x40400000 = 0x3F666667 ∧ numRef.neg32 0 = 0x80000000 ∧
    numRef.gt32 0 0x80000000 = false ∧ numRef.max32 0 0x80000000 = 0 ∧ numRef.max32 0x80000000 0 = 0x80000000 ∧
    numRef.min32 0x40000000 0x3F800000 = 0x3F800000 ∧ numRef.mul32 0x00000001 0x3EF6EC04 = 0 := by decide +kernel

/-- R125's overflow: the sum at half a unit above the largest finite F32, just below it, and the negative side. -/
theorem test_overflow :
    numRef.add32 0x7F7FFFFF 0x73000000 = 0x7F800000 ∧ numRef.add32 0x7F7FFFFF 0x72FFFFFF = 0x7F7FFFFF ∧
    numRef.sub32 0xFF7FFFFF 0x73000000 = 0xFF800000 := by decide +kernel

/-- A12 to A21. -/
theorem test_logarithm :
    numRef.log10_32 0x3F000000 = 0xBE9A209B ∧ numRef.log10_32 0x41200000 = 0x3F800000 ∧
    numRef.log10_32 0x3DCCCCCD = 0xBF800000 ∧ linToDb numRef 0xC2C80000 0x40000000 = 0x40C0A8C2 ∧
    linToDb numRef 0xC2C80000 0x358637BD = 0xC2C80000 ∧ linToDb numRef 0xC2C80000 0xBF800000 = 0xC2C80000 := by decide +kernel

/-- R140: a NaN and −∞ give DB_FLOOR, in the record that the machine uses. -/
theorem test_logarithm_of_no_number :
    linToDb testState.num 0xC2C80000 0x7FC00000 = 0xC2C80000 ∧ linToDb testState.num 0xC2C80000 0xFF800000 = 0xC2C80000 := by
  decide +kernel

/-- R147, R281, I3: a sample of 3e38 at a gain of 15.8 overflows, and the machine's product is the free value; within the domain it
is Num_ref's (A4). -/
theorem test_overflow_is_open :
    testState.num.mul32 0x7F61B1E6 0x417D953B = Config.openResult32 .mul32 [0x7F61B1E6, 0x417D953B] ∧
    testState.num.mul32 0x3E99999A 0x40400000 = 0x3F666667 := by
  rw [State.num_admitted (s := testState) rfl, numOf_ref rfl]
  exact ⟨guarded_mul32_open numRef fun h => absurd h.2 (by decide +kernel),
    (guarded_mul32 numRef ⟨by decide, by decide⟩ ⟨by decide, by decide⟩ ⟨by decide +kernel, by decide +kernel⟩).trans
      (by decide +kernel)⟩

/-- R147, I1, I2: PROCESS latches a NaN as attack time, or will read an infinity in BUF: the command is not admitted; and what it
computes is then free also where no operand is a NaN. -/
theorem test_not_admitted :
    (([testState, { testState with host.pAttack := 0x7FC00000 }, { testState with buf := memWrite testBuf 3 0xFF800000 }] :
        List State).map fun s => shown (·.io.admitted) (exec (.wr 0 0x20000004) s)) = [some true, some false, some false] ∧
    ({ testState with io.admitted := false } : State).num.add32 0 0 = Config.openResult32 .add32 [0, 0] :=
  ⟨by decide +kernel, open32_of_not_admitted .add32 [0, 0] (numRef.add32 0 0)⟩

/-- R133: with flush to zero ENV, decaying from the least normal number, reaches +0.0; Num_ref keeps the subnormal number. -/
theorem test_flush :
    (([.flushed, .ref] : List NumSel).map fun n => shown (·.hid.env)
      (exec .eEnv { testAt phaseEEnv 0 0 with
        params := { testParams with num := n }, hid.env := 0x00800000, scr.rc := 0x3F7F779C })) =
      [some 0x00000000, some 0x007FBBCE] := by decide +kernel

/-- R191, R195, Q26: flush to zero changes neither a subnormal sample at the gain 1.0 (GRV = +0.0) nor the smallest rate. -/
theorem test_flush_operands :
    shown (fun t => (wordAt 0 3 t, wordAt 1 3 t)) (exec .eApply { testAt phaseEApply 3 0 with
      params := { testParams with num := .flushed }, scr.grv := 0, scr.lane := Vector.replicate 64 0x80000001 }) =
      some (some 0x80000001, some 0x80000001) ∧
    shown (fun t => (rateInForce t, t.status)) (exec .prep { testState with
      params := { testParams with num := .flushed }, status := 0, lat.sr := 0x0000000000000001 }) =
      some (0x0000000000000001, 0x01) := by decide +kernel

/-- A22, A23, A26, A29, A30, A36, A37. -/
theorem test_exponentials :
    dbToLin numRef 0x80000000 = 0x3F800000 ∧ dbToLin numRef 0x41C00000 = 0x417D953B ∧
    dbToLin numRef 0xC0C00000 = 0x3F004DCE ∧ dbToLin numRef 0xC2C80000 = 0x3727C5AC ∧
    smoothCoef numRef 0x3DCCCCCD 0x40E5888000000000 = 0x3F4C0FAD ∧
    smoothCoef numRef 0x447A0000 0x4107700000000000 = 0x3F7FFFA9 ∧
    smoothCoef numRef 0 0x40E7700000000000 = 0 := by decide +kernel

/-- Q20 and Q21: both designs of K_RBJ at 48000 and at 44100. -/
theorem test_designs :
    rbjBandPass 0x40E7700000000000 = [0x3D2AC802, 0x00000000, 0xBD2AC802, 0xBFF33A35, 0x3F6AA700] ∧
    rbjHighPass 0x40E7700000000000 = [0x3E3F2CCD, 0xBEBF2CCD, 0x3E3F2CCD, 0x3EED0636, 0x3E56BF9F] ∧
    rbjBandPass 0x40E5888000000000 = [0x3D391BAF, 0x00000000, 0xBD391BAF, 0xBFF1F43C, 0x3F68DC8A] ∧
    rbjHighPass 0x40E5888000000000 = [0x3E149C49, 0xBE949C49, 0x3E149C49, 0x3F2C0CB9, 0x3E815203] := by decide +kernel

/-- X25 to X28: script literals and pseudo-operations. -/
theorem test_script :
    scriptSetSr 0x40F7700000000000 = [.host 0x80000002 0x00000000, .host 0x80000003 0x40F77000] ∧
    scriptReal true 10 1 = 0xC1200000 ∧ scriptLoad 1 2 [7] = [.host 0xC1000002 7] ∧ scriptHen 4 = .host 0x80000000 0x50000004 := by
  decide +kernel

/-! ## Witnesses: for each obligation with premises, a state and operands that meet them all -/

/-- A fact about every word of a block, from the list of its words. -/
theorem forall_block (p : Chan → Index → Bool) (nch len : Nat)
    (h : ((List.range nch).all fun c => (List.range len).all fun n => p (BitVec.ofNat 6 c) (BitVec.ofNat 24 n)) = true)
    (c : Chan) (n : Index) (hc : c.toNat < nch) (hn : n.toNat < len) : p c n = true := by
  have h1 := List.all_eq_true.1 (List.all_eq_true.1 h c.toNat (List.mem_range.2 hc)) n.toNat (List.mem_range.2 hn)
  simpa using h1

theorem test_block (s : State) (len : Index)
    (h : ((List.range s.params.nch.toNat).all fun c => (List.range len.toNat).all fun n =>
      (memRead s.buf (bufAddr (BitVec.ofNat 6 c) (BitVec.ofNat 24 n))).isSome) = true) : s.blockWritten len :=
  fun c n hc hn => forall_block (fun c n => (memRead s.buf (bufAddr c n)).isSome) _ _ h c n hc hn

/-- The parameters that PROCESS latches. -/
def testParameters : List F32 :=
  [testState.host.pThresh, testState.host.pRatio, testState.host.pAttack, testState.host.pRelease, testState.host.pOutgain]

/-- R147's premise from its parts that can be computed. -/
theorem test_admits (s : State) (latches : List F32) (len : Index) (h : latches.all isFinite32 = true)
    (hb : blockFinite s.params s.buf len.toNat = true) : s.admits latches len :=
  ⟨fun x hx => (isFinite32_iff x).1 (List.all_eq_true.1 h x hx), (blockFinite_iff s len).1 hb⟩

/-- A next state and what it shows. -/
theorem of_shown {α : Type} {f : State → α} {o : Host.Outcome State Fault Refusal} {a : α} (h : shown f o = some a) :
    ∃ t, o = .next t ∧ f t = a := by
  cases o with
  | next t => exact ⟨t, rfl, by simpa [shown] using h⟩
  | fault r => cases h
  | refused r => cases h

/-- The block 0.0 throughout. -/
def silentBuf : Memory := loadedBuf (testBlock.map fun x => (x.1, x.2.1, 0)) []

theorem witness_EncodingIsUnique : decode .portH [0x40000003] = .ok (.rds 0 3) := by decide

theorem witness_StepRunsDecodedInstr :
    (({ testState with io.inputs := [.host 0xC1000002 7] } : State).io.inputs = [.host 0xC1000002 7] ∧
      decode .portH (if (0xC1000002 : Word).getLsbD 31 then [0xC1000002, 7] else [0xC1000002]) = .ok (.wrs 1 2 7)) ∧
    (({ testState with io.inputs := [.meter 0x0000000A 0] } : State).io.inputs = [.meter 0x0000000A 0] ∧
      decode .portM [0x0000000A] = .ok .rdgr) ∧
    (({ testState with io.inputs := [.command 0x20000004] } : State).io.inputs = [.command 0x20000004] ∧
      decode .command [0x20000004] = .ok (.process 4)) ∧
    (({ testAt phaseSBpf 1 0 with io.inputs := [.turn] } : State).io.inputs = [.turn] ∧
      decode .phase [(testAt phaseSBpf 1 0).pos.phase.setWidth 32] = .ok .sBpf) ∧
    ((testAt phaseHMac 3 1).io.inputs = [] ∧ decode .phase [(testAt phaseHMac 3 1).pos.phase.setWidth 32] = .ok .hMac) := by
  decide +kernel

theorem witness_StepWithoutInstruction :
    (testState.pos.phase = 0x00 ∧ testState.io.inputs = []) ∧
    (∀ i, decode .command [0x60000000] ≠ .ok i) ∧ (∀ i, decode .command [0x10000001] ≠ .ok i) := by
  refine ⟨⟨rfl, rfl⟩, fun i => ?_, fun i => ?_⟩
  · rw [show decode .command [0x60000000] = .error .illegalCommand by decide]; simp
  · rw [show decode .command [0x10000001] = .error .illegalCommand by decide]; simp

/-- Reset while a command runs (70_reset R291). -/
theorem witness_PowerOnReset :
    shown (fun t => (t.status, t.pos.phase, t.params.maxlen)) (step { testAt phaseEDet 1 0 with io.inputs := [.powerOn] }) =
      some (0, 0x00, 4) := by decide +kernel

/-- Each clause at the ends of its range: the staging and parameter registers 0x02 to 0x09 change, 0x0A, 0xFF and an address
with one of bits 29:8 set do not. -/
theorem witness_WrRegisters :
    (([2, 3, 4, 5, 6, 7, 8, 9] : List WordAddr).all fun a =>
      shown (fun t => decide (t.host ≠ testState.host)) (exec (.wr a 0x12345678) testState) = some true) = true ∧
    (([0x0A, 0x10, 0x11, 0xFF, 0x105, 0x3FFFFFFF] : List WordAddr).all fun a =>
      shown (fun t => decide (t = testState)) (exec (.wr a 0x12345678) testState) = some true) = true := by decide +kernel

/-- Both branches, at the ends of the range 0x0B to 0x0E and beside it. -/
theorem witness_RdRegisters :
    (testAt phaseSBpf 1 0).status.getLsbD 1 = true ∧ testState.status.getLsbD 1 = false ∧
    (([0x00, 0x0A, 0x0F, 0x11, 0x3FFFFFFF] : List WordAddr).all fun a =>
      (shown (·.io.free) (exec (.rd a) (testAt phaseSBpf 1 0))).isSome) = true ∧
    (([0x0B, 0x0E] : List WordAddr).map fun a => shown (·.io.hResp) (exec (.rd a) testState)) = [some 0, some 4] := by
  decide +kernel

/-- The last word of the last channel is written, the words after it are not there. -/
theorem witness_WrsWritesOneWord :
    shown (wordAt 1 3) (exec (.wrs 1 3 7) testState) = some (some 7) ∧
    shown (·.buf) (exec (.wrs 1 4 7) testState) = some testBuf ∧ shown (·.buf) (exec (.wrs 2 3 7) testState) = some testBuf := by
  decide +kernel

theorem witness_RdsReadsOneWord :
    ((List.range 4).all fun j =>
      readByte testBuf (4 * ((1 : Chan).toNat * 2 ^ 24 + (2 : Index).toNat) + j) =
        some ((0xBF666666 : Word).extractLsb' (8 * j) 8)) = true ∧
    (readByte testBuf (4 * ((1 : Chan).toNat * 2 ^ 24 + (3 : Index).toNat) + 3)).isSome = true ∧
    shown (·.io.hResp) (exec (.rds 1 4) { testState with io.hResp := 9 }) = some 0 ∧
    (shown (·.io.hResp) (exec (.rds 1 3) (testAt phaseSBpf 1 0))).isSome = true := by decide +kernel

/-- The header the port accepts, another read, a write. -/
theorem witness_MeterPortReturnsGr :
    (([.meter 0x0000000A 0, .meter 0x0000000B 0, .meter 0x8000000A 5] : List Input).map fun x =>
      shown (·.io.mResp) (step { testState with res.gr := 3, io.mResp := 9, io.inputs := [x] })) = [some 3, some 0, some 9] := by
  decide +kernel

theorem witness_LatchCopiesOperands :
    (([0x10000000, 0x20000004, 0x30000004, 0x40000004, 0x50000004] : List Word).map fun w =>
      shown (fun t => (t.lat.op.toNat, t.pos.phase)) (exec .latch { testState with io.offered := w })) =
      [some (1, 0x02), some (2, 0x08), some (3, 0x08), some (4, 0x10), some (5, 0x18)] := by decide +kernel

theorem witness_SBpfFilters :
    (testAt phaseSBpf 3 1).pos.ch.toNat < (testAt phaseSBpf 3 1).params.nch.toNat ∧
    (testAt phaseSBpf 3 1).pos.idx.toNat < (testAt phaseSBpf 3 1).params.maxlen.toNat ∧
    memRead (testAt phaseSBpf 3 1).buf (bufAddr 1 3) = some 0 := by decide +kernel

theorem witness_EDetDetectsLevel :
    (testAt phaseEDet 3 0).pos.idx.toNat < (testAt phaseEDet 3 0).params.maxlen.toNat ∧
    ∀ c : Chan, c.toNat < (testAt phaseEDet 3 0).params.nch.toNat →
      memRead (testAt phaseEDet 3 0).buf (bufAddr c (testAt phaseEDet 3 0).pos.idx) = some ((fun _ => 0) c) := by
  refine ⟨by decide, fun c hc => ?_⟩
  exact of_decide_eq_true
    (forall_block (fun c n => decide (memRead testBuf (bufAddr c n) = some 0 ∨ n ≠ 3)) 2 4 (by decide +kernel) c 3 hc (by decide)
      |> fun h => decide_eq_true ((of_decide_eq_true h).resolve_right (by simp)))

theorem witness_EApplyScalesFrame :
    (testAt phaseEApply 3 0).params.nch.toNat ≤ 64 ∧
    (testAt phaseEApply 3 0).pos.idx.toNat < (testAt phaseEApply 3 0).params.maxlen.toNat := by decide

theorem witness_HHpfFilters :
    (testAt phaseHHpf 0 1).pos.ch.toNat < (testAt phaseHHpf 0 1).params.nch.toNat ∧
    (testAt phaseHHpf 0 1).pos.idx.toNat < (testAt phaseHHpf 0 1).params.maxlen.toNat ∧
    memRead (testAt phaseHHpf 0 1).buf (bufAddr 1 0) = some 0x3DCCCCCD := by decide +kernel

theorem witness_HMacWritesBack :
    (testAt phaseHMac 3 1).pos.ch.toNat < (testAt phaseHMac 3 1).params.nch.toNat ∧
    (testAt phaseHMac 3 1).pos.idx.toNat < (testAt phaseHMac 3 1).params.maxlen.toNat := by decide

theorem witness_UnwrittenSampleFaults :
    (([.sBpf, .hHpf, .eDet] : List Instr).map fun i => faultOf (exec i { testAt phaseSBpf 1 1 with buf := memWrite [] 1 7 })) =
      [some .unwrittenWord, some .unwrittenWord, some .unwrittenWord] ∧
    memRead (memWrite [] 1 7) (bufAddr 1 1) = none := by decide +kernel

/-- One too many frames; the longest block that is accepted. -/
theorem witness_CommandsDropped :
    (([0x10000000, 0x20000004, 0x30000004, 0x40000004, 0x50000004] : List Word).all fun w =>
      match decode .command [w] with
      | .ok i => decide (shown (·.status) (exec i (testAt phaseSBpf 1 0)) = some 0x43)
      | .error _ => false) = true ∧
    shown (·.status) (exec (.hen 4) { testState with status := 0x00 }) = some 0x08 ∧
    shown (·.status) (exec (.srm 5) testState) = some 0x21 ∧ shown (·.status) (exec (.hen 4) testState) = some 0x01 := by
  decide +kernel

theorem witness_PrepareCommand : testState.status.getLsbD 1 = false ∧ State.reset.status.getLsbD 1 = false := by decide

/-- SrmCommand, EgeCommand, HenCommand, ProcessIsTheThreeStages: the whole of BUF, and the empty block. -/
theorem witness_ready :
    testState.params.wf = true ∧ testState.ready 4 ∧ testState.ready 0 ∧
    testState.admits testParameters 4 ∧ testState.admits testParameters 0 ∧
    testState.admits [testState.host.pThresh, testState.host.pRatio, testState.host.pAttack, testState.host.pRelease] 4 ∧
    testState.admits [testState.host.pRatio] 4 ∧ testState.admits [testState.host.pOutgain] 4 :=
  ⟨by decide, ⟨by decide, by decide, by decide, test_block _ _ (by decide +kernel)⟩,
    ⟨by decide, by decide, by decide, test_block _ _ (by decide +kernel)⟩, test_admits _ _ _ (by decide) (by decide +kernel),
    test_admits _ _ _ (by decide) (by decide +kernel), test_admits _ _ _ (by decide) (by decide +kernel),
    test_admits _ _ _ (by decide) (by decide +kernel), test_admits _ _ _ (by decide) (by decide +kernel)⟩

/-- PROCESS hands finite values from stage to stage: the ratio after SRM, the block after EGE. -/
theorem witness_ProcessIsTheThreeStages :
    ∃ t1 t2 : State, exec (.srm 4) testState = .next t1 ∧
      exec (.ege 4) (t1.withHost { testState.host with pRatio := t1.res.effRatio }) = .next t2 ∧
      finite32 t1.res.effRatio ∧ t2.blockAdmitted 4 := by
  obtain ⟨t1, h1, e1⟩ := of_shown (o := exec (.srm 4) testState)
    (f := fun t => (isFinite32 t.res.effRatio,
      shown (fun u => blockFinite u.params u.buf 4) (exec (.ege 4) (t.withHost { testState.host with pRatio := t.res.effRatio }))))
    (a := (true, some true)) (by decide +kernel)
  obtain ⟨t2, h2, e2⟩ := of_shown (Prod.mk.inj e1).2
  exact ⟨t1, t2, h1, h2, (isFinite32_iff _).1 (Prod.mk.inj e1).1, (blockFinite_iff t2 4).1 e2⟩

theorem witness_ZeroLengthCommands :
    testState.status.getLsbD 1 = false ∧ testState.status.getLsbD 0 = true ∧ testState.params.num = .ref ∧
    testState.admits testParameters 0 := ⟨by decide, by decide, rfl, test_admits _ _ _ (by decide) (by decide +kernel)⟩

theorem witness_AtomicCommandIsSequencerRun :
    decode .command [0x20000004] = .ok (.process 4) ∧ testState.idle ∧ testState.io.inputs = [] :=
  ⟨by decide, ⟨by decide, rfl⟩, rfl⟩

/-- The invariant from its parts that can be computed, for a machine whose BUF is empty. -/
theorem inv_of_empty (s : State) (hb : s.buf = []) (h1 : s.params.wf = true) (h2 : isBusy s = true ↔ s.pos.phase ≠ phaseIdle)
    (h3 : s.pos.phase = phaseIdle → s.pos.idx = 0 ∧ s.pos.ch = 0)
    (h4 : s.pos.phase ≠ phaseIdle → phaseOfOp s.lat.op s.pos.phase = true)
    (h5 : s.pos.phase ≠ phaseIdle → s.lat.len.toNat ≤ s.params.maxlen.toNat)
    (h6 : samplePhase s.pos.phase = true → s.pos.idx.toNat < s.lat.len.toNat) (h7 : s.pos.ch.toNat < s.params.nch.toNat)
    (h8 : s.pos.phase = phaseSRms → s.lat.len ≠ 0) (h9 : s.pos.phase ≠ phaseIdle → s.lat.op ≠ 1 → isPrepared s = true)
    (h10 : isPrepared s = true → rateValid s.num (rateInForce s) = true ∨ rateInForce s = s.params.safeSr) : s.Inv := by
  refine ⟨h1, by rw [hb]; rfl, ?_, ?_, h2, h3, h4, h5, h6, h7, h8, h9, h10⟩
  · intro w _ i _; rw [hb]; rfl
  · intro a ha; rw [hb] at ha; cases ha

/-- Loading words of BUF keeps the invariant. -/
theorem inv_loaded (l : List (Chan × Index × F32)) (s : State) (h : s.Inv)
    (hl : (l.all fun x => Machine.inBuf s.params x.1 x.2.1) = true) : ({ s with buf := loadedBuf l s.buf } : State).Inv := by
  induction l generalizing s with
  | nil => exact h
  | cons x xs ih =>
    rw [List.all_cons, Bool.and_eq_true] at hl
    exact ih { s with buf := memWrite s.buf (bufAddr x.1 x.2.1) x.2.2 } (h.memWrite x.1 x.2.1 x.2.2 hl.1) hl.2

/-- A running PROCESS command at its last band-pass step, its block written: InvStepsAreSafe, StepKeepsInv, CommandsReachDone. -/
theorem witness_running_inv : (testAt phaseSBpf 3 1).Inv ∧ (testAt phaseSBpf 3 1).io.inputs = [] :=
  ⟨inv_loaded testBlock { testAt phaseSBpf 3 1 with buf := [] }
    (inv_of_empty _ rfl (by decide) (by decide) (by decide) (by decide) (by decide) (by decide) (by decide) (by decide)
      (by decide) (by decide +kernel)) (by decide +kernel), rfl⟩

/-- An idle machine of the invariant, and one at the last write of a command. -/
theorem witness_other_inv :
    ({ testState with buf := [] } : State).Inv ∧ ({ testAt phaseHMac 3 1 with buf := [] } : State).Inv :=
  ⟨inv_of_empty _ rfl (by decide) (by decide) (by decide) (by decide) (by decide) (by decide) (by decide) (by decide)
      (by decide) (by decide +kernel),
    inv_of_empty _ rfl (by decide) (by decide) (by decide) (by decide) (by decide) (by decide) (by decide) (by decide)
      (by decide) (by decide +kernel)⟩

theorem witness_StepKeepsInv : ∃ t, step (testAt phaseSBpf 3 1) = .next t ∧ t.pos.phase = phaseSRms :=
  of_shown (f := fun t => t.pos.phase) (by decide +kernel)

/-- Each writer changes what it writes: ePub, sRatio, prep, eEnv, sBpf, hMac, latch. -/
theorem witness_EachRegisterHasItsWriters :
    busOf .ePub ≠ .command ∧
    shown (·.res.gr) (exec .ePub { testAt phaseEPub 1 0 with scr.grv := 1 }) = some 1 ∧
    shown (fun t => decide (t.res.effRatio ≠ 0)) (exec .sRatio (testAt phaseSRatio 0 0)) = some true ∧
    shown (fun t => decide (t.res.srHi ≠ 0)) (exec .prep { testState with res.srHi := 0 }) = some true ∧
    shown (fun t => decide (t.buf ≠ testBuf)) (exec .hMac (testAt phaseHMac 3 1)) = some false ∧
    shown (fun t => decide (t.buf ≠ testBuf)) (exec .hMac (testAt phaseHMac 0 1)) = some true ∧
    shown (fun t => decide (t.lat ≠ testState.lat)) (exec .latch { testState with io.offered := 0x30000003 }) = some true := by
  decide +kernel

theorem witness_EachStatusBitHasItsWriters :
    shown (·.status.getLsbD 0) (step { testState with io.inputs := [.powerOn] }) = some false ∧ testState.status.getLsbD 0 = true ∧
    shown (·.status) (exec .prep { testAt phasePrep 0 0 with status := 0x02, lat.sr := 0 }) = some 0x07 ∧
    shown (·.status) (exec (.wr 0 0x30000004) testState) = some 0x03 ∧
    shown (·.status) (exec (.wr 0 0x30000004) { testState with status := 0x03 }) = some 0x43 ∧
    shown (·.status) (exec .done { testState with status := 0x43 }) = some 0x41 ∧
    shown (·.status) (exec (.wr 1 0x40) { testState with status := 0x43 }) = some 0x03 := by decide +kernel

theorem witness_MeterReadsDoNotInterfere : (Instr.process 4) ≠ .rdgr := by decide

theorem witness_ParameterWritesWait : busOf .eGrc = .phase ∧ Instr.eGrc ≠ .latch := by decide

theorem witness_StickyBitsNeverBlock :
    (0x7C : BitVec 7) &&& 0x7C = 0x7C ∧ Instr.process 4 ≠ .rd 1 ∧ ∀ D, Instr.process 4 ≠ .wr 1 D :=
  ⟨by decide, by decide, fun D => by simp⟩

/-- Two cores with different pasts, both prepared and both through a block. -/
theorem witness_PrepareForgetsThePast :
    ∃ s1 s2 t1 t2 u1 : State,
      s1.params.wf = true ∧ s2.params = s1.params ∧ s2.host = s1.host ∧ s2.buf = s1.buf ∧
      s1.admits [s1.host.pThresh, s1.host.pRatio, s1.host.pAttack, s1.host.pRelease, s1.host.pOutgain] 4 ∧ s1.hid ≠ s2.hid ∧
      s1.status.getLsbD 1 = false ∧ s2.status.getLsbD 1 = false ∧ (4 : Index).toNat ≤ s1.params.maxlen.toNat ∧
      exec .prepare s1 = .next t1 ∧ exec .prepare s2 = .next t2 ∧ exec (.process 4) t1 = .next u1 := by
  obtain ⟨t1, h1, e1⟩ := of_shown (f := fun t => (shown (·.res.gr) (exec (.process 4) t)))
    (o := exec .prepare testState) (a := some 0x40FCEA5C) (by decide +kernel)
  obtain ⟨u1, hu, -⟩ := of_shown e1
  obtain ⟨t2, h2, -⟩ := of_shown (f := fun t => t.hid.env) (o := exec .prepare { testState with hid.env := 0x3F000000 })
    (a := 0) (by decide +kernel)
  exact ⟨testState, { testState with hid.env := 0x3F000000 }, t1, t2, u1, by decide, rfl, rfl, rfl,
    test_admits _ _ _ (by decide) (by decide +kernel), by decide +kernel, by decide,
    by decide, by decide, h1, h2, hu⟩

theorem rat32_lt (a b : F32) (h : val fmt32 a.toNat < val fmt32 b.toNat) : rat32 a < rat32 b :=
  div_lt_div_of_pos_right (Int.cast_lt.2 h) (by positivity)

theorem rat32_le (a b : F32) (h : val fmt32 a.toNat ≤ val fmt32 b.toNat) : rat32 a ≤ rat32 b :=
  div_le_div_of_nonneg_right (Int.cast_le.2 h) (by positivity)

theorem rat32_ne (a : F32) (h : val fmt32 a.toNat ≠ 0) : rat32 a ≠ 0 :=
  div_ne_zero (Int.cast_ne_zero.2 h) (by positivity)

/-- The largest finite value, the smallest subnormal and −1.0; the smallest subnormal is not zero. -/
theorem witness_RefArithmeticIsNearestEven :
    finite32 0x7F7FFFFF ∧ finite32 0x00000001 ∧ finite32 0xBF800000 ∧ rat32 0x00000001 ≠ 0 := by
  exact ⟨⟨by decide, by decide⟩, ⟨by decide, by decide⟩, ⟨by decide, by decide⟩, rat32_ne _ (by decide +kernel)⟩

theorem witness_RefSpecialOperands :
    finite32 0xBF800000 ∧ ¬zero32 0xBF800000 ∧ zero32 0x00000000 ∧ zero32 0x80000000 ∧ nan32P 0x7FC00000 ∧
    (0x7F800000 : F32) &&& 0x7FFFFFFF = 0x7F800000 ∧ (0xFF800000 : F32) &&& 0x7FFFFFFF = 0x7F800000 :=
  ⟨⟨by decide, by decide⟩, by unfold zero32; decide, .inl rfl, .inr rfl, by unfold nan32P; decide, by decide, by decide⟩

/-- 1.0 and 2.0, in both orders; equal values; a NaN. -/
theorem witness_RefComparisons :
    finite32 0x3F800000 ∧ finite32 0x40000000 ∧ finite64 0x40E5888000000000 ∧ nan32P 0x7F800001 ∧
    rat32 0x3F800000 < rat32 0x40000000 ∧ rat32 0x80000000 ≤ rat32 0x00000000 := by
  exact ⟨⟨by decide, by decide⟩, ⟨by decide, by decide⟩, ⟨by decide, by decide⟩, by unfold nan32P; decide,
    rat32_lt _ _ (by decide +kernel), rat32_le _ _ (by decide +kernel)⟩

theorem witness_RefConversionsAreExact : finite32 0x00000001 ∧ ¬zero32 0x00000001 ∧ finite32 0xFF7FFFFF :=
  ⟨⟨by decide, by decide⟩, by unfold zero32; decide, ⟨by decide, by decide⟩⟩

theorem witness_RefNP1NP2NP3NP6AndValuesOfNP4 : zero32 0x80000000 ∧ finite32 0x00000001 ∧ ¬zero32 0x00000001 :=
  ⟨.inr rfl, ⟨by decide, by decide⟩, by unfold zero32; decide⟩

/-- Ratio 4.0 with MAXRMS 0.5, and the least ratio with the largest MAXRMS that 4.0 does not carry over the range. -/
theorem witness_EffectiveRatioBound :
    ((testAt phaseSRatio 0 0).params.num = .ref ∧ (testAt phaseSRatio 0 0).io.admitted = true ∧ finite32 0x40800000 ∧ numRef.lt32 0x40800000 0x3F800000 = false ∧
      finite32 0x3F000000 ∧ (0x3F000000 : F32).getLsbD 31 = false ∧ finite32 (numRef.mul32 0x3F000000 0x40800000)) ∧
    (finite32 0x3F800000 ∧ numRef.lt32 0x3F800000 0x3F800000 = false ∧ finite32 0x7E7FFFFF ∧
      finite32 (numRef.mul32 0x7E7FFFFF 0x40800000)) :=
  ⟨⟨rfl, rfl, ⟨by decide, by decide⟩, by decide +kernel, ⟨by decide, by decide⟩, by decide, ⟨by decide +kernel, by decide +kernel⟩⟩,
    ⟨by decide, by decide⟩, by decide +kernel, ⟨by decide, by decide⟩, ⟨by decide +kernel, by decide +kernel⟩⟩

/-- E11 against E12: ENV 0.5, slope 0.75, the threshold raised from −20.0 to −10.0. -/
theorem witness_ThresholdMonotone :
    testState.params.num = .ref ∧ testState.io.admitted = true ∧
    finite32 (linToDb testState.num 0xC2C80000 0x3F000000) ∧ finite32 0xC1A00000 ∧ finite32 0xC1200000 ∧
    numRef.gt32 0xC1A00000 0xC1200000 = false ∧
    finite32 (numRef.sub32 (linToDb testState.num 0xC2C80000 0x3F000000) 0xC1A00000) ∧ finite32 0x3F400000 ∧
    (0x3F400000 : F32).getLsbD 31 = false ∧
    finite32 (numRef.mul32 (numRef.sub32 (linToDb testState.num 0xC2C80000 0x3F000000) 0xC1A00000) 0x3F400000) :=
  ⟨rfl, rfl, ⟨by decide +kernel, by decide +kernel⟩, ⟨by decide, by decide⟩, ⟨by decide, by decide⟩, by decide +kernel,
    ⟨by decide +kernel, by decide +kernel⟩, ⟨by decide, by decide⟩, by decide, ⟨by decide +kernel, by decide +kernel⟩⟩

/-- E15, E16, E17: the ratios 0.5, 1.0, −3.0. -/
theorem witness_RatiosBelowOneAreOne :
    testState.params.num = .ref ∧ (testAt phaseECoef 0 0).params.num = .ref ∧ (testAt phaseECoef 0 0).io.admitted = true ∧
    testState.admits [testState.host.pThresh, 0x3F000000, 0x3F800000, testState.host.pAttack, testState.host.pRelease] 4 ∧
    finite32 0xC0400000 ∧
    ([0x3F000000, 0x3F800000, 0xC0400000] : List F32).map (fun r => numRef.gt32 r 0x3F800000) = [false, false, false] :=
  ⟨rfl, rfl, rfl, test_admits _ _ _ (by decide) (by decide +kernel), ⟨by decide, by decide⟩, by decide +kernel⟩

theorem witness_ConcreteKernelsAreAdmissible :
    ∀ w ∈ ([0x3E3F2CCD, 0xBEBF2CCD, 0x3E3F2CCD, 0x3EED0636, 0x3E56BF9F] : KCoef), finite32 w := by
  intro w hw
  simp only [List.mem_cons, List.not_mem_nil, or_false] at hw
  rcases hw with rfl | rfl | rfl | rfl | rfl <;> exact ⟨by decide, by decide⟩

/-- KP4 has something to say: a memory of K_RBJ reached by the input 1.0, and a step from it in which nothing overflows. -/
theorem witness_KernelReached :
    ∃ m, KernelReached (kernelRbj numRef rbjHighPass) (rbjHighPass 0x40E7700000000000) m ∧
      (kernelRbj numRef rbjHighPass).overflows (rbjHighPass 0x40E7700000000000) m 0xBF800000 = false :=
  ⟨_, .step _ 0x3F800000 .zero ⟨by decide, by decide⟩ (by decide +kernel), by decide +kernel⟩

/-- A silent block of four frames through a machine with K_ID, at gain 12.0. -/
theorem witness_SilenceStaysSilent :
    ({ testState with buf := silentBuf } : State).ready 4 ∧
    QuietKernel (hpfOf testParams) testState.hid.hpfCoef (fun _ => True) ∧
    (∀ (c : Chan) (n : Index) (v : F32), c.toNat < 2 → n.toNat < 4 → memRead silentBuf (bufAddr c n) = some v → zero32 v) ∧
    finite32 0x41400000 ∧ finite32 (numRef.pow10_32 (numRef.div32 0x41400000 0x41A00000)) ∧
    finite32 (numRef.mul32 0x3DCCCCCD (numRef.max32 0x00000000 (numRef.div32 0x41400000 0x41C00000))) := by
  refine ⟨⟨by decide, by decide, by decide, test_block _ _ (by decide +kernel)⟩, ⟨trivial, fun m z _ hz => ⟨hz, trivial⟩⟩, ?_,
    ⟨by decide, by decide⟩, ⟨by decide +kernel, by decide +kernel⟩, ⟨by decide +kernel, by decide +kernel⟩⟩
  intro c n v hc hn hv
  have h := forall_block (fun c n => decide (memRead silentBuf (bufAddr c n) = some 0)) 2 4 (by decide +kernel) c n hc hn
  rw [of_decide_eq_true h] at hv
  exact .inl (Option.some.inj hv).symm

end Sys2Proof.Machine
end

section
/-! What a step fetches and what it can do; then that every step keeps the invariant and that reset has it (00_scope R7,
10_state R47, 20_memory R64, R67, 44_host_commands R232, R234). -/

namespace Sys2Proof.Machine

/-! ## Fetching -/

/-- The words of a transaction on port H, by the header's bit 31 (30_encoding R91). -/
theorem hostWords_eq (H D : Word) : hostWords H D = if H.getLsbD 31 then [H, D] else [H] := rfl

/-- A step on words that stand for an instruction. -/
theorem step_of_decode {s t : State} {b : Bus} {ws : List Word} {i : Instr} (hf : fetch s = (some (b, ws), t))
    (hd : decode b ws = .ok i) : step s = exec i t := by
  unfold step
  simp only [hf, hd]

/-- A step on words that stand for no instruction. -/
theorem step_of_reject {s t : State} {b : Bus} {ws : List Word} {e : Reject} (hf : fetch s = (some (b, ws), t))
    (hd : decode b ws = .error e) : step s = notAnInstr b ws e t := by
  unfold step
  simp only [hf, hd]

theorem step_of_powerOn {s t : State} (hf : fetch s = (none, t)) : step s = .next (powerOn t) := by
  unfold step
  simp only [hf]

section FetchInputs
variable {s : State} {rest : List Input}

theorem fetch_nil (h : s.io.inputs = []) : fetch s = (some (.phase, phaseWords s), s) := by
  unfold fetch; rw [h]

theorem fetch_turn (h : s.io.inputs = .turn :: rest) :
    fetch s = (some (.phase, phaseWords s), s.withInputs rest) := by
  unfold fetch; rw [h]; rfl

theorem fetch_host {H D : Word} (h : s.io.inputs = .host H D :: rest) :
    fetch s = (some (.portH, hostWords H D), s.withInputs rest) := by
  unfold fetch; rw [h]; rfl

theorem fetch_meter {H D : Word} (h : s.io.inputs = .meter H D :: rest) :
    fetch s = (some (.portM, [H]), s.withInputs rest) := by
  unfold fetch; rw [h]; rfl

theorem fetch_command {W : Word} (h : s.io.inputs = .command W :: rest) :
    fetch s = (some (.command, [W]), s.withInputs rest) := by
  unfold fetch; rw [h]; rfl

theorem fetch_powerOn (h : s.io.inputs = .powerOn :: rest) : fetch s = (none, s.withInputs rest) := by
  unfold fetch; rw [h]; rfl

end FetchInputs

/-- Settles O6: each form of the first pending input brings its words to the decoder, and the step executes what they stand
for. -/
theorem stepRunsDecodedInstr : Obligations.StepRunsDecodedInstr := by
  intro s i rest
  refine ⟨?host, ?meter, ?command, ?turn, ?nothing⟩
  case host => exact fun H D hin hd => step_of_decode (fetch_host hin) (by rwa [hostWords_eq])
  case meter => exact fun _ _ hin hd => step_of_decode (fetch_meter hin) hd
  case command => exact fun _ hin hd => step_of_decode (fetch_command hin) hd
  case turn => exact fun hin hd => step_of_decode (fetch_turn hin) hd
  case nothing => exact fun hin hd => step_of_decode (fetch_nil hin) hd

/-- What a fetch can find: power-on reset, or words at a place, PHASE's where the place is the sequencer; it takes
nothing but inputs from the state. -/
theorem fetch_cases (s : State) :
    ∃ l, fetch s = (none, s.withInputs l) ∨
      ∃ b ws, fetch s = (some (b, ws), s.withInputs l) ∧ (b = .phase → ws = phaseWords s) := by
  cases hin : s.io.inputs with
  | nil => exact ⟨s.io.inputs, .inr ⟨_, _, fetch_nil hin, fun _ => rfl⟩⟩
  | cons x rest =>
    refine ⟨rest, ?_⟩
    cases x with
    | host H D => exact .inr ⟨_, _, fetch_host hin, nofun⟩
    | meter H D => exact .inr ⟨_, _, fetch_meter hin, nofun⟩
    | command W => exact .inr ⟨_, _, fetch_command hin, nofun⟩
    | turn => exact .inr ⟨_, _, fetch_turn hin, fun _ => rfl⟩
    | powerOn => exact .inl (fetch_powerOn hin)

/-- All that a step can do: power-on reset, a decoded instruction, one of PHASE's code where the sequencer has the turn, or
what words that are no instruction ask for. -/
theorem step_cases (s : State) :
    ∃ l, step s = .next (powerOn (s.withInputs l)) ∨
      (∃ b ws i, decode b ws = .ok i ∧ (b = .phase → ws = phaseWords s) ∧ step s = exec i (s.withInputs l)) ∨
      ∃ b ws e, decode b ws = .error e ∧ step s = notAnInstr b ws e (s.withInputs l) := by
  obtain ⟨l, hf | ⟨b, ws, hf, hb⟩⟩ := fetch_cases s
  · exact ⟨l, .inl (step_of_powerOn hf)⟩
  · cases hd : decode b ws with
    | ok i => exact ⟨l, .inr (.inl ⟨b, ws, i, hd, hb, step_of_decode hf hd⟩)⟩
    | error e => exact ⟨l, .inr (.inr ⟨b, ws, e, hd, step_of_reject hf hd⟩)⟩

/-! ## Phases at which a command can enter a stage -/

/-- A phase to whose start, IDX = 0 and CH = 0, a command `op` of `len` frames can go: it is one of the command's, and where
it works on samples there is one. -/
structure Enterable (op : BitVec 4) (len : Index) (f : PhaseCode) : Prop where
  runs : f ≠ phaseIdle
  ofOp : phaseOfOp op f = true
  samples : samplePhase f = true → 0 < len.toNat
  rms : f = phaseSRms → len ≠ 0

/-- A phase that works on no sample asks nothing of the frame count. -/
theorem Enterable.of_not_sample {op : BitVec 4} {len : Index} {f : PhaseCode} (hr : f ≠ phaseIdle)
    (ho : phaseOfOp op f = true) (hs : samplePhase f = false) (hm : f ≠ phaseSRms) : Enterable op len f :=
  ⟨hr, ho, fun e => by simp [hs] at e, fun e => absurd e hm⟩

/-- With a frame to work on, any phase of the command can be entered. -/
theorem Enterable.of_len {op : BitVec 4} {len : Index} {f : PhaseCode} (hr : f ≠ phaseIdle)
    (ho : phaseOfOp op f = true) (hl : len ≠ 0) : Enterable op len f :=
  ⟨hr, ho, fun _ => by bv_omega, fun _ => hl⟩

theorem enterable_done (op : BitVec 4) (len : Index) : Enterable op len phaseDone :=
  .of_not_sample (by decide) rfl rfl (by decide)

theorem enterable_afterLatch {op : BitVec 4} (len : Index) (h : op = 1 ∨ op = 2 ∨ op = 3 ∨ op = 4 ∨ op = 5) :
    Enterable op len (afterLatch op) := by
  rcases h with rfl | rfl | rfl | rfl | rfl <;> exact .of_not_sample (by decide) (by decide) (by decide) (by decide)

theorem enterable_afterSInit {op : BitVec 4} (len : Index) (h : op = 2 ∨ op = 3) :
    Enterable op len (afterSInit len) := by
  unfold afterSInit
  split
  · rcases h with rfl | rfl <;> exact .of_not_sample (by decide) (by decide) (by decide) (by decide)
  · rcases h with rfl | rfl <;> exact .of_len (by decide) (by decide) ‹_›

theorem enterable_afterSrm {op : BitVec 4} (len : Index) (h : op = 2 ∨ op = 3) :
    Enterable op len (afterSrm op) := by
  rcases h with rfl | rfl <;> exact .of_not_sample (by decide) (by decide) (by decide) (by decide)

theorem enterable_afterEge {op : BitVec 4} (len : Index) (h : op = 2 ∨ op = 4) :
    Enterable op len (afterEge op) := by
  rcases h with rfl | rfl <;> exact .of_not_sample (by decide) (by decide) (by decide) (by decide)

theorem enterable_afterECoef {op : BitVec 4} (len : Index) (h : op = 2 ∨ op = 4) :
    Enterable op len (afterECoef op len) := by
  unfold afterECoef
  split
  · exact enterable_afterEge len h
  · rcases h with rfl | rfl <;> exact .of_len (by decide) (by decide) ‹_›

theorem enterable_afterHGain {op : BitVec 4} (len : Index) (h : op = 2 ∨ op = 5) :
    Enterable op len (afterHGain len) := by
  unfold afterHGain
  split
  · exact enterable_done op len
  · rcases h with rfl | rfl <;> exact .of_len (by decide) (by decide) ‹_›

/-! ## Where the sequencer is, and whose command it runs -/

theorem running_of_samplePhase {p : PhaseCode} (hk : samplePhase p = true) : p ≠ phaseIdle := by
  rintro rfl; cases hk

section Running
variable {s : State}

/-- In a phase of the SRM stage the command is PROCESS or SRM. -/
theorem State.Inv.op_of_srmPhase (h : s.Inv) (hk : srmPhase s.pos.phase = true) : s.lat.op = 2 ∨ s.lat.op = 3 :=
  phaseOfOp_srm _ _ hk (h.phase fun e => by rw [e] at hk; cases hk)

/-- In a phase of the EGE stage the command is PROCESS or EGE. -/
theorem State.Inv.op_of_egePhase (h : s.Inv) (hk : egePhase s.pos.phase = true) : s.lat.op = 2 ∨ s.lat.op = 4 :=
  phaseOfOp_ege _ _ hk (h.phase fun e => by rw [e] at hk; cases hk)

/-- In a phase of the HEN stage the command is PROCESS or HEN. -/
theorem State.Inv.op_of_henPhase (h : s.Inv) (hk : henPhase s.pos.phase = true) : s.lat.op = 2 ∨ s.lat.op = 5 :=
  phaseOfOp_hen _ _ hk (h.phase fun e => by rw [e] at hk; cases hk)

/-- A micro-operation on a sample has a sample to work on. -/
theorem State.Inv.len_pos (h : s.Inv) (hk : samplePhase s.pos.phase = true) : 0 < s.lat.len.toNat :=
  Nat.zero_lt_of_lt (h.idx hk)

end Running

theorem phaseOfOp_of_srmPhase {op : BitVec 4} {p : PhaseCode} (h : op = 2 ∨ op = 3) (hk : srmPhase p = true) :
    phaseOfOp op p = true := by revert op p; decide

theorem phaseOfOp_of_egePhase {op : BitVec 4} {p : PhaseCode} (h : op = 2 ∨ op = 4) (hk : egePhase p = true) :
    phaseOfOp op p = true := by revert op p; decide

theorem phaseOfOp_of_henPhase {op : BitVec 4} {p : PhaseCode} (h : op = 2 ∨ op = 5) (hk : henPhase p = true) :
    phaseOfOp op p = true := by revert op p; decide

/-! ## Moves of the sequencer that keep the invariant -/

section Moves
variable {s t : State}

/-- To a phase that the command can enter. -/
theorem State.Inv.enter {f : PhaseCode} (h : s.Inv) (hp : t.params = s.params) (hb : t.buf = s.buf)
    (hs : t.status = s.status) (hl : t.lat = s.lat) (hr : rateInForce t = rateInForce s)
    (hrun : s.pos.phase ≠ phaseIdle) (hf : Enterable s.lat.op s.lat.len f) : (Machine.goTo f t).Inv :=
  h.goTo f hp hb hs hl hr hrun hf.runs hf.ofOp hf.samples hf.rms

/-- To the next channel of S_RMS, or past the last. -/
theorem State.Inv.nextChan {a f : PhaseCode} (h : s.Inv) (hp : t.params = s.params) (hb : t.buf = s.buf)
    (hs : t.status = s.status) (hl : t.lat = s.lat) (hr : rateInForce t = rateInForce s) (hpos : t.pos = s.pos)
    (hrun : s.pos.phase ≠ phaseIdle) (ha : Enterable s.lat.op s.lat.len a) (hf : Enterable s.lat.op s.lat.len f) :
    (nextChan a f t).Inv := by
  rcases nextChan_cases a f t with ⟨hlt, e⟩ | ⟨-, e⟩ <;> rw [e]
  · rw [hp, hpos] at hlt
    exact h.move hp hb hs hl hr hrun ha.runs ha.ofOp ha.samples
      (by simp only [hpos, ch_succ hlt (wf_bounds h.params).2.1]; exact hlt) ha.rms
  · exact h.enter hp hb hs hl hr hrun hf

/-- To the next frame, or past the last. -/
theorem State.Inv.nextFrame {a f : PhaseCode} (h : s.Inv) (hp : t.params = s.params) (hb : t.buf = s.buf)
    (hs : t.status = s.status) (hl : t.lat = s.lat) (hr : rateInForce t = rateInForce s) (hpos : t.pos = s.pos)
    (hrun : s.pos.phase ≠ phaseIdle) (ha : Enterable s.lat.op s.lat.len a) (hf : Enterable s.lat.op s.lat.len f) :
    (nextFrame a f t).Inv := by
  rcases nextFrame_cases a f t with ⟨hlt, e⟩ | ⟨-, e⟩ <;> rw [e]
  · rw [hl, hpos] at hlt
    exact h.move hp hb hs hl hr hrun ha.runs ha.ofOp (fun _ => by simp only [hpos, idx_succ hlt]; exact hlt)
      (wf_bounds h.params).1 ha.rms
  · exact h.enter hp hb hs hl hr hrun hf

/-- To another phase of the EGE stage at the same frame. -/
theorem State.Inv.sameEgeFrame {f : PhaseCode} (h : s.Inv) (hp : t.params = s.params) (hb : t.buf = s.buf)
    (hs : t.status = s.status) (hl : t.lat = s.lat) (hr : rateInForce t = rateInForce s) (hpos : t.pos = s.pos)
    (hk : egePhase s.pos.phase = true) (hsp : samplePhase s.pos.phase = true) (hf : egePhase f = true) :
    (Machine.sameFrame f t).Inv :=
  h.sameFrame f hp hb hs hl hr hpos (running_of_samplePhase hsp) (by rintro rfl; cases hf)
    (phaseOfOp_of_egePhase (h.op_of_egePhase hk) hf) hsp (by rintro rfl; cases hf)

/-- To another phase of the HEN stage at the same pair. -/
theorem State.Inv.sameHenPair {f : PhaseCode} (h : s.Inv) (hp : t.params = s.params) (hb : t.buf = s.buf)
    (hs : t.status = s.status) (hl : t.lat = s.lat) (hr : rateInForce t = rateInForce s) (hpos : t.pos = s.pos)
    (hk : henPhase s.pos.phase = true) (hsp : samplePhase s.pos.phase = true) (hf : henPhase f = true) :
    (Machine.samePair f t).Inv :=
  h.samePair f hp hb hs hl hr hpos (running_of_samplePhase hsp) (by rintro rfl; cases hf)
    (phaseOfOp_of_henPhase (h.op_of_henPhase hk) hf) hsp (by rintro rfl; cases hf)

end Moves

/-! ## Acceptance and power-on reset -/

/-- The test of a rate reads the parameters alone. -/
theorem rateValid_num_congr {s t : State} (hp : t.params = s.params) : rateValid t.num = rateValid s.num := by
  funext sr; rw [rateValid_num, rateValid_num, hp]

/-- An accepted offer puts an idle core at the first phase of the word's command. -/
theorem State.Inv.accept {s : State} (h : s.Inv) (w : Word) (hw : offerCondition w s = none) : (accept w s).Inv := by
  obtain ⟨-, hlegal, hchecks⟩ := (offerCondition_none w s).1 hw
  obtain ⟨hop, -, hlen0⟩ := cmdIllegal_false hlegal
  have hf := enterable_afterLatch (cmdLen w) hop
  have hst : isPrepared (Machine.accept w s) = isPrepared s := by
    simp [isPrepared, stBusy]
  refine
    { params := h.params, bufWf := h.bufWf, bufWhole := h.bufWhole, bufIn := h.bufIn, busy := ?busy,
      idlePos := fun e => absurd e hf.runs, phase := ?phase, len := ?len, idx := ?idx,
      ch := (wf_bounds h.params).1, rms := ?rms, ran := ?ran, rate := ?rate }
  case busy => exact iff_of_true (by simp [isBusy, stBusy]) hf.runs
  case phase => intro; rw [accept_lat, latched_op]; exact hf.ofOp
  case len =>
    intro
    rw [accept_lat, latched_len, accept_params]
    by_cases h1 : cmdOp w = 1
    · rw [hlen0 h1]; exact Nat.zero_le _
    · exact (hchecks h1).2
  case idx =>
    intro hk
    rw [accept_lat, latched_len]
    exact hf.samples hk
  case rms => intro e; rw [accept_lat, latched_len]; exact hf.rms e
  case ran => intro _ h1; rw [accept_lat, latched_op] at h1; rw [hst]; exact (hchecks h1).1
  case rate => rw [hst, rateValid_num_congr (accept_params w s)]; exact h.rate

theorem State.Inv.offer {s : State} (h : s.Inv) (w : Word) : (offer w s).Inv := by
  rcases offer_cases w s with ⟨c, -, e⟩ | ⟨hw, e⟩ <;> rw [e]
  · exact h.raise c
  · exact h.accept w hw

/-- Reset, for parameters within their bounds. -/
theorem inv_resetOf {p : Params} (hp : p.wf = true) : (State.resetOf p).Inv where
  params := hp
  bufWf := rfl
  bufWhole := fun _ _ _ _ => rfl
  bufIn := nofun
  busy := iff_of_false (by simp [isBusy, State.resetOf]) fun e => e rfl
  idlePos := fun _ => ⟨rfl, rfl⟩
  phase := fun e => absurd rfl e
  len := fun e => absurd rfl e
  idx := nofun
  ch := (wf_bounds hp).1
  rms := nofun
  ran := fun e => absurd rfl e
  rate := fun e => absurd e (by simp [isPrepared, State.resetOf])

/-- Settles O42: the parameters of Config.lean are within the bounds of R7. -/
theorem resetSatisfiesInv : Obligations.ResetSatisfiesInv := inv_resetOf (by decide)

theorem State.Inv.powerOn {s : State} (h : s.Inv) : (powerOn s).Inv := (inv_resetOf h.params).io _

/-! ## Micro-operations

Each at its own phase, where the sequencer runs it. -/

section MicroOperations
variable {s t : State}

/-- PREP puts the latched rate in force where it is valid, else SAFE_SR. -/
theorem rateInForce_prepared (s : State) : rateInForce (prepared s) = rateUsed s := by
  simp only [rateInForce, prepared_res]
  exact (BitVec.extractLsb'_append_extractLsb'_eq_extractLsb' (by decide)).trans BitVec.extractLsb'_eq_self

theorem rateUsed_valid_or_safe (s : State) :
    rateValid s.num (rateUsed s) = true ∨ rateUsed s = s.params.safeSr := by
  unfold rateUsed
  split
  · exact .inl ‹_›
  · exact .inr rfl

theorem isBusy_prepared (s : State) : isBusy (prepared s) = isBusy s := by
  unfold isBusy
  rw [prepared_status]
  split <;> simp [stPrepared, condBit]

theorem isPrepared_prepared (s : State) : isPrepared (prepared s) = true := by
  unfold isPrepared
  simp [stPrepared]

/-- The body of PREP leaves the sequencer where it is, with the core prepared and a rate in force. -/
theorem State.Inv.prepared (h : s.Inv) : (prepared s).Inv where
  params := by rw [prepared_params]; exact h.params
  bufWf := by rw [prepared_buf]; exact h.bufWf
  bufWhole := by rw [prepared_buf]; exact h.bufWhole
  bufIn := by rw [prepared_buf, prepared_params]; exact h.bufIn
  busy := by rw [isBusy_prepared, prepared_pos]; exact h.busy
  idlePos := by rw [prepared_pos]; exact h.idlePos
  phase := by rw [prepared_pos, prepared_lat]; exact h.phase
  len := by rw [prepared_pos, prepared_lat, prepared_params]; exact h.len
  idx := by rw [prepared_pos, prepared_lat]; exact h.idx
  ch := by rw [prepared_pos, prepared_params]; exact h.ch
  rms := by rw [prepared_pos, prepared_lat]; exact h.rms
  ran := fun _ _ => isPrepared_prepared s
  rate := fun _ => by
    rw [rateValid_num_congr (prepared_params s), rateInForce_prepared, prepared_params]
    exact rateUsed_valid_or_safe s

theorem execPrep_keeps_inv (h : s.Inv) (hp : s.pos.phase = phasePrep) (ht : execPrep s = .next t) : t.Inv := by
  cases ht
  exact h.prepared.enter rfl rfl rfl rfl rfl (by rw [prepared_pos, hp]; decide) (enterable_done _ _)

/-- DONE leaves an idle core. -/
theorem execDone_keeps_inv (h : s.Inv) (ht : execDone s = .next t) : t.Inv := by
  cases ht
  have hprep : isPrepared (goTo phaseIdle { s with status := stClear s.status stBusy }) = isPrepared s := by
    simp [isPrepared, stClear, stBusy]
  exact
    { params := h.params, bufWf := h.bufWf, bufWhole := h.bufWhole, bufIn := h.bufIn,
      busy := iff_of_false (by simp [isBusy, stClear, stBusy]) fun e => e rfl
      idlePos := fun _ => ⟨rfl, rfl⟩, phase := fun e => absurd rfl e, len := fun e => absurd rfl e
      idx := nofun, ch := (wf_bounds h.params).1, rms := nofun
      ran := fun e => absurd rfl e, rate := by rw [hprep]; exact h.rate }

theorem execSInit_keeps_inv (h : s.Inv) (hp : s.pos.phase = phaseSInit) (ht : execSInit s = .next t) : t.Inv := by
  cases ht
  exact h.enter rfl rfl rfl rfl rfl (by rw [hp]; decide)
    (enterable_afterSInit _ (h.op_of_srmPhase (by rw [hp]; rfl)))

theorem execSBpf_keeps_inv (h : s.Inv) (hp : s.pos.phase = phaseSBpf) (ht : execSBpf s = .next t) : t.Inv := by
  have hop := h.op_of_srmPhase (by rw [hp]; rfl)
  obtain ⟨v, -, rfl⟩ := execSBpf_next ht
  exact h.nextPair _ _ rfl rfl rfl rfl rfl rfl (by rw [hp]; decide) (by decide) (by decide)
    (phaseOfOp_of_srmPhase hop rfl) (phaseOfOp_of_srmPhase hop rfl) (h.len_pos (by rw [hp]; rfl)) rfl

theorem execSRms_keeps_inv (h : s.Inv) (hp : s.pos.phase = phaseSRms) (ht : execSRms s = .next t) : t.Inv := by
  have hop := h.op_of_srmPhase (by rw [hp]; rfl)
  have hlen := h.rms hp
  cases ht
  exact h.nextChan rfl rfl rfl rfl rfl rfl (by rw [hp]; decide)
    (.of_len (by decide) (phaseOfOp_of_srmPhase hop rfl) hlen)
    (.of_len (by decide) (phaseOfOp_of_srmPhase hop rfl) hlen)

theorem execSRatio_keeps_inv (h : s.Inv) (hp : s.pos.phase = phaseSRatio) (ht : execSRatio s = .next t) : t.Inv := by
  cases ht
  exact h.enter rfl rfl rfl rfl rfl (by rw [hp]; decide)
    (enterable_afterSrm _ (h.op_of_srmPhase (by rw [hp]; rfl)))

theorem execECoef_keeps_inv (h : s.Inv) (hp : s.pos.phase = phaseECoef) (ht : execECoef s = .next t) : t.Inv := by
  cases ht
  exact h.enter rfl rfl rfl rfl rfl (by rw [hp]; decide)
    (enterable_afterECoef _ (h.op_of_egePhase (by rw [hp]; rfl)))

theorem execEDet_keeps_inv (h : s.Inv) (hp : s.pos.phase = phaseEDet) (ht : execEDet s = .next t) : t.Inv := by
  obtain ⟨lane, level, -, rfl⟩ := execEDet_next ht
  exact h.sameEgeFrame rfl rfl rfl rfl rfl rfl (by rw [hp]; rfl) (by rw [hp]; rfl) rfl

theorem execEEnv_keeps_inv (h : s.Inv) (hp : s.pos.phase = phaseEEnv) (ht : execEEnv s = .next t) : t.Inv := by
  cases ht
  exact h.sameEgeFrame rfl rfl rfl rfl rfl rfl (by rw [hp]; rfl) (by rw [hp]; rfl) rfl

theorem execEGrc_keeps_inv (h : s.Inv) (hp : s.pos.phase = phaseEGrc) (ht : execEGrc s = .next t) : t.Inv := by
  cases ht
  exact h.sameEgeFrame rfl rfl rfl rfl rfl rfl (by rw [hp]; rfl) (by rw [hp]; rfl) rfl

theorem execEPub_keeps_inv (h : s.Inv) (hp : s.pos.phase = phaseEPub) (ht : execEPub s = .next t) : t.Inv := by
  cases ht
  exact h.sameEgeFrame rfl rfl rfl rfl rfl rfl (by rw [hp]; rfl) (by rw [hp]; rfl) rfl

theorem execEApply_keeps_inv (h : s.Inv) (hp : s.pos.phase = phaseEApply) (ht : execEApply s = .next t) : t.Inv := by
  have hop := h.op_of_egePhase (by rw [hp]; rfl)
  have hlen : s.lat.len ≠ 0 := by have := h.len_pos (by rw [hp]; rfl); bv_omega
  obtain ⟨hin, rfl⟩ := execEApply_next ht
  exact (h.frame _ _ _ hin).nextFrame rfl rfl rfl rfl rfl rfl (by rw [hp]; decide)
    (.of_len (by decide) (phaseOfOp_of_egePhase hop rfl) hlen) (enterable_afterEge _ hop)

theorem execHGain_keeps_inv (h : s.Inv) (hp : s.pos.phase = phaseHGain) (ht : execHGain s = .next t) : t.Inv := by
  cases ht
  exact h.enter rfl rfl rfl rfl rfl (by rw [hp]; decide)
    (enterable_afterHGain _ (h.op_of_henPhase (by rw [hp]; rfl)))

theorem execHHpf_keeps_inv (h : s.Inv) (hp : s.pos.phase = phaseHHpf) (ht : execHHpf s = .next t) : t.Inv := by
  obtain ⟨v, -, rfl⟩ := execHHpf_next ht
  exact h.sameHenPair rfl rfl rfl rfl rfl rfl (by rw [hp]; rfl) (by rw [hp]; rfl) rfl

theorem execHSat_keeps_inv (h : s.Inv) (hp : s.pos.phase = phaseHSat) (ht : execHSat s = .next t) : t.Inv := by
  cases ht
  exact h.sameHenPair rfl rfl rfl rfl rfl rfl (by rw [hp]; rfl) (by rw [hp]; rfl) rfl

theorem execHMac_keeps_inv (h : s.Inv) (hp : s.pos.phase = phaseHMac) (ht : execHMac s = .next t) : t.Inv := by
  have hop := h.op_of_henPhase (by rw [hp]; rfl)
  obtain ⟨hin, rfl⟩ := execHMac_next ht
  exact (h.memWrite _ _ _ hin).nextPair _ _ rfl rfl rfl rfl rfl rfl (by rw [hp]; decide) (by decide) (by decide)
    (phaseOfOp_of_henPhase hop rfl) (phaseOfOp_done _) (h.len_pos (by rw [hp]; rfl)) rfl

end MicroOperations

theorem phaseOfOp_latch (op : BitVec 4) : phaseOfOp op phaseLatch = false := by revert op; decide

/-- The sequencer is never at LATCH between two steps (44_host_commands R231). -/
theorem State.Inv.phase_ne_latch {s : State} (h : s.Inv) : s.pos.phase ≠ phaseLatch := by
  intro hp
  have hof := h.phase (by rw [hp]; decide)
  rw [hp, phaseOfOp_latch] at hof
  cases hof

/-- A micro-operation keeps the invariant where PHASE is its code. -/
theorem exec_phase_keeps_inv {s t : State} {i : Instr} (h : s.Inv) (hi : decodePhase s.pos.phase = .ok i)
    (ht : exec i s = .next t) : t.Inv := by
  obtain ⟨hbus, hcode⟩ := decodePhase_spec _ _ hi
  cases i with
  | wr | rd | wrs | rds | rdgr | prepare | process | srm | ege | hen => cases hbus
  | latch => exact absurd (phase_inj hcode).symm h.phase_ne_latch
  | prep => exact execPrep_keeps_inv h (phase_inj hcode).symm ht
  | done => exact execDone_keeps_inv h ht
  | sInit => exact execSInit_keeps_inv h (phase_inj hcode).symm ht
  | sBpf => exact execSBpf_keeps_inv h (phase_inj hcode).symm ht
  | sRms => exact execSRms_keeps_inv h (phase_inj hcode).symm ht
  | sRatio => exact execSRatio_keeps_inv h (phase_inj hcode).symm ht
  | eCoef => exact execECoef_keeps_inv h (phase_inj hcode).symm ht
  | eDet => exact execEDet_keeps_inv h (phase_inj hcode).symm ht
  | eEnv => exact execEEnv_keeps_inv h (phase_inj hcode).symm ht
  | eGrc => exact execEGrc_keeps_inv h (phase_inj hcode).symm ht
  | ePub => exact execEPub_keeps_inv h (phase_inj hcode).symm ht
  | eApply => exact execEApply_keeps_inv h (phase_inj hcode).symm ht
  | hGain => exact execHGain_keeps_inv h (phase_inj hcode).symm ht
  | hHpf => exact execHHpf_keeps_inv h (phase_inj hcode).symm ht
  | hSat => exact execHSat_keeps_inv h (phase_inj hcode).symm ht
  | hMac => exact execHMac_keeps_inv h (phase_inj hcode).symm ht

/-- The sequencer's turn keeps the invariant. -/
theorem seqStep_keeps_inv (s t : State) (h : s.Inv) (ht : seqStep s = .next t) : t.Inv := by
  rw [seqStep_eq] at ht
  cases hd : decodePhase s.pos.phase with
  | ok i =>
    rw [hd] at ht
    exact exec_phase_keeps_inv h hd ht
  | error e =>
    simp only [hd] at ht
    split at ht
    · cases ht; exact h
    · cases ht

/-! ## Commands and transactions -/

/-- A command in the atomic view (44_host_commands R249) keeps the invariant: acceptance and each micro-operation do. -/
theorem runCommand_keeps_inv {s t : State} {w : Word} (h : s.Inv) (ht : runCommand w s = .next t) : t.Inv := by
  rcases runCommand_cases w s with ⟨c, -, e⟩ | ⟨hw, e⟩ <;> rw [e] at ht
  · cases ht; exact h.raise c
  · exact runSequencer_induct State.Inv seqStep_keeps_inv _ _ _ (h.accept w hw) ht

/-- A host write is an offer, an acknowledgement, or a write of host-written registers alone. -/
theorem writeReg_cases (r : BitVec 8) (d : Word) (s : State) :
    writeReg r d s = offer d s ∨ writeReg r d s = acknowledge d s ∨ ∃ x, writeReg r d s = { s with host := x } := by
  unfold writeReg
  split
  · exact .inl rfl
  · exact .inr (.inl rfl)
  all_goals exact .inr (.inr ⟨_, rfl⟩)

theorem State.Inv.writeReg {s : State} (h : s.Inv) (r : BitVec 8) (d : Word) : (writeReg r d s).Inv := by
  rcases writeReg_cases r d s with e | e | ⟨x, e⟩ <;> rw [e]
  · exact h.offer d
  · exact h.acknowledge d
  · exact h.host x

theorem State.Inv.readReg {s : State} (h : s.Inv) (r : BitVec 8) : (readReg r s).Inv := by
  obtain ⟨x, k, e⟩ := readReg_cases r s
  rw [e]
  exact h.io _

theorem execWr_keeps_inv {s t : State} {a : WordAddr} {d : Word} (h : s.Inv) (ht : execWr a d s = .next t) :
    t.Inv := by
  cases ht
  split
  · exact h
  · exact h.writeReg _ d

theorem execRd_keeps_inv {s t : State} {a : WordAddr} (h : s.Inv) (ht : execRd a s = .next t) : t.Inv := by
  cases ht
  split
  · exact h.io _
  · exact h.readReg _

theorem execWrs_keeps_inv {s t : State} {c : Chan} {n : Index} {d : Word} (h : s.Inv)
    (ht : execWrs c n d s = .next t) : t.Inv := by
  cases ht
  split
  · exact h
  · split
    · exact h.memWrite c n d ‹_›
    · exact h

/-- A read of a sample changes the port's word, and at most the count of free values. -/
theorem execRds_next {s t : State} {c : Chan} {n : Index} (ht : execRds c n s = .next t) :
    ∃ x, t = { s with io := x } := by
  unfold execRds at ht
  split at ht
  · split at ht
    · cases ht; exact ⟨_, rfl⟩
    · split at ht
      · cases ht
      · cases ht; exact ⟨_, rfl⟩
  · cases ht; exact ⟨_, rfl⟩

theorem execRds_keeps_inv {s t : State} {c : Chan} {n : Index} (h : s.Inv) (ht : execRds c n s = .next t) :
    t.Inv := by
  obtain ⟨x, rfl⟩ := execRds_next ht
  exact h.io x

theorem execRdgr_keeps_inv {s t : State} (h : s.Inv) (ht : execRdgr s = .next t) : t.Inv := by
  cases ht
  exact h.io _

/-- A transaction or a command keeps the invariant, wherever the sequencer is. -/
theorem exec_offered_keeps_inv {s t : State} {i : Instr} (h : s.Inv) (hb : busOf i ≠ .phase)
    (ht : exec i s = .next t) : t.Inv := by
  cases i with
  | wr => exact execWr_keeps_inv h ht
  | rd => exact execRd_keeps_inv h ht
  | wrs => exact execWrs_keeps_inv h ht
  | rds => exact execRds_keeps_inv h ht
  | rdgr => exact execRdgr_keeps_inv h ht
  | prepare | process | srm | ege | hen => exact runCommand_keeps_inv h ht
  | latch | prep | done | sInit | sBpf | sRms | sRatio | eCoef | eDet | eEnv | eGrc | ePub | eApply | hGain | hHpf | hSat
  | hMac => exact absurd rfl hb

/-! ## Steps -/

theorem decodePortH_bus {ws : List Word} {i : Instr} (h : decodePortH ws = .ok i) : busOf i = .portH := by
  unfold decodePortH at h
  (repeat' split at h) <;> cases h <;> rfl

theorem decodePortM_bus {ws : List Word} {i : Instr} (h : decodePortM ws = .ok i) : busOf i = .portM := by
  unfold decodePortM at h
  (repeat' split at h) <;> cases h
  rfl

theorem decodeCommand_bus {w : Word} {i : Instr} (h : decodeCommand w = .ok i) : busOf i = .command := by
  unfold decodeCommand at h
  (repeat' split at h) <;> cases h <;> rfl

/-- Words decode to an instruction of the place where they are found (30_encoding R90). -/
theorem busOf_of_decode {b : Bus} {ws : List Word} {i : Instr} (h : decode b ws = .ok i) : busOf i = b := by
  cases b with
  | portH => exact decodePortH_bus h
  | portM => exact decodePortM_bus h
  | command =>
    simp only [decode] at h
    split at h
    · cases h
    · exact decodeCommand_bus h
    · cases h
  | phase =>
    simp only [decode] at h
    split at h
    · cases h
    · split at h
      · exact (decodePhase_spec _ _ h).1
      · cases h
    · cases h

theorem State.Inv.withInputs {s : State} (h : s.Inv) (l : List Input) : (s.withInputs l).Inv := h.io _

/-- Words that are no instruction change a port's word or a sticky bit at most, or are an offer. -/
theorem notAnInstr_keeps_inv {s t : State} {b : Bus} {ws : List Word} {e : Reject} (h : s.Inv)
    (ht : notAnInstr b ws e s = .next t) : t.Inv := by
  cases b with
  | portH => cases ht; exact h
  | portM =>
    cases ht
    unfold meterOther
    split
    · exact h
    · exact h.io _
  | command => cases ht; exact h.offer _
  | phase =>
    simp only [notAnInstr] at ht
    split at ht
    · cases ht; exact h
    · cases ht

/-- Settles O43: by what a step can do. A decoded micro-operation is PHASE's own; every other instruction keeps the invariant
wherever the sequencer is. -/
theorem stepKeepsInv : Obligations.StepKeepsInv := by
  intro s t h ht
  obtain ⟨l, e | ⟨b, ws, i, hd, hws, e⟩ | ⟨b, ws, r, -, e⟩⟩ := step_cases s <;> rw [e] at ht
  · cases ht
    exact (h.withInputs l).powerOn
  · by_cases hb : b = .phase
    · subst hb
      rw [hws rfl, phaseWords, decode_phaseWord] at hd
      exact exec_phase_keeps_inv (h.withInputs l) hd ht
    · exact exec_offered_keeps_inv (h.withInputs l) (by rwa [busOf_of_decode hd]) ht
  · exact notAnInstr_keeps_inv (h.withInputs l) ht

end Sys2Proof.Machine
end

section
/-! The idle core and power-on reset (10_state R47, R52, 70_reset R290, R291), what an illegal command word does (44_host_commands
R231), and reads of BUF, written and unwritten (10_state R54). -/

namespace Sys2Proof.Machine

/-! ## Waiting, dropping, resetting -/

/-- The sequencer's turn at IDLE is a wait (60_exceptions R280). -/
theorem seqStep_idle {s : State} (h : s.pos.phase = phaseIdle) : seqStep s = .next s := by
  unfold seqStep; rw [if_pos h]

/-- The words of PHASE at IDLE stand for no instruction. -/
theorem decode_phaseWords_idle {s : State} (h : s.pos.phase = phaseIdle) :
    decode .phase (phaseWords s) = .error .idlePhase := by
  rw [phaseWords, decode_phaseWord, h]; rfl

/-- A command word that R100 does not call illegal decodes. -/
theorem decodeCommand_of_legal {w : Word} (h : cmdIllegal w = false) : ∃ i, decodeCommand w = .ok i := by
  obtain ⟨hop, hrsv, hlen⟩ := cmdIllegal_false h
  unfold decodeCommand
  rw [if_neg (not_not.2 hrsv)]
  rcases hop with e | e | e | e | e
  · exact ⟨.prepare, by rw [if_pos e, if_pos (hlen e)]⟩
  all_goals simp [e]

/-- An illegal word is dropped with CMDOVR while BUSY = 1, and with BADCMD otherwise (R231). -/
theorem offer_illegal {w : Word} (s : State) (h : cmdIllegal w = true) :
    offer w s = raise (if isBusy s then .cmdovr else .badcmd) s := by
  have hc : offerCondition w s = some (if isBusy s then .cmdovr else .badcmd) := by
    unfold offerCondition
    rw [if_pos h]
    split <;> rfl
  unfold offer
  rw [hc]

/-- Settles O7: at IDLE PHASE decodes to nothing and the sequencer waits; a word that decodes to nothing is illegal, and the
offer drops it. -/
theorem stepWithoutInstruction : Obligations.StepWithoutInstruction := by
  intro s rest
  refine ⟨?nothing, ?turn, ?command⟩
  case nothing => exact fun hidle hin => (step_of_no_input s hin).trans (seqStep_idle hidle)
  case turn => exact fun hidle hin => step_of_reject (fetch_turn hin) (decode_phaseWords_idle hidle)
  case command =>
    intro W hin hno
    have hill : cmdIllegal W = true := by
      by_contra hlegal
      obtain ⟨i, hi⟩ := decodeCommand_of_legal (Bool.eq_false_iff.2 hlegal)
      exact hno i hi
    cases hd : decode .command [W] with
    | ok i => exact absurd hd (hno i)
    | error e =>
      rw [step_of_reject (fetch_command hin) hd]
      refine congrArg Host.Outcome.next ((offer_illegal _ hill).trans ?_)
      change raise (if s.status.getLsbD 1 then .cmdovr else .badcmd) (s.withInputs rest) = _
      cases s.status.getLsbD 1 <;> rfl

/-- Settles O8: reset leaves an idle sequencer with nothing pending, which waits; the reset input is `powerOn`, which keeps the
parameters and what is pending. -/
theorem powerOnReset : Obligations.PowerOnReset := by
  refine ⟨rfl, fun p => ⟨rfl, rfl, rfl, rfl, ?_⟩, fun s rest hin => ?_⟩
  · exact (step_of_no_input (State.resetOf p) rfl).trans (seqStep_idle rfl)
  · exact ⟨_, step_of_powerOn (fetch_powerOn hin), rfl, rfl, rfl, rfl, rfl⟩

/-! ## Words of BUF by their bytes -/

/-- A word whose four bytes are those of `v` reads as `v`. -/
theorem memRead_of_bytes {m : Memory} {w : WordAddr} {v : Word}
    (h : ∀ j, j < 4 → readByte m (byteAddr w j) = some (wordByte v j)) : memRead m w = some v := by
  rw [← memRead_memWrite_same m w v]
  refine memRead_congr _ _ _ fun j hj => ?_
  have hdiv : byteAddr w j / 4 = w.toNat := by unfold byteAddr; omega
  have hmod : byteAddr w j % 4 = j := by unfold byteAddr; omega
  rw [h j hj, readByte_memWrite, if_pos hdiv, hmod]

/-- A word with an unwritten byte has no value. -/
theorem memRead_of_unwritten_byte {m : Memory} {w : WordAddr} {j : Nat} (hj : j < 4)
    (h : readByte m (byteAddr w j) = none) : memRead m w = none := by
  unfold memRead
  split
  · rename_i b3 b2 b1 b0
    interval_cases j <;> simp_all [byteIndex, Config.byteOrder]
  · rfl

/-- A sample that exists and that nothing has written faults (10_state R54, log 2). -/
theorem readSample_unwritten {s : State} {c : Chan} {n : Index} (hin : inBuf s.params c n = true)
    (h : memRead s.buf (bufAddr c n) = none) : readSample s c n = .error .unwrittenWord := by
  rw [readSample_eq, if_pos hin, h]

/-- The only fault of a sample that exists. -/
theorem readSample_error_of_inBuf {s : State} {c : Chan} {n : Index} {f : Fault} (hin : inBuf s.params c n = true)
    (h : readSample s c n = .error f) : f = .unwrittenWord := by
  rw [readSample_eq, if_pos hin] at h
  split at h <;> cases h
  rfl

/-! ## RDS -/

section Rds
variable {c : Chan} {n : Index} {s : State}

/-- RDS outside BUF answers 0 (20_memory R64). -/
theorem execRds_outside (hin : inBuf s.params c n = false) : execRds c n s = .next (respondH 0 s) := by
  unfold execRds; rw [if_neg (Bool.eq_false_iff.1 hin)]

/-- RDS while BUSY = 1 answers a free word (20_memory R72, log 18). -/
theorem execRds_busy (hin : inBuf s.params c n = true) (hb : isBusy s = true) :
    execRds c n s = .next (respondH (Config.freeWord s.io.free) (drawFree s)) := by
  unfold execRds; rw [if_pos hin, if_pos hb]

theorem execRds_written {v : Word} (hin : inBuf s.params c n = true) (hb : isBusy s = false)
    (h : memRead s.buf (bufAddr c n) = some v) : execRds c n s = .next (respondH v s) := by
  unfold execRds
  rw [if_pos hin, if_neg (Bool.eq_false_iff.1 hb), (readSample_ok_iff s c n v).2 ⟨hin, h⟩]

theorem execRds_unwritten (hin : inBuf s.params c n = true) (hb : isBusy s = false)
    (h : memRead s.buf (bufAddr c n) = none) : execRds c n s = .fault .unwrittenWord := by
  unfold execRds
  rw [if_pos hin, if_neg (Bool.eq_false_iff.1 hb), readSample_unwritten hin h]

end Rds

/-- Settles O13: the word exists or not, BUSY is 1 or 0; then the four bytes of the word are read. -/
theorem rdsReadsOneWord : Obligations.RdsReadsOneWord := by
  intro c n s
  have haddr : ∀ j, byteAddr (bufAddr c n) j = 4 * (c.toNat * 2 ^ 24 + n.toNat) + j := fun j => by
    unfold byteAddr; rw [bufAddr_toNat]
  split_ifs with hout hbusy
  · exact execRds_outside (Bool.eq_false_iff.2 fun hin => by rw [inBuf_iff] at hin; omega)
  all_goals have hin : inBuf s.params c n = true := (inBuf_iff _ _ _).2 (by omega)
  · exact ⟨_, _, execRds_busy hin hbusy⟩
  · have hb : isBusy s = false := Bool.eq_false_iff.2 hbusy
    constructor
    · exact fun v hv => execRds_written hin hb (memRead_of_bytes fun j hj => (haddr j ▸ hv j hj))
    · exact fun j hj hv => execRds_unwritten hin hb (memRead_of_unwritten_byte hj (haddr j ▸ hv))

/-! ## The micro-operations that read or write BUF, by what their access answers -/

section Accesses
variable {s : State} {f : Fault}

theorem execSBpf_fault (h : readSample s s.pos.ch s.pos.idx = .error f) : execSBpf s = .fault f := by
  unfold execSBpf; rw [h]

theorem execHHpf_fault (h : readSample s s.pos.ch s.pos.idx = .error f) : execHHpf s = .fault f := by
  unfold execHHpf; rw [h]

theorem execEDet_fault (h : detectLanes s (channels s.params) s.scr.lane f32Zero = .error f) :
    execEDet s = .fault f := by
  unfold execEDet; rw [h]

theorem execSBpf_ok {v : F32} (h : readSample s s.pos.ch s.pos.idx = .ok v) :
    execSBpf s = .next (nextPair phaseSBpf phaseSRms (bandPassed v s)) := by
  unfold execSBpf; rw [h]

theorem execHHpf_ok {v : F32} (h : readSample s s.pos.ch s.pos.idx = .ok v) :
    execHHpf s = .next (samePair phaseHSat (highPassed v s)) := by
  unfold execHHpf; rw [h]

theorem execEDet_ok {r : Vector F32 64 × F32}
    (h : detectLanes s (channels s.params) s.scr.lane f32Zero = .ok r) :
    execEDet s = .next (sameFrame phaseEEnv { s with scr := { s.scr with lane := r.1, level := r.2 } }) := by
  unfold execEDet; rw [h]

theorem execEApply_ok {m : Memory}
    (h : applyLanes s (frameGain s.num s.scr.grv) (channels s.params) s.buf = .ok m) :
    execEApply s = .next (nextFrame phaseEDet (afterEge s.lat.op) { s with buf := m }) := by
  unfold execEApply; rw [h]

theorem execEApply_fault (h : applyLanes s (frameGain s.num s.scr.grv) (channels s.params) s.buf = .error f) :
    execEApply s = .fault f := by
  unfold execEApply; rw [h]

theorem execHMac_ok {m : Memory}
    (h : writeSample s.params s.buf s.pos.ch s.pos.idx (outputSample s) = .ok m) :
    execHMac s = .next (nextPair phaseHHpf phaseDone { s with buf := m }) := by
  unfold execHMac; rw [h]

theorem execHMac_fault (h : writeSample s.params s.buf s.pos.ch s.pos.idx (outputSample s) = .error f) :
    execHMac s = .fault f := by
  unfold execHMac; rw [h]

end Accesses

/-! ## Unwritten samples -/

/-- The detection loop over words that exist, one of which nothing has written. -/
theorem detectLanes_unwritten {s : State} {cs : List Chan} {c : Chan} (hin : ∀ d ∈ cs, inBuf s.params d s.pos.idx = true)
    (hc : c ∈ cs) (h : memRead s.buf (bufAddr c s.pos.idx) = none) (lane : Vector F32 64) (level : F32) :
    detectLanes s cs lane level = .error .unwrittenWord := by
  rcases detectLanes_spec s cs lane level with ⟨vs, hvs, -⟩ | ⟨f, d, hd, hf, e⟩
  · have hread : List.Forall₂ (fun d v => (∃ v, readSample s d s.pos.idx = .ok v) ∧
        readSample s d s.pos.idx = .ok v) cs vs := hvs.imp fun _ v hv => ⟨⟨v, hv⟩, hv⟩
    obtain ⟨v, hv⟩ := ((List.forall₂_and_left _ _).1 hread).1 c hc
    rw [readSample_unwritten (hin c hc) h] at hv
    cases hv
  · rw [e, readSample_error_of_inBuf (hin d hd) hf]

/-- Settles O32: the one read of S_BPF and of H_HPF, or one of the reads of E_DET's loop, faults. -/
theorem unwrittenSampleFaults : Obligations.UnwrittenSampleFaults := by
  intro s
  refine ⟨fun hch hidx hnone => ?_, fun hidx ⟨c, hc, hnone⟩ => ?_⟩
  · have hread := readSample_unwritten ((inBuf_iff _ _ _).2 ⟨hch, hidx⟩) hnone
    exact ⟨execSBpf_fault hread, execHHpf_fault hread⟩
  · exact execEDet_fault (detectLanes_unwritten
      (fun d hd => (inBuf_iff _ _ _).2 ⟨(mem_channels _ _).1 hd, hidx⟩) ((mem_channels _ _).2 hc) hnone _ _)

end Sys2Proof.Machine
end

section
/-! PREPARE from its offer to DONE (44_host_commands R236, R237), in closed form. -/

namespace Sys2Proof.Machine

/-- The sequencer's turn where PHASE is the code of a micro-operation. -/
theorem seqStep_of_decode {s : State} {i : Instr} (h : decodePhase s.pos.phase = .ok i) : seqStep s = exec i s := by
  rw [seqStep_eq, h]

/-- Acceptance, field by field (R231, R233). -/
theorem accept_eq (w : Word) (s : State) :
    accept w s =
      { s with
        status := s.status ||| stBusy
        lat := latched w s
        pos := { phase := afterLatch (cmdOp w), idx := 0, ch := 0 }
        io := (accept w s).io } := rfl

/-- PREPARE is accepted whenever BUSY = 0 (R231). -/
theorem offerCondition_prepare {s : State} (h : isBusy s = false) : offerCondition (cmdWord 1 0) s = none :=
  (offerCondition_none _ _).2 ⟨h, by decide, fun hop => absurd (by decide) hop⟩

/-- The core at PREP, after the acceptance of a PREPARE (R231, R233). -/
def atPrep (s : State) : State :=
  { s with
    status := s.status ||| stBusy
    lat := { s.lat with op := 1, len := 0, sr := requestedRate s, bs := s.host.reqBs }
    pos := { phase := phasePrep, idx := 0, ch := 0 }
    io := { s.io with
      offered := cmdWord 1 0, grLog := [], oldEffRatio := s.res.effRatio, oldSrLo := s.res.srLo,
      oldSrHi := s.res.srHi, oldBlksz := s.res.blksz, admitted := true } }

theorem accept_prepare (s : State) : accept (cmdWord 1 0) s = atPrep s := by
  have hlat : latched (cmdWord 1 0) s = { s.lat with op := 1, len := 0, sr := requestedRate s, bs := s.host.reqBs } := rfl
  have hphase : afterLatch (cmdOp (cmdWord 1 0)) = phasePrep := by decide
  rw [accept_eq, hlat, hphase, accept_io]
  rfl

/-- The state after PREP, STATUS last: the other fields do not depend on the validity of the rate but through the rate. -/
theorem prepared_eq (s : State) :
    prepared s =
      { s with
        status := (prepared s).status
        res := { s.res with srHi := (rateUsed s).extractLsb' 32 32, srLo := (rateUsed s).extractLsb' 0 32, blksz := s.lat.bs }
        hid := {
          env := f32Zero
          bpfCoef := (bpfOf s.params).design (rateUsed s)
          bpfMem := laneFill (channels s.params) (bpfOf s.params).zero s.hid.bpfMem
          hpfCoef := (hpfOf s.params).design (rateUsed s)
          hpfMem := laneFill (channels s.params) (hpfOf s.params).zero s.hid.hpfMem } } := by
  unfold prepared; split <;> rfl

/-- The core after an accepted PREPARE. -/
def afterPrepare (s : State) : State :=
  goTo phaseIdle { prepared (atPrep s) with status := stClear (prepared (atPrep s)).status stBusy }

/-- What an accepted PREPARE changes (R53, R237). -/
theorem afterPrepare_eq (s : State) :
    afterPrepare s =
      { s with
        status := (afterPrepare s).status
        res := { s.res with
          srHi := (rateUsed (atPrep s)).extractLsb' 32 32, srLo := (rateUsed (atPrep s)).extractLsb' 0 32
          blksz := s.host.reqBs }
        hid := {
          env := f32Zero
          bpfCoef := (bpfOf s.params).design (rateUsed (atPrep s))
          bpfMem := laneFill (channels s.params) (bpfOf s.params).zero s.hid.bpfMem
          hpfCoef := (hpfOf s.params).design (rateUsed (atPrep s))
          hpfMem := laneFill (channels s.params) (hpfOf s.params).zero s.hid.hpfMem }
        lat := (atPrep s).lat
        pos := { phase := phaseIdle, idx := 0, ch := 0 }
        io := (atPrep s).io } := by
  unfold afterPrepare; rw [prepared_eq]; rfl

@[simp] theorem afterPrepare_params (s : State) : (afterPrepare s).params = s.params := by rw [afterPrepare_eq]
@[simp] theorem afterPrepare_host (s : State) : (afterPrepare s).host = s.host := by rw [afterPrepare_eq]
@[simp] theorem afterPrepare_lat (s : State) : (afterPrepare s).lat = (atPrep s).lat := by rw [afterPrepare_eq]
@[simp] theorem afterPrepare_buf (s : State) : (afterPrepare s).buf = s.buf := by rw [afterPrepare_eq]
@[simp] theorem afterPrepare_hid (s : State) :
    (afterPrepare s).hid =
      { env := f32Zero
        bpfCoef := (bpfOf s.params).design (rateUsed (atPrep s))
        bpfMem := laneFill (channels s.params) (bpfOf s.params).zero s.hid.bpfMem
        hpfCoef := (hpfOf s.params).design (rateUsed (atPrep s))
        hpfMem := laneFill (channels s.params) (hpfOf s.params).zero s.hid.hpfMem } := by rw [afterPrepare_eq]

/-- PREPARE takes two micro-operations after acceptance and leaves the core idle. -/
theorem execPrepare_eq {s : State} (h : isBusy s = false) : execPrepare s = .next (afterPrepare s) := by
  have hrun : execPrepare s = runSequencer 3 (accept (cmdWord 1 0) s) := by
    unfold execPrepare runCommand
    rw [offerCondition_prepare h]
    rfl
  have hprep : seqStep (atPrep s) = .next (goTo phaseDone (prepared (atPrep s))) := seqStep_of_decode (i := .prep) rfl
  have hdone : seqStep (goTo phaseDone (prepared (atPrep s))) = .next (afterPrepare s) :=
    seqStep_of_decode (i := .done) rfl
  rw [hrun, accept_prepare, runSequencer_next _ _ _ (show phasePrep ≠ phaseIdle by decide) hprep,
    runSequencer_next _ _ _ (show phaseDone ≠ phaseIdle by decide) hdone, runSequencer_idle _ _ rfl]

/-- STATUS from acceptance to DONE: BUSY comes and goes, PREPARED stays, and SRDEF where the rate is replaced. -/
theorem status_afterPrepare {s : State} (h : isBusy s = false) :
    (afterPrepare s).status = s.status ||| 0x01 ||| (if rateValid s.num (requestedRate s) then 0 else 0x04) := by
  have bits : ∀ (st : BitVec 7) (valid : Bool), st.getLsbD 1 = false →
      stClear ((if valid then st ||| stBusy else st ||| stBusy ||| condBit .srdef) ||| stPrepared) stBusy =
        st ||| 0x01 ||| (if valid then 0 else 0x04) := by decide
  calc (afterPrepare s).status
      = stClear (prepared (atPrep s)).status stBusy := rfl
    _ = _ := by rw [prepared_status]; exact bits _ _ h

/-- The rate that PREPARE puts in force: the requested one where it is valid, else SAFE_SR (R237 step 1). -/
theorem rateInForce_afterPrepare (s : State) :
    rateInForce (afterPrepare s) =
      if rateValid s.num (requestedRate s) then requestedRate s else s.params.safeSr :=
  rateInForce_prepared (atPrep s)

/-- Settles O34: PREPARE is accepted and runs to `afterPrepare`, whose fields are those that the statement names. -/
theorem prepareCommand : Obligations.PrepareCommand := by
  intro s hbusy
  refine ⟨afterPrepare s, execPrepare_eq hbusy, ?state, ?environment, rateInForce_afterPrepare s, fun c => ?memories⟩
  case state =>
    rw [afterPrepare_eq, status_afterPrepare hbusy]
    rfl
  case environment => rw [afterPrepare_eq]; rfl
  case memories =>
    rw [afterPrepare_eq]
    exact ⟨laneGet_laneFill _ _ _ _, laneGet_laneFill _ _ _ _⟩

end Sys2Proof.Machine
end

section
/-! A parameter write during a command waits (10_state R45, 20_memory R83): the micro-operations but LATCH neither read nor write
the host-written registers. -/

namespace Sys2Proof.Machine

/-! ## What does not see the host-written registers -/

section HostRegisters
variable (s : State) (h : HostRegs)

theorem readSample_withHost (c : Chan) (n : Index) : readSample (s.withHost h) c n = readSample s c n := rfl

theorem prepared_withHost : prepared (s.withHost h) = (prepared s).withHost h := by
  rw [prepared_eq, prepared_eq s, prepared_status, prepared_status]; rfl

theorem nextPair_withHost (a f : PhaseCode) : nextPair a f (s.withHost h) = (nextPair a f s).withHost h := by
  rcases nextPair_cases a f s with ⟨h1, e⟩ | ⟨h1, h2, e⟩ | ⟨h1, h2, e⟩
  all_goals rw [e]; unfold nextPair
  · exact if_pos h1
  · exact (if_neg (Nat.not_lt.2 h1)).trans (if_pos h2)
  · exact (if_neg (Nat.not_lt.2 h1)).trans (if_neg (Nat.not_lt.2 h2))

theorem nextChan_withHost (a f : PhaseCode) : nextChan a f (s.withHost h) = (nextChan a f s).withHost h := by
  rcases nextChan_cases a f s with ⟨h1, e⟩ | ⟨h1, e⟩
  all_goals rw [e]; unfold nextChan
  · exact if_pos h1
  · exact if_neg (Nat.not_lt.2 h1)

theorem nextFrame_withHost (a f : PhaseCode) : nextFrame a f (s.withHost h) = (nextFrame a f s).withHost h := by
  rcases nextFrame_cases a f s with ⟨h1, e⟩ | ⟨h1, e⟩
  all_goals rw [e]; unfold nextFrame
  · exact if_pos h1
  · exact if_neg (Nat.not_lt.2 h1)

theorem detectLanes_withHost (cs : List Chan) (lane : Vector F32 64) (level : F32) :
    detectLanes (s.withHost h) cs lane level = detectLanes s cs lane level := by
  induction cs generalizing lane level with
  | nil => rfl
  | cons c cs ih => simp only [detectLanes, ih, readSample_withHost]; rfl

theorem applyLanes_withHost (g : F32) (cs : List Chan) (m : Memory) :
    applyLanes (s.withHost h) g cs m = applyLanes s g cs m := by
  induction cs generalizing m with
  | nil => rfl
  | cons c cs ih => simp only [applyLanes, ih]; rfl

/-! ## The micro-operations that read or write BUF -/

theorem execSBpf_withHost : execSBpf (s.withHost h) = mapNext (·.withHost h) (execSBpf s) := by
  cases hr : readSample s s.pos.ch s.pos.idx with
  | error f => rw [execSBpf_fault hr, execSBpf_fault (s := s.withHost h) hr]; rfl
  | ok v =>
    rw [execSBpf_ok hr, execSBpf_ok (s := s.withHost h) hr]
    exact congrArg _ (nextPair_withHost (bandPassed v s) h _ _)

theorem execHHpf_withHost : execHHpf (s.withHost h) = mapNext (·.withHost h) (execHHpf s) := by
  cases hr : readSample s s.pos.ch s.pos.idx with
  | error f => rw [execHHpf_fault hr, execHHpf_fault (s := s.withHost h) hr]; rfl
  | ok v => rw [execHHpf_ok hr, execHHpf_ok (s := s.withHost h) hr]; rfl

theorem execEDet_withHost : execEDet (s.withHost h) = mapNext (·.withHost h) (execEDet s) := by
  have hsame := detectLanes_withHost s h (channels s.params) s.scr.lane f32Zero
  cases hd : detectLanes s (channels s.params) s.scr.lane f32Zero with
  | error f => rw [execEDet_fault hd, execEDet_fault (s := s.withHost h) (hsame.trans hd)]; rfl
  | ok r => rw [execEDet_ok hd, execEDet_ok (s := s.withHost h) (hsame.trans hd)]; rfl

theorem execEApply_withHost : execEApply (s.withHost h) = mapNext (·.withHost h) (execEApply s) := by
  have hsame := applyLanes_withHost s h (frameGain s.num s.scr.grv) (channels s.params) s.buf
  cases ha : applyLanes s (frameGain s.num s.scr.grv) (channels s.params) s.buf with
  | error f => rw [execEApply_fault ha, execEApply_fault (s := s.withHost h) (hsame.trans ha)]; rfl
  | ok m =>
    rw [execEApply_ok ha, execEApply_ok (s := s.withHost h) (hsame.trans ha)]
    exact congrArg _ (nextFrame_withHost { s with buf := m } h _ _)

theorem execHMac_withHost : execHMac (s.withHost h) = mapNext (·.withHost h) (execHMac s) := by
  cases hw : writeSample s.params s.buf s.pos.ch s.pos.idx (outputSample s) with
  | error f => rw [execHMac_fault hw, execHMac_fault (s := s.withHost h) hw]; rfl
  | ok m =>
    rw [execHMac_ok hw, execHMac_ok (s := s.withHost h) hw]
    exact congrArg _ (nextPair_withHost { s with buf := m } h _ _)

end HostRegisters

/-- Settles O48, micro-operation by micro-operation: those that only move to a phase are the same update on both sides, the
others go by the operations that they are made of. -/
theorem parameterWritesWait : Obligations.ParameterWritesWait := by
  intro i s h hbus hlatch
  cases i with
  | wr | rd | wrs | rds | rdgr | prepare | process | srm | ege | hen => cases hbus
  | latch => exact absurd rfl hlatch
  | done | sInit | sRatio | eCoef | eEnv | eGrc | ePub | hGain | hSat => rfl
  | prep => exact congrArg (fun t => Host.Outcome.next (goTo phaseDone t)) (prepared_withHost s h)
  | sBpf => exact execSBpf_withHost s h
  | sRms => exact congrArg _ (nextChan_withHost { s with scr := _ } h _ _)
  | eDet => exact execEDet_withHost s h
  | eApply => exact execEApply_withHost s h
  | hHpf => exact execHHpf_withHost s h
  | hMac => exact execHMac_withHost s h

end Sys2Proof.Machine
end

section
/-! Who writes what (10_state R31 to R45, 20_memory R73, 60_exceptions R262): each register, BUF and each STATUS bit changes by its
writers alone. -/

namespace Sys2Proof.Machine

/-! ## What the bodies of S_BPF and H_HPF change of the hidden state -/

@[simp] theorem bandPassed_hid (v : F32) (s : State) :
    (bandPassed v s).hid =
      { s.hid with
        bpfMem := laneSet s.hid.bpfMem s.pos.ch
          (filterStep s.io.admitted 0 (bpfOf s.params) s.hid.bpfCoef (laneGet s.hid.bpfMem s.pos.ch) v).2 } := rfl

@[simp] theorem highPassed_hid (v : F32) (s : State) :
    (highPassed v s).hid =
      { s.hid with
        hpfMem := laneSet s.hid.hpfMem s.pos.ch
          (filterStep s.io.admitted 1 (hpfOf s.params) s.hid.hpfCoef (laneGet s.hid.hpfMem s.pos.ch) v).2 } := rfl

/-! ## Transactions -/

/-- The bits that a dropped or accepted offer sets (R231): CMDOVR, BADCMD, NOPREP, BADLEN, BUSY. -/
def offerBits : List (BitVec 7) := [0x40, 0x10, 0x08, 0x20, 0x02]

/-- An offer sets one STATUS bit (R231, R261). -/
theorem offer_status (w : Word) (s : State) : ∃ m ∈ offerBits, (offer w s).status = s.status ||| m := by
  unfold offer offerCondition
  split
  · rename_i c hc
    refine ⟨condBit c, ?_, rfl⟩
    (repeat' split at hc) <;> cases hc <;> decide
  · exact ⟨stBusy, by decide, rfl⟩

/-- An offer changes STATUS, the position, the latches and the model's notes at most. -/
theorem offer_eq (w : Word) (s : State) :
    offer w s =
      { s with status := (offer w s).status, lat := (offer w s).lat, pos := (offer w s).pos, io := (offer w s).io } := by
  rcases offer_cases w s with ⟨c, -, e⟩ | ⟨-, e⟩ <;> rw [e] <;> rfl

/-- A REG-space address with bits 29:8 clear is its register number. -/
theorem toNat_of_not_reserved {a : WordAddr} (h : ¬reservedAddr a = true) : (a.setWidth 8).toNat = a.toNat := by
  have hz : a >>> 8 = 0 := by simpa [reservedAddr, zeroFieldClear] using h
  have hdiv : a.toNat / 2 ^ 8 = 0 := by
    rw [← Nat.shiftRight_eq_div_pow, ← BitVec.toNat_ushiftRight, hz]; rfl
  rw [BitVec.toNat_setWidth]; omega

/-- WR (R244): an offer at CMD, an acknowledgement at STATUS, elsewhere a change of the host-written registers at most. -/
theorem execWr_cases {a : WordAddr} {d : Word} {s t : State} (h : execWr a d s = .next t) :
    (a = 0 ∧ t = offer d s) ∨ (a = 1 ∧ t = acknowledge d s) ∨ ∃ x, t = { s with host := x } := by
  cases h
  split
  · exact .inr (.inr ⟨_, rfl⟩)
  · rename_i hres
    have hnum := toNat_of_not_reserved hres
    unfold writeReg
    split
    · rename_i h0
      exact .inl ⟨BitVec.eq_of_toNat_eq (hnum.symm.trans h0), rfl⟩
    · rename_i h1
      exact .inr (.inl ⟨BitVec.eq_of_toNat_eq (hnum.symm.trans h1), rfl⟩)
    all_goals exact .inr (.inr ⟨_, rfl⟩)

/-- RD (R245) changes the model's notes alone. -/
theorem execRd_next {a : WordAddr} {s t : State} (h : execRd a s = .next t) : ∃ x, t = { s with io := x } := by
  cases h
  split
  · exact ⟨_, rfl⟩
  · obtain ⟨x, k, e⟩ := readReg_cases (a.setWidth 8) s
    exact ⟨_, e⟩

/-- WRS (R246) changes BUF at most. -/
theorem execWrs_next {c : Chan} {n : Index} {d : Word} {s t : State} (h : execWrs c n d s = .next t) :
    ∃ m, t = { s with buf := m } := by
  cases h
  (repeat' split) <;> exact ⟨_, rfl⟩

/-! ## The writers -/

/-- What the transaction or micro-operation `i` leaves alone from `s` to `t`, and who may change each part of the state. A field
that a case of a proof does not name is one that the operation leaves alone. -/
structure Writers (i : Instr) (s t : State) : Prop where
  params : t.params = s.params := by simp
  host : t.host ≠ s.host → ∃ a D, i = .wr a D := by simp
  status : t.status = s.status ∨ (i = .prep ∧ t.status = (prepared s).status) ∨
    (i = .done ∧ t.status = stClear s.status stBusy) ∨ (∃ D, i = .wr 0 D ∧ t.status = (offer D s).status) ∨
    ∃ D, i = .wr 1 D ∧ t.status = stWriteClear s.status D := by simp
  gr : t.res.gr ≠ s.res.gr → i = .ePub := by simp
  effRatio : t.res.effRatio ≠ s.res.effRatio → i = .sRatio := by simp
  rate : t.res.srLo ≠ s.res.srLo ∨ t.res.srHi ≠ s.res.srHi ∨ t.res.blksz ≠ s.res.blksz → i = .prep := by simp
  env : t.hid.env ≠ s.hid.env → i = .prep ∨ i = .eEnv := by simp
  coef : t.hid.bpfCoef ≠ s.hid.bpfCoef ∨ t.hid.hpfCoef ≠ s.hid.hpfCoef → i = .prep := by simp
  bpfMem : t.hid.bpfMem ≠ s.hid.bpfMem → i = .prep ∨ i = .sBpf := by simp
  hpfMem : t.hid.hpfMem ≠ s.hid.hpfMem → i = .prep ∨ i = .hHpf := by simp
  lat : t.lat ≠ s.lat → i = .latch ∨ ∃ D, i = .wr 0 D := by simp
  buf : t.buf ≠ s.buf → i = .eApply ∨ i = .hMac ∨ ∃ c n D, i = .wrs c n D := by simp

section
variable {i : Instr} {s t : State}

theorem writers_of_transaction (hb : busOf i = .portH ∨ busOf i = .portM) (ht : exec i s = .next t) :
    Writers i s t := by
  cases i with
  | wr a D =>
    rcases execWr_cases ht with ⟨rfl, rfl⟩ | ⟨rfl, rfl⟩ | ⟨x, rfl⟩
    · rw [offer_eq]
      exact { status := .inr (.inr (.inr (.inl ⟨D, rfl, rfl⟩))), lat := fun _ => .inr ⟨D, rfl⟩ }
    · exact { status := .inr (.inr (.inr (.inr ⟨D, rfl, rfl⟩))) }
    · exact { host := fun _ => ⟨a, D, rfl⟩ }
  | rd a => obtain ⟨x, rfl⟩ := execRd_next ht; exact {}
  | wrs c n D => obtain ⟨m, rfl⟩ := execWrs_next ht; exact { buf := fun _ => .inr (.inr ⟨c, n, D, rfl⟩) }
  | rds c n => obtain ⟨x, rfl⟩ := execRds_next ht; exact {}
  | rdgr => cases ht; exact {}
  | prepare | process | srm | ege | hen | latch | prep | done | sInit | sBpf | sRms | sRatio | eCoef | eDet | eEnv | eGrc
  | ePub | eApply | hGain | hHpf | hSat | hMac => rcases hb with hb | hb <;> cases hb

theorem writers_of_microOperation (hb : busOf i = .phase) (ht : exec i s = .next t) : Writers i s t := by
  cases i with
  | wr | rd | wrs | rds | rdgr | prepare | process | srm | ege | hen => cases hb
  | latch => cases ht; exact { lat := fun _ => .inl rfl }
  | prep =>
    cases ht
    exact
      { status := .inr (.inl ⟨rfl, rfl⟩), rate := fun _ => rfl, env := fun _ => .inl rfl, coef := fun _ => rfl
        bpfMem := fun _ => .inl rfl, hpfMem := fun _ => .inl rfl }
  | done => cases ht; exact { status := .inr (.inr (.inl ⟨rfl, rfl⟩)) }
  | sBpf => obtain ⟨v, -, rfl⟩ := execSBpf_next ht; exact { bpfMem := fun _ => .inr rfl }
  | sRatio => cases ht; exact { effRatio := fun _ => rfl }
  | eDet => obtain ⟨lane, level, -, rfl⟩ := execEDet_next ht; exact {}
  | eEnv => cases ht; exact { env := fun _ => .inr rfl }
  | ePub => cases ht; exact { gr := fun _ => rfl }
  | eApply => obtain ⟨-, rfl⟩ := execEApply_next ht; exact { buf := fun _ => .inl rfl }
  | hHpf => obtain ⟨v, -, rfl⟩ := execHHpf_next ht; exact { hpfMem := fun _ => .inr rfl }
  | hMac => obtain ⟨-, rfl⟩ := execHMac_next ht; exact { buf := fun _ => .inr (.inl rfl) }
  | sInit | sRms | eCoef | eGrc | hGain | hSat => cases ht; exact {}

theorem writers (hb : busOf i ≠ .command) (ht : exec i s = .next t) : Writers i s t := by
  cases hbus : busOf i with
  | portH => exact writers_of_transaction (.inl hbus) ht
  | portM => exact writers_of_transaction (.inr hbus) ht
  | command => exact absurd hbus hb
  | phase => exact writers_of_microOperation hbus ht

end

/-- Settles O45: the parts of the state other than STATUS, with their writers. -/
theorem eachRegisterHasItsWriters : Obligations.EachRegisterHasItsWriters := by
  intro i s t hb ht
  have w := writers hb ht
  exact ⟨w.params, w.host, w.gr, w.effRatio, w.rate, w.env, w.coef, w.bpfMem, w.hpfMem, w.lat, w.buf⟩

/-! ## The bits of STATUS -/

/-- PREP sets PREPARED, and SRDEF where it replaces the rate; it clears nothing (R237, R264). -/
theorem prepared_status_bit (s : State) {k : Nat} (hk : k < 7) :
    (s.status.getLsbD k = true → (prepared s).status.getLsbD k = true) ∧
      (s.status.getLsbD k = false → (prepared s).status.getLsbD k = true → k = 0 ∨ k = 2) := by
  have bits : ∀ (j : Fin 7), (condBit .srdef ||| stPrepared).getLsbD j = true → (j : Nat) = 0 ∨ (j : Nat) = 2 := by decide
  have hmask := bits ⟨k, hk⟩
  rw [BitVec.getLsbD_or, Bool.or_eq_true] at hmask
  rw [prepared_status]
  constructor
  · intro h; split <;> simp [h]
  · intro h
    split <;> simp only [BitVec.getLsbD_or, h, Bool.false_or, Bool.or_eq_true]
    · exact fun hp => hmask (.inr hp)
    · exact hmask

/-- An offer sets BUSY or one of the four drop conditions; it clears nothing (R231, R262). -/
theorem offer_status_bit (w : Word) (s : State) {k : Nat} (hk : k < 7) :
    (s.status.getLsbD k = true → (offer w s).status.getLsbD k = true) ∧
      (s.status.getLsbD k = false → (offer w s).status.getLsbD k = true → k = 1 ∨ 3 ≤ k) := by
  have bits : ∀ m ∈ offerBits, ∀ j : Fin 7, m.getLsbD j = true → (j : Nat) = 1 ∨ 3 ≤ (j : Nat) := by decide
  obtain ⟨m, hm, e⟩ := offer_status w s
  rw [e, BitVec.getLsbD_or]
  exact ⟨fun h => by simp [h], fun h hset => bits m hm ⟨k, hk⟩ (by simpa [h] using hset)⟩

/-- DONE clears BUSY alone (R235). -/
theorem stClear_busy_bit (st : BitVec 7) {k : Nat} (hk : k < 7) :
    (stClear st stBusy).getLsbD k = (st.getLsbD k && decide (k ≠ 1)) := by
  have bits : ∀ j : Fin 7, (~~~stBusy).getLsbD j = decide ((j : Nat) ≠ 1) := by decide
  rw [stClear, BitVec.getLsbD_and, bits ⟨k, hk⟩]

/-- A WR to STATUS clears the sticky bits written as 1 (44_host_commands R244). -/
theorem stWriteClear_bit (st : BitVec 7) (d : Word) {k : Nat} (hk : k < 7) :
    (stWriteClear st d).getLsbD k = (st.getLsbD k && !(d.getLsbD k && decide (2 ≤ k))) := by
  have bits : ∀ j : Fin 7, stSticky.getLsbD j = decide (2 ≤ (j : Nat)) := by decide
  rw [stWriteClear, stClear, BitVec.getLsbD_and, BitVec.getLsbD_not, BitVec.getLsbD_and, BitVec.getLsbD_setWidth,
    bits ⟨k, hk⟩]
  simp [hk]

/-- Who sets and who clears a STATUS bit (R31, R262). -/
theorem status_bit_writers {i : Instr} {s t : State} {k : Nat} (hb : busOf i ≠ .command) (ht : exec i s = .next t)
    (hk : k < 7) :
    (s.status.getLsbD k = false → t.status.getLsbD k = true →
      (i = .prep ∧ (k = 0 ∨ k = 2)) ∨ ((∃ D, i = .wr 0 D) ∧ (k = 1 ∨ 3 ≤ k))) ∧
    (s.status.getLsbD k = true → t.status.getLsbD k = false →
      (i = .done ∧ k = 1) ∨ (2 ≤ k ∧ ∃ D, i = .wr 1 D ∧ D.getLsbD k = true)) := by
  rcases (writers hb ht).status with e | ⟨hi, e⟩ | ⟨hi, e⟩ | ⟨D, hi, e⟩ | ⟨D, hi, e⟩ <;> rw [e]
  · exact ⟨fun h h' => absurd (h.symm.trans h') nofun, fun h h' => absurd (h.symm.trans h') nofun⟩
  · obtain ⟨hkeep, hset⟩ := prepared_status_bit s hk
    exact ⟨fun h h' => .inl ⟨hi, hset h h'⟩, fun h h' => absurd ((hkeep h).symm.trans h') nofun⟩
  · rw [stClear_busy_bit _ hk]
    exact ⟨fun h h' => by simp [h] at h', fun h h' => .inl ⟨hi, by simpa [h] using h'⟩⟩
  · obtain ⟨hkeep, hset⟩ := offer_status_bit D s hk
    exact ⟨fun h h' => .inr ⟨⟨D, hi⟩, hset h h'⟩, fun h h' => absurd ((hkeep h).symm.trans h') nofun⟩
  · rw [stWriteClear_bit _ _ hk]
    refine ⟨fun h h' => by simp [h] at h', fun h h' => ?_⟩
    obtain ⟨hd, h2⟩ : D.getLsbD k = true ∧ 2 ≤ k := by simpa [h] using h'
    exact .inr ⟨h2, D, hi, hd⟩

/-! ## PREPARED -/

/-- No transaction and no micro-operation clears PREPARED. -/
theorem exec_keeps_prepared {i : Instr} {s t : State} (hb : busOf i ≠ .command) (ht : exec i s = .next t)
    (h : isPrepared s = true) : isPrepared t = true := by
  by_contra hclear
  rcases (status_bit_writers hb ht (k := 0) (by decide)).2 h (Bool.eq_false_iff.2 hclear) with ⟨-, h1⟩ | ⟨h2, -⟩
  · exact absurd h1 (by decide)
  · exact absurd h2 (by decide)

theorem offer_keeps_prepared (w : Word) {s : State} (h : isPrepared s = true) : isPrepared (offer w s) = true :=
  (offer_status_bit w s (by decide)).1 h

theorem seqStep_keeps_prepared (s t : State) (h : isPrepared s = true) (ht : seqStep s = .next t) :
    isPrepared t = true := by
  rw [seqStep_eq] at ht
  cases hd : decodePhase s.pos.phase with
  | ok i =>
    rw [hd] at ht
    exact exec_keeps_prepared (by rw [(decodePhase_spec _ _ hd).1]; decide) ht h
  | error e =>
    simp only [hd] at ht
    split at ht <;> cases ht
    exact h

/-- A command in the atomic view is an offer, followed by micro-operations where it is accepted. -/
theorem runCommand_keeps_prepared {w : Word} {s t : State} (h : isPrepared s = true)
    (ht : runCommand w s = .next t) : isPrepared t = true := by
  have hoffer := offer_keeps_prepared w h
  unfold offer at hoffer
  unfold runCommand at ht
  cases hc : offerCondition w s with
  | some c => simp only [hc] at hoffer ht; cases ht; exact hoffer
  | none =>
    simp only [hc] at hoffer ht
    exact runSequencer_induct (isPrepared · = true) seqStep_keeps_prepared _ _ _ hoffer ht

theorem exec_command_keeps_prepared {i : Instr} {s t : State} (hb : busOf i = .command) (ht : exec i s = .next t)
    (h : isPrepared s = true) : isPrepared t = true := by
  cases i with
  | prepare | process | srm | ege | hen => exact runCommand_keeps_prepared h ht
  | wr | rd | wrs | rds | rdgr | latch | prep | done | sInit | sBpf | sRms | sRatio | eCoef | eDet | eEnv | eGrc | ePub
  | eApply | hGain | hHpf | hSat | hMac => cases hb

theorem notAnInstr_keeps_prepared {b : Bus} {ws : List Word} {e : Reject} {s t : State} (h : isPrepared s = true)
    (ht : notAnInstr b ws e s = .next t) : isPrepared t = true := by
  cases b with
  | portH => cases ht; exact h
  | portM => cases ht; unfold isPrepared; rw [meterOther_status]; exact h
  | command => cases ht; exact offer_keeps_prepared _ h
  | phase =>
    simp only [notAnInstr] at ht
    split at ht <;> cases ht
    exact h

/-- A fetch that finds no words has found the reset input. -/
theorem powerOn_of_fetch_none {s t : State} (h : fetch s = (none, t)) : ∃ rest, s.io.inputs = .powerOn :: rest := by
  unfold fetch at h
  split at h <;> cases h
  exact ⟨_, ‹_›⟩

/-- Settles O46: a step that is not power-on reset is a decoded instruction or an offer, none of which clears PREPARED; the bits
of a single operation are those of its writers. -/
theorem eachStatusBitHasItsWriters : Obligations.EachStatusBitHasItsWriters := by
  refine ⟨fun s t ht hset hclear => ?_, fun i s t k hb ht hk => status_bit_writers hb ht hk⟩
  obtain ⟨l, hf | ⟨b, ws, hf, -⟩⟩ := fetch_cases s
  · exact powerOn_of_fetch_none hf
  · have hprep : isPrepared (s.withInputs l) = true := hset
    have hkept : isPrepared t = true := by
      cases hd : decode b ws with
      | ok i =>
        rw [step_of_decode hf hd] at ht
        by_cases hb : busOf i = .command
        · exact exec_command_keeps_prepared hb ht hprep
        · exact exec_keeps_prepared hb ht hprep
      | error e =>
        rw [step_of_reject hf hd] at ht
        exact notAnInstr_keeps_prepared hprep ht
    exact absurd (hkept.symm.trans hclear) nofun

end Sys2Proof.Machine
end

section
/-! PREPARE is the soft reset (70_reset R292): a PROCESS after it does not depend on what the core did before it. Two cores run the
command side by side. At every phase they agree on the registers that outlast a command and on those that the
micro-operations still to come read before they write them. -/

namespace Sys2Proof.Machine

/-! ## Register files that agree on the channels that exist -/

/-- The entries of the channels below NCH are the same. -/
def SameLanes {α : Type} (p : Params) (v w : Vector α 64) : Prop :=
  ∀ c : Chan, c.toNat < p.nch.toNat → laneGet w c = laneGet v c

section Lanes
variable {α : Type} {p : Params} {v w : Vector α 64}

theorem SameLanes.set (h : SameLanes p v w) (c : Chan) (x : α) : SameLanes p (laneSet v c x) (laneSet w c x) := by
  intro d hd
  rw [laneGet_laneSet, laneGet_laneSet, h d hd]

/-- Filling the channels that exist makes any two register files agree. -/
theorem sameLanes_fill (x : α) : SameLanes p (laneFill (channels p) x v) (laneFill (channels p) x w) := by
  intro d hd
  rw [laneGet_laneFill, laneGet_laneFill, if_pos ((mem_channels _ _).2 hd), if_pos ((mem_channels _ _).2 hd)]

end Lanes

/-! ## What is left of the SRM stage -/

/-- How many micro-operations are left of the SRM stage at S_BPF, at least one for every pair, channel and S_RATIO to come. -/
def sBpfLeft (nch len ch idx : Nat) : Nat := (nch - 1 - ch) * (len + 1) + (len - idx) + nch + 2

/-- How many micro-operations the SRM stage takes at most. -/
def srmBound (nch len : Nat) : Nat := if len = 0 then 2 else nch * (len + 1) + nch + 2

theorem sBpfLeft_first {nch len : Nat} (hn : 1 ≤ nch) (hl : len ≠ 0) : sBpfLeft nch len 0 0 + 1 = srmBound nch len := by
  obtain ⟨m, rfl⟩ := Nat.exists_eq_add_of_le' hn
  simp only [sBpfLeft, srmBound, if_neg hl, Nat.add_sub_cancel, Nat.sub_zero, Nat.add_mul]
  omega

theorem sBpfLeft_nextSample {nch len ch idx : Nat} (h : idx + 1 < len) :
    sBpfLeft nch len ch (idx + 1) + 1 = sBpfLeft nch len ch idx := by
  unfold sBpfLeft; omega

theorem sBpfLeft_nextChan {nch len ch : Nat} (idx : Nat) (h : ch + 1 < nch) :
    sBpfLeft nch len (ch + 1) 0 + 1 ≤ sBpfLeft nch len ch idx := by
  have hrow : (nch - 1 - ch) * (len + 1) = (nch - 1 - (ch + 1)) * (len + 1) + (len + 1) := by
    rw [← Nat.succ_mul]; congr 1; omega
  unfold sBpfLeft; omega

theorem sBpfLeft_last (nch len ch idx : Nat) : nch + 2 ≤ sBpfLeft nch len ch idx := by
  unfold sBpfLeft; omega

theorem srmBound_pos (nch len : Nat) : 0 < srmBound nch len := by
  unfold srmBound; split <;> omega

/-- The bound of R235 leaves room for the SRM stage of a PROCESS. -/
theorem srmBound_le_uopBound (nch len : Nat) : srmBound nch len ≤ uopBound 2 nch len := by
  have hb : uopBound 2 nch len = (4 + nch * len + nch) + (3 + 5 * len) + (3 + 3 * nch * len) - 4 := rfl
  rw [hb, srmBound, Nat.mul_assoc, Nat.mul_succ]
  split
  · omega
  · have : nch ≤ nch * len := Nat.le_mul_of_pos_right nch (by omega)
    omega

/-! ## The next position -/

/-- The core put at a position. -/
def State.withPos (s : State) (q : Pos) : State := { s with pos := q }

/-- Where `nextPair` goes from `q`. -/
def pairPos (again finish : PhaseCode) (nch len : Nat) (q : Pos) : Pos :=
  if q.idx.toNat + 1 < len then ⟨again, q.idx + 1, q.ch⟩
  else if q.ch.toNat + 1 < nch then ⟨again, 0, q.ch + 1⟩
  else ⟨finish, 0, 0⟩

/-- Where `nextChan` goes from `q`. -/
def chanPos (again finish : PhaseCode) (nch : Nat) (q : Pos) : Pos :=
  if q.ch.toNat + 1 < nch then ⟨again, 0, q.ch + 1⟩ else ⟨finish, 0, 0⟩

/-- Where `nextFrame` goes from `q`. -/
def framePos (again finish : PhaseCode) (len : Nat) (q : Pos) : Pos :=
  if q.idx.toNat + 1 < len then ⟨again, q.idx + 1, 0⟩ else ⟨finish, 0, 0⟩

theorem nextPair_eq_withPos (a f : PhaseCode) (s : State) :
    nextPair a f s = s.withPos (pairPos a f s.params.nch.toNat s.lat.len.toNat s.pos) := by
  unfold nextPair pairPos
  split
  · rfl
  · split <;> rfl

theorem nextChan_eq_withPos (a f : PhaseCode) (s : State) :
    nextChan a f s = s.withPos (chanPos a f s.params.nch.toNat s.pos) := by
  unfold nextChan chanPos; split <;> rfl

theorem nextFrame_eq_withPos (a f : PhaseCode) (s : State) :
    nextFrame a f s = s.withPos (framePos a f s.lat.len.toNat s.pos) := by
  unfold nextFrame framePos; split <;> rfl

/-! ## The relation -/

/-- Two cores that agree on the command in progress, on BUF and on the registers that outlast a command. -/
structure SameCore (s t : State) : Prop where
  wf : s.params.wf = true
  ch : s.pos.ch.toNat < s.params.nch.toNat
  params : t.params = s.params
  lat : t.lat = s.lat
  pos : t.pos = s.pos
  buf : t.buf = s.buf
  rate : rateInForce t = rateInForce s
  env : t.hid.env = s.hid.env
  bpfCoef : t.hid.bpfCoef = s.hid.bpfCoef
  bpfMem : SameLanes s.params s.hid.bpfMem t.hid.bpfMem
  hpfCoef : t.hid.hpfCoef = s.hid.hpfCoef
  hpfMem : SameLanes s.params s.hid.hpfMem t.hid.hpfMem
  admitted : t.io.admitted = s.io.admitted
  grLog : t.io.grLog = s.io.grLog

/-- What E_COEF leaves for the frames (42_envelope_gain_engine R182 to R184). -/
structure SameSetup (s t : State) : Prop where
  effRatio : t.res.effRatio = s.res.effRatio
  ac : t.scr.ac = s.scr.ac
  rc : t.scr.rc = s.scr.rc
  slope : t.scr.slope = s.scr.slope

/-- What H_GAIN leaves for the samples (43_harmonic_enhancer R212, R213). -/
structure SameGains (s t : State) : Prop where
  effRatio : t.res.effRatio = s.res.effRatio
  lg : t.scr.lg = s.scr.lg
  mix : t.scr.mix = s.scr.mix

/-- Two cores at the same phase of a PROCESS agree on the scratch registers that the micro-operations from here on read before
they write them, and on EFF_RATIO once the SRM stage has written it. `n` bounds what is left of the SRM stage. -/
inductive SameLive (n : Nat) (s t : State) : PhaseCode → Prop
  | sInit (left : srmBound s.params.nch.toNat s.lat.len.toNat ≤ n) : SameLive n s t phaseSInit
  | sBpf (left : sBpfLeft s.params.nch.toNat s.lat.len.toNat s.pos.ch.toNat s.pos.idx.toNat ≤ n)
      (maxrms : t.scr.maxrms = s.scr.maxrms) (sumsq : SameLanes s.params s.scr.sumsq t.scr.sumsq) :
      SameLive n s t phaseSBpf
  | sRms (left : s.params.nch.toNat - s.pos.ch.toNat + 1 ≤ n)
      (maxrms : t.scr.maxrms = s.scr.maxrms) (sumsq : SameLanes s.params s.scr.sumsq t.scr.sumsq) :
      SameLive n s t phaseSRms
  | sRatio (left : 1 ≤ n) (maxrms : t.scr.maxrms = s.scr.maxrms) : SameLive n s t phaseSRatio
  | eCoef (effRatio : t.res.effRatio = s.res.effRatio) : SameLive n s t phaseECoef
  | eDet (setup : SameSetup s t) : SameLive n s t phaseEDet
  | eEnv (setup : SameSetup s t) (lane : SameLanes s.params s.scr.lane t.scr.lane)
      (level : t.scr.level = s.scr.level) : SameLive n s t phaseEEnv
  | eGrc (setup : SameSetup s t) (lane : SameLanes s.params s.scr.lane t.scr.lane) : SameLive n s t phaseEGrc
  | ePub (setup : SameSetup s t) (lane : SameLanes s.params s.scr.lane t.scr.lane)
      (grv : t.scr.grv = s.scr.grv) : SameLive n s t phaseEPub
  | eApply (setup : SameSetup s t) (lane : SameLanes s.params s.scr.lane t.scr.lane)
      (grv : t.scr.grv = s.scr.grv) : SameLive n s t phaseEApply
  | hGain (effRatio : t.res.effRatio = s.res.effRatio) : SameLive n s t phaseHGain
  | hHpf (gains : SameGains s t) : SameLive n s t phaseHHpf
  | hSat (gains : SameGains s t) (lane : laneGet t.scr.lane s.pos.ch = laneGet s.scr.lane s.pos.ch)
      (filt : t.scr.filt = s.scr.filt) : SameLive n s t phaseHSat
  | hMac (gains : SameGains s t) (lane : laneGet t.scr.lane s.pos.ch = laneGet s.scr.lane s.pos.ch)
      (sat : t.scr.sat = s.scr.sat) : SameLive n s t phaseHMac
  | done (effRatio : t.res.effRatio = s.res.effRatio) : SameLive n s t phaseDone
  | idle (effRatio : t.res.effRatio = s.res.effRatio) : SameLive n s t phaseIdle

/-- Two cores side by side in a PROCESS. -/
structure SameRun (n : Nat) (s t : State) : Prop where
  core : SameCore s t
  live : SameLive n s t s.pos.phase

/-- With nothing left of the SRM stage, or at IDLE, EFF_RATIO agrees. -/
theorem SameLive.effRatio {n : Nat} {s t : State} {p : PhaseCode} (h : SameLive n s t p)
    (hn : n = 0 ∨ p = phaseIdle) : t.res.effRatio = s.res.effRatio := by
  cases h with
  | sInit left =>
    have hn0 := hn.resolve_right (by decide)
    have := srmBound_pos s.params.nch.toNat s.lat.len.toNat
    omega
  | sBpf left =>
    have hn0 := hn.resolve_right (by decide)
    have := sBpfLeft_last s.params.nch.toNat s.lat.len.toNat s.pos.ch.toNat s.pos.idx.toNat
    omega
  | sRms left | sRatio left =>
    have hn0 := hn.resolve_right (by decide)
    omega
  | eDet h | eEnv h | eGrc h | ePub h | eApply h => exact h.effRatio
  | hHpf h | hSat h | hMac h => exact h.effRatio
  | eCoef h | hGain h | done h | idle h => exact h

section Steps
variable {n : Nat} {s t : State}

/-- Where the first core goes on, the second does, and they stay side by side. -/
def Follows (n : Nat) (x y : Host.Outcome State Fault Refusal) : Prop :=
  ∀ s', x = .next s' → ∃ t', y = .next t' ∧ SameRun n s' t'

theorem follows_next (h : SameRun n s t) : Follows n (.next s) (.next t) := by
  rintro _ ⟨⟩
  exact ⟨t, rfl, h⟩

/-- A core that stops has no next state to follow. -/
theorem follows_fault {f : Fault} {y : Host.Outcome State Fault Refusal} : Follows n (.fault f) y := nofun

/-! ## What the two cores compute alike -/

theorem SameCore.num (h : SameCore s t) : t.num = s.num := by unfold State.num; rw [h.params, h.admitted]

theorem SameCore.readSample (h : SameCore s t) (c : Chan) (i : Index) : readSample t c i = readSample s c i :=
  readSample_congr s t c i h.params (by rw [h.buf])

/-- The detection loop reads the same frame into both cores' lanes, and so makes them agree. -/
theorem SameCore.detectLanes (h : SameCore s t) {cs : List Chan} {v w : Vector F32 64} {level : F32}
    {r : Vector F32 64 × F32} (hr : detectLanes s cs v level = .ok r) :
    ∃ lane, detectLanes t cs w level = .ok (lane, r.2) ∧
      ∀ c, (c ∈ cs ∨ laneGet w c = laneGet v c) → laneGet lane c = laneGet r.1 c := by
  induction cs generalizing v w level with
  | nil => cases hr; exact ⟨w, rfl, fun c hc => hc.resolve_left (by simp)⟩
  | cons d cs ih =>
    simp only [Machine.detectLanes, h.pos, h.readSample, h.num] at hr ⊢
    cases hd : Machine.readSample s d s.pos.idx with
    | error f => rw [hd] at hr; cases hr
    | ok x =>
      simp only [hd] at hr ⊢
      obtain ⟨lane, e, hlane⟩ := ih (w := laneSet w d x) hr
      refine ⟨lane, e, fun c hc => hlane c ?_⟩
      by_cases hcd : d = c
      · subst hcd; exact .inr (by simp)
      · rw [laneGet_laneSet_other _ _ hcd, laneGet_laneSet_other _ _ hcd]
        exact hc.imp_left fun hc => (List.mem_cons.1 hc).resolve_left (Ne.symm hcd)

/-- The write-back loop writes the same frame. -/
theorem SameCore.applyLanes (h : SameCore s t) (hlane : SameLanes s.params s.scr.lane t.scr.lane) (g : F32)
    {cs : List Chan} (hcs : ∀ c ∈ cs, c.toNat < s.params.nch.toNat) (m : Memory) :
    applyLanes t g cs m = applyLanes s g cs m := by
  induction cs generalizing m with
  | nil => rfl
  | cons c cs ih =>
    simp only [Machine.applyLanes, h.params, h.pos, h.num, hlane c (hcs c (by simp))]
    split
    · rfl
    · exact ih (fun d hd => hcs d (by simp [hd])) _

/-! ## Moves -/

theorem SameCore.nch_pos (h : SameCore s t) : (0 : Chan).toNat < s.params.nch.toNat := (wf_bounds h.wf).1

/-- To the start of a phase. -/
theorem SameRun.goTo {p q : PhaseCode} (h : SameCore s t) (hq : q = p) (hl : SameLive n (goTo p s) (goTo p t) p) :
    SameRun n (goTo p s) (goTo q t) := by
  subst hq
  exact ⟨{ h with ch := h.nch_pos, pos := rfl }, hl⟩

/-- To another phase of the same frame. -/
theorem SameRun.sameFrame {p : PhaseCode} (h : SameCore s t) (hl : SameLive n (sameFrame p s) (sameFrame p t) p) :
    SameRun n (sameFrame p s) (sameFrame p t) :=
  ⟨{ h with ch := h.nch_pos, pos := by rw [sameFrame_pos, sameFrame_pos, h.pos] }, hl⟩

/-- To another phase of the same pair. -/
theorem SameRun.samePair {p : PhaseCode} (h : SameCore s t) (hl : SameLive n (samePair p s) (samePair p t) p) :
    SameRun n (samePair p s) (samePair p t) :=
  ⟨{ h with pos := by rw [samePair_pos, samePair_pos, h.pos] }, hl⟩

/-- The two cores put at one position. -/
theorem SameRun.withPos (h : SameCore s t) (q : Pos) (hc : q.ch.toNat < s.params.nch.toNat)
    (hl : SameLive n (s.withPos q) (t.withPos q) q.phase) : SameRun n (s.withPos q) (t.withPos q) :=
  ⟨{ h with ch := hc, pos := rfl }, hl⟩

/-- To the next pair: the next sample, the next channel's first sample, or the end. -/
theorem SameRun.nextPair {a f : PhaseCode} (h : SameCore s t)
    (hsample : s.pos.idx.toNat + 1 < s.lat.len.toNat →
      SameLive n (s.withPos ⟨a, s.pos.idx + 1, s.pos.ch⟩) (t.withPos ⟨a, s.pos.idx + 1, s.pos.ch⟩) a)
    (hchan : s.pos.ch.toNat + 1 < s.params.nch.toNat →
      SameLive n (s.withPos ⟨a, 0, s.pos.ch + 1⟩) (t.withPos ⟨a, 0, s.pos.ch + 1⟩) a)
    (hlast : SameLive n (Machine.goTo f s) (Machine.goTo f t) f) : SameRun n (nextPair a f s) (nextPair a f t) := by
  rw [nextPair_eq_withPos, nextPair_eq_withPos, h.params, h.lat, h.pos]
  unfold pairPos
  split
  · exact .withPos h _ h.ch (hsample ‹_›)
  · split
    · rename_i hc
      exact .withPos h _ (by rw [ch_succ hc (wf_bounds h.wf).2.1]; exact hc) (hchan hc)
    · exact .goTo h rfl hlast

/-- To the next channel, or the end. -/
theorem SameRun.nextChan {a f : PhaseCode} (h : SameCore s t)
    (hchan : s.pos.ch.toNat + 1 < s.params.nch.toNat →
      SameLive n (s.withPos ⟨a, 0, s.pos.ch + 1⟩) (t.withPos ⟨a, 0, s.pos.ch + 1⟩) a)
    (hlast : SameLive n (Machine.goTo f s) (Machine.goTo f t) f) : SameRun n (nextChan a f s) (nextChan a f t) := by
  rw [nextChan_eq_withPos, nextChan_eq_withPos, h.params, h.pos]
  unfold chanPos
  split
  · rename_i hc
    exact .withPos h _ (by rw [ch_succ hc (wf_bounds h.wf).2.1]; exact hc) (hchan hc)
  · exact .goTo h rfl hlast

/-- To the next frame, or the end. -/
theorem SameRun.nextFrame {a f g : PhaseCode} (h : SameCore s t) (hg : g = f)
    (hframe : SameLive n (s.withPos ⟨a, s.pos.idx + 1, 0⟩) (t.withPos ⟨a, s.pos.idx + 1, 0⟩) a)
    (hlast : SameLive n (Machine.goTo f s) (Machine.goTo f t) f) :
    SameRun n (nextFrame a f s) (nextFrame a g t) := by
  subst hg
  rw [nextFrame_eq_withPos, nextFrame_eq_withPos, h.lat, h.pos]
  unfold framePos
  split
  · exact .withPos h _ h.nch_pos hframe
  · exact .goTo h rfl hlast

/-! ## The Spectral Ratio Modulator (41_spectral_ratio_modulator) -/

theorem follows_sInit (h : SameCore s t) (left : srmBound s.params.nch.toNat s.lat.len.toNat ≤ n + 1) :
    Follows n (execSInit s) (execSInit t) := by
  refine follows_next (.goTo { h with } (by rw [h.lat]) ?_)
  unfold afterSInit
  split <;> rename_i hlen
  · rw [hlen] at left
    exact .sRatio (Nat.le_of_succ_le_succ left) rfl
  · rw [← sBpfLeft_first (wf_bounds h.wf).1 (fun e => hlen (BitVec.eq_of_toNat_eq e))] at left
    exact .sBpf (Nat.le_of_succ_le_succ left) rfl (by rw [h.params]; exact sameLanes_fill _)

theorem SameCore.bandPassStep (h : SameCore s t) (v : F32) :
    filterStep t.io.admitted 0 (bpfOf t.params) t.hid.bpfCoef (laneGet t.hid.bpfMem t.pos.ch) v =
      filterStep s.io.admitted 0 (bpfOf s.params) s.hid.bpfCoef (laneGet s.hid.bpfMem s.pos.ch) v := by
  rw [h.admitted, h.params, h.bpfCoef, h.pos, h.bpfMem _ h.ch]

/-- One step of the same filter on the same sample. -/
theorem SameCore.bandPassed (h : SameCore s t) (v : F32) : SameCore (bandPassed v s) (bandPassed v t) := by
  refine { h with bpfMem := ?_ }
  rw [bandPassed_hid, bandPassed_hid, h.bandPassStep, h.pos]
  exact h.bpfMem.set _ _

theorem SameCore.bandPassed_sumsq (h : SameCore s t) (sumsq : SameLanes s.params s.scr.sumsq t.scr.sumsq) (v : F32) :
    SameLanes s.params (Machine.bandPassed v s).scr.sumsq (Machine.bandPassed v t).scr.sumsq := by
  unfold Machine.bandPassed
  simp only [h.bandPassStep, h.num]
  rw [h.pos, sumsq _ h.ch]
  exact sumsq.set _ _

theorem follows_sBpf (h : SameCore s t)
    (left : sBpfLeft s.params.nch.toNat s.lat.len.toNat s.pos.ch.toNat s.pos.idx.toNat ≤ n + 1)
    (maxrms : t.scr.maxrms = s.scr.maxrms) (sumsq : SameLanes s.params s.scr.sumsq t.scr.sumsq) :
    Follows n (execSBpf s) (execSBpf t) := by
  cases hr : readSample s s.pos.ch s.pos.idx with
  | error f => rw [execSBpf_fault hr]; exact follows_fault
  | ok v =>
    have hr' : readSample t t.pos.ch t.pos.idx = .ok v := by rw [h.readSample, h.pos]; exact hr
    have hsumsq := h.bandPassed_sumsq sumsq v
    rw [execSBpf_ok hr, execSBpf_ok hr']
    refine follows_next (.nextPair (h.bandPassed v) (fun (hi : s.pos.idx.toNat + 1 < s.lat.len.toNat) => ?sample)
      (fun (hc : s.pos.ch.toNat + 1 < s.params.nch.toNat) => ?chan) ?last)
    case sample =>
      have hleft := sBpfLeft_nextSample (nch := s.params.nch.toNat) (ch := s.pos.ch.toNat) hi
      refine .sBpf (?_ : sBpfLeft s.params.nch.toNat s.lat.len.toNat s.pos.ch.toNat (s.pos.idx + 1).toNat ≤ n)
        maxrms hsumsq
      rw [idx_succ hi]
      omega
    case chan =>
      have hleft := sBpfLeft_nextChan (len := s.lat.len.toNat) s.pos.idx.toNat hc
      refine .sBpf (?_ : sBpfLeft s.params.nch.toNat s.lat.len.toNat (s.pos.ch + 1).toNat 0 ≤ n) maxrms hsumsq
      rw [ch_succ hc (wf_bounds h.wf).2.1]
      exact Nat.le_of_succ_le_succ (hleft.trans left)
    case last =>
      have hleft := (sBpfLeft_last _ _ _ _).trans left
      exact .sRms (Nat.le_of_succ_le_succ hleft) maxrms hsumsq

theorem follows_sRms (h : SameCore s t) (left : s.params.nch.toNat - s.pos.ch.toNat + 1 ≤ n + 1)
    (maxrms : t.scr.maxrms = s.scr.maxrms) (sumsq : SameLanes s.params s.scr.sumsq t.scr.sumsq) :
    Follows n (execSRms s) (execSRms t) := by
  have hch := h.ch
  have hmax : t.num.max32 t.scr.maxrms (rootMean t.num (laneGet t.scr.sumsq t.pos.ch) t.lat.len) =
      s.num.max32 s.scr.maxrms (rootMean s.num (laneGet s.scr.sumsq s.pos.ch) s.lat.len) := by
    rw [h.num, h.lat, h.pos, maxrms, sumsq _ h.ch]
  refine follows_next (.nextChan { h with } (fun (hc : s.pos.ch.toNat + 1 < s.params.nch.toNat) => ?chan) ?last)
  case chan =>
    refine .sRms (?_ : s.params.nch.toNat - (s.pos.ch + 1).toNat + 1 ≤ n) hmax sumsq
    rw [ch_succ hc (wf_bounds h.wf).2.1]
    omega
  case last => exact .sRatio (by omega) hmax

/-- From here on EFF_RATIO agrees. -/
theorem follows_sRatio (h : SameCore s t) (maxrms : t.scr.maxrms = s.scr.maxrms) :
    Follows n (execSRatio s) (execSRatio t) := by
  have hratio : effectiveRatio t.num t.lat.ratio (reductionFactor t.num (coreEnergy t.num t.scr.maxrms)) =
      effectiveRatio s.num s.lat.ratio (reductionFactor s.num (coreEnergy s.num s.scr.maxrms)) := by
    rw [h.num, h.lat, maxrms]
  refine follows_next (.goTo { h with } (by rw [h.lat]) ?_)
  unfold afterSrm
  split
  · exact .eCoef hratio
  · exact .done hratio

/-! ## The Envelope/Gain Engine (42_envelope_gain_engine) -/

/-- Into the stage after the EGE stage. -/
theorem live_afterEge (op : BitVec 4) (h : t.res.effRatio = s.res.effRatio) : SameLive n s t (afterEge op) := by
  unfold afterEge
  split
  · exact .hGain h
  · exact .done h

theorem follows_eCoef (h : SameCore s t) (effRatio : t.res.effRatio = s.res.effRatio) :
    Follows n (execECoef s) (execECoef t) := by
  have hratio : ratioIn t = ratioIn s := by unfold ratioIn; rw [h.lat, effRatio]
  refine follows_next (.goTo { h with } (by rw [h.lat]) ?_)
  unfold afterECoef
  split
  · exact live_afterEge _ effRatio
  · refine .eDet { effRatio, ac := ?ac, rc := ?rc, slope := ?slope }
    case ac => simp only [goTo_scr, h.num, h.lat, h.rate]
    case rc => simp only [goTo_scr, h.num, h.lat, h.rate]
    case slope => simp only [goTo_scr, h.num, hratio]

theorem follows_eDet (h : SameCore s t) (setup : SameSetup s t) : Follows n (execEDet s) (execEDet t) := by
  cases hd : detectLanes s (channels s.params) s.scr.lane f32Zero with
  | error f => rw [execEDet_fault hd]; exact follows_fault
  | ok r =>
    obtain ⟨lane, hd', hlane⟩ := h.detectLanes (w := t.scr.lane) hd
    rw [← h.params] at hd'
    rw [execEDet_ok hd, execEDet_ok hd']
    exact follows_next (.sameFrame { h with }
      (.eEnv { setup with } (fun c hc => hlane c (.inl ((mem_channels _ _).2 hc))) rfl))

theorem follows_eEnv (h : SameCore s t) (setup : SameSetup s t) (lane : SameLanes s.params s.scr.lane t.scr.lane)
    (level : t.scr.level = s.scr.level) : Follows n (execEEnv s) (execEEnv t) := by
  have henv : onePole t.num (blendCoef t) t.hid.env t.scr.level = onePole s.num (blendCoef s) s.hid.env s.scr.level := by
    unfold blendCoef
    rw [h.num, h.env, level, setup.ac, setup.rc]
  exact follows_next (.sameFrame { h with env := henv } (.eGrc { setup with } lane))

theorem follows_eGrc (h : SameCore s t) (setup : SameSetup s t) (lane : SameLanes s.params s.scr.lane t.scr.lane) :
    Follows n (execEGrc s) (execEGrc t) := by
  have hgrv : gainReduction t.num (linToDb t.num t.params.dbFloor t.hid.env) t.lat.thresh t.scr.slope =
      gainReduction s.num (linToDb s.num s.params.dbFloor s.hid.env) s.lat.thresh s.scr.slope := by
    rw [h.num, h.params, h.env, h.lat, setup.slope]
  exact follows_next (.sameFrame { h with } (.ePub { setup with } lane hgrv))

theorem follows_ePub (h : SameCore s t) (setup : SameSetup s t) (lane : SameLanes s.params s.scr.lane t.scr.lane)
    (grv : t.scr.grv = s.scr.grv) : Follows n (execEPub s) (execEPub t) := by
  have hlog : t.io.grLog ++ [t.scr.grv] = s.io.grLog ++ [s.scr.grv] := by rw [h.grLog, grv]
  exact follows_next (.sameFrame { h with grLog := hlog } (.eApply { setup with } lane grv))

theorem follows_eApply (h : SameCore s t) (setup : SameSetup s t) (lane : SameLanes s.params s.scr.lane t.scr.lane)
    (grv : t.scr.grv = s.scr.grv) : Follows n (execEApply s) (execEApply t) := by
  cases ha : applyLanes s (frameGain s.num s.scr.grv) (channels s.params) s.buf with
  | error f => rw [execEApply_fault ha]; exact follows_fault
  | ok m =>
    have ha' : applyLanes t (frameGain t.num t.scr.grv) (channels t.params) t.buf = .ok m := by
      rw [h.num, grv, h.params, h.buf, h.applyLanes lane _ (fun c hc => (mem_channels _ _).1 hc)]
      exact ha
    rw [execEApply_ok ha, execEApply_ok ha']
    exact follows_next (.nextFrame { h with buf := rfl } (by rw [h.lat]) (.eDet { setup with })
      (live_afterEge _ setup.effRatio))

/-! ## The Harmonic Enhancer (43_harmonic_enhancer) -/

theorem follows_hGain (h : SameCore s t) (effRatio : t.res.effRatio = s.res.effRatio) :
    Follows n (execHGain s) (execHGain t) := by
  refine follows_next (.goTo { h with } (by rw [h.lat]) ?_)
  unfold afterHGain
  split
  · exact .done effRatio
  · refine .hHpf { effRatio, lg := ?lg, mix := ?mix }
    case lg => simp only [goTo_scr, h.num, h.lat]
    case mix => simp only [goTo_scr, h.num, h.lat]

theorem SameCore.highPassStep (h : SameCore s t) (v : F32) :
    filterStep t.io.admitted 1 (hpfOf t.params) t.hid.hpfCoef (laneGet t.hid.hpfMem t.pos.ch) v =
      filterStep s.io.admitted 1 (hpfOf s.params) s.hid.hpfCoef (laneGet s.hid.hpfMem s.pos.ch) v := by
  rw [h.admitted, h.params, h.hpfCoef, h.pos, h.hpfMem _ h.ch]

/-- One step of the same filter on the same sample. -/
theorem SameCore.highPassed (h : SameCore s t) (v : F32) : SameCore (highPassed v s) (highPassed v t) := by
  refine { h with hpfMem := ?_ }
  rw [highPassed_hid, highPassed_hid, h.highPassStep, h.pos]
  exact h.hpfMem.set _ _

theorem follows_hHpf (h : SameCore s t) (gains : SameGains s t) : Follows n (execHHpf s) (execHHpf t) := by
  cases hr : readSample s s.pos.ch s.pos.idx with
  | error f => rw [execHHpf_fault hr]; exact follows_fault
  | ok v =>
    have hr' : readSample t t.pos.ch t.pos.idx = .ok v := by rw [h.readSample, h.pos]; exact hr
    rw [execHHpf_ok hr, execHHpf_ok hr']
    refine follows_next (.samePair (h.highPassed v) (.hSat { gains with } ?lane ?filt))
    case lane =>
      change laneGet (laneSet t.scr.lane t.pos.ch v) s.pos.ch = laneGet (laneSet s.scr.lane s.pos.ch v) s.pos.ch
      rw [h.pos, laneGet_laneSet_same, laneGet_laneSet_same]
    case filt => exact congrArg Prod.fst (h.highPassStep v)

theorem follows_hSat (h : SameCore s t) (gains : SameGains s t)
    (lane : laneGet t.scr.lane s.pos.ch = laneGet s.scr.lane s.pos.ch) (filt : t.scr.filt = s.scr.filt) :
    Follows n (execHSat s) (execHSat t) := by
  have hsat : saturate t.num t.scr.filt = saturate s.num s.scr.filt := by rw [h.num, filt]
  exact follows_next (.samePair { h with } (.hMac { gains with } lane hsat))

theorem follows_hMac (h : SameCore s t) (gains : SameGains s t)
    (lane : laneGet t.scr.lane s.pos.ch = laneGet s.scr.lane s.pos.ch) (sat : t.scr.sat = s.scr.sat) :
    Follows n (execHMac s) (execHMac t) := by
  have hout : outputSample t = outputSample s := by
    unfold outputSample
    rw [h.num, h.pos, lane, gains.lg, sat, gains.mix]
  cases hw : writeSample s.params s.buf s.pos.ch s.pos.idx (outputSample s) with
  | error f => rw [execHMac_fault hw]; exact follows_fault
  | ok m =>
    have hw' : writeSample t.params t.buf t.pos.ch t.pos.idx (outputSample t) = .ok m := by
      rw [h.params, h.buf, h.pos, hout]; exact hw
    rw [execHMac_ok hw, execHMac_ok hw']
    exact follows_next (.nextPair { h with buf := rfl } (fun _ => .hHpf { gains with }) (fun _ => .hHpf { gains with })
      (.done gains.effRatio))

/-! ## The run of the command -/

theorem follows_done (h : SameCore s t) (effRatio : t.res.effRatio = s.res.effRatio) :
    Follows n (execDone s) (execDone t) :=
  follows_next (.goTo { h with } rfl (.idle effRatio))

theorem SameCore.follows_of_decode {i : Instr} {p : PhaseCode} (h : SameCore s t) (hp : s.pos.phase = p)
    (hi : decodePhase p = .ok i) (hf : Follows n (exec i s) (exec i t)) : Follows n (seqStep s) (seqStep t) := by
  rw [seqStep_of_decode (by rw [hp]; exact hi), seqStep_of_decode (by rw [h.pos, hp]; exact hi)]
  exact hf

/-- One micro-operation, by the phase. -/
theorem SameRun.seqStep (h : SameRun (n + 1) s t) (hrun : s.pos.phase ≠ phaseIdle) :
    Follows n (seqStep s) (seqStep t) := by
  obtain ⟨h, hl⟩ := h
  generalize hp : s.pos.phase = p at hl
  cases hl with
  | sInit left => exact h.follows_of_decode hp rfl (follows_sInit h left)
  | sBpf left maxrms sumsq => exact h.follows_of_decode hp rfl (follows_sBpf h left maxrms sumsq)
  | sRms left maxrms sumsq => exact h.follows_of_decode hp rfl (follows_sRms h left maxrms sumsq)
  | sRatio left maxrms => exact h.follows_of_decode hp rfl (follows_sRatio h maxrms)
  | eCoef effRatio => exact h.follows_of_decode hp rfl (follows_eCoef h effRatio)
  | eDet setup => exact h.follows_of_decode hp rfl (follows_eDet h setup)
  | eEnv setup lane level => exact h.follows_of_decode hp rfl (follows_eEnv h setup lane level)
  | eGrc setup lane => exact h.follows_of_decode hp rfl (follows_eGrc h setup lane)
  | ePub setup lane grv => exact h.follows_of_decode hp rfl (follows_ePub h setup lane grv)
  | eApply setup lane grv => exact h.follows_of_decode hp rfl (follows_eApply h setup lane grv)
  | hGain effRatio => exact h.follows_of_decode hp rfl (follows_hGain h effRatio)
  | hHpf gains => exact h.follows_of_decode hp rfl (follows_hHpf h gains)
  | hSat gains lane filt => exact h.follows_of_decode hp rfl (follows_hSat h gains lane filt)
  | hMac gains lane sat => exact h.follows_of_decode hp rfl (follows_hMac h gains lane sat)
  | done effRatio => exact h.follows_of_decode hp rfl (follows_done h effRatio)
  | idle => exact absurd hp hrun

end Steps

/-- A run of the sequencer with room for the SRM stage: it ends with the two cores agreeing, EFF_RATIO included. -/
theorem SameRun.runSequencer {k : Nat} {s t u : State} (h : SameRun k s t) (hu : runSequencer k s = .next u) :
    ∃ u', runSequencer k t = .next u' ∧ SameCore u u' ∧ u'.res.effRatio = u.res.effRatio := by
  induction k generalizing s t with
  | zero => cases hu; exact ⟨t, rfl, h.core, h.live.effRatio (.inl rfl)⟩
  | succ k ih =>
    by_cases hidle : s.pos.phase = phaseIdle
    · rw [runSequencer_idle _ _ hidle] at hu
      cases hu
      exact ⟨t, runSequencer_idle _ _ (by rw [h.core.pos]; exact hidle), h.core, h.live.effRatio (.inr hidle)⟩
    · cases hs : Machine.seqStep s with
      | next s' =>
        obtain ⟨t', ht, h'⟩ := h.seqStep hidle s' hs
        rw [runSequencer_next _ _ _ hidle hs] at hu
        rw [runSequencer_next _ _ _ (by rw [h.core.pos]; exact hidle) ht]
        exact ih h' hu
      | fault f => rw [runSequencer_fault _ _ _ hidle hs] at hu; cases hu
      | refused r => simp only [Machine.runSequencer, if_neg hidle, hs] at hu; cases hu

/-! ## A PROCESS after PREPARE -/

/-- The rate that PREPARE uses is a function of the requested one and of the parameters (44_host_commands R237 step 1). -/
theorem rateUsed_atPrep (s : State) :
    rateUsed (atPrep s) = if rateValid s.num (requestedRate s) then requestedRate s else s.params.safeSr := rfl

/-- What LATCH copies for PROCESS (44_host_commands R233). -/
theorem latched_process (len : Index) (s : State) :
    latched (cmdWord 2 len) s =
      { op := 2, len := len, thresh := s.host.pThresh, ratio := s.host.pRatio, attack := s.host.pAttack
        release := s.host.pRelease, outgain := s.host.pOutgain, sr := s.lat.sr, bs := s.lat.bs } := by
  unfold latched
  simp only [cmdOp_cmdWord, cmdLen_cmdWord]
  rfl

theorem cmdIllegal_process (len : Index) : cmdIllegal (cmdWord 2 len) = false := by
  unfold cmdIllegal
  rw [cmdOp_cmdWord, cmdRsv_cmdWord]
  rfl

/-- Whether a command is admitted depends on the parameters, the host-written registers and BUF alone (40_numerics R147). -/
theorem inputsAdmitted_congr {s t : State} (w : Word) (hp : t.params = s.params) (hh : t.host = s.host)
    (hb : t.buf = s.buf) : inputsAdmitted w t = inputsAdmitted w s := by
  unfold inputsAdmitted; rw [hp, hh, hb]

/-- After PREPARE the core is prepared and not busy. -/
theorem status_bits_afterPrepare {s : State} (h : isBusy s = false) :
    isPrepared (afterPrepare s) = true ∧ isBusy (afterPrepare s) = false := by
  unfold isPrepared isBusy
  rw [status_afterPrepare h]
  change s.status.getLsbD 1 = false at h
  split <;> simp [h, -BitVec.getLsbD_eq_getElem]

/-- A PROCESS within MAXLEN is accepted after PREPARE (R231). -/
theorem offerCondition_process {s : State} {len : Index} (h : isBusy s = false)
    (hlen : len.toNat ≤ s.params.maxlen.toNat) : offerCondition (cmdWord 2 len) (afterPrepare s) = none := by
  obtain ⟨hprep, hbusy⟩ := status_bits_afterPrepare h
  refine (offerCondition_none _ _).2 ⟨hbusy, cmdIllegal_process len, fun _ => ⟨hprep, ?_⟩⟩
  rwa [cmdLen_cmdWord, afterPrepare_params]

theorem execProcess_afterPrepare {s : State} {len : Index} (h : isBusy s = false)
    (hlen : len.toNat ≤ s.params.maxlen.toNat) :
    execProcess len (afterPrepare s) =
      runSequencer (uopBound 2 s.params.nch.toNat len.toNat) (accept (cmdWord 2 len) (afterPrepare s)) := by
  unfold execProcess runCommand
  rw [offerCondition_process h hlen, cmdOp_cmdWord, cmdLen_cmdWord, afterPrepare_params]

/-- Two cores with the same parameters, host-written registers and BUF are side by side once a PREPARE has run and a PROCESS
has been accepted. -/
theorem sameRun_accept_afterPrepare {s t : State} (len : Index) (hwf : s.params.wf = true) (hp : t.params = s.params)
    (hh : t.host = s.host) (hb : t.buf = s.buf) :
    SameRun (uopBound 2 s.params.nch.toNat len.toNat) (accept (cmdWord 2 len) (afterPrepare s))
      (accept (cmdWord 2 len) (afterPrepare t)) := by
  have hreq : requestedRate t = requestedRate s := by unfold requestedRate; rw [hh]
  have hrate : rateUsed (atPrep t) = rateUsed (atPrep s) := by
    rw [rateUsed_atPrep, rateUsed_atPrep, rateValid_num_congr hp, hreq, hp]
  have hlat : latched (cmdWord 2 len) (afterPrepare t) = latched (cmdWord 2 len) (afterPrepare s) := by
    simp only [latched_process, afterPrepare_host, afterPrepare_lat, atPrep, hreq, hh]
  have hphase : afterLatch (cmdOp (cmdWord 2 len)) = phaseSInit := by rw [cmdOp_cmdWord]; rfl
  refine ⟨{ wf := ?wf, ch := ?ch, params := ?params, lat := hlat, pos := rfl, buf := ?buf, rate := ?rate, env := ?env,
            bpfCoef := ?bpfCoef, bpfMem := ?bpfMem, hpfCoef := ?hpfCoef, hpfMem := ?hpfMem, admitted := ?admitted,
            grLog := rfl }, ?live⟩
  case wf => simpa using hwf
  case ch => simpa using Nat.lt_of_succ_le (wf_bounds hwf).1
  case params => simpa using hp
  case buf => simpa using hb
  case rate => exact (rateInForce_prepared (atPrep t)).trans (hrate.trans (rateInForce_prepared (atPrep s)).symm)
  case env => simp
  case bpfCoef => simp [hp, hrate]
  case hpfCoef => simp [hp, hrate]
  case bpfMem => simpa [hp] using sameLanes_fill _
  case hpfMem => simpa [hp] using sameLanes_fill _
  case admitted => exact inputsAdmitted_congr _ (by simpa using hp) (by simpa using hh) (by simpa using hb)
  case live =>
    rw [accept_pos, hphase]
    refine .sInit ?_
    rw [accept_lat, latched_len, cmdLen_cmdWord, accept_params, afterPrepare_params]
    exact srmBound_le_uopBound _ _

/-- No micro-operation changes the parameters. -/
theorem runSequencer_params {k : Nat} {s u : State} (h : runSequencer k s = .next u) : u.params = s.params := by
  refine runSequencer_induct (fun t => t.params = s.params) (fun t t' ht hstep => ?_) k s u rfl h
  rw [seqStep_eq] at hstep
  cases hd : decodePhase t.pos.phase with
  | ok i =>
    rw [hd] at hstep
    exact (writers_of_microOperation (decodePhase_spec _ _ hd).1 hstep).params.trans ht
  | error e =>
    simp only [hd] at hstep
    split at hstep <;> cases hstep
    exact ht

/-- Settles O50: after PREPARE and acceptance the two cores are side by side, and the sequencer keeps them so to the end. The
premise on the inputs (40_numerics R147) is not used: a free result is a function of its operands (log 8). -/
theorem prepareForgetsThePast : Obligations.PrepareForgetsThePast := by
  intro s1 s2 t1 t2 u1 len hwf hp hh hb _ hbusy1 hbusy2 hlen ht1 ht2 hu1
  obtain rfl : afterPrepare s1 = t1 := Host.Outcome.next.inj ((execPrepare_eq hbusy1).symm.trans ht1)
  obtain rfl : afterPrepare s2 = t2 := Host.Outcome.next.inj ((execPrepare_eq hbusy2).symm.trans ht2)
  have hrun := (execProcess_afterPrepare hbusy1 hlen).symm.trans hu1
  have hparams : u1.params = s1.params :=
    (runSequencer_params hrun).trans (by rw [accept_params, afterPrepare_params])
  obtain ⟨u2, hu2, hcore, hratio⟩ := (sameRun_accept_afterPrepare len hwf hp hh hb).runSequencer hrun
  rw [← hp] at hu2 hlen
  exact ⟨u2, (execProcess_afterPrepare hbusy2 hlen).trans hu2, hcore.buf, hcore.env, hratio, hcore.grLog,
    fun c hc => ⟨hcore.bpfMem c (hparams ▸ hc), hcore.hpfMem c (hparams ▸ hc)⟩⟩

end Sys2Proof.Machine
end

section
/-! A step of a machine with the invariant answers a next state, or faults at a word that nothing has written (10_state R54,
20_memory R64, 30_encoding R99). -/

namespace Sys2Proof.Machine

/-- The outcome is a next state, or the fault for the read of a word that nothing has written. -/
def Answers (o : Host.Outcome State Fault Refusal) : Prop := (∃ t, o = .next t) ∨ o = .fault .unwrittenWord

theorem answers_next (t : State) : Answers (.next t) := .inl ⟨t, rfl⟩

/-! ## The accesses to BUF -/

/-- A read of a word that exists answers a word, or the fault of an unwritten one. -/
theorem readSample_of_inBuf {s : State} {c : Chan} {n : Index} (hin : inBuf s.params c n = true) :
    (∃ v, readSample s c n = .ok v) ∨ readSample s c n = .error .unwrittenWord := by
  cases h : readSample s c n with
  | ok v => exact .inl ⟨v, rfl⟩
  | error f => exact .inr (by rw [readSample_error_of_inBuf hin h])

theorem answers_execRds {s : State} (c : Chan) (n : Index) : Answers (execRds c n s) := by
  cases hin : inBuf s.params c n with
  | false => rw [execRds_outside hin]; exact answers_next _
  | true =>
    cases hb : isBusy s with
    | true => rw [execRds_busy hin hb]; exact answers_next _
    | false =>
      cases hv : memRead s.buf (bufAddr c n) with
      | some v => rw [execRds_written hin hb hv]; exact answers_next _
      | none => rw [execRds_unwritten hin hb hv]; exact .inr rfl

section Accesses
variable {s : State}

theorem answers_execSBpf (hin : inBuf s.params s.pos.ch s.pos.idx = true) : Answers (execSBpf s) := by
  rcases readSample_of_inBuf hin with ⟨v, hv⟩ | hf
  · rw [execSBpf_ok hv]; exact answers_next _
  · exact .inr (execSBpf_fault hf)

theorem answers_execHHpf (hin : inBuf s.params s.pos.ch s.pos.idx = true) : Answers (execHHpf s) := by
  rcases readSample_of_inBuf hin with ⟨v, hv⟩ | hf
  · rw [execHHpf_ok hv]; exact answers_next _
  · exact .inr (execHHpf_fault hf)

theorem answers_execEDet (hin : ∀ c ∈ channels s.params, inBuf s.params c s.pos.idx = true) : Answers (execEDet s) := by
  rcases detectLanes_spec s (channels s.params) s.scr.lane f32Zero with ⟨vs, -, e⟩ | ⟨f, c, hc, hf, e⟩
  · rw [execEDet_ok e]; exact answers_next _
  · rcases readSample_of_inBuf (hin c hc) with ⟨v, hv⟩ | hu
    · rw [hv] at hf; cases hf
    · rw [hu] at hf; cases hf; exact .inr (execEDet_fault e)

theorem answers_execEApply (hin : ∀ c ∈ channels s.params, inBuf s.params c s.pos.idx = true) :
    Answers (execEApply s) := by
  rw [execEApply_ok (applyLanes_ok _ _ _ _ hin)]; exact answers_next _

theorem answers_execHMac (hin : inBuf s.params s.pos.ch s.pos.idx = true) : Answers (execHMac s) := by
  rw [execHMac_ok ((writeSample_ok_iff _ _ _ _ _ _).2 ⟨hin, rfl⟩)]; exact answers_next _

end Accesses

/-! ## The sequencer's turn -/

/-- Every phase of a command is the code of a micro-operation (30_encoding R99, 44_host_commands R234). -/
theorem decodePhase_of_phaseOfOp {op : BitVec 4} {p : PhaseCode} (h : phaseOfOp op p = true) :
    (decodePhase p).isOk = true := by revert op p; decide

/-- A micro-operation answers where PHASE is its code: the words that it works on exist. -/
theorem answers_exec_phase {s : State} {i : Instr} (h : s.Inv) (hi : decodePhase s.pos.phase = .ok i) :
    Answers (exec i s) := by
  obtain ⟨hbus, hcode⟩ := decodePhase_spec _ _ hi
  have hword (hsp : samplePhase s.pos.phase = true) := h.inBuf hsp s.pos.ch h.ch
  have hframe (hsp : samplePhase s.pos.phase = true) (c : Chan) (hc : c ∈ channels s.params) :=
    h.inBuf hsp c ((mem_channels _ _).1 hc)
  cases i with
  | wr | rd | wrs | rds | rdgr | prepare | process | srm | ege | hen => cases hbus
  | latch | prep | done | sInit | sRms | sRatio | eCoef | eEnv | eGrc | ePub | hGain | hSat => exact answers_next _
  | sBpf => exact answers_execSBpf (hword (by rw [← phase_inj hcode]; rfl))
  | eDet => exact answers_execEDet (hframe (by rw [← phase_inj hcode]; rfl))
  | eApply => exact answers_execEApply (hframe (by rw [← phase_inj hcode]; rfl))
  | hHpf => exact answers_execHHpf (hword (by rw [← phase_inj hcode]; rfl))
  | hMac => exact answers_execHMac (hword (by rw [← phase_inj hcode]; rfl))

/-- Where PHASE is the code of no micro-operation, the sequencer is idle. -/
theorem State.Inv.idle_of_decodePhase {s : State} {e : Reject} (h : s.Inv) (he : decodePhase s.pos.phase = .error e) :
    s.pos.phase = phaseIdle := by
  by_contra hrun
  have hok := decodePhase_of_phaseOfOp (h.phase hrun)
  rw [he] at hok
  cases hok

theorem answers_seqStep {s : State} (h : s.Inv) : Answers (seqStep s) := by
  cases hd : decodePhase s.pos.phase with
  | ok i => rw [seqStep_of_decode hd]; exact answers_exec_phase h hd
  | error e => rw [seqStep_idle (h.idle_of_decodePhase hd)]; exact answers_next _

/-! ## Commands, transactions, steps -/

theorem answers_runSequencer {s : State} (h : s.Inv) (k : Nat) : Answers (runSequencer k s) := by
  induction k generalizing s with
  | zero => exact answers_next _
  | succ k ih =>
    by_cases hidle : s.pos.phase = phaseIdle
    · rw [runSequencer_idle _ _ hidle]; exact answers_next _
    · rcases answers_seqStep h with ⟨t, ht⟩ | hf
      · rw [runSequencer_next _ _ _ hidle ht]; exact ih (seqStep_keeps_inv _ _ h ht)
      · exact .inr (runSequencer_fault _ _ _ hidle hf)

theorem answers_runCommand {s : State} (h : s.Inv) (w : Word) : Answers (runCommand w s) := by
  rcases runCommand_cases w s with ⟨c, -, e⟩ | ⟨hw, e⟩ <;> rw [e]
  · exact answers_next _
  · exact answers_runSequencer (h.accept w hw) _

theorem answers_exec_offered {s : State} {i : Instr} (h : s.Inv) (hb : busOf i ≠ .phase) : Answers (exec i s) := by
  cases i with
  | wr | rd | wrs | rdgr => exact answers_next _
  | rds c n => exact answers_execRds c n
  | prepare | process | srm | ege | hen => exact answers_runCommand h _
  | latch | prep | done | sInit | sBpf | sRms | sRatio | eCoef | eDet | eEnv | eGrc | ePub | eApply | hGain | hHpf | hSat
  | hMac => exact absurd rfl hb

/-- Words that are no instruction, the sequencer's among them only at IDLE. -/
theorem answers_notAnInstr {s : State} {b : Bus} (ws : List Word) {e : Reject} (he : b = .phase → e = .idlePhase) :
    Answers (notAnInstr b ws e s) := by
  cases b with
  | portH | portM | command => exact answers_next _
  | phase => rw [he rfl]; exact answers_next _

/-- Settles O44: what the step fetches decodes to an instruction, which answers at the words that the invariant puts in BUF, or to
none, and then PHASE is IDLE where it is the sequencer's turn. -/
theorem invStepsAreSafe : Obligations.InvStepsAreSafe := by
  intro s hs
  obtain ⟨l, hf | ⟨b, ws, hf, hws⟩⟩ := fetch_cases s
  · rw [step_of_powerOn hf]; exact answers_next _
  have h := hs.withInputs l
  cases hd : decode b ws with
  | ok i =>
    rw [step_of_decode hf hd]
    by_cases hb : b = .phase
    · subst hb
      rw [hws rfl, phaseWords, decode_phaseWord] at hd
      exact answers_exec_phase h hd
    · exact answers_exec_offered h (by rwa [busOf_of_decode hd])
  | error e =>
    rw [step_of_reject hf hd]
    refine answers_notAnInstr ws fun hb => ?_
    subst hb
    rw [hws rfl] at hd
    have hidle := hs.idle_of_decodePhase ((decode_phaseWord _).symm.trans hd)
    exact Except.error.inj (hd.symm.trans (decode_phaseWords_idle hidle))

end Sys2Proof.Machine
end

section
/-! The accesses that write BUF, byte by byte (20_memory R65, R67): WRS, E_APPLY, H_MAC. -/

namespace Sys2Proof.Machine

/-! ## The bytes after a write -/

/-- The bytes after a write of word (c, n): the four bytes of the word, low byte first, at its own address (20_memory R63, R65). -/
theorem readByte_memWrite_sample (m : Memory) (c : Chan) (n : Index) (d : Word) (a : Nat) :
    readByte (memWrite m (bufAddr c n) d) a =
      if a / 4 = c.toNat * 2 ^ 24 + n.toNat then some (d.extractLsb' (8 * (a % 4)) 8) else readByte m a := by
  rw [readByte_memWrite, bufAddr_toNat]; rfl

/-- A byte address lies in word (c, n) exactly when its channel is c and its index is n. -/
theorem div_four_eq_iff (a : Nat) (c : Chan) (n : Index) :
    a / 4 = c.toNat * 2 ^ 24 + n.toNat ↔ a / 4 / 2 ^ 24 = c.toNat ∧ a / 4 % 2 ^ 24 = n.toNat := by
  have := n.isLt
  omega

/-- The bytes after the write-back of frame `n` over a list of channels. -/
theorem readByte_foldl_memWrite (cs : List Chan) (n : Index) (f : Chan → Word) (m : Memory) (a : Nat) :
    readByte (cs.foldl (fun m c => memWrite m (bufAddr c n) (f c)) m) a =
      if (∃ c ∈ cs, a / 4 / 2 ^ 24 = c.toNat) ∧ a / 4 % 2 ^ 24 = n.toNat then
        some ((f (BitVec.ofNat 6 (a / 4 / 2 ^ 24))).extractLsb' (8 * (a % 4)) 8)
      else readByte m a := by
  induction cs generalizing m with
  | nil => simp
  | cons d ds ih =>
    rw [List.foldl_cons, ih, readByte_memWrite_sample]
    simp only [div_four_eq_iff, List.exists_mem_cons_iff]
    by_cases hn : a / 4 % 2 ^ 24 = n.toNat
    · by_cases hds : ∃ c ∈ ds, a / 4 / 2 ^ 24 = c.toNat
      · simp only [hds, hn, or_true, and_self, if_true]
      · by_cases hd : a / 4 / 2 ^ 24 = d.toNat
        · have hchan : BitVec.ofNat 6 (a / 4 / 2 ^ 24) = d := by rw [hd, BitVec.ofNat_toNat, BitVec.setWidth_eq]
          rw [if_neg fun h => hds h.1, if_pos ⟨hd, hn⟩, if_pos ⟨.inl hd, hn⟩, hchan]
        · simp only [hds, hd, or_self, false_and, if_false]
    · simp only [hn, and_false, if_false]

/-- A channel number below NCH is that of a channel. -/
theorem exists_mem_channels_iff {p : Params} (h : p.nch.toNat ≤ 64) (k : Nat) :
    (∃ c ∈ channels p, k = c.toNat) ↔ k < p.nch.toNat := by
  simp only [mem_channels]
  constructor
  · rintro ⟨c, hc, rfl⟩; exact hc
  · intro hk
    have hval : (BitVec.ofNat 6 k).toNat = k := by rw [BitVec.toNat_ofNat]; omega
    exact ⟨BitVec.ofNat 6 k, by omega, hval.symm⟩

/-! ## WRS -/

section Wrs
variable {c : Chan} {n : Index} {D : Word} {s : State}

/-- WRS is ignored while BUSY = 1, and outside BUF (20_memory R64, R72). -/
theorem execWrs_ignored (h : isBusy s = true ∨ inBuf s.params c n = false) : execWrs c n D s = .next s := by
  unfold execWrs
  rcases h with h | h
  · rw [if_pos h]
  · rw [if_neg (Bool.eq_false_iff.1 h), ite_self]

theorem execWrs_written (hb : isBusy s = false) (hin : inBuf s.params c n = true) :
    execWrs c n D s = .next { s with buf := memWrite s.buf (bufAddr c n) D } := by
  unfold execWrs
  rw [if_neg (Bool.eq_false_iff.1 hb), if_pos hin]

end Wrs

/-- Settles O12: an ignored write leaves BUF, an accepted one is a write of word (c, n). -/
theorem wrsWritesOneWord : Obligations.WrsWritesOneWord := by
  intro c n D s
  by_cases hno : s.status.getLsbD 1 = true ∨ s.params.nch.toNat ≤ c.toNat ∨ s.params.maxlen.toNat ≤ n.toNat
  · refine ⟨s.buf, execWrs_ignored (hno.imp_right fun hout => Bool.eq_false_iff.2 fun hin => ?_), by rw [if_pos hno]⟩
    rw [inBuf_iff] at hin
    omega
  · refine ⟨memWrite s.buf (bufAddr c n) D, ?_, by rw [if_neg hno]; exact readByte_memWrite_sample _ c n D⟩
    obtain ⟨hb, hc, hn⟩ : ¬s.status.getLsbD 1 = true ∧ c.toNat < s.params.nch.toNat ∧ n.toNat < s.params.maxlen.toNat := by
      simpa only [not_or, not_le] using hno
    exact execWrs_written (Bool.eq_false_iff.2 hb) ((inBuf_iff _ _ _).2 ⟨hc, hn⟩)

/-! ## E_APPLY and H_MAC -/

/-- BUF after E_APPLY: every word of the frame is its lane times one gain (R191). -/
def appliedBuf (s : State) : Memory :=
  (channels s.params).foldl
    (fun m c => memWrite m (bufAddr c s.pos.idx) (s.num.mul32 (laneGet s.scr.lane c) (frameGain s.num s.scr.grv))) s.buf

/-- E_APPLY where the frame exists. -/
theorem execEApply_inBuf {s : State} (hidx : s.pos.idx.toNat < s.params.maxlen.toNat) :
    execEApply s =
      .next (({ s with buf := appliedBuf s } : State).withPos
        (framePos phaseEDet (afterEge s.lat.op) s.lat.len.toNat s.pos)) := by
  have hframe : ∀ c ∈ channels s.params, inBuf s.params c s.pos.idx = true := fun c hc =>
    (inBuf_iff _ _ _).2 ⟨(mem_channels _ _).1 hc, hidx⟩
  rw [execEApply_ok (applyLanes_ok _ _ _ _ hframe), nextFrame_eq_withPos]
  rfl

/-- H_MAC where the word of the pair exists (R216). -/
theorem execHMac_inBuf {s : State} (hch : s.pos.ch.toNat < s.params.nch.toNat)
    (hidx : s.pos.idx.toNat < s.params.maxlen.toNat) :
    execHMac s =
      .next (({ s with buf := memWrite s.buf (bufAddr s.pos.ch s.pos.idx) (outputSample s) } : State).withPos
        (pairPos phaseHHpf phaseDone s.params.nch.toNat s.lat.len.toNat s.pos)) := by
  rw [execHMac_ok ((writeSample_ok_iff _ _ _ _ _ _).2 ⟨(inBuf_iff _ _ _).2 ⟨hch, hidx⟩, rfl⟩), nextPair_eq_withPos]

/-- Settles O27: the frame's words are written channel by channel, and the position moves to the next frame. -/
theorem eApplyScalesFrame : Obligations.EApplyScalesFrame := by
  intro s hnch hidx g
  refine ⟨appliedBuf s, execEApply_inBuf hidx, fun a => ?_⟩
  rw [appliedBuf, readByte_foldl_memWrite]
  exact if_congr (and_congr_left' (exists_mem_channels_iff hnch _)) rfl rfl

/-- Settles O31: the pair's word is written, and the position moves to the next pair. -/
theorem hMacWritesBack : Obligations.HMacWritesBack := by
  intro s hch hidx
  exact ⟨_, execHMac_inBuf hch hidx, fun a => readByte_memWrite_sample _ _ _ _ a⟩

end Sys2Proof.Machine
end

section
/-! RD, register by register (30_encoding R92, 44_host_commands R245), and the two words that a register which the running command
writes may show (20_memory R85). -/

namespace Sys2Proof.Machine

/-- What a register of each number holds; CMD and the reserved numbers read 0 (30_encoding R92). -/
theorem regValue_eq (s : State) (r : BitVec 8) :
    regValue s r =
      if r.toNat = 0x01 then s.status.setWidth 32
      else if r.toNat = 0x02 then s.host.reqSrLo
      else if r.toNat = 0x03 then s.host.reqSrHi
      else if r.toNat = 0x04 then s.host.reqBs
      else if r.toNat = 0x05 then s.host.pThresh
      else if r.toNat = 0x06 then s.host.pRatio
      else if r.toNat = 0x07 then s.host.pAttack
      else if r.toNat = 0x08 then s.host.pRelease
      else if r.toNat = 0x09 then s.host.pOutgain
      else if r.toNat = 0x0A then s.res.gr
      else if r.toNat = 0x0B then s.res.effRatio
      else if r.toNat = 0x0C then s.res.srLo
      else if r.toNat = 0x0D then s.res.srHi
      else if r.toNat = 0x0E then s.res.blksz
      else if r.toNat = 0x0F then s.params.nch.setWidth 32
      else if r.toNat = 0x10 then s.params.maxlen.setWidth 32
      else 0 := by
  unfold regValue stRead
  split <;> simp_all

/-- The words of the registers that a command writes, as they were when the running one was accepted (20_memory R85). -/
def acceptedValue (s : State) (k : Nat) : Word :=
  if k = 0x0B then s.io.oldEffRatio
  else if k = 0x0C then s.io.oldSrLo
  else if k = 0x0D then s.io.oldSrHi
  else s.io.oldBlksz

/-- Only EFF_RATIO, SR_LO, SR_HI and BLKSZ have an earlier value to show, and only while BUSY = 1. -/
theorem oldValue_cases {s : State} {r : BitVec 8} {x : Word} (h : oldValue s r = some x) :
    isBusy s = true ∧ 0x0B ≤ r.toNat ∧ r.toNat ≤ 0x0E ∧ x = acceptedValue s r.toNat := by
  unfold oldValue at h
  split at h
  · rename_i hb
    split at h
    case h_5 => cases h
    all_goals
      rename_i hr
      obtain ⟨-, ⟨⟩⟩ := Option.ite_none_right_eq_some.1 h
      simp [hb, hr, acceptedValue]
  · cases h

/-- A read answers the register's word, or by a free choice the one it held at acceptance (log 19). -/
theorem readReg_answer (r : BitVec 8) (s : State) :
    (oldValue s r = none ∧ readReg r s = respondH (regValue s r) s) ∨
      ∃ x old, oldValue s r = some old ∧ (x = regValue s r ∨ x = old) ∧ readReg r s = respondH x (drawFree s) := by
  unfold readReg
  cases h : oldValue s r with
  | none => exact .inl ⟨rfl, rfl⟩
  | some old => exact .inr ⟨_, old, rfl, by split <;> simp, rfl⟩

theorem execRd_reserved {a : WordAddr} (s : State) (h : reservedAddr a = true) : execRd a s = .next (respondH 0 s) := by
  unfold execRd; rw [if_pos h]

theorem execRd_register {a : WordAddr} (s : State) (h : ¬reservedAddr a = true) :
    execRd a s = .next (readReg (a.setWidth 8) s) := by
  unfold execRd; rw [if_neg h]

/-- A reserved address is not a register number. -/
theorem toNat_of_reserved {a : WordAddr} (h : reservedAddr a = true) : 0x100 ≤ a.toNat := by
  by_contra hlt
  have hz : a >>> 8 = 0 := BitVec.eq_of_toNat_eq (by
    rw [BitVec.toNat_ushiftRight, Nat.shiftRight_eq_div_pow, Nat.div_eq_of_lt (by omega)]; rfl)
  simp [reservedAddr, zeroFieldClear, hz] at h

/-- Settles O11: a reserved address is none of the numbers and reads 0; a register answers its word, or the one it held at
acceptance. -/
theorem rdRegisters : Obligations.RdRegisters := by
  intro a s value old
  have hvalue : ¬reservedAddr a = true → value = regValue s (a.setWidth 8) := fun hres => by
    rw [regValue_eq, toNat_of_not_reserved hres]
  by_cases hres : reservedAddr a = true
  · have ha := toNat_of_reserved hres
    have h0 : value = 0 := by
      simp only [value]
      repeat rw [if_neg (by omega)]
    rw [if_neg (by omega), h0]
    exact execRd_reserved s hres
  · have hexec : exec (.rd a) s = .next (readReg (a.setWidth 8) s) := execRd_register s hres
    rw [hexec, hvalue hres]
    rcases readReg_answer (a.setWidth 8) s with ⟨-, e⟩ | ⟨x, y, hy, hx, e⟩ <;> rw [e]
    · split
      · exact ⟨_, s.io.free, rfl, .inl rfl⟩
      · rfl
    · obtain ⟨hb, hlo, hhi, rfl⟩ := oldValue_cases hy
      rw [toNat_of_not_reserved hres] at hlo hhi hx
      rw [if_pos ⟨hb, hlo, hhi⟩]
      exact ⟨x, _, rfl, hx⟩

end Sys2Proof.Machine
end

section
/-! What a meter read returned makes no difference (20_memory R68, R80, 44_host_commands R243): every operation but RDGR carries the
word last returned on port M along. -/

namespace Sys2Proof.Machine

section MeterWord
variable (s : State) (x : Word)

/-! ## Moves and loops -/

theorem nextPair_withMResp (a f : PhaseCode) : nextPair a f (s.withMResp x) = (nextPair a f s).withMResp x := by
  rw [nextPair_eq_withPos, nextPair_eq_withPos]; rfl

theorem nextChan_withMResp (a f : PhaseCode) : nextChan a f (s.withMResp x) = (nextChan a f s).withMResp x := by
  rw [nextChan_eq_withPos, nextChan_eq_withPos]; rfl

theorem nextFrame_withMResp (a f : PhaseCode) : nextFrame a f (s.withMResp x) = (nextFrame a f s).withMResp x := by
  rw [nextFrame_eq_withPos, nextFrame_eq_withPos]; rfl

theorem prepared_withMResp : prepared (s.withMResp x) = (prepared s).withMResp x := by
  rw [prepared_eq, prepared_eq s, prepared_status, prepared_status]; rfl

theorem detectLanes_withMResp (cs : List Chan) (lane : Vector F32 64) (level : F32) :
    detectLanes (s.withMResp x) cs lane level = detectLanes s cs lane level := by
  have hread : ∀ c n, readSample (s.withMResp x) c n = readSample s c n := fun _ _ => rfl
  induction cs generalizing lane level with
  | nil => rfl
  | cons c cs ih => simp only [detectLanes, ih, hread]; rfl

theorem applyLanes_withMResp (g : F32) (cs : List Chan) (m : Memory) :
    applyLanes (s.withMResp x) g cs m = applyLanes s g cs m := by
  induction cs generalizing m with
  | nil => rfl
  | cons c cs ih => simp only [applyLanes, ih]; rfl

/-! ## The micro-operations that read or write BUF -/

theorem execSBpf_withMResp : execSBpf (s.withMResp x) = mapNext (·.withMResp x) (execSBpf s) := by
  cases hr : readSample s s.pos.ch s.pos.idx with
  | error f => rw [execSBpf_fault hr, execSBpf_fault (s := s.withMResp x) hr]; rfl
  | ok v =>
    rw [execSBpf_ok hr, execSBpf_ok (s := s.withMResp x) hr]
    exact congrArg _ (nextPair_withMResp (bandPassed v s) x _ _)

theorem execHHpf_withMResp : execHHpf (s.withMResp x) = mapNext (·.withMResp x) (execHHpf s) := by
  cases hr : readSample s s.pos.ch s.pos.idx with
  | error f => rw [execHHpf_fault hr, execHHpf_fault (s := s.withMResp x) hr]; rfl
  | ok v => rw [execHHpf_ok hr, execHHpf_ok (s := s.withMResp x) hr]; rfl

theorem execEDet_withMResp : execEDet (s.withMResp x) = mapNext (·.withMResp x) (execEDet s) := by
  have hsame := detectLanes_withMResp s x (channels s.params) s.scr.lane f32Zero
  cases hd : detectLanes s (channels s.params) s.scr.lane f32Zero with
  | error f => rw [execEDet_fault hd, execEDet_fault (s := s.withMResp x) (hsame.trans hd)]; rfl
  | ok r => rw [execEDet_ok hd, execEDet_ok (s := s.withMResp x) (hsame.trans hd)]; rfl

theorem execEApply_withMResp : execEApply (s.withMResp x) = mapNext (·.withMResp x) (execEApply s) := by
  have hsame := applyLanes_withMResp s x (frameGain s.num s.scr.grv) (channels s.params) s.buf
  cases ha : applyLanes s (frameGain s.num s.scr.grv) (channels s.params) s.buf with
  | error f => rw [execEApply_fault ha, execEApply_fault (s := s.withMResp x) (hsame.trans ha)]; rfl
  | ok m =>
    rw [execEApply_ok ha, execEApply_ok (s := s.withMResp x) (hsame.trans ha)]
    exact congrArg _ (nextFrame_withMResp { s with buf := m } x _ _)

theorem execHMac_withMResp : execHMac (s.withMResp x) = mapNext (·.withMResp x) (execHMac s) := by
  cases hw : writeSample s.params s.buf s.pos.ch s.pos.idx (outputSample s) with
  | error f => rw [execHMac_fault hw, execHMac_fault (s := s.withMResp x) hw]; rfl
  | ok m =>
    rw [execHMac_ok hw, execHMac_ok (s := s.withMResp x) hw]
    exact congrArg _ (nextPair_withMResp { s with buf := m } x _ _)

/-! ## The sequencer -/

/-- A micro-operation. -/
theorem exec_phase_withMResp {i : Instr} (hb : busOf i = .phase) :
    exec i (s.withMResp x) = mapNext (·.withMResp x) (exec i s) := by
  cases i with
  | wr | rd | wrs | rds | rdgr | prepare | process | srm | ege | hen => cases hb
  | latch | done | sInit | sRatio | eCoef | eEnv | eGrc | ePub | hGain | hSat => rfl
  | prep => exact congrArg (fun t => Host.Outcome.next (goTo phaseDone t)) (prepared_withMResp s x)
  | sBpf => exact execSBpf_withMResp s x
  | sRms => exact congrArg _ (nextChan_withMResp { s with scr := _ } x _ _)
  | eDet => exact execEDet_withMResp s x
  | eApply => exact execEApply_withMResp s x
  | hHpf => exact execHHpf_withMResp s x
  | hMac => exact execHMac_withMResp s x

theorem seqStep_withMResp : seqStep (s.withMResp x) = mapNext (·.withMResp x) (seqStep s) := by
  have hphase : (s.withMResp x).pos.phase = s.pos.phase := rfl
  rw [seqStep_eq, seqStep_eq, hphase]
  cases hd : decodePhase s.pos.phase with
  | ok i => exact exec_phase_withMResp s x (decodePhase_spec _ _ hd).1
  | error e => by_cases he : e = .idlePhase <;> simp [he, mapNext]

theorem runSequencer_withMResp (k : Nat) :
    runSequencer k (s.withMResp x) = mapNext (·.withMResp x) (runSequencer k s) := by
  induction k generalizing s with
  | zero => rfl
  | succ k ih =>
    by_cases hidle : s.pos.phase = phaseIdle
    · rw [runSequencer_idle _ s hidle, runSequencer_idle _ (s.withMResp x) hidle]; rfl
    · simp only [runSequencer, if_neg hidle, if_neg (show (s.withMResp x).pos.phase ≠ phaseIdle from hidle),
        seqStep_withMResp]
      cases seqStep s with
      | next t => exact ih t
      | fault f => rfl
      | refused r => rfl

/-! ## Offers and transactions -/

theorem offerCondition_withMResp (w : Word) : offerCondition w (s.withMResp x) = offerCondition w s := rfl

theorem offer_withMResp (w : Word) : offer w (s.withMResp x) = (offer w s).withMResp x := by
  unfold offer
  rw [offerCondition_withMResp]
  cases offerCondition w s <;> rfl

/-- A command in the atomic view: dropped, or accepted and run. -/
theorem runCommand_withMResp (w : Word) :
    runCommand w (s.withMResp x) = mapNext (·.withMResp x) (runCommand w s) := by
  unfold runCommand
  rw [offerCondition_withMResp]
  cases offerCondition w s with
  | some c => rfl
  | none => exact runSequencer_withMResp (accept w s) x _

theorem writeReg_withMResp (r : BitVec 8) (d : Word) : writeReg r d (s.withMResp x) = (writeReg r d s).withMResp x := by
  unfold writeReg
  split
  · exact offer_withMResp s x d
  all_goals rfl

theorem readReg_withMResp (r : BitVec 8) : readReg r (s.withMResp x) = (readReg r s).withMResp x := by
  have hold : oldValue (s.withMResp x) r = oldValue s r := rfl
  unfold readReg
  rw [hold]
  cases oldValue s r <;> rfl

theorem execWr_withMResp (a : WordAddr) (d : Word) :
    execWr a d (s.withMResp x) = mapNext (·.withMResp x) (execWr a d s) := by
  unfold execWr
  split
  · rfl
  · exact congrArg _ (writeReg_withMResp s x _ d)

theorem execRd_withMResp (a : WordAddr) : execRd a (s.withMResp x) = mapNext (·.withMResp x) (execRd a s) := by
  unfold execRd
  split
  · rfl
  · exact congrArg _ (readReg_withMResp s x _)

theorem execWrs_withMResp (c : Chan) (n : Index) (d : Word) :
    execWrs c n d (s.withMResp x) = mapNext (·.withMResp x) (execWrs c n d s) := by
  by_cases h : isBusy s = true ∨ inBuf s.params c n = false
  · rw [execWrs_ignored h, execWrs_ignored (s := s.withMResp x) h]; rfl
  · obtain ⟨hb, hin⟩ : isBusy s = false ∧ inBuf s.params c n = true := by simpa using h
    rw [execWrs_written hb hin, execWrs_written (s := s.withMResp x) hb hin]; rfl

theorem execRds_withMResp (c : Chan) (n : Index) :
    execRds c n (s.withMResp x) = mapNext (·.withMResp x) (execRds c n s) := by
  cases hin : inBuf s.params c n with
  | false => rw [execRds_outside hin, execRds_outside (s := s.withMResp x) hin]; rfl
  | true =>
    cases hb : isBusy s with
    | true => rw [execRds_busy hin hb, execRds_busy (s := s.withMResp x) hin hb]; rfl
    | false =>
      cases hv : memRead s.buf (bufAddr c n) with
      | some v => rw [execRds_written hin hb hv, execRds_written (s := s.withMResp x) hin hb hv]; rfl
      | none => rw [execRds_unwritten hin hb hv, execRds_unwritten (s := s.withMResp x) hin hb hv]; rfl

end MeterWord

/-- Settles O47, by the kind of the operation: no operation but RDGR reads or writes the word. -/
theorem meterReadsDoNotInterfere : Obligations.MeterReadsDoNotInterfere := by
  intro i s x hi
  cases i with
  | rdgr => exact absurd rfl hi
  | wr a d => exact execWr_withMResp s x a d
  | rd a => exact execRd_withMResp s x a
  | wrs c n d => exact execWrs_withMResp s x c n d
  | rds c n => exact execRds_withMResp s x c n
  | prepare | process | srm | ege | hen => exact runCommand_withMResp s x _
  | latch | prep | done | sInit | sBpf | sRms | sRatio | eCoef | eDet | eEnv | eGrc | ePub | eApply | hGain | hHpf | hSat
  | hMac => exact exec_phase_withMResp s x rfl

end Sys2Proof.Machine
end

section
/-! Runs of the sequencer from one state to another, and its three loops: over the pairs of a block, over the channels, over the
frames (44_host_commands R234). Each loop takes an invariant of what is done so far; the position follows from it. -/

namespace Sys2Proof.Machine

/-! ## Runs -/

/-- `n` micro-operations take the sequencer from `s` to `t`. -/
def Runs (n : Nat) (s t : State) : Prop := ∀ k, runSequencer (n + k) s = runSequencer k t

theorem Runs.refl (s : State) : Runs 0 s s := fun k => by rw [Nat.zero_add]

theorem Runs.trans {m n : Nat} {s t u : State} (h : Runs m s t) (h' : Runs n t u) : Runs (m + n) s u := fun k => by
  rw [Nat.add_assoc, h, h']

/-- One micro-operation at its own phase. -/
theorem runs_one {s t : State} {i : Instr} (hi : decodePhase s.pos.phase = .ok i) (h : exec i s = .next t) :
    Runs 1 s t := fun k => by
  have hrun : s.pos.phase ≠ phaseIdle := by
    intro hidle
    rw [hidle] at hi
    cases hi
  rw [Nat.add_comm, runSequencer_next k s t hrun ((seqStep_of_decode hi).trans h)]

/-- A run to IDLE is the whole run, whatever number of micro-operations is left. -/
theorem Runs.finish {n k : Nat} {s t : State} (h : Runs n s t) (hidle : t.pos.phase = phaseIdle) (hk : n ≤ k) :
    runSequencer k s = .next t := by
  obtain ⟨j, rfl⟩ := Nat.exists_eq_add_of_le hk
  rw [h, runSequencer_idle j t hidle]

/-- The position at turn `i` of a loop of `m` turns, and after the last turn. -/
def loopPos (turnPos : Nat → Pos) (last : Pos) (m i : Nat) : Pos := if i < m then turnPos i else last

theorem loopPos_of_lt {turnPos : Nat → Pos} {last : Pos} {m i : Nat} (h : i < m) :
    loopPos turnPos last m i = turnPos i := if_pos h

theorem loopPos_last (turnPos : Nat → Pos) (last : Pos) (m : Nat) : loopPos turnPos last m m = last :=
  if_neg (Nat.lt_irrefl m)

/-- A loop of `m` turns of `k` micro-operations each, with its invariant `P`. -/
theorem runs_loop {turnPos : Nat → Pos} {last : Pos} {m k : Nat} {P : Nat → State → Prop}
    (turn : ∀ i s, i < m → P i s → s.pos = turnPos i →
      ∃ t, Runs k s t ∧ P (i + 1) t ∧ t.pos = loopPos turnPos last m (i + 1))
    (hm : 0 < m) {s : State} (h : P 0 s) (hpos : s.pos = turnPos 0) : ∃ t, Runs (m * k) s t ∧ P m t ∧ t.pos = last := by
  have turns : ∀ i ≤ m, ∃ t, Runs (i * k) s t ∧ P i t ∧ t.pos = loopPos turnPos last m i := by
    intro i
    induction i with
    | zero => exact fun _ => ⟨s, by rw [Nat.zero_mul]; exact Runs.refl s, h, hpos.trans (loopPos_of_lt hm).symm⟩
    | succ i ih =>
      intro hi
      obtain ⟨t, hst, ht, htpos⟩ := ih (Nat.le_of_succ_le hi)
      obtain ⟨u, htu, hu⟩ := turn i t hi ht (htpos.trans (loopPos_of_lt hi))
      exact ⟨u, by rw [Nat.succ_mul]; exact hst.trans htu, hu⟩
  obtain ⟨t, hrun, ht, htpos⟩ := turns m (Nat.le_refl m)
  exact ⟨t, hrun, ht, htpos.trans (loopPos_last _ _ _)⟩

/-! ## Positions by counters -/

/-- The position at channel `c` of a loop over channels. -/
def chanStart (again finish : PhaseCode) (nch : Nat) : Nat → Pos :=
  loopPos (fun c => ⟨again, 0, BitVec.ofNat 6 c⟩) ⟨finish, 0, 0⟩ nch

/-- The position at sample `n` of channel `c` in a loop over pairs; after the last sample, the next channel's first. -/
def pairStart (again finish : PhaseCode) (nch len c : Nat) : Nat → Pos :=
  loopPos (fun n => ⟨again, BitVec.ofNat 24 n, BitVec.ofNat 6 c⟩) (chanStart again finish nch (c + 1)) len

/-- The position at frame `n` of a loop over frames. -/
def frameStart (again finish : PhaseCode) (len : Nat) : Nat → Pos :=
  loopPos (fun n => ⟨again, BitVec.ofNat 24 n, 0⟩) ⟨finish, 0, 0⟩ len

theorem toNat_ofNat_chan {c nch : Nat} (h : c < nch) (hn : nch ≤ 64) : (BitVec.ofNat 6 c).toNat = c := by
  rw [BitVec.toNat_ofNat]; omega

theorem toNat_ofNat_index {n : Nat} {len : Index} (h : n < len.toNat) : (BitVec.ofNat 24 n).toNat = n := by
  have := len.isLt
  rw [BitVec.toNat_ofNat]; omega

section Positions
variable {a f p : PhaseCode} {nch c n : Nat} {len : Index}

theorem chanPos_start {i : Index} (hn : nch ≤ 64) (hc : c < nch) :
    chanPos a f nch ⟨p, i, BitVec.ofNat 6 c⟩ = chanStart a f nch (c + 1) := by
  unfold chanPos chanStart loopPos
  simp only [toNat_ofNat_chan hc hn, BitVec.ofNat_add]
  rfl

theorem pairPos_start (hn : nch ≤ 64) (hc : c < nch) (hi : n < len.toNat) :
    pairPos a f nch len.toNat ⟨p, BitVec.ofNat 24 n, BitVec.ofNat 6 c⟩ = pairStart a f nch len.toNat c (n + 1) := by
  unfold pairPos pairStart chanStart loopPos
  simp only [toNat_ofNat_chan hc hn, toNat_ofNat_index hi, BitVec.ofNat_add]
  rfl

theorem framePos_start {ch : Chan} (hi : n < len.toNat) :
    framePos a f len.toNat ⟨p, BitVec.ofNat 24 n, ch⟩ = frameStart a f len.toNat (n + 1) := by
  unfold framePos frameStart loopPos
  simp only [toNat_ofNat_index hi, BitVec.ofNat_add]
  rfl

end Positions

/-- The loop over pairs, n in the inner loop and c in the outer one (41_spectral_ratio_modulator R162, 43_harmonic_enhancer R215).
The invariant `P c n` speaks of the channels below `c` and of the samples below `n` of channel `c`. -/
theorem runs_pairs {a f : PhaseCode} {nch len k : Nat} {P : Nat → Nat → State → Prop}
    (turn : ∀ c n s, c < nch → n < len → P c n s → s.pos = ⟨a, BitVec.ofNat 24 n, BitVec.ofNat 6 c⟩ →
      ∃ t, Runs k s t ∧ P c (n + 1) t ∧ t.pos = pairStart a f nch len c (n + 1))
    (carry : ∀ c s, P c len s → P (c + 1) 0 s) (hnch : 0 < nch) (hlen : 0 < len) {s : State} (h : P 0 0 s)
    (hpos : s.pos = ⟨a, 0, 0⟩) : ∃ t, Runs (nch * (len * k)) s t ∧ P nch 0 t ∧ t.pos = ⟨f, 0, 0⟩ := by
  have channel : ∀ c s, c < nch → P c 0 s → s.pos = ⟨a, 0, BitVec.ofNat 6 c⟩ →
      ∃ t, Runs (len * k) s t ∧ P (c + 1) 0 t ∧ t.pos = chanStart a f nch (c + 1) := by
    intro c s hc hP hs
    obtain ⟨t, hrun, ht, htpos⟩ := runs_loop (fun n s hn => turn c n s hc hn) hlen hP hs
    exact ⟨t, hrun, carry c t ht, htpos⟩
  exact runs_loop (P := fun c => P c 0) channel hnch h hpos

end Sys2Proof.Machine
end

section
/-! The block of a command: its samples and frames as lists, what a loop has done of it so far, and the bytes outside it. -/

namespace Sys2Proof.Machine

/-! ## The samples of a channel -/

@[simp] theorem channelBlock_zero (m : Memory) (c : Chan) : channelBlock m c 0 = [] := rfl

@[simp] theorem channelBlock_length (m : Memory) (c : Chan) (n : Nat) : (channelBlock m c n).length = n := by
  simp [channelBlock]

theorem channelBlock_succ {m : Memory} {c : Chan} {n : Nat} {v : F32}
    (h : memRead m (bufAddr c (BitVec.ofNat 24 n)) = some v) :
    channelBlock m c (n + 1) = channelBlock m c n ++ [v] := by
  simp [channelBlock, List.range_succ, h]

theorem channelBlock_congr {m m' : Memory} {c : Chan} {n : Nat}
    (h : ∀ i < n, memRead m' (bufAddr c (BitVec.ofNat 24 i)) = memRead m (bufAddr c (BitVec.ofNat 24 i))) :
    channelBlock m' c n = channelBlock m c n :=
  List.map_congr_left fun i hi => by rw [h i (List.mem_range.1 hi)]

/-! ## Frames -/

theorem framesOf_succ (p : Params) (m : Memory) (n : Nat) : framesOf p m (n + 1) = framesOf p m n ++ [frameOf p m n] := by
  simp [framesOf, List.range_succ]

theorem frameOf_congr {p : Params} {m m' : Memory} {n : Nat}
    (h : ∀ c ∈ channels p, memRead m' (bufAddr c (BitVec.ofNat 24 n)) = memRead m (bufAddr c (BitVec.ofNat 24 n))) :
    frameOf p m' n = frameOf p m n :=
  List.map_congr_left fun c hc => by rw [h c hc]

theorem framesOf_congr {p : Params} {m m' : Memory} {n : Nat}
    (h : ∀ i < n, ∀ c ∈ channels p,
      memRead m' (bufAddr c (BitVec.ofNat 24 i)) = memRead m (bufAddr c (BitVec.ofNat 24 i))) :
    framesOf p m' n = framesOf p m n :=
  List.map_congr_left fun i hi => frameOf_congr (h i (List.mem_range.1 hi))

/-! ## The algorithms, one sample or one frame further -/

@[simp] theorem filterRun_length (K : Kernel) (k : KCoef) (m : KMem) (xs : List F32) :
    (filterRun K k m xs).1.length = xs.length := by
  induction xs generalizing m with
  | nil => rfl
  | cons x xs ih => simp [filterRun, ih]

theorem filterRun_concat (K : Kernel) (k : KCoef) (m : KMem) (xs : List F32) (x : F32) :
    filterRun K k m (xs ++ [x]) =
      ((filterRun K k m xs).1 ++ [(K.step k (filterRun K k m xs).2 x).1], (K.step k (filterRun K k m xs).2 x).2) := by
  rw [filterRun_append]; rfl

/-- One sample through the HEN stage (43_harmonic_enhancer R211 to R216), `y` being the filter's output. -/
def henSample (N : Num) (gdb x y : F32) : F32 := N.mac32 x (dbToLin N gdb) (saturate N y) (mixAmount N gdb)

theorem henRun_concat (N : Num) (K : Kernel) (k : KCoef) (gdb : F32) (m : KMem) (xs : List F32) (x : F32) :
    henRun N K k gdb m (xs ++ [x]) =
      ((henRun N K k gdb m xs).1 ++ [henSample N gdb x (K.step k (henRun N K k gdb m xs).2 x).1],
        (K.step k (henRun N K k gdb m xs).2 x).2) := by
  induction xs generalizing m with
  | nil => rfl
  | cons z zs ih => simp [henRun, ih]

/-- The envelope after one frame (42_envelope_gain_engine R185, R186). -/
def egeEnv (N : Num) (k : EgeSetup) (env : F32) (frame : List F32) : F32 :=
  let level := frame.foldl (fun l x => N.max32 l (N.abs32 x)) f32Zero
  onePole N (if N.gt32 level env then k.ac else k.rc) env level

/-- The gain reduction for an envelope (42_envelope_gain_engine R189). -/
def egeGrv (N : Num) (dbFloor : F32) (k : EgeSetup) (env : F32) : F32 :=
  gainReduction N (linToDb N dbFloor env) k.thresh k.slope

/-- A frame scaled for a gain reduction (42_envelope_gain_engine R191). -/
def egeFrame (N : Num) (grv : F32) (frame : List F32) : List F32 := frame.map fun x => N.mul32 x (frameGain N grv)

theorem egeRun_concat (N : Num) (dbFloor : F32) (k : EgeSetup) (env : F32) (fs : List (List F32)) (frame : List F32) :
    egeRun N dbFloor k env (fs ++ [frame]) =
      ((egeRun N dbFloor k env fs).1 ++
          [egeFrame N (egeGrv N dbFloor k (egeEnv N k (egeRun N dbFloor k env fs).2.1 frame)) frame],
        egeEnv N k (egeRun N dbFloor k env fs).2.1 frame,
        (egeRun N dbFloor k env fs).2.2 ++ [egeGrv N dbFloor k (egeEnv N k (egeRun N dbFloor k env fs).2.1 frame)]) := by
  induction fs generalizing env with
  | nil => rfl
  | cons g gs ih => simp [egeRun, ih]

/-! ## What a loop over pairs has done -/

/-- How many samples of channel `d` are done where the loop over pairs stands at sample `n` of channel `c`. -/
def samplesDone (len c n d : Nat) : Nat := if d < c then len else if d = c then n else 0

@[simp] theorem samplesDone_self (len c n : Nat) : samplesDone len c n c = n := by simp [samplesDone]

theorem samplesDone_succ (len c n : Nat) {d : Nat} (h : d ≠ c) : samplesDone len c (n + 1) d = samplesDone len c n d := by
  simp [samplesDone, h]

theorem samplesDone_carry (len c : Nat) : samplesDone len c len = samplesDone len (c + 1) 0 := by
  funext d
  unfold samplesDone
  split <;> split <;> simp <;> omega

@[simp] theorem samplesDone_start (len d : Nat) : samplesDone len 0 0 d = 0 := by simp [samplesDone]

theorem samplesDone_end (len nch d : Nat) : samplesDone len nch 0 d = if d < nch then len else 0 := by
  simp [samplesDone]

/-- Each entry of a register file holds what `F` says of its channel after the samples that are done. -/
def LanesAfter {α : Type} (F : Chan → Nat → α) (done : Nat → Nat) (v : Vector α 64) : Prop :=
  ∀ d : Chan, laneGet v d = F d (done d.toNat)

section
variable {α : Type} {F : Chan → Nat → α} {len c n : Nat} {v : Vector α 64}

theorem lanesAfter_start (h : ∀ d, F d 0 = laneGet v d) : LanesAfter F (samplesDone len 0 0) v := fun d => by
  rw [samplesDone_start, h]

theorem LanesAfter.set {ch : Chan} {x : α} (h : LanesAfter F (samplesDone len c n) v) (hc : ch.toNat = c)
    (hx : x = F ch (n + 1)) : LanesAfter F (samplesDone len c (n + 1)) (laneSet v ch x) := by
  intro d
  rw [laneGet_laneSet]
  split
  · rename_i hd
    rw [← hd, hc, samplesDone_self, hx]
  · rename_i hd
    rw [h d, samplesDone_succ len c n fun e => hd (BitVec.eq_of_toNat_eq (hc.trans e.symm))]

theorem LanesAfter.get {ch : Chan} (h : LanesAfter F (samplesDone len c n) v) (hc : ch.toNat = c) :
    laneGet v ch = F ch n := by
  rw [h ch, hc, samplesDone_self]

theorem LanesAfter.get_end {nch : Nat} (h : LanesAfter F (samplesDone len nch 0) v) (d : Chan) :
    laneGet v d = if d.toNat < nch then F d len else F d 0 := by
  rw [h d, samplesDone_end]
  split <;> rfl

end

/-! ## The bytes outside the block -/

/-- Two memories differ only in words (c, n) with c < `nch` and n < `done c` (20_memory R73). -/
def SameOutside (nch : Nat) (done : Nat → Nat) (m m' : Memory) : Prop :=
  ∀ a : Nat, ¬(a / 4 / 2 ^ 24 < nch ∧ a / 4 % 2 ^ 24 < done (a / 4 / 2 ^ 24)) → readByte m' a = readByte m a

theorem SameOutside.refl (nch : Nat) (done : Nat → Nat) (m : Memory) : SameOutside nch done m m := fun _ _ => rfl

/-- A word that is not done reads as before. -/
theorem SameOutside.memRead {nch : Nat} {done : Nat → Nat} {m m' : Memory} (h : SameOutside nch done m m') {c : Chan}
    {n : Index} (hn : done c.toNat ≤ n.toNat) : memRead m' (bufAddr c n) = memRead m (bufAddr c n) := by
  refine memRead_congr _ _ _ fun i hi => h _ ?_
  have hdiv : byteAddr (bufAddr c n) i / 4 = c.toNat * 2 ^ 24 + n.toNat := by
    rw [← bufAddr_toNat, byteAddr]; omega
  obtain ⟨hc, hidx⟩ := (div_four_eq_iff _ _ _).1 hdiv
  rw [hc, hidx]
  omega

/-- A word done on top of what is done already. -/
theorem SameOutside.memWrite {nch len c n : Nat} {m m' : Memory} (h : SameOutside nch (samplesDone len c n) m m')
    {ch : Chan} {idx : Index} (hc : ch.toNat = c) (hn : idx.toNat = n) (hch : c < nch) (v : Word) :
    SameOutside nch (samplesDone len c (n + 1)) m (memWrite m' (bufAddr ch idx) v) := by
  intro a ha
  have hother : ¬(a / 4 / 2 ^ 24 = c ∧ a / 4 % 2 ^ 24 = n) := by
    rintro ⟨e1, e2⟩
    rw [e1, e2, samplesDone_self] at ha
    omega
  rw [readByte_memWrite_sample, if_neg (by rw [div_four_eq_iff, hc, hn]; exact hother)]
  refine h a fun ⟨h1, h2⟩ => ha ⟨h1, ?_⟩
  by_cases hd : a / 4 / 2 ^ 24 = c
  · rw [hd, samplesDone_self] at h2 ⊢; omega
  · rwa [samplesDone_succ _ _ _ hd]

/-- A frame done on top of those before it. -/
theorem SameOutside.frame {p : Params} {n : Nat} {m m' : Memory} (h : SameOutside p.nch.toNat (fun _ => n) m m')
    {idx : Index} (hn : idx.toNat = n) (g : Chan → Word) :
    SameOutside p.nch.toNat (fun _ => n + 1) m
      ((channels p).foldl (fun m c => Machine.memWrite m (bufAddr c idx) (g c)) m') := by
  intro a ha
  rw [readByte_foldl_memWrite, if_neg]
  · exact h a fun ⟨h1, h2⟩ => ha ⟨h1, Nat.lt_succ_of_lt h2⟩
  · rintro ⟨⟨c, hc, e⟩, hidx⟩
    rw [mem_channels] at hc
    exact ha ⟨by rw [e]; exact hc, by rw [hidx, hn]; exact Nat.lt_succ_self n⟩

end Sys2Proof.Machine
end

section
/-! The SRM stage over a block, and the SRM command (41_spectral_ratio_modulator R161 to R173, 44_host_commands R239). -/

namespace Sys2Proof.Machine

/-! ## A stage's block -/

/-- A stage has an admitted block (40_numerics R147) that the host has written (70_reset R307) and that lies in BUF. -/
structure State.HasBlock (s : State) : Prop where
  wf : s.params.wf = true
  length : s.lat.len.toNat ≤ s.params.maxlen.toNat
  block : s.blockWritten s.lat.len
  admitted : s.io.admitted = true

section
variable {s : State}

theorem State.HasBlock.nch_pos (h : s.HasBlock) : 0 < s.params.nch.toNat := (wf_bounds h.wf).1

theorem State.HasBlock.nch_le (h : s.HasBlock) : s.params.nch.toNat ≤ 64 := (wf_bounds h.wf).2.1

theorem State.HasBlock.inBuf (h : s.HasBlock) {c : Chan} {n : Index} (hc : c.toNat < s.params.nch.toNat)
    (hn : n.toNat < s.lat.len.toNat) : inBuf s.params c n = true :=
  (inBuf_iff _ _ _).2 ⟨hc, Nat.lt_of_lt_of_le hn h.length⟩

/-- A sample of the block, as the loop over pairs counts it. -/
theorem State.HasBlock.sample (h : s.HasBlock) {c n : Nat} (hc : c < s.params.nch.toNat) (hn : n < s.lat.len.toNat) :
    ∃ v, memRead s.buf (bufAddr (BitVec.ofNat 6 c) (BitVec.ofNat 24 n)) = some v :=
  Option.isSome_iff_exists.1 (h.block _ _ (by rwa [toNat_ofNat_chan hc h.nch_le]) (by rwa [toNat_ofNat_index hn]))

end

/-! ## S_BPF over the block -/

/-- The first `n` samples of channel `d` through its band-pass filter. -/
def bpfRun (s : State) (d : Chan) (n : Nat) : List F32 × KMem :=
  filterRun (bpfOf s.params) s.hid.bpfCoef (laneGet s.hid.bpfMem d) (channelBlock s.buf d n)

/-- The squares of those outputs, summed on top of SUMSQ. -/
def bpfSum (s : State) (d : Chan) (n : Nat) : F64 := (bpfRun s d n).1.foldl (addSquare s.num) (laneGet s.scr.sumsq d)

/-- The SRM stage's own registers. -/
def State.withSrm (s : State) (mem : Vector KMem 64) (sumsq : Vector F64 64) (filt maxrms : F32) (q : Pos) : State :=
  { s with
    hid := { s.hid with bpfMem := mem }
    scr := { s.scr with sumsq := sumsq, filt := filt, maxrms := maxrms }
    pos := q }

/-- One S_BPF of an admitted command, with the kernel's own step. -/
theorem execSBpf_admitted {s : State} {v : F32} (ha : s.io.admitted = true)
    (hr : readSample s s.pos.ch s.pos.idx = .ok v) :
    let y := (bpfOf s.params).step s.hid.bpfCoef (laneGet s.hid.bpfMem s.pos.ch) v
    execSBpf s =
      .next (s.withSrm (laneSet s.hid.bpfMem s.pos.ch y.2)
        (laneSet s.scr.sumsq s.pos.ch (addSquare s.num (laneGet s.scr.sumsq s.pos.ch) y.1)) y.1 s.scr.maxrms
        (pairPos phaseSBpf phaseSRms s.params.nch.toNat s.lat.len.toNat s.pos)) := by
  rw [execSBpf_ok hr, nextPair_eq_withPos, bandPassed, ha, filterStep_true]
  rfl

/-- The same, from a state of the stage to the next. -/
theorem runs_sBpf {s : State} {c : Chan} {n : Index} {v : F32} (ha : s.io.admitted = true)
    (hin : inBuf s.params c n = true) (hv : memRead s.buf (bufAddr c n) = some v) (mem : Vector KMem 64)
    (sumsq : Vector F64 64) (filt maxrms : F32) :
    let y := (bpfOf s.params).step s.hid.bpfCoef (laneGet mem c) v
    Runs 1 (s.withSrm mem sumsq filt maxrms ⟨phaseSBpf, n, c⟩)
      (s.withSrm (laneSet mem c y.2) (laneSet sumsq c (addSquare s.num (laneGet sumsq c) y.1)) y.1 maxrms
        (pairPos phaseSBpf phaseSRms s.params.nch.toNat s.lat.len.toNat ⟨phaseSBpf, n, c⟩)) :=
  runs_one (i := .sBpf) rfl
    (execSBpf_admitted (s := s.withSrm mem sumsq filt maxrms ⟨phaseSBpf, n, c⟩) ha
      ((readSample_ok_iff _ _ _ v).2 ⟨hin, hv⟩))

/-- Where S_BPF stands at sample `n` of channel `c`, what it has done from `s` on. -/
def BandPassedTo (s : State) (c n : Nat) (t : State) : Prop :=
  ∃ mem sumsq filt q, t = s.withSrm mem sumsq filt s.scr.maxrms q ∧
    LanesAfter (fun d j => (bpfRun s d j).2) (samplesDone s.lat.len.toNat c n) mem ∧
    LanesAfter (bpfSum s) (samplesDone s.lat.len.toNat c n) sumsq

theorem bandPassedTo_start (s : State) : BandPassedTo s 0 0 s :=
  ⟨_, _, _, _, rfl, lanesAfter_start fun _ => rfl, lanesAfter_start fun _ => rfl⟩

theorem BandPassedTo.carry {s t : State} {c : Nat} (h : BandPassedTo s c s.lat.len.toNat t) :
    BandPassedTo s (c + 1) 0 t := by
  rwa [BandPassedTo, samplesDone_carry] at h

/-- One pair further. -/
theorem BandPassedTo.turn {s t : State} {c n : Nat} (hb : s.HasBlock) (hc : c < s.params.nch.toNat)
    (hn : n < s.lat.len.toNat) (h : BandPassedTo s c n t)
    (hpos : t.pos = ⟨phaseSBpf, BitVec.ofNat 24 n, BitVec.ofNat 6 c⟩) :
    ∃ u, Runs 1 t u ∧ BandPassedTo s c (n + 1) u ∧
      u.pos = pairStart phaseSBpf phaseSRms s.params.nch.toNat s.lat.len.toNat c (n + 1) := by
  obtain ⟨mem, sumsq, filt, q, rfl, hmem, hsum⟩ := h
  obtain rfl : q = _ := hpos
  obtain ⟨v, hv⟩ := hb.sample hc hn
  have hch := toNat_ofNat_chan hc hb.nch_le
  have hin := hb.inBuf (hch.trans_lt hc) ((toNat_ofNat_index hn).trans_lt hn)
  refine ⟨_, runs_sBpf hb.admitted hin hv _ _ _ _, ⟨_, _, _, _, rfl, hmem.set hch ?_, hsum.set hch ?_⟩,
    pairPos_start hb.nch_le hc hn⟩
  · rw [hmem.get hch, bpfRun, bpfRun, channelBlock_succ hv, filterRun_concat]
  · rw [hmem.get hch, hsum.get hch, bpfSum, bpfSum, bpfRun, bpfRun, channelBlock_succ hv, filterRun_concat,
      List.foldl_append]
    rfl

/-- S_BPF over the whole block: every filter memory and every sum has seen its channel's samples in ascending order. -/
theorem runs_sBpf_block {s : State} (h : s.HasBlock) (hlen : 0 < s.lat.len.toNat) (hpos : s.pos = ⟨phaseSBpf, 0, 0⟩) :
    ∃ mem sumsq filt,
      Runs (s.params.nch.toNat * s.lat.len.toNat) s (s.withSrm mem sumsq filt s.scr.maxrms ⟨phaseSRms, 0, 0⟩) ∧
      (∀ d, laneGet mem d = if d.toNat < s.params.nch.toNat then (bpfRun s d s.lat.len.toNat).2 else laneGet s.hid.bpfMem d) ∧
      ∀ d : Chan, d.toNat < s.params.nch.toNat → laneGet sumsq d = bpfSum s d s.lat.len.toNat := by
  obtain ⟨t, hrun, ⟨mem, sumsq, filt, q, rfl, hmem, hsum⟩, hq⟩ :=
    runs_pairs (f := phaseSRms) (fun _ _ _ hc hn => BandPassedTo.turn h hc hn) (fun _ _ => BandPassedTo.carry) h.nch_pos hlen
      (bandPassedTo_start s) hpos
  obtain rfl : q = _ := hq
  rw [Nat.mul_one] at hrun
  exact ⟨mem, sumsq, filt, hrun, hmem.get_end, fun d hd => by rw [hsum.get_end, if_pos hd]⟩

/-! ## S_RMS over the channels -/

/-- The running maximum after the first `n` channels (R164, R165). -/
def rmsMax (s : State) (n : Nat) : F32 :=
  ((List.range n).map (BitVec.ofNat 6)).foldl
    (fun acc c => s.num.max32 acc (rootMean s.num (laneGet s.scr.sumsq c) s.lat.len)) s.scr.maxrms

theorem rmsMax_succ (s : State) (n : Nat) :
    rmsMax s (n + 1) =
      s.num.max32 (rmsMax s n) (rootMean s.num (laneGet s.scr.sumsq (BitVec.ofNat 6 n)) s.lat.len) := by
  simp [rmsMax, List.range_succ]

/-- One S_RMS. -/
theorem runs_sRms (s : State) (maxrms : F32) (c : Chan) :
    Runs 1 (s.withSrm s.hid.bpfMem s.scr.sumsq s.scr.filt maxrms ⟨phaseSRms, 0, c⟩)
      (s.withSrm s.hid.bpfMem s.scr.sumsq s.scr.filt
        (s.num.max32 maxrms (rootMean s.num (laneGet s.scr.sumsq c) s.lat.len))
        (chanPos phaseSRms phaseSRatio s.params.nch.toNat ⟨phaseSRms, 0, c⟩)) :=
  runs_one (i := .sRms) rfl (congrArg Host.Outcome.next (nextChan_eq_withPos _ _ _))

/-- S_RMS over the channels leaves their largest RMS. -/
theorem runs_sRms_channels {s : State} (h : s.HasBlock) (hpos : s.pos = ⟨phaseSRms, 0, 0⟩) :
    Runs s.params.nch.toNat s
      (s.withSrm s.hid.bpfMem s.scr.sumsq s.scr.filt (rmsMax s s.params.nch.toNat) ⟨phaseSRatio, 0, 0⟩) := by
  obtain ⟨t, hrun, ⟨q, rfl⟩, hq⟩ := runs_loop (k := 1) (last := ⟨phaseSRatio, 0, 0⟩)
    (turnPos := fun c => ⟨phaseSRms, 0, BitVec.ofNat 6 c⟩)
    (P := fun c t => ∃ q, t = s.withSrm s.hid.bpfMem s.scr.sumsq s.scr.filt (rmsMax s c) q)
    (turn := by
      rintro c _ hc ⟨q, rfl⟩ (rfl : q = _)
      exact ⟨_, runs_sRms s _ _, ⟨_, by rw [rmsMax_succ]⟩, chanPos_start h.nch_le hc⟩)
    h.nch_pos ⟨s.pos, rfl⟩ hpos
  obtain rfl : q = _ := hq
  rwa [Nat.mul_one] at hrun

/-! ## The stage -/

theorem runs_sInit {s : State} (hpos : s.pos = ⟨phaseSInit, 0, 0⟩) :
    Runs 1 s
      (s.withSrm s.hid.bpfMem (laneFill (channels s.params) f64Zero s.scr.sumsq) s.scr.filt f32Zero
        ⟨afterSInit s.lat.len, 0, 0⟩) :=
  runs_one (i := .sInit) (by rw [hpos]; rfl) rfl

/-- The RMS of a channel's filter outputs from their sum of squares (40_numerics R145). -/
theorem rootMean_bpfSum {s : State} {c : Chan} (h : laneGet s.scr.sumsq c = f64Zero) :
    rootMean s.num (bpfSum s c s.lat.len.toNat) s.lat.len = rms s.num (bpfRun s c s.lat.len.toNat).1 := by
  have hlen : (bpfRun s c s.lat.len.toNat).1.length = s.lat.len.toNat := by rw [bpfRun, filterRun_length, channelBlock_length]
  rw [rms, hlen, BitVec.ofNat_toNat, BitVec.setWidth_eq, bpfSum, h]

/-- Where every sum is that of its channel's outputs, the running maximum comes to the block's largest RMS (R173). -/
theorem rmsMax_eq_maxRms {s : State} (h : s.HasBlock) (hlen : s.lat.len ≠ 0) (h0 : s.scr.maxrms = f32Zero)
    (hz : ∀ c ∈ channels s.params, laneGet s.scr.sumsq c = f64Zero) {mem : Vector KMem 64} {sumsq : Vector F64 64}
    {filt : F32} {q : Pos} (hsum : ∀ c : Chan, c.toNat < s.params.nch.toNat → laneGet sumsq c = bpfSum s c s.lat.len.toNat) :
    rmsMax (s.withSrm mem sumsq filt s.scr.maxrms q) s.params.nch.toNat = maxRms s s.lat.len := by
  rw [maxRms, if_neg hlen, ← State.num_admitted h.admitted, ← h0]
  refine List.foldl_ext _ _ _ fun acc c hc => congrArg (s.num.max32 acc) ?_
  exact (congrArg (rootMean s.num · s.lat.len) (hsum c ((mem_channels _ _).1 hc))).trans (rootMean_bpfSum (hz c hc))

/-- The SRM stage up to S_RATIO: MAXRMS is the largest RMS of the block's band-passed samples. -/
theorem runs_to_sRatio {s : State} (h : s.HasBlock) (hpos : s.pos = ⟨phaseSInit, 0, 0⟩) :
    ∃ n mem sumsq filt, n ≤ 1 + s.params.nch.toNat * s.lat.len.toNat + s.params.nch.toNat ∧
      Runs n s (s.withSrm mem sumsq filt (maxRms s s.lat.len) ⟨phaseSRatio, 0, 0⟩) ∧
      ∀ d, laneGet mem d =
        if d.toNat < s.params.nch.toNat then (bpfRun s d s.lat.len.toNat).2 else laneGet s.hid.bpfMem d := by
  have hinit := runs_sInit hpos
  by_cases hlen : s.lat.len = 0
  · rw [afterSInit, if_pos hlen] at hinit
    refine ⟨1, _, _, _, by omega, by rw [maxRms, if_pos hlen]; exact hinit, fun d => ?_⟩
    rw [hlen]; exact (ite_self _).symm
  · rw [afterSInit, if_neg hlen] at hinit
    generalize hu : s.withSrm s.hid.bpfMem (laneFill (channels s.params) f64Zero s.scr.sumsq) s.scr.filt f32Zero
      ⟨phaseSBpf, 0, 0⟩ = u at hinit
    have hblock : u.HasBlock := by subst hu; exact { h with }
    have hpositive : 0 < u.lat.len.toNat := by subst hu; exact Nat.pos_of_ne_zero fun e => hlen (BitVec.eq_of_toNat_eq e)
    obtain ⟨mem, sumsq, filt, hbpf, hmem, hsum⟩ := runs_sBpf_block hblock hpositive (by subst hu; rfl)
    have hrms := runs_sRms_channels (s := u.withSrm mem sumsq filt u.scr.maxrms ⟨phaseSRms, 0, 0⟩) { hblock with } rfl
    have hmax := rmsMax_eq_maxRms (mem := mem) (filt := filt) (q := ⟨phaseSRms, 0, 0⟩) hblock (by subst hu; exact hlen)
      (by subst hu; rfl) (fun c hc => by subst hu; exact (laneGet_laneFill _ _ _ _).trans (if_pos hc)) hsum
    have hrun := (hinit.trans hbpf).trans hrms
    subst hu
    exact ⟨_, mem, sumsq, filt, Nat.le_refl _, hmax ▸ hrun, hmem⟩

/-- The SRM stage (R173). -/
theorem runs_srm {s : State} (h : s.HasBlock) (hpos : s.pos = ⟨phaseSInit, 0, 0⟩) :
    ∃ n mem sumsq filt maxrms, n ≤ 2 + s.params.nch.toNat * s.lat.len.toNat + s.params.nch.toNat ∧
      Runs n s
        (({ s with res := { s.res with effRatio := srmRatio s s.lat.len s.lat.ratio } } : State).withSrm mem sumsq filt
          maxrms ⟨afterSrm s.lat.op, 0, 0⟩) ∧
      ∀ d, laneGet mem d =
        if d.toNat < s.params.nch.toNat then (bpfRun s d s.lat.len.toNat).2 else laneGet s.hid.bpfMem d := by
  obtain ⟨n, mem, sumsq, filt, hn, hrun, hmem⟩ := runs_to_sRatio h hpos
  refine ⟨n + 1, mem, sumsq, filt, maxRms s s.lat.len, by omega, hrun.trans (runs_one (i := .sRatio) rfl ?_), hmem⟩
  rw [srmRatio, ← State.num_admitted h.admitted]
  rfl

end Sys2Proof.Machine
end

section
/-! From acceptance to DONE: what the commands on a block have in common (44_host_commands R231, R235, R249). -/

namespace Sys2Proof.Machine

/-- The operation codes of the commands on a block (30_encoding R97). -/
def blockOp (op : BitVec 4) : Prop := op = 2 ∨ op = 3 ∨ op = 4 ∨ op = 5

theorem cmdIllegal_blockOp {op : BitVec 4} (hop : blockOp op) (len : Index) : cmdIllegal (cmdWord op len) = false := by
  unfold cmdIllegal
  rw [cmdOp_cmdWord, cmdRsv_cmdWord]
  rcases hop with rfl | rfl | rfl | rfl <;> rfl

/-- A command on a block is accepted where the host has done its duty (R231, 70_reset R307). -/
theorem offerCondition_ready {s : State} {len : Index} {op : BitVec 4} (h : s.ready len) (hop : blockOp op) :
    offerCondition (cmdWord op len) s = none :=
  (offerCondition_none _ _).2
    ⟨h.notBusy, cmdIllegal_blockOp hop len, fun _ => ⟨h.prepared, by rw [cmdLen_cmdWord]; exact h.length⟩⟩

/-- The core after acceptance has the command's block. -/
theorem hasBlock_accept {s : State} {len : Index} {op : BitVec 4} (hwf : s.params.wf = true) (h : s.ready len)
    (ha : s.admits (paramsUsed op s.host) len) : (accept (cmdWord op len) s).HasBlock where
  wf := hwf
  length := by rw [accept_lat, latched_len, cmdLen_cmdWord]; exact h.length
  block := by rw [accept_lat, latched_len, cmdLen_cmdWord]; exact h.block
  admitted := by
    rw [accept_io]
    obtain ⟨hparams, hblock⟩ := ha
    have hall : (paramsUsed op s.host).all isFinite32 = true :=
      List.all_eq_true.2 fun x hx => (isFinite32_iff x).2 (hparams x hx)
    simp [inputsAdmitted, cmdOp_cmdWord, cmdLen_cmdWord, hall, (blockFinite_iff s len).2 hblock]

/-- The core with a command at its first phase. -/
def State.started (s : State) (lat : Latches) (p : PhaseCode) (x : Ports) : State :=
  { s with status := s.status ||| stBusy, lat := lat, pos := ⟨p, 0, 0⟩, io := x }

/-- Acceptance, with the model's own notes as they are afterwards (log 14, 17, 19). -/
theorem accept_eq_started (w : Word) (s : State) :
    ∃ x : Ports, accept w s = s.started (latched w s) (afterLatch (cmdOp w)) x ∧ x.grLog = [] ∧
      (x.inputs, x.hResp, x.mResp, x.free) = s.environment :=
  ⟨(accept w s).io, rfl, rfl, rfl⟩

theorem runs_done {s : State} (hpos : s.pos.phase = phaseDone) :
    Runs 1 s { s with status := stClear s.status stBusy, pos := ⟨phaseIdle, 0, 0⟩ } :=
  runs_one (i := .done) (by rw [hpos]; rfl) rfl

/-- A command whose micro-operations reach DONE within the bound of R235 completes there; BUSY has come and gone. -/
theorem runCommand_of_runs {s a t : State} {w : Word} {n : Nat} (hw : offerCondition w s = none)
    (ha : accept w s = a) (hrun : Runs n a t) (hdone : t.pos.phase = phaseDone) (hstatus : t.status = s.status ||| stBusy)
    (hn : n + 1 ≤ uopBound (cmdOp w) s.params.nch.toNat (cmdLen w).toNat) :
    runCommand w s = .next { t with status := s.status, pos := ⟨phaseIdle, 0, 0⟩ } := by
  have bits : ∀ st : BitVec 7, st.getLsbD 1 = false → stClear (st ||| stBusy) stBusy = st := by decide
  have hbusy : isBusy s = false := ((offerCondition_none w s).1 hw).1
  have hexec := (hrun.trans (runs_done hdone)).finish rfl hn
  rw [hstatus, bits _ hbusy] at hexec
  unfold runCommand
  rw [hw, ha]
  exact hexec

end Sys2Proof.Machine
end

section
/-! The SRM command (44_host_commands R239). -/

namespace Sys2Proof.Machine

theorem latched_srm (len : Index) (s : State) :
    latched (cmdWord 3 len) s = { s.lat with op := 3, len := len, ratio := s.host.pRatio } := by
  unfold latched
  simp only [cmdOp_cmdWord, cmdLen_cmdWord]
  rfl

theorem uopBound_srm (nch len : Nat) : uopBound 3 nch len = 4 + nch * len + nch := rfl

/-- Settles O35: acceptance, the SRM stage, DONE. -/
theorem srmCommand : Obligations.SrmCommand := by
  intro s len hwf hready hadm
  have hop : blockOp 3 := by unfold blockOp; decide
  have hblock := hasBlock_accept (op := 3) hwf hready hadm
  obtain ⟨x, hx, -, henv⟩ := accept_eq_started (cmdWord 3 len) s
  rw [latched_srm, cmdOp_cmdWord] at hx
  rw [hx] at hblock
  obtain ⟨n, mem, sumsq, filt, maxrms, hn, hrun, hmem⟩ := runs_srm hblock rfl
  have hbound : n + 1 ≤ uopBound (cmdOp (cmdWord 3 len)) s.params.nch.toNat (cmdLen (cmdWord 3 len)).toNat := by
    have hn' : n ≤ 2 + s.params.nch.toNat * len.toNat + s.params.nch.toNat := hn
    rw [cmdOp_cmdWord, cmdLen_cmdWord, uopBound_srm]
    omega
  exact ⟨_, runCommand_of_runs (offerCondition_ready hready hop) hx hrun rfl rfl hbound, rfl, henv, hmem⟩

end Sys2Proof.Machine
end

section
/-! The HEN stage over a block, and the HEN command (43_harmonic_enhancer R211 to R220, 44_host_commands R242). -/

namespace Sys2Proof.Machine

/-! ## A channel's samples as they are written back -/

/-- A write of another channel, or of a sample further on. -/
theorem channelBlock_memWrite_other {m : Memory} {c d : Chan} {n : Nat} {idx : Index} {v : Word}
    (h : d ≠ c ∨ n ≤ idx.toNat) : channelBlock (memWrite m (bufAddr c idx) v) d n = channelBlock m d n := by
  refine channelBlock_congr fun i hi => memRead_memWrite_other _ _ _ _ fun e => ?_
  obtain ⟨hd, rfl⟩ := bufAddr_inj e
  rcases h with h | h
  · exact h hd
  · rw [BitVec.toNat_ofNat] at h
    have := Nat.mod_le i (2 ^ 24)
    omega

/-- The samples done of each channel are what `F` says of them. -/
def BlockAfter (nch : Nat) (F : Chan → Nat → List F32) (done : Nat → Nat) (m : Memory) : Prop :=
  ∀ d : Chan, d.toNat < nch → channelBlock m d (done d.toNat) = F d (done d.toNat)

theorem blockAfter_start {nch len : Nat} {F : Chan → Nat → List F32} (h : ∀ d, F d 0 = []) (m : Memory) :
    BlockAfter nch F (samplesDone len 0 0) m := fun d _ => by
  rw [samplesDone_start, h, channelBlock_zero]

theorem BlockAfter.write {nch len c n : Nat} {F : Chan → Nat → List F32} {m : Memory}
    (h : BlockAfter nch F (samplesDone len c n) m) {ch : Chan} {idx : Index} {v : Word} (hc : ch.toNat = c)
    (hn : idx.toNat = n) (hv : F ch (n + 1) = F ch n ++ [v]) :
    BlockAfter nch F (samplesDone len c (n + 1)) (memWrite m (bufAddr ch idx) v) := by
  intro d hd
  by_cases hdc : d = ch
  · subst hdc
    have hidx : BitVec.ofNat 24 n = idx := by rw [← hn, BitVec.ofNat_toNat, BitVec.setWidth_eq]
    have hbefore := h d hd
    rw [hc, samplesDone_self] at hbefore ⊢
    rw [channelBlock_succ (v := v) (by rw [hidx]; exact memRead_memWrite_same _ _ _),
      channelBlock_memWrite_other (.inr hn.ge), hbefore, hv]
  · have hne : d.toNat ≠ c := fun e => hdc (BitVec.eq_of_toNat_eq (e.trans hc.symm))
    rw [samplesDone_succ _ _ _ hne, channelBlock_memWrite_other (.inl hdc), h d hd]

/-! ## H_HPF, H_SAT and H_MAC over the block -/

/-- The HEN stage over the first `n` samples of channel `d`. -/
def henChannel (s : State) (d : Chan) (n : Nat) : List F32 × KMem :=
  henRun (numOf s.params) (hpfOf s.params) s.hid.hpfCoef s.lat.outgain (laneGet s.hid.hpfMem d) (channelBlock s.buf d n)

/-- The registers of the HEN stage's loop. -/
def State.withHen (s : State) (mem : Vector KMem 64) (lane : Vector F32 64) (filt sat : F32) (m : Memory) (q : Pos) :
    State :=
  { s with
    hid := { s.hid with hpfMem := mem }
    scr := { s.scr with lane := lane, filt := filt, sat := sat }
    buf := m
    pos := q }

/-- One H_HPF of an admitted command, with the kernel's own step. -/
theorem execHHpf_admitted {s : State} {v : F32} (ha : s.io.admitted = true)
    (hr : readSample s s.pos.ch s.pos.idx = .ok v) :
    let y := (hpfOf s.params).step s.hid.hpfCoef (laneGet s.hid.hpfMem s.pos.ch) v
    execHHpf s =
      .next (s.withHen (laneSet s.hid.hpfMem s.pos.ch y.2) (laneSet s.scr.lane s.pos.ch v) y.1 s.scr.sat s.buf
        { s.pos with phase := phaseHSat }) := by
  rw [execHHpf_ok hr, highPassed, ha, filterStep_true]
  rfl

/-- The three micro-operations of one pair: the word is replaced by its output sample (R211, R214, R216). -/
theorem runs_henPair {s : State} {c : Chan} {n : Index} {v : F32} {m : Memory} (ha : s.io.admitted = true)
    (hin : inBuf s.params c n = true) (hv : memRead m (bufAddr c n) = some v) (mem : Vector KMem 64)
    (lane : Vector F32 64) (filt sat : F32) :
    let y := (hpfOf s.params).step s.hid.hpfCoef (laneGet mem c) v
    Runs 3 (s.withHen mem lane filt sat m ⟨phaseHHpf, n, c⟩)
      (s.withHen (laneSet mem c y.2) (laneSet lane c v) y.1 (saturate s.num y.1)
        (memWrite m (bufAddr c n) (s.num.mac32 v s.scr.lg (saturate s.num y.1) s.scr.mix))
        (pairPos phaseHHpf phaseDone s.params.nch.toNat s.lat.len.toNat ⟨phaseHHpf, n, c⟩)) := by
  intro y
  obtain ⟨hc, hn⟩ := (inBuf_iff _ _ _).1 hin
  have hHpf : Runs 1 (s.withHen mem lane filt sat m ⟨phaseHHpf, n, c⟩)
      (s.withHen (laneSet mem c y.2) (laneSet lane c v) y.1 sat m ⟨phaseHSat, n, c⟩) :=
    runs_one (i := .hHpf) rfl
      (execHHpf_admitted (s := s.withHen mem lane filt sat m ⟨phaseHHpf, n, c⟩) ha
        ((readSample_ok_iff _ _ _ v).2 ⟨hin, hv⟩))
  have hSat : Runs 1 (s.withHen (laneSet mem c y.2) (laneSet lane c v) y.1 sat m ⟨phaseHSat, n, c⟩)
      (s.withHen (laneSet mem c y.2) (laneSet lane c v) y.1 (saturate s.num y.1) m ⟨phaseHMac, n, c⟩) :=
    runs_one (i := .hSat) rfl rfl
  have hMac := runs_one (i := .hMac) rfl
    (execHMac_inBuf (s := s.withHen (laneSet mem c y.2) (laneSet lane c v) y.1 (saturate s.num y.1) m ⟨phaseHMac, n, c⟩)
      hc hn)
  have hout : outputSample (s.withHen (laneSet mem c y.2) (laneSet lane c v) y.1 (saturate s.num y.1) m ⟨phaseHMac, n, c⟩) =
      s.num.mac32 v s.scr.lg (saturate s.num y.1) s.scr.mix :=
    congrArg (fun x => s.num.mac32 x s.scr.lg (saturate s.num y.1) s.scr.mix) (laneGet_laneSet_same _ _ _)
  rw [hout] at hMac
  exact (hHpf.trans hSat).trans hMac

/-- Where the stage stands at sample `n` of channel `c`, what it has done from `s` on. -/
def EnhancedTo (s : State) (c n : Nat) (t : State) : Prop :=
  ∃ mem lane filt sat m q, t = s.withHen mem lane filt sat m q ∧
    LanesAfter (fun d j => (henChannel s d j).2) (samplesDone s.lat.len.toNat c n) mem ∧
    BlockAfter s.params.nch.toNat (fun d j => (henChannel s d j).1) (samplesDone s.lat.len.toNat c n) m ∧
    SameOutside s.params.nch.toNat (samplesDone s.lat.len.toNat c n) s.buf m

theorem enhancedTo_start (s : State) : EnhancedTo s 0 0 s :=
  ⟨_, _, _, _, _, _, rfl, lanesAfter_start fun _ => rfl, blockAfter_start (fun _ => rfl) _, .refl _ _ _⟩

theorem EnhancedTo.carry {s t : State} {c : Nat} (h : EnhancedTo s c s.lat.len.toNat t) : EnhancedTo s (c + 1) 0 t := by
  rwa [EnhancedTo, samplesDone_carry] at h

/-- One pair further, with the gains that H_GAIN has computed. -/
theorem EnhancedTo.turn {s t : State} {c n : Nat} (hb : s.HasBlock) (hlg : s.scr.lg = dbToLin s.num s.lat.outgain)
    (hmix : s.scr.mix = mixAmount s.num s.lat.outgain) (hc : c < s.params.nch.toNat) (hn : n < s.lat.len.toNat)
    (h : EnhancedTo s c n t) (hpos : t.pos = ⟨phaseHHpf, BitVec.ofNat 24 n, BitVec.ofNat 6 c⟩) :
    ∃ u, Runs 3 t u ∧ EnhancedTo s c (n + 1) u ∧
      u.pos = pairStart phaseHHpf phaseDone s.params.nch.toNat s.lat.len.toNat c (n + 1) := by
  obtain ⟨mem, lane, filt, sat, m, q, rfl, hmem, hblock, hout⟩ := h
  obtain rfl : q = _ := hpos
  have hch := toNat_ofNat_chan hc hb.nch_le
  have hidx := toNat_ofNat_index hn
  obtain ⟨v, hv⟩ := hb.sample hc hn
  have hv' : memRead m (bufAddr (BitVec.ofNat 6 c) (BitVec.ofNat 24 n)) = some v :=
    (hout.memRead (by rw [hch, samplesDone_self, hidx])).trans hv
  have hin := hb.inBuf (hch.trans_lt hc) (hidx.trans_lt hn)
  have hnext := henRun_concat (numOf s.params) (hpfOf s.params) s.hid.hpfCoef s.lat.outgain
    (laneGet s.hid.hpfMem (BitVec.ofNat 6 c)) (channelBlock s.buf (BitVec.ofNat 6 c) n) v
  rw [← channelBlock_succ hv] at hnext
  have hmem' := hmem.get hch
  refine ⟨_, runs_henPair hb.admitted hin hv' _ _ _ _, ⟨_, _, _, _, _, _, rfl, hmem.set hch ?_, hblock.write hch hidx ?_,
    hout.memWrite hch hidx hc _⟩, pairPos_start hb.nch_le hc hn⟩
  · rw [hmem', henChannel, henChannel, hnext]
  · rw [hmem', henChannel, henChannel, hnext, hlg, hmix, State.num_admitted hb.admitted]
    rfl

/-- The loop over the whole block. -/
theorem runs_henPairs {s : State} (h : s.HasBlock) (hlg : s.scr.lg = dbToLin s.num s.lat.outgain)
    (hmix : s.scr.mix = mixAmount s.num s.lat.outgain) (hlen : 0 < s.lat.len.toNat) (hpos : s.pos = ⟨phaseHHpf, 0, 0⟩) :
    ∃ mem lane filt sat m,
      Runs (s.params.nch.toNat * (s.lat.len.toNat * 3)) s (s.withHen mem lane filt sat m ⟨phaseDone, 0, 0⟩) ∧
      (∀ d, laneGet mem d =
        if d.toNat < s.params.nch.toNat then (henChannel s d s.lat.len.toNat).2 else laneGet s.hid.hpfMem d) ∧
      (∀ d : Chan, d.toNat < s.params.nch.toNat →
        channelBlock m d s.lat.len.toNat = (henChannel s d s.lat.len.toNat).1) ∧
      SameOutside s.params.nch.toNat (fun _ => s.lat.len.toNat) s.buf m := by
  obtain ⟨t, hrun, ⟨mem, lane, filt, sat, m, q, rfl, hmem, hblock, hout⟩, hq⟩ :=
    runs_pairs (f := phaseDone) (fun _ _ _ hc hn => EnhancedTo.turn h hlg hmix hc hn) (fun _ _ => EnhancedTo.carry)
      h.nch_pos hlen (enhancedTo_start s) hpos
  obtain rfl : q = _ := hq
  refine ⟨mem, lane, filt, sat, m, hrun, hmem.get_end, fun d hd => ?_, fun a ha => hout a fun ⟨h1, h2⟩ => ha ⟨h1, ?_⟩⟩
  · have hd' := hblock d hd
    rwa [samplesDone_end, if_pos hd] at hd'
  · rwa [samplesDone_end, if_pos h1] at h2

/-! ## The stage -/

/-- The core after H_GAIN, wherever the sequencer goes from there (R212, R213). -/
def State.withGains (s : State) (q : Pos) : State :=
  { s with
    scr := { s.scr with lg := dbToLin s.num s.lat.outgain, mix := mixAmount s.num s.lat.outgain }
    pos := q }

theorem runs_hGain {s : State} (hpos : s.pos = ⟨phaseHGain, 0, 0⟩) : Runs 1 s (s.withGains ⟨afterHGain s.lat.len, 0, 0⟩) :=
  runs_one (i := .hGain) (by rw [hpos]; rfl) rfl

/-- The HEN stage (R220). -/
theorem runs_hen {s : State} (h : s.HasBlock) (hpos : s.pos = ⟨phaseHGain, 0, 0⟩) :
    ∃ n mem lane filt sat m, n ≤ 1 + 3 * s.params.nch.toNat * s.lat.len.toNat ∧
      Runs n s ((s.withGains ⟨phaseDone, 0, 0⟩).withHen mem lane filt sat m ⟨phaseDone, 0, 0⟩) ∧
      (∀ d, laneGet mem d =
        if d.toNat < s.params.nch.toNat then (henChannel s d s.lat.len.toNat).2 else laneGet s.hid.hpfMem d) ∧
      (∀ d : Chan, d.toNat < s.params.nch.toNat →
        channelBlock m d s.lat.len.toNat = (henChannel s d s.lat.len.toNat).1) ∧
      SameOutside s.params.nch.toNat (fun _ => s.lat.len.toNat) s.buf m := by
  have hgain := runs_hGain hpos
  by_cases hlen : s.lat.len = 0
  · rw [afterHGain, if_pos hlen] at hgain
    refine ⟨1, _, _, _, _, _, by omega, hgain, fun d => ?_, fun d _ => ?_, .refl _ _ _⟩
    · rw [hlen]; exact (ite_self _).symm
    · rw [hlen]; rfl
  · rw [afterHGain, if_neg hlen] at hgain
    have hpositive : 0 < s.lat.len.toNat := Nat.pos_of_ne_zero fun e => hlen (BitVec.eq_of_toNat_eq e)
    obtain ⟨mem, lane, filt, sat, m, hrun, hmem, hblock, hout⟩ :=
      runs_henPairs (s := s.withGains ⟨phaseHHpf, 0, 0⟩) { h with } rfl rfl hpositive rfl
    refine ⟨_, mem, lane, filt, sat, m, ?_, hgain.trans hrun, hmem, hblock, hout⟩
    exact Nat.add_le_add_left (by rw [Nat.mul_comm 3, Nat.mul_assoc, Nat.mul_comm 3]; exact Nat.le_refl _) 1

/-! ## The command -/

theorem latched_hen (len : Index) (s : State) :
    latched (cmdWord 5 len) s = { s.lat with op := 5, len := len, outgain := s.host.pOutgain } := by
  unfold latched
  simp only [cmdOp_cmdWord, cmdLen_cmdWord]
  rfl

theorem uopBound_hen (nch len : Nat) : uopBound 5 nch len = 3 + 3 * nch * len := rfl

/-- Settles O37: acceptance, the HEN stage, DONE. -/
theorem henCommand : Obligations.HenCommand := by
  intro s len hwf hready hadm run
  have hop : blockOp 5 := by unfold blockOp; decide
  have hblock := hasBlock_accept (op := 5) hwf hready hadm
  obtain ⟨x, hx, -, henv⟩ := accept_eq_started (cmdWord 5 len) s
  rw [latched_hen, cmdOp_cmdWord] at hx
  rw [hx] at hblock
  obtain ⟨n, mem, lane, filt, sat, m, hn, hrun, hmem, hblk, hout⟩ := runs_hen hblock rfl
  have hbound : n + 1 ≤ uopBound (cmdOp (cmdWord 5 len)) s.params.nch.toNat (cmdLen (cmdWord 5 len)).toNat := by
    have hn' : n ≤ 1 + 3 * s.params.nch.toNat * len.toNat := hn
    rw [cmdOp_cmdWord, cmdLen_cmdWord, uopBound_hen]
    omega
  exact ⟨_, runCommand_of_runs (offerCondition_ready hready hop) hx hrun rfl rfl hbound, rfl, henv, hmem, hblk, hout⟩

end Sys2Proof.Machine
end

section
/-! The EGE stage over a block, and the EGE command (42_envelope_gain_engine R182 to R200, 44_host_commands R241). -/

namespace Sys2Proof.Machine

/-! ## One frame, read and written -/

/-- The detection loop over a written frame: the lanes take the samples, the level is their largest magnitude (R185). -/
theorem detectLanes_ok {s : State} {x : Chan → F32} {cs : List Chan}
    (h : ∀ c ∈ cs, readSample s c s.pos.idx = .ok (x c)) (lane : Vector F32 64) (level : F32) :
    ∃ lane', detectLanes s cs lane level =
        .ok (lane', (cs.map x).foldl (fun l v => s.num.max32 l (s.num.abs32 v)) level) ∧
      ∀ c, laneGet lane' c = if c ∈ cs then x c else laneGet lane c := by
  induction cs generalizing lane level with
  | nil => exact ⟨lane, rfl, fun c => by simp⟩
  | cons d ds ih =>
    obtain ⟨lane', e, hlane⟩ := ih (fun c hc => h c (by simp [hc])) (laneSet lane d (x d))
      (s.num.max32 level (s.num.abs32 (x d)))
    refine ⟨lane', ?_, fun c => ?_⟩
    · simp only [detectLanes, h d (by simp)]
      exact e
    · rw [hlane, laneGet_laneSet]
      by_cases hc : c ∈ ds
      · simp [hc]
      · by_cases hd : d = c
        · simp [hd]
        · simp [hc, hd, Ne.symm hd]

theorem setWidth_bufAddr (c : Chan) (n : Index) : (bufAddr c n).setWidth 24 = n := by
  refine BitVec.eq_of_toNat_eq ?_
  rw [BitVec.toNat_setWidth, bufAddr_toNat]
  have := n.isLt
  omega

theorem extractLsb'_bufAddr (c : Chan) (n : Index) : (bufAddr c n).extractLsb' 24 6 = c := by
  refine BitVec.eq_of_toNat_eq ?_
  rw [BitVec.extractLsb'_toNat, bufAddr_toNat, Nat.shiftRight_eq_div_pow]
  have := n.isLt
  have := c.isLt
  omega

/-- The words of BUF after a frame is written back. -/
theorem memRead_frame (cs : List Chan) (n : Index) (f : Chan → Word) (m : Memory) (c : Chan) (i : Index) :
    memRead (cs.foldl (fun m c => memWrite m (bufAddr c n) (f c)) m) (bufAddr c i) =
      if i = n ∧ c ∈ cs then some (f c) else memRead m (bufAddr c i) := by
  rw [memRead_foldl_memWrite, setWidth_bufAddr, extractLsb'_bufAddr]

/-- BUF with frame `n` scaled for a gain reduction (R191). -/
def scaledBuf (s : State) (m : Memory) (n : Index) (grv : F32) : Memory :=
  (channels s.params).foldl
    (fun acc c => memWrite acc (bufAddr c n) (s.num.mul32 ((memRead m (bufAddr c n)).getD 0) (frameGain s.num grv))) m

theorem framesOf_scaledBuf {s : State} {m : Memory} {n : Nat} {len : Index} (hn : n < len.toNat) (grv : F32) :
    framesOf s.params (scaledBuf s m (BitVec.ofNat 24 n) grv) (n + 1) =
      framesOf s.params m n ++ [egeFrame s.num grv (frameOf s.params m n)] := by
  have hbefore : framesOf s.params (scaledBuf s m (BitVec.ofNat 24 n) grv) n = framesOf s.params m n := by
    refine framesOf_congr fun i hi c _ => ?_
    have hne : BitVec.ofNat 24 i ≠ BitVec.ofNat 24 n := fun e => by
      have := congrArg BitVec.toNat e
      rw [toNat_ofNat_index hn, toNat_ofNat_index (hi.trans hn)] at this
      omega
    rw [scaledBuf, memRead_frame, if_neg fun h => hne h.1]
  have hframe : frameOf s.params (scaledBuf s m (BitVec.ofNat 24 n) grv) n = egeFrame s.num grv (frameOf s.params m n) := by
    unfold egeFrame frameOf
    rw [List.map_map]
    refine List.map_congr_left fun c hc => ?_
    rw [scaledBuf, memRead_frame, if_pos ⟨rfl, hc⟩]
    rfl
  rw [framesOf_succ, hbefore, hframe]

/-! ## The five micro-operations of a frame -/

/-- The largest magnitude of a frame, folded as E_DET folds it (R185). -/
def frameLevel (N : Num) (frame : List F32) : F32 := frame.foldl (fun l x => N.max32 l (N.abs32 x)) f32Zero

/-- What E_COEF has left for the frames (R182 to R184). -/
def setupOf (s : State) : EgeSetup := ⟨s.scr.ac, s.scr.rc, s.scr.slope, s.lat.thresh⟩

/-- The registers of the EGE stage's loop. -/
def State.withEge (s : State) (gr env : F32) (lane : Vector F32 64) (level grv : F32) (m : Memory) (log : List F32)
    (q : Pos) : State :=
  { s with
    res := { s.res with gr := gr }
    hid := { s.hid with env := env }
    scr := { s.scr with lane := lane, level := level, grv := grv }
    buf := m
    io := { s.io with grLog := log }
    pos := q }

/-- E_DET on a written frame. -/
theorem runs_eDet {s : State} {n : Nat} {m : Memory} (hidx : (BitVec.ofNat 24 n).toNat < s.params.maxlen.toNat)
    (hw : ∀ c ∈ channels s.params, (memRead m (bufAddr c (BitVec.ofNat 24 n))).isSome = true) (gr env : F32)
    (lane : Vector F32 64) (level grv : F32) (log : List F32) :
    ∃ lane', Runs 1 (s.withEge gr env lane level grv m log ⟨phaseEDet, BitVec.ofNat 24 n, 0⟩)
        (s.withEge gr env lane' (frameLevel s.num (frameOf s.params m n)) grv m log ⟨phaseEEnv, BitVec.ofNat 24 n, 0⟩) ∧
      ∀ c ∈ channels s.params, laneGet lane' c = (memRead m (bufAddr c (BitVec.ofNat 24 n))).getD 0 := by
  have hread : ∀ c ∈ channels s.params,
      readSample (s.withEge gr env lane level grv m log ⟨phaseEDet, BitVec.ofNat 24 n, 0⟩) c (BitVec.ofNat 24 n) =
        .ok ((memRead m (bufAddr c (BitVec.ofNat 24 n))).getD 0) := by
    intro c hc
    obtain ⟨v, hv⟩ := Option.isSome_iff_exists.1 (hw c hc)
    rw [hv]
    exact (readSample_ok_iff _ _ _ v).2 ⟨(inBuf_iff _ _ _).2 ⟨(mem_channels _ _).1 hc, hidx⟩, hv⟩
  obtain ⟨lane', e, hlane⟩ := detectLanes_ok hread lane f32Zero
  exact ⟨lane', runs_one (i := .eDet) rfl (execEDet_ok e), fun c hc => (hlane c).trans (if_pos hc)⟩

/-- One frame: the level, the envelope, the gain reduction, its publication, the scaled frame (R185 to R191). -/
theorem runs_egeFrame {s : State} {n : Nat} {m : Memory} (hn : n < s.lat.len.toNat)
    (hlen : s.lat.len.toNat ≤ s.params.maxlen.toNat)
    (hw : ∀ c ∈ channels s.params, (memRead m (bufAddr c (BitVec.ofNat 24 n))).isSome = true) (gr env : F32)
    (lane : Vector F32 64) (level grv : F32) (log : List F32) :
    let level' := frameLevel s.num (frameOf s.params m n)
    let env' := egeEnv s.num (setupOf s) env (frameOf s.params m n)
    let grv' := egeGrv s.num s.params.dbFloor (setupOf s) env'
    ∃ lane', Runs 5 (s.withEge gr env lane level grv m log ⟨phaseEDet, BitVec.ofNat 24 n, 0⟩)
      (s.withEge grv' env' lane' level' grv' (scaledBuf s m (BitVec.ofNat 24 n) grv') (log ++ [grv'])
        (frameStart phaseEDet (afterEge s.lat.op) s.lat.len.toNat (n + 1))) := by
  intro level' env' grv'
  have hidx : (BitVec.ofNat 24 n).toNat < s.params.maxlen.toNat := by rw [toNat_ofNat_index hn]; omega
  obtain ⟨lane', hDet, hlane⟩ := runs_eDet hidx hw gr env lane level grv log
  have hEnv : Runs 1 (s.withEge gr env lane' level' grv m log ⟨phaseEEnv, BitVec.ofNat 24 n, 0⟩)
      (s.withEge gr env' lane' level' grv m log ⟨phaseEGrc, BitVec.ofNat 24 n, 0⟩) := runs_one (i := .eEnv) rfl rfl
  have hGrc : Runs 1 (s.withEge gr env' lane' level' grv m log ⟨phaseEGrc, BitVec.ofNat 24 n, 0⟩)
      (s.withEge gr env' lane' level' grv' m log ⟨phaseEPub, BitVec.ofNat 24 n, 0⟩) := runs_one (i := .eGrc) rfl rfl
  have hPub : Runs 1 (s.withEge gr env' lane' level' grv' m log ⟨phaseEPub, BitVec.ofNat 24 n, 0⟩)
      (s.withEge grv' env' lane' level' grv' m (log ++ [grv']) ⟨phaseEApply, BitVec.ofNat 24 n, 0⟩) :=
    runs_one (i := .ePub) rfl rfl
  have hApply := runs_one (i := .eApply) rfl
    (execEApply_inBuf (s := s.withEge grv' env' lane' level' grv' m (log ++ [grv']) ⟨phaseEApply, BitVec.ofNat 24 n, 0⟩)
      hidx)
  have hbuf : appliedBuf (s.withEge grv' env' lane' level' grv' m (log ++ [grv']) ⟨phaseEApply, BitVec.ofNat 24 n, 0⟩) =
      scaledBuf s m (BitVec.ofNat 24 n) grv' :=
    List.foldl_ext _ _ _ fun acc c hc =>
      congrArg (fun x => memWrite acc _ (s.num.mul32 x (frameGain s.num grv'))) (hlane c hc)
  rw [hbuf] at hApply
  refine ⟨lane', ?_⟩
  rw [← framePos_start (p := phaseEApply) (ch := 0) hn]
  exact (((hDet.trans hEnv).trans hGrc).trans hPub).trans hApply

/-! ## The frames of the block -/

/-- The EGE stage over the first `n` frames of the block. -/
def egeBlock (s : State) (n : Nat) : List (List F32) × F32 × List F32 :=
  egeRun (numOf s.params) s.params.dbFloor (setupOf s) s.hid.env (framesOf s.params s.buf n)

/-- The envelope after frame `n`. -/
def envAfter (s : State) (n : Nat) : F32 :=
  egeEnv (numOf s.params) (setupOf s) (egeBlock s n).2.1 (frameOf s.params s.buf n)

/-- The gain reduction of frame `n`. -/
def grvAfter (s : State) (n : Nat) : F32 := egeGrv (numOf s.params) s.params.dbFloor (setupOf s) (envAfter s n)

theorem egeBlock_succ (s : State) (n : Nat) :
    egeBlock s (n + 1) =
      ((egeBlock s n).1 ++ [egeFrame (numOf s.params) (grvAfter s n) (frameOf s.params s.buf n)], envAfter s n,
        (egeBlock s n).2.2 ++ [grvAfter s n]) := by
  rw [egeBlock, framesOf_succ, egeRun_concat]
  rfl

/-- Where the stage stands at frame `n`, what it has done from `s` on. -/
def LeveledTo (s : State) (n : Nat) (t : State) : Prop :=
  ∃ lane level grv m q,
    t = s.withEge ((egeBlock s n).2.2.getLastD s.res.gr) (egeBlock s n).2.1 lane level grv m
      (s.io.grLog ++ (egeBlock s n).2.2) q ∧
    framesOf s.params m n = (egeBlock s n).1 ∧ SameOutside s.params.nch.toNat (fun _ => n) s.buf m

theorem withEge_start (s : State) :
    s.withEge ((egeBlock s 0).2.2.getLastD s.res.gr) (egeBlock s 0).2.1 s.scr.lane s.scr.level s.scr.grv s.buf
      (s.io.grLog ++ (egeBlock s 0).2.2) s.pos = s :=
  congrArg (fun l => { s with io := { s.io with grLog := l } }) (List.append_nil _)

theorem leveledTo_start (s : State) : LeveledTo s 0 s :=
  ⟨_, _, _, _, _, (withEge_start s).symm, rfl, .refl _ _ _⟩

/-- One frame further. -/
theorem LeveledTo.turn {s t : State} {n : Nat} (hb : s.HasBlock) (hn : n < s.lat.len.toNat) (h : LeveledTo s n t)
    (hpos : t.pos = ⟨phaseEDet, BitVec.ofNat 24 n, 0⟩) :
    ∃ u, Runs 5 t u ∧ LeveledTo s (n + 1) u ∧
      u.pos = frameStart phaseEDet (afterEge s.lat.op) s.lat.len.toNat (n + 1) := by
  obtain ⟨lane, level, grv, m, q, rfl, hframes, hout⟩ := h
  obtain rfl : q = _ := hpos
  have hidx := toNat_ofNat_index hn
  have hsame : ∀ c ∈ channels s.params,
      memRead m (bufAddr c (BitVec.ofNat 24 n)) = memRead s.buf (bufAddr c (BitVec.ofNat 24 n)) :=
    fun c _ => hout.memRead hidx.ge
  have hw : ∀ c ∈ channels s.params, (memRead m (bufAddr c (BitVec.ofNat 24 n))).isSome = true := fun c hc => by
    rw [hsame c hc]
    exact hb.block _ _ ((mem_channels _ _).1 hc) (hidx.trans_lt hn)
  have hframe : frameOf s.params m n = frameOf s.params s.buf n := frameOf_congr hsame
  obtain ⟨lane', hrun⟩ := runs_egeFrame hn hb.length hw ((egeBlock s n).2.2.getLastD s.res.gr) (egeBlock s n).2.1 lane
    level grv (s.io.grLog ++ (egeBlock s n).2.2)
  rw [State.num_admitted hb.admitted, hframe] at hrun
  refine ⟨_, hrun, ⟨lane', frameLevel (numOf s.params) (frameOf s.params s.buf n), grvAfter s n,
    scaledBuf s m (BitVec.ofNat 24 n) (grvAfter s n), frameStart phaseEDet (afterEge s.lat.op) s.lat.len.toNat (n + 1),
    ?_, ?_, hout.frame hidx _⟩, rfl⟩
  · rw [egeBlock_succ, List.getLastD_eq_getLast?, List.getLast?_concat, ← List.append_assoc]
    rfl
  · rw [framesOf_scaledBuf hn, hframes, hframe, State.num_admitted hb.admitted, egeBlock_succ]

/-- The loop over the whole block. -/
theorem runs_egeFrames {s : State} (h : s.HasBlock) (hlen : 0 < s.lat.len.toNat) (hpos : s.pos = ⟨phaseEDet, 0, 0⟩) :
    ∃ t, Runs (s.lat.len.toNat * 5) s t ∧ LeveledTo s s.lat.len.toNat t ∧ t.pos = ⟨afterEge s.lat.op, 0, 0⟩ :=
  runs_loop (fun _ _ hn ht hq => LeveledTo.turn h hn ht hq) hlen (leveledTo_start s) hpos

/-! ## The stage -/

/-- The core after E_COEF, wherever the sequencer goes from there (R182 to R184). -/
def State.withCoef (s : State) (q : Pos) : State :=
  { s with
    scr := { s.scr with
      ratioC := (numOf s.params).max32 (ratioIn s) f32One
      ac := smoothCoef (numOf s.params) s.lat.attack (rateInForce s)
      rc := smoothCoef (numOf s.params) s.lat.release (rateInForce s)
      slope := slopeOf (numOf s.params) ((numOf s.params).max32 (ratioIn s) f32One) }
    pos := q }

theorem setupOf_withCoef (s : State) (q : Pos) :
    setupOf (s.withCoef q) =
      egeSetup (numOf s.params) (rateInForce s) (ratioIn s) s.lat.thresh s.lat.attack s.lat.release := by
  unfold setupOf egeSetup State.withCoef
  rfl

theorem execECoef_admitted {s : State} (ha : s.io.admitted = true) :
    execECoef s = .next (s.withCoef ⟨afterECoef s.lat.op s.lat.len, 0, 0⟩) := by
  unfold execECoef State.withCoef
  rw [State.num_admitted ha]
  rfl

theorem runs_eCoef {s : State} (ha : s.io.admitted = true) (hpos : s.pos = ⟨phaseECoef, 0, 0⟩) :
    Runs 1 s (s.withCoef ⟨afterECoef s.lat.op s.lat.len, 0, 0⟩) :=
  runs_one (i := .eCoef) (by rw [hpos]; rfl) (execECoef_admitted ha)

/-- The per-frame algorithm over the block of the command in progress, with the ratio of R182. -/
def egeStage (s : State) : List (List F32) × F32 × List F32 :=
  egeRun (numOf s.params) s.params.dbFloor
    (egeSetup (numOf s.params) (rateInForce s) (ratioIn s) s.lat.thresh s.lat.attack s.lat.release) s.hid.env
    (framesOf s.params s.buf s.lat.len.toNat)

theorem egeBlock_withCoef (s : State) (q : Pos) : egeBlock (s.withCoef q) s.lat.len.toNat = egeStage s := by
  rw [egeBlock, setupOf_withCoef]
  rfl

/-- The stage from E_COEF on, whatever the number of frames. -/
theorem runs_ege_leveledTo {s : State} (h : s.HasBlock) (hpos : s.pos = ⟨phaseECoef, 0, 0⟩) :
    ∃ n q t, n ≤ 1 + 5 * s.lat.len.toNat ∧ Runs n s t ∧ LeveledTo (s.withCoef q) s.lat.len.toNat t ∧
      t.pos = ⟨afterEge s.lat.op, 0, 0⟩ := by
  have hcoef := runs_eCoef h.admitted hpos
  by_cases hlen : s.lat.len = 0
  · rw [afterECoef, if_pos hlen] at hcoef
    refine ⟨1, ⟨afterEge s.lat.op, 0, 0⟩, _, by omega, hcoef, ?_, rfl⟩
    rw [hlen]
    exact leveledTo_start _
  · rw [afterECoef, if_neg hlen] at hcoef
    have hpositive : 0 < s.lat.len.toNat := Nat.pos_of_ne_zero fun e => hlen (BitVec.eq_of_toNat_eq e)
    obtain ⟨t, hrun, ht, hq⟩ := runs_egeFrames (s := s.withCoef ⟨phaseEDet, 0, 0⟩) { h with } hpositive rfl
    exact ⟨_, _, t, Nat.add_le_add_left (Nat.mul_comm _ 5).le 1, hcoef.trans hrun, ht, hq⟩

/-- The EGE stage (R200). -/
theorem runs_ege {s : State} (h : s.HasBlock) (hpos : s.pos = ⟨phaseECoef, 0, 0⟩) :
    ∃ n q lane level grv m, n ≤ 1 + 5 * s.lat.len.toNat ∧
      Runs n s
        ((s.withCoef q).withEge ((egeStage s).2.2.getLastD s.res.gr) (egeStage s).2.1 lane level grv m
          (s.io.grLog ++ (egeStage s).2.2) ⟨afterEge s.lat.op, 0, 0⟩) ∧
      framesOf s.params m s.lat.len.toNat = (egeStage s).1 ∧
      SameOutside s.params.nch.toNat (fun _ => s.lat.len.toNat) s.buf m := by
  obtain ⟨n, q, t, hn, hrun, ⟨lane, level, grv, m, q', rfl, hframes, hout⟩, hq⟩ := runs_ege_leveledTo h hpos
  obtain rfl : q' = _ := hq
  rw [egeBlock_withCoef] at hrun hframes
  exact ⟨n, q, lane, level, grv, m, hn, hrun, hframes, hout⟩

/-! ## The command -/

theorem latched_ege (len : Index) (s : State) :
    latched (cmdWord 4 len) s =
      { s.lat with
        op := 4, len := len, thresh := s.host.pThresh, ratio := s.host.pRatio, attack := s.host.pAttack,
        release := s.host.pRelease } := by
  unfold latched
  simp only [cmdOp_cmdWord, cmdLen_cmdWord]
  rfl

theorem uopBound_ege (nch len : Nat) : uopBound 4 nch len = 3 + 5 * len := rfl

/-- Settles O36: acceptance, the EGE stage, DONE. -/
theorem egeCommand : Obligations.EgeCommand := by
  intro s len hwf hready hadm k r
  have hop : blockOp 4 := by unfold blockOp; decide
  have hblock := hasBlock_accept (op := 4) hwf hready hadm
  obtain ⟨x, hx, hlog, henv⟩ := accept_eq_started (cmdWord 4 len) s
  rw [latched_ege, cmdOp_cmdWord] at hx
  rw [hx] at hblock
  obtain ⟨n, q, lane, level, grv, m, hn, hrun, hframes, hout⟩ := runs_ege hblock rfl
  have hbound : n + 1 ≤ uopBound (cmdOp (cmdWord 4 len)) s.params.nch.toNat (cmdLen (cmdWord 4 len)).toNat := by
    have hn' : n ≤ 1 + 5 * len.toNat := hn
    rw [cmdOp_cmdWord, cmdLen_cmdWord, uopBound_ege]
    omega
  exact ⟨_, runCommand_of_runs (offerCondition_ready hready hop) hx hrun rfl rfl hbound, rfl, henv,
    congrArg (· ++ _) hlog, hframes, hout⟩

end Sys2Proof.Machine
end

section
/-! The encodings (30_encoding R90 to R101), format by format: what the words of a format stand for, and that an instruction is
read back from its words and its words from it. -/

namespace Sys2Proof.Machine

/-! ## Transactions on port H (30_encoding R91, R93, R101) -/

/-- The transaction of a header, by its DIR and SPACE bits; the data word is used where DIR is 1. -/
def transaction (header data : Word) : Instr :=
  if headerIsWrite header then
    if headerIsBuf header then .wrs (headerChan header) (headerIndex header) data else .wr (headerAddr header) data
  else if headerIsBuf header then .rds (headerChan header) (headerIndex header) else .rd (headerAddr header)

/-- Every header on port H is an instruction. -/
theorem decode_hostWords (header data : Word) : decode .portH (hostWords header data) = .ok (transaction header data) := by
  cases hw : headerIsWrite header <;> cases hb : headerIsBuf header <;>
    simp [decode, decodePortH, hostWords, transaction, hw, hb]

/-- Words that decode on port H are a header, and a data word where it asks for one. -/
theorem hostWords_of_decodePortH {ws : List Word} {i : Instr} (h : decodePortH ws = .ok i) :
    ∃ header data, ws = hostWords header data := by
  match ws with
  | [] => cases h
  | [header] =>
    cases hw : headerIsWrite header with
    | false => exact ⟨header, 0, by rw [hostWords, hw]; rfl⟩
    | true => simp [decodePortH, hw] at h
  | [header, data] =>
    cases hw : headerIsWrite header with
    | false => simp [decodePortH, hw] at h
    | true => exact ⟨header, data, by rw [hostWords, hw]; rfl⟩
  | _ :: _ :: _ :: _ => cases h

theorem hostWords_txnHeader_write (space : BitVec 1) (a : WordAddr) (data : Word) :
    hostWords (txnHeader 1 space a) data = [txnHeader 1 space a, data] := by
  rw [hostWords, headerIsWrite_txnHeader]; rfl

theorem hostWords_txnHeader_read (space : BitVec 1) (a : WordAddr) (data : Word) :
    hostWords (txnHeader 0 space a) data = [txnHeader 0 space a] := by
  rw [hostWords, headerIsWrite_txnHeader]; rfl

theorem headerChan_append_headerIndex (header : Word) : headerChan header ++ headerIndex header = headerAddr header :=
  BitVec.extractLsb'_append_extractLsb'_eq_extractLsb' (by decide)

/-- A header is made of its three fields. -/
theorem txnHeader_fields (header : Word) :
    txnHeader (.ofBool (headerIsWrite header)) (.ofBool (headerIsBuf header)) (headerAddr header) = header := by
  refine BitVec.eq_of_getLsbD_eq fun k hk => ?_
  rw [Laws.RowMatch.header_bit _ _ _ _ hk]
  split_ifs with haddr hspace
  · simp [headerAddr, haddr]
  · simp [headerIsBuf, hspace]
  · simp [headerIsWrite, show k = 31 by omega]

/-- The words of a header's transaction are the header, and the data word where it is a write. -/
theorem encode_transaction (header data : Word) : encode (transaction header data) = hostWords header data := by
  have hfields := txnHeader_fields header
  unfold transaction hostWords
  cases hw : headerIsWrite header <;> cases hb : headerIsBuf header <;> rw [hw, hb] at hfields
  · exact congrArg (fun h => [h]) hfields
  · exact congrArg (fun h => [h]) (by rw [headerChan_append_headerIndex]; exact hfields)
  · exact congrArg (fun h => [h, data]) hfields
  · exact congrArg (fun h => [h, data]) (by rw [headerChan_append_headerIndex]; exact hfields)

theorem transaction_txnHeader_reg (a : WordAddr) (data : Word) :
    transaction (txnHeader 1 0 a) data = .wr a data ∧ transaction (txnHeader 0 0 a) data = .rd a := by
  constructor <;> rw [transaction, headerIsWrite_txnHeader, headerIsBuf_txnHeader, headerAddr_txnHeader] <;> rfl

theorem transaction_txnHeader_buf (c : Chan) (n : Index) (data : Word) :
    transaction (txnHeader 1 1 (c ++ n)) data = .wrs c n data ∧ transaction (txnHeader 0 1 (c ++ n)) data = .rds c n := by
  constructor <;>
    rw [transaction, headerIsWrite_txnHeader, headerIsBuf_txnHeader, headerChan_txnHeader, headerIndex_txnHeader] <;> rfl

/-- A header on port M other than RDGR's is no instruction (30_encoding R94). -/
theorem decode_portM_other {header : Word} (h : header ≠ 0x0000000A) : decode .portM [header] = .error .notMeterRead :=
  if_neg h

/-! ## Command words (30_encoding R96, R97, R100) -/

/-- The word of a command whose LEN is free decodes by its OP. -/
theorem decodeCommand_cmdWord (op : BitVec 4) (len : Index) (hop : op ≠ 1) :
    decodeCommand (cmdWord op len) =
      if op = 2 then .ok (.process len)
      else if op = 3 then .ok (.srm len)
      else if op = 4 then .ok (.ege len)
      else if op = 5 then .ok (.hen len)
      else .error .illegalCommand := by
  unfold decodeCommand
  rw [cmdOp_cmdWord, cmdRsv_cmdWord, cmdLen_cmdWord, if_neg (by decide), if_neg hop]

/-- A command is encoded as the word it was decoded from. -/
theorem encode_of_decodeCommand {w : Word} {i : Instr} (h : decodeCommand w = .ok i) : encode i = [w] := by
  by_cases hrsv : cmdRsv w = 0
  · have hword : ∀ op, cmdOp w = op → cmdWord op (cmdLen w) = w := fun op hop => hop ▸ cmdWord_fields w hrsv
    rw [decodeCommand, if_neg (not_not.2 hrsv)] at h
    split_ifs at h with hprepare hlen hprocess hsrm hege hhen <;> cases h
    · exact congrArg (fun v => [v]) (hlen ▸ hword 1 hprepare)
    · exact congrArg (fun v => [v]) (hword 2 hprocess)
    · exact congrArg (fun v => [v]) (hword 3 hsrm)
    · exact congrArg (fun v => [v]) (hword 4 hege)
    · exact congrArg (fun v => [v]) (hword 5 hhen)
  · rw [decodeCommand, if_pos hrsv] at h
    cases h

/-! ## The decoder and the encoder -/

/-- Settles O1, format by format: a transaction by its header's bits, a command by its OP, a micro-operation by its code. -/
theorem decodeEncodeAgree : Obligations.DecodeEncodeAgree := by
  intro i
  cases i with
  | wr addr data =>
    have h := decode_hostWords (txnHeader 1 0 addr) data
    rwa [hostWords_txnHeader_write, (transaction_txnHeader_reg addr data).1] at h
  | rd addr =>
    have h := decode_hostWords (txnHeader 0 0 addr) 0
    rwa [hostWords_txnHeader_read, (transaction_txnHeader_reg addr 0).2] at h
  | wrs chan index data =>
    have h := decode_hostWords (txnHeader 1 1 (chan ++ index)) data
    rwa [hostWords_txnHeader_write, (transaction_txnHeader_buf chan index data).1] at h
  | rds chan index =>
    have h := decode_hostWords (txnHeader 0 1 (chan ++ index)) 0
    rwa [hostWords_txnHeader_read, (transaction_txnHeader_buf chan index 0).2] at h
  | rdgr => rfl
  | prepare => rfl
  | process len => exact decodeCommand_cmdWord 2 len (by decide)
  | srm len => exact decodeCommand_cmdWord 3 len (by decide)
  | ege len => exact decodeCommand_cmdWord 4 len (by decide)
  | hen len => exact decodeCommand_cmdWord 5 len (by decide)
  | latch | prep | done | sInit | sBpf | sRms | sRatio | eCoef | eDet | eEnv | eGrc | ePub | eApply | hGain | hHpf | hSat
  | hMac => exact decode_phaseWord _

/-- The words that decode at a place are the encoding of what they decode to. -/
theorem encode_of_decode {b : Bus} {ws : List Word} {i : Instr} (h : decode b ws = .ok i) : encode i = ws := by
  cases b with
  | portH =>
    obtain ⟨header, data, rfl⟩ := hostWords_of_decodePortH h
    cases (decode_hostWords header data).symm.trans h
    exact encode_transaction header data
  | portM =>
    match ws with
    | [] => cases h
    | [header] =>
      by_cases hgr : header = 0x0000000A
      · subst hgr
        cases h
        rfl
      · cases (decode_portM_other hgr).symm.trans h
    | _ :: _ :: _ => cases h
  | command =>
    match ws with
    | [] => cases h
    | [w] => exact encode_of_decodeCommand h
    | _ :: _ :: _ => cases h
  | phase =>
    match ws with
    | [] => cases h
    | [w] =>
      by_cases hw : w.toNat < 32
      · have hcode : (w.setWidth 5).setWidth 32 = w := BitVec.setWidth_setWidth_eq_self (BitVec.lt_def.2 hw)
        rw [← hcode, decode_phaseWord] at h
        rw [(decodePhase_spec _ _ h).2, hcode]
      · simp [decode, hw] at h
    | _ :: _ :: _ => cases h

/-- Settles O2: decoded words name their place, and the encoder writes them again. -/
theorem encodingIsUnique : Obligations.EncodingIsUnique :=
  fun _ _ _ h => ⟨busOf_of_decode h, encode_of_decode h⟩

/-- Settles O4: an accepted word is the encoding of its instruction; the two others are no command and no code. -/
theorem specWordsDecode : Obligations.SpecWordsDecode :=
  ⟨decodeEncodeAgree (.wr 5 0xC1200000), decodeEncodeAgree (.rd 0x0F), decodeEncodeAgree (.wrs 1 2 0xBF666666),
    decodeEncodeAgree (.rds 63 3), decodeEncodeAgree .rdgr, decodeEncodeAgree .prepare, decodeEncodeAgree (.process 4),
    decodeEncodeAgree (.hen 0xFFFFFF), rfl, decodeEncodeAgree .done, decodeEncodeAgree .sRatio, decodeEncodeAgree .eApply,
    decodeEncodeAgree .hMac, rfl⟩

/-! ## Command words by mask and match (30_encoding R97, R100, R104) -/

/-- The mask of the four rows with a LEN compares OP and RSV. -/
theorem and_mask_eq_cmdWord_iff (w : Word) (op : BitVec 4) :
    w &&& 0xFF000000 = cmdWord op 0 ↔ cmdOp w = op ∧ cmdRsv w = 0 := by
  constructor
  · intro h
    have hop : cmdOp (w &&& 0xFF000000) = cmdOp w := BitVec.extractLsb'_and.trans BitVec.and_allOnes
    have hrsv : cmdRsv (w &&& 0xFF000000) = cmdRsv w := BitVec.extractLsb'_and.trans BitVec.and_allOnes
    rw [← hop, ← hrsv, h]
    exact ⟨cmdOp_cmdWord op 0, cmdRsv_cmdWord op 0⟩
  · rintro ⟨rfl, hrsv⟩
    rw [← Laws.RowMatch.command (cmdOp w) (cmdLen w), cmdWord_fields w hrsv]

/-- The mask of PREPARE's row compares the whole word. -/
theorem and_mask_eq_prepare_iff (w : Word) :
    w &&& 0xFFFFFFFF = cmdWord 1 0 ↔ cmdOp w = 1 ∧ cmdRsv w = 0 ∧ cmdLen w = 0 := by
  rw [show w &&& 0xFFFFFFFF = w from BitVec.and_allOnes]
  constructor
  · rintro rfl
    exact ⟨rfl, rfl, rfl⟩
  · rintro ⟨hop, hrsv, hlen⟩
    rw [← cmdWord_fields w hrsv, hop, hlen]

/-- A command word decodes by mask and match. -/
theorem decodeCommand_eq_match (w : Word) :
    decodeCommand w =
      if w &&& 0xFFFFFFFF = cmdWord 1 0 then .ok .prepare
      else if w &&& 0xFF000000 = cmdWord 2 0 then .ok (.process (cmdLen w))
      else if w &&& 0xFF000000 = cmdWord 3 0 then .ok (.srm (cmdLen w))
      else if w &&& 0xFF000000 = cmdWord 4 0 then .ok (.ege (cmdLen w))
      else if w &&& 0xFF000000 = cmdWord 5 0 then .ok (.hen (cmdLen w))
      else .error .illegalCommand := by
  simp only [and_mask_eq_prepare_iff, and_mask_eq_cmdWord_iff]
  unfold decodeCommand
  by_cases hrsv : cmdRsv w = 0
  · by_cases hop : cmdOp w = 1
    · simp [hrsv, hop]
    · simp only [hrsv, hop, ne_eq, not_true_eq_false, if_false, false_and, and_true]
  · simp only [hrsv, ne_eq, not_false_eq_true, if_true, and_false, false_and, if_false]

/-- R100, clause by clause. -/
theorem cmdIllegal_iff (w : Word) :
    cmdIllegal w = true ↔
      (cmdOp w).toNat ∉ [1, 2, 3, 4, 5] ∨ cmdRsv w ≠ 0 ∨ (cmdOp w = 1 ∧ cmdLen w ≠ 0) := by
  have hop : ∀ n : Nat, n ∉ [1, 2, 3, 4, 5] ↔ ¬(1 ≤ n ∧ n ≤ 5) := fun n => by
    simp only [List.mem_cons, List.not_mem_nil, or_false]; omega
  simp only [hop, cmdIllegal, Bool.or_eq_true, Bool.not_eq_true', Bool.and_eq_true, Bool.and_eq_false_iff, decide_eq_true_eq,
    decide_eq_false_iff_not, not_and_or, or_assoc]

theorem decodeCommand_illegal {w : Word} (h : cmdIllegal w = true) : decodeCommand w = .error .illegalCommand := by
  rcases (cmdIllegal_iff w).1 h with hop | hrsv | ⟨hop, hlen⟩
  · have hne : ∀ op : BitVec 4, op.toNat ∈ [1, 2, 3, 4, 5] → cmdOp w ≠ op := fun _ hmem e => hop (e ▸ hmem)
    rw [decodeCommand, if_neg (hne 1 (by decide)), if_neg (hne 2 (by decide)), if_neg (hne 3 (by decide)),
      if_neg (hne 4 (by decide)), if_neg (hne 5 (by decide)), ite_self]
  · rw [decodeCommand, if_pos hrsv]
  · rw [decodeCommand, if_pos hop, if_neg hlen, ite_self]

/-- The words that R100 names decode to no command, and no others. -/
theorem decodeCommand_illegal_iff (w : Word) : decodeCommand w = .error .illegalCommand ↔ cmdIllegal w = true := by
  refine ⟨fun h => ?_, decodeCommand_illegal⟩
  by_contra hlegal
  obtain ⟨i, hi⟩ := decodeCommand_of_legal (Bool.eq_false_iff.2 hlegal)
  cases hi.symm.trans h

/-- Settles O3: the rows of the table, the words of R100, and the headers of R91. -/
theorem commandAndHeaderWordsByTable : Obligations.CommandAndHeaderWordsByTable :=
  ⟨fun w => ⟨decodeCommand_eq_match w, (decodeCommand_illegal_iff w).trans (cmdIllegal_iff w)⟩,
    fun header data => decode_hostWords header data⟩

/-! ## The meter port (30_encoding R94, 44_host_commands R243) -/

/-- GR has no earlier value to show: a host read answers the register. -/
theorem readReg_gr (s : State) : readReg 0x0A s = respondH s.res.gr s := by
  rcases readReg_answer 0x0A s with ⟨-, h⟩ | ⟨x, old, hold, -⟩
  · exact h
  · exact absurd (oldValue_cases hold).2.1 (by decide)

/-- Settles O14: the one header that port M accepts is RDGR; the others go to `meterOther`. -/
theorem meterPortReturnsGr : Obligations.MeterPortReturnsGr := by
  intro s
  refine ⟨rfl, ?host, ?port⟩
  case host => exact (execRd_register s (by decide)).trans (congrArg _ (readReg_gr s))
  case port =>
    intro header data rest hin
    by_cases hgr : header = 0x0000000A
    · subst hgr
      exact step_of_decode (fetch_meter hin) (decodeEncodeAgree .rdgr)
    · rw [if_neg hgr, step_of_reject (fetch_meter hin) (decode_portM_other hgr)]
      change Host.Outcome.next (if header.getLsbD 31 then s.withInputs rest else respondM 0 (s.withInputs rest)) = _
      cases header.getLsbD 31 <;> rfl

end Sys2Proof.Machine
end

section
/-! Rounding to nearest, ties to even (40_numerics R124): the magnitudes that the patterns stand for, in order; the pattern
nearest to a real number; and that `roundUnits` is it. -/

namespace Sys2Proof.Machine

/-! ## Magnitude patterns -/

/-- The magnitude that a pattern without sign stands for, in units of the smallest subnormal, with no upper bound on the
exponent. -/
def patMag (f : Fmt) (p : Nat) : Nat :=
  if p / 2 ^ (f.prec - 1) = 0 then p % 2 ^ (f.prec - 1)
  else (2 ^ (f.prec - 1) + p % 2 ^ (f.prec - 1)) * 2 ^ (p / 2 ^ (f.prec - 1) - 1)

theorem mag_eq_patMag (f : Fmt) (c : Nat) : mag f c = patMag f (c % f.sign) := rfl

/-- What the proofs ask of a format; both formats of 00_scope R10 have it. -/
structure Fmt.Sound (f : Fmt) : Prop where
  prec : 2 ≤ f.prec
  infEven : f.inf % 2 = 0
  infPos : 0 < f.inf
  infLt : f.inf < f.sign
  signEven : f.sign % 2 = 0
  nanRoom : f.inf + 2 ^ (f.prec - 1) ≤ f.sign

theorem fmt32_sound : fmt32.Sound := ⟨by decide, by decide, by decide, by decide, by decide, by decide⟩

theorem fmt64_sound : fmt64.Sound := ⟨by decide, by decide, by decide, by decide, by decide, by decide⟩

section Patterns
variable (f : Fmt)

/-- The pattern with exponent field `k` and significand `m`; a significand of twice full weight carries into the exponent. -/
theorem patMag_scaled {k m : Nat} (hm : k = 0 ∨ 2 ^ (f.prec - 1) ≤ m) (hm' : m ≤ 2 * 2 ^ (f.prec - 1)) :
    patMag f (k * 2 ^ (f.prec - 1) + m) = m * 2 ^ k := by
  unfold patMag
  generalize hP : 2 ^ (f.prec - 1) = P at *
  have hP0 : 0 < P := hP ▸ Nat.two_pow_pos _
  rcases Nat.lt_or_ge m P with hlt | hge
  · obtain rfl : k = 0 := by omega
    simp [Nat.div_eq_of_lt hlt, Nat.mod_eq_of_lt hlt]
  · rcases Nat.lt_or_ge m (2 * P) with hlt2 | hge2
    · have e : k * P + m = (m - P) + (k + 1) * P := by rw [Nat.succ_mul]; omega
      rw [e, Nat.add_mul_div_right _ _ hP0, Nat.add_mul_mod_self_right, Nat.div_eq_of_lt (by omega),
        Nat.mod_eq_of_lt (by omega), if_neg (by omega), show P + (m - P) = m by omega, show 0 + (k + 1) - 1 = k by omega]
    · obtain rfl : m = 2 * P := by omega
      have e : k * P + 2 * P = 0 + (k + 2) * P := by ring
      rw [e, Nat.add_mul_div_right _ _ hP0, Nat.add_mul_mod_self_right, Nat.zero_div, Nat.zero_mod, if_neg (by omega),
        show 0 + (k + 2) - 1 = k + 1 by omega, pow_succ]
      ring

/-- Every pattern has an exponent and a significand of full weight, or no exponent. -/
theorem exists_scaled (p : Nat) :
    ∃ k m, p = k * 2 ^ (f.prec - 1) + m ∧ (k = 0 ∨ 2 ^ (f.prec - 1) ≤ m) ∧ m < 2 * 2 ^ (f.prec - 1) := by
  have hP : 0 < 2 ^ (f.prec - 1) := Nat.two_pow_pos _
  have hmod := Nat.mod_lt p hP
  have hdiv := Nat.div_add_mod p (2 ^ (f.prec - 1))
  rcases hk : p / 2 ^ (f.prec - 1) with _ | k
  · rw [hk] at hdiv
    exact ⟨0, p, by omega, .inl rfl, by omega⟩
  · rw [hk, Nat.mul_succ, Nat.mul_comm] at hdiv
    exact ⟨k, 2 ^ (f.prec - 1) + p % 2 ^ (f.prec - 1), by omega, .inr (by omega), by omega⟩

theorem patMag_strictMono : StrictMono (patMag f) := by
  refine strictMono_nat_of_lt_succ fun p => ?_
  obtain ⟨k, m, rfl, hm, hm'⟩ := exists_scaled f p
  rw [patMag_scaled f hm hm'.le, show k * 2 ^ (f.prec - 1) + m + 1 = k * 2 ^ (f.prec - 1) + (m + 1) by omega,
    patMag_scaled f (by omega) (by omega)]
  exact Nat.mul_lt_mul_of_pos_right (by omega) (Nat.two_pow_pos k)

@[simp] theorem patMag_zero : patMag f 0 = 0 := by simp [patMag]

/-- A significand within the precision, with any exponent, has a pattern. -/
theorem exists_patMag (j : Nat) {n : Nat} (hn : n ≤ 2 * 2 ^ (f.prec - 1)) : ∃ p, patMag f p = n * 2 ^ j := by
  induction j generalizing n with
  | zero => exact ⟨n, by simpa using patMag_scaled f (k := 0) (.inl rfl) hn⟩
  | succ j ih =>
    rcases Nat.lt_or_ge n (2 ^ (f.prec - 1)) with hlt | hge
    · obtain ⟨p, hp⟩ := ih (n := 2 * n) (by omega)
      exact ⟨p, by rw [hp, pow_succ]; ring⟩
    · exact ⟨_, patMag_scaled f (.inr hge) hn⟩

/-- Two magnitudes differ by a unit at least, and by the larger one's last place. -/
theorem patMag_gap {p q : Nat} (h : p < q) :
    (patMag f p : ℝ) + 1 ≤ patMag f q ∧
      (patMag f q : ℝ) ≤ (patMag f q - patMag f p) * (2 * 2 ^ (f.prec - 1)) := by
  refine ⟨by exact_mod_cast patMag_strictMono f h, ?_⟩
  obtain ⟨k, m, e, hm, hm'⟩ := exists_scaled f (q - 1)
  have hq : q = k * 2 ^ (f.prec - 1) + (m + 1) := by omega
  have hp : patMag f p ≤ m * 2 ^ k := by
    rw [← patMag_scaled f hm hm'.le, ← e]
    exact (patMag_strictMono f).monotone (by omega)
  have hp' : (patMag f p : ℝ) ≤ m * 2 ^ k := by exact_mod_cast hp
  have hm1 : (m : ℝ) + 1 ≤ 2 * 2 ^ (f.prec - 1) := by exact_mod_cast hm'
  rw [hq, patMag_scaled f (by omega) (by omega)]
  push_cast
  calc ((m : ℝ) + 1) * 2 ^ k ≤ (2 * 2 ^ (f.prec - 1)) * 2 ^ k := by gcongr
    _ = ((m + 1) * 2 ^ k - m * 2 ^ k) * (2 * 2 ^ (f.prec - 1)) := by ring
    _ ≤ ((m + 1) * 2 ^ k - patMag f p) * (2 * 2 ^ (f.prec - 1)) := by gcongr

end Patterns

/-! ## The nearest pattern -/

/-- `R` is the magnitude pattern nearest to `x`, the even one of two that are as near. -/
def NearestPat (f : Fmt) (x : ℝ) (R : Nat) : Prop :=
  ∀ p, |x - patMag f R| < |x - patMag f p| ∨ p = R ∨ (|x - patMag f R| = |x - patMag f p| ∧ R % 2 = 0)

section Nearest
variable {f : Fmt} {x x' : ℝ} {R R' : Nat}

theorem NearestPat.le (h : NearestPat f x R) (p : Nat) : |x - patMag f R| ≤ |x - patMag f p| := by
  rcases h p with hlt | rfl | ⟨heq, -⟩
  · exact hlt.le
  · exact le_rfl
  · exact heq.le

/-- Of two magnitudes the smaller one is nearer to what lies below the middle. -/
theorem le_middle {a b x : ℝ} (hab : a < b) (h : |x - a| ≤ |x - b|) : 2 * x ≤ a + b := by
  rcases abs_cases (x - a) with ⟨ea, sa⟩ | ⟨ea, sa⟩ <;> rcases abs_cases (x - b) with ⟨eb, sb⟩ | ⟨eb, sb⟩ <;> linarith

theorem middle_le {a b x : ℝ} (hab : a < b) (h : |x - b| ≤ |x - a|) : a + b ≤ 2 * x := by
  rcases abs_cases (x - a) with ⟨ea, sa⟩ | ⟨ea, sa⟩ <;> rcases abs_cases (x - b) with ⟨eb, sb⟩ | ⟨eb, sb⟩ <;> linarith

theorem NearestPat.mono (h : NearestPat f x R) (h' : NearestPat f x' R') (hx : x ≤ x') : R ≤ R' := by
  by_contra hlt
  rw [Nat.not_le] at hlt
  have hM : (patMag f R' : ℝ) < patMag f R := by exact_mod_cast patMag_strictMono f hlt
  have hmid := middle_le hM (h.le R')
  have hmid' := le_middle hM (h'.le R)
  have htie : ∀ {a b : ℝ}, a + b = 2 * x → |x - a| = |x - b| := fun {a b} e => by
    rw [show x - a = -(x - b) by linarith, abs_neg]
  have heven : R % 2 = 0 := by
    rcases h R' with hl | e | ⟨-, he⟩
    · exact absurd (htie (by linarith)) hl.ne'
    · omega
    · exact he
  have hxx : x' = x := by linarith
  have heven' : R' % 2 = 0 := by
    rcases h' R with hl | e | ⟨-, he⟩
    · rw [hxx] at hl
      exact absurd (htie (by linarith)) hl.ne
    · omega
    · exact he
  have hbelow : (patMag f R' : ℝ) < patMag f (R' + 1) := by exact_mod_cast patMag_strictMono f (Nat.lt_succ_self R')
  have habove : (patMag f (R' + 1) : ℝ) < patMag f R := by
    exact_mod_cast patMag_strictMono f (show R' + 1 < R by omega)
  have hnear := h.le (R' + 1)
  have := middle_le habove hnear
  linarith

theorem NearestPat.unique (h : NearestPat f x R) (h' : NearestPat f x R') : R = R' :=
  le_antisymm (h.mono h' le_rfl) (h'.mono h le_rfl)

/-- A magnitude is its own nearest one. -/
theorem nearestPat_patMag (f : Fmt) (p : Nat) : NearestPat f (patMag f p) p := by
  intro q
  rcases eq_or_ne q p with rfl | hne
  · exact .inr (.inl rfl)
  · refine .inl ?_
    rw [sub_self, abs_zero, abs_pos, sub_ne_zero]
    exact fun e => hne ((patMag_strictMono f).injective (Nat.cast_injective e).symm)

/-- What lies at or above the middle below an even pattern rounds to that pattern or beyond. -/
theorem NearestPat.le_iff_middle (h : NearestPat f x R) {t : Nat} (ht : 0 < t) (heven : t % 2 = 0) :
    t ≤ R ↔ (patMag f (t - 1) + patMag f t : ℝ) ≤ 2 * x := by
  have hM : (patMag f (t - 1) : ℝ) < patMag f t := by exact_mod_cast patMag_strictMono f (show t - 1 < t by omega)
  constructor
  · intro hle
    have hR : (patMag f t : ℝ) ≤ patMag f R := by exact_mod_cast (patMag_strictMono f).monotone hle
    have := middle_le (hM.trans_le hR) (h.le (t - 1))
    linarith
  · intro hmid
    by_contra hlt
    rw [Nat.not_le] at hlt
    have hR : (patMag f R : ℝ) ≤ patMag f (t - 1) := by
      exact_mod_cast (patMag_strictMono f).monotone (show R ≤ t - 1 by omega)
    have hRt := le_middle (hR.trans_lt hM) (h.le t)
    obtain rfl : R = t - 1 :=
      (patMag_strictMono f).injective (by exact_mod_cast (show (patMag f R : ℝ) = patMag f (t - 1) by linarith))
    have htie : |x - patMag f (t - 1)| = |x - patMag f t| := by
      rw [show x - patMag f (t - 1) = -(x - patMag f t) by linarith, abs_neg]
    rcases h t with hl | e | ⟨-, he⟩
    · exact hl.ne htie
    · omega
    · omega

/-- The nearest of two neighbouring patterns that enclose `x` is the nearest of all. -/
theorem nearestPat_of_neighbours {p : Nat} (hl : (patMag f p : ℝ) ≤ x) (hu : x < patMag f (p + 1))
    (h : (R = p ∧ 2 * x ≤ patMag f p + patMag f (p + 1) ∧ (2 * x = patMag f p + patMag f (p + 1) → p % 2 = 0)) ∨
      (R = p + 1 ∧ patMag f p + patMag f (p + 1) ≤ 2 * x ∧
        (2 * x = patMag f p + patMag f (p + 1) → (p + 1) % 2 = 0))) :
    NearestPat f x R := by
  intro q
  have below : ∀ {q}, q ≤ p → (patMag f q : ℝ) ≤ patMag f p := fun h => by exact_mod_cast (patMag_strictMono f).monotone h
  have above : ∀ {q}, p + 1 ≤ q → (patMag f (p + 1) : ℝ) ≤ patMag f q := fun h => by
    exact_mod_cast (patMag_strictMono f).monotone h
  have strict : ∀ {q}, q ≠ R → (patMag f q : ℝ) ≠ patMag f R := fun h e =>
    h ((patMag_strictMono f).injective (by exact_mod_cast e))
  rcases eq_or_ne q R with e | hne
  · exact .inr (.inl e)
  have hs := strict hne
  rcases Nat.lt_or_ge p q with hpq | hqp
  · have hq := above hpq
    rw [abs_of_nonpos (show x - patMag f q ≤ 0 by linarith)]
    rcases h with ⟨rfl, hm, he⟩ | ⟨rfl, hm, he⟩
    · rw [abs_of_nonneg (show 0 ≤ x - patMag f R by linarith)]
      rcases lt_or_ge (x - patMag f R) (-(x - patMag f q)) with hlt | hge
      · exact .inl hlt
      · exact .inr (.inr ⟨by linarith, he (by linarith)⟩)
    · rw [abs_of_nonpos (show x - patMag f (p + 1) ≤ 0 by linarith)]
      exact .inl (by linarith [lt_of_le_of_ne hq hs.symm])
  · have hq := below hqp
    rw [abs_of_nonneg (show 0 ≤ x - patMag f q by linarith)]
    rcases h with ⟨rfl, hm, he⟩ | ⟨rfl, hm, he⟩
    · rw [abs_of_nonneg (show 0 ≤ x - patMag f R by linarith)]
      exact .inl (by linarith [lt_of_le_of_ne hq hs])
    · rw [abs_of_nonpos (show x - patMag f (p + 1) ≤ 0 by linarith)]
      rcases lt_or_ge (-(x - patMag f (p + 1))) (x - patMag f q) with hlt | hge
      · exact .inl hlt
      · exact .inr (.inr ⟨by linarith, he (by linarith)⟩)

end Nearest

/-! ## `roundUnits` -/

/-- The exponent that `roundUnits` takes leaves a significand of full precision, or is 0. -/
theorem roundUnits_exponent {f : Fmt} (hf : f.Sound) {num den k : Nat} (hk : k = (num / den).log2 + 1 - f.prec) :
    (k = 0 ∨ 2 ^ (f.prec - 1) ≤ num / (den * 2 ^ k)) ∧ num / (den * 2 ^ k) < 2 * 2 ^ (f.prec - 1) := by
  have hprec := hf.prec
  rw [← Nat.div_div_eq_div_mul]
  generalize hq : num / den = q at *
  have hlog : q < 2 ^ (q.log2 + 1) := Nat.lt_log2_self
  have hle : q.log2 + 1 ≤ f.prec - 1 + 1 + k := by omega
  constructor
  · rcases Nat.eq_zero_or_pos k with h0 | hpos
    · exact .inl h0
    · refine .inr ((Nat.le_div_iff_mul_le (Nat.two_pow_pos k)).2 ?_)
      have hq0 : q ≠ 0 := by rintro rfl; simp at hk; omega
      rw [← pow_add, show f.prec - 1 + k = q.log2 by omega]
      exact Nat.log2_self_le hq0
  · rw [Nat.div_lt_iff_lt_mul (Nat.two_pow_pos k), ← pow_succ', ← pow_add]
    exact hlog.trans_le (Nat.pow_le_pow_right (by omega) hle)

/-- Quotient and remainder of a significand as parts of the fraction, and the remainder against half of the last place. -/
theorem fraction_of_remainder {num den k m r : Nat} (hden : 0 < den) (hdiv : den * 2 ^ k * m + r = num) :
    (num / den : ℝ) = m * 2 ^ k + r / den ∧ (r < den * 2 ^ k → (r / den : ℝ) < 2 ^ k) ∧
      (2 * r < den * 2 ^ k ↔ 2 * (r / den : ℝ) < 2 ^ k) ∧ (den * 2 ^ k < 2 * r ↔ (2 ^ k : ℝ) < 2 * (r / den)) := by
  have hden' : (0 : ℝ) < den := by exact_mod_cast hden
  refine ⟨?_, fun hr => ?_, ?_, ?_⟩
  · rw [div_eq_iff hden'.ne', ← hdiv]
    push_cast
    field_simp
  · rw [div_lt_iff₀ hden', mul_comm]; exact_mod_cast hr
  · rw [mul_div_assoc', div_lt_iff₀ hden', mul_comm (2 ^ k : ℝ)]; exact_mod_cast Iff.rfl
  · rw [mul_div_assoc', lt_div_iff₀ hden', mul_comm (2 ^ k : ℝ)]; exact_mod_cast Iff.rfl

/-- `roundUnits` is the nearest pattern, ties to even (R124). -/
theorem roundUnits_nearest {f : Fmt} (hf : f.Sound) (num : Nat) {den : Nat} (hden : 0 < den) :
    NearestPat f (num / den) (roundUnits f num den) := by
  unfold roundUnits
  generalize hk : (num / den).log2 + 1 - f.prec = k
  obtain ⟨hfull, hsig⟩ := roundUnits_exponent hf hk.symm
  simp only
  have hd : 0 < den * 2 ^ k := Nat.mul_pos hden (Nat.two_pow_pos k)
  have hdiv := Nat.div_add_mod num (den * 2 ^ k)
  have hmod := Nat.mod_lt num hd
  generalize num / (den * 2 ^ k) = m at *
  generalize num % (den * 2 ^ k) = r at *
  have hM : patMag f (k * 2 ^ (f.prec - 1) + m) = m * 2 ^ k := patMag_scaled f hfull hsig.le
  have hM' : patMag f (k * 2 ^ (f.prec - 1) + m + 1) = (m + 1) * 2 ^ k := by
    rw [Nat.add_assoc]; exact patMag_scaled f (by omega) (by omega)
  have hPeven : k * 2 ^ (f.prec - 1) % 2 = 0 := by
    rw [show f.prec - 1 = f.prec - 2 + 1 by have := hf.prec; omega, pow_succ, ← mul_assoc, Nat.mul_mod_left]
  obtain ⟨hx, hr1, hlow, hhigh⟩ := fraction_of_remainder hden hdiv
  have hr0 : (0 : ℝ) ≤ r / den := by positivity
  refine nearestPat_of_neighbours (p := k * 2 ^ (f.prec - 1) + m) ?_ ?_ ?_
  · rw [hM, hx]; push_cast; linarith
  · rw [hM', hx]; push_cast; linarith [hr1 hmod]
  · rw [hM, hM', hx]
    push_cast
    rcases lt_trichotomy (2 * r) (den * 2 ^ k) with hlt | heq | hgt
    · have := hlow.1 hlt
      rw [if_neg (by simp; omega)]
      exact .inl ⟨rfl, by linarith, fun e => by linarith⟩
    · have h1 := mt hlow.2 (by omega)
      have h2 := mt hhigh.2 (by omega)
      rcases Nat.mod_two_eq_zero_or_one m with hm0 | hm1
      · rw [if_neg (by simp; omega)]
        exact .inl ⟨rfl, by linarith, fun _ => by omega⟩
      · rw [if_pos (by simp [heq, hm1])]
        exact .inr ⟨by omega, by linarith, fun _ => by omega⟩
    · have := hhigh.1 hgt
      rw [if_pos (by simp; omega)]
      exact .inr ⟨by omega, by linarith, fun e => by linarith⟩

end Sys2Proof.Machine
end

section
/-! Rounded results: a pattern that is the rounding of a real number (40_numerics R124), what follows from it, and the
operations of `Num_ref` whose result on finite operands is one. -/

namespace Sys2Proof.Machine

/-! ## Patterns with a sign -/

section Codes
variable {f : Fmt} {c : Nat}

/-- A pattern is its sign and its magnitude pattern. -/
theorem code_eq_sign_add (hc : c < 2 * f.sign) : c = (if isNeg f c then f.sign else 0) + c % f.sign := by
  rcases Nat.lt_or_ge c f.sign with hlt | hge
  · simp [isNeg, hlt, Nat.mod_eq_of_lt hlt]
  · have : c % f.sign = c - f.sign := by
      rw [Nat.mod_eq_sub_mod hge, Nat.mod_eq_of_lt (by omega)]
    simp [isNeg, hge]; omega

theorem isNeg_sign_add (f : Fmt) {p : Nat} (hp : p < f.sign) (neg : Bool) :
    isNeg f ((if neg then f.sign else 0) + p) = neg := by
  cases neg <;> simp [isNeg, hp]

theorem sign_add_mod (f : Fmt) {p : Nat} (hp : p < f.sign) (neg : Bool) :
    ((if neg then f.sign else 0) + p) % f.sign = p := by
  cases neg <;> simp [Nat.mod_eq_of_lt hp]

theorem val_eq (f : Fmt) (c : Nat) :
    (val f c : ℝ) = if isNeg f c then -(patMag f (c % f.sign) : ℝ) else patMag f (c % f.sign) := by
  unfold val
  rw [mag_eq_patMag]
  split <;> push_cast <;> rfl

theorem abs_val (f : Fmt) (c : Nat) : |(val f c : ℝ)| = patMag f (c % f.sign) := by
  rw [val_eq]
  split <;> simp

/-- A pattern is finite where its magnitude pattern lies below that of the infinity. -/
theorem finite_code_iff : (isNaN f c = false ∧ isInf f c = false) ↔ c % f.sign < f.inf := by
  simp only [isNaN, isInf, decide_eq_false_iff_not]
  omega

end Codes

/-! ## Rounding of a signed number -/

/-- The pattern `c` is the number `y` of units, rounded to nearest, ties to even, or the infinity of its sign; a zero may have
either sign where `y` is 0. -/
structure Rounded (f : Fmt) (y : ℝ) (c : Nat) : Prop where
  bound : c < 2 * f.sign
  neg : y < 0 → isNeg f c = true
  pos : 0 < y → isNeg f c = false
  near : ∃ R, NearestPat f |y| R ∧ c % f.sign = min f.inf R

/-- `pack` rounds the fraction that it is given. -/
theorem pack_rounded {f : Fmt} (hf : f.Sound) (neg : Bool) (num : Nat) {den : Nat} (hden : 0 < den) :
    Rounded f (if neg then -(num / den : ℝ) else num / den) (pack f neg num den) := by
  have hx : (0 : ℝ) ≤ num / den := by positivity
  have hmin : min f.inf (roundUnits f num den) < f.sign := (min_le_left _ _).trans_lt hf.infLt
  have hpack : pack f neg num den = (if neg then f.sign else 0) + min f.inf (roundUnits f num den) := rfl
  rw [hpack]
  refine ⟨?_, ?_, ?_, roundUnits f num den, ?_, sign_add_mod f hmin neg⟩
  · split <;> omega
  · rw [isNeg_sign_add f hmin]
    cases neg
    · intro h; simp at h; linarith
    · exact fun _ => rfl
  · rw [isNeg_sign_add f hmin]
    cases neg
    · exact fun _ => rfl
    · intro h; simp at h; linarith
  · have : |if neg then -(num / den : ℝ) else num / den| = num / den := by
      cases neg <;> simp [abs_of_nonneg hx]
    rw [this]
    exact roundUnits_nearest hf num hden

section Rounded
variable {f : Fmt} {y y' : ℝ} {c c' : Nat}

theorem Rounded.not_nan (h : Rounded f y c) : isNaN f c = false := by
  obtain ⟨R, -, hR⟩ := h.near
  simp only [isNaN, hR, decide_eq_false_iff_not]
  omega

/-- The result is finite up to the middle between the largest finite magnitude and the one that would come next (R125). -/
theorem Rounded.isInf_iff (hf : f.Sound) (h : Rounded f y c) :
    isInf f c = true ↔ (patMag f (f.inf - 1) + patMag f f.inf : ℝ) ≤ 2 * |y| := by
  obtain ⟨R, hR, hc⟩ := h.near
  rw [← hR.le_iff_middle hf.infPos hf.infEven, isInf, hc, decide_eq_true_eq]
  omega

theorem Rounded.mag_eq_zero (h : Rounded f 0 c) : c % f.sign = 0 := by
  obtain ⟨R, hR, hc⟩ := h.near
  have h0 : NearestPat f |(0 : ℝ)| 0 := by simpa using nearestPat_patMag f 0
  rw [hc, hR.unique h0]
  exact Nat.min_zero _

/-- A rounded value keeps its distance from the exact one when both lose their signs. -/
theorem Rounded.abs_sub_val (h : Rounded f y c) : |y - val f c| = |(|y| - patMag f (c % f.sign))| := by
  rw [val_eq]
  rcases lt_trichotomy y 0 with hy | rfl | hy
  · rw [h.neg hy, if_pos rfl, abs_of_neg hy, ← abs_neg]
    congr 1; ring
  · rw [h.mag_eq_zero]; simp
  · rw [h.pos hy, if_neg Bool.false_ne_true, abs_of_pos hy]

/-- Another pattern of the same magnitude has the same value or is farther. -/
theorem Rounded.lt_of_opposite (h : Rounded f y c) (hm : c' % f.sign = c % f.sign) (hne : val f c' ≠ val f c) :
    |y - val f c| < |y - val f c'| := by
  have habs : |(val f c' : ℝ)| = |(val f c : ℝ)| := by rw [abs_val, abs_val, hm]
  have hopp : (val f c' : ℝ) = -val f c := by
    rcases abs_eq_abs.1 habs with e | e
    · exact absurd (by exact_mod_cast e) hne
    · exact e
  have hv : (val f c : ℝ) ≠ 0 := fun e => hne (by
    have : (val f c' : ℝ) = val f c := by rw [hopp, e, neg_zero]
    exact_mod_cast this)
  have hM : (0 : ℝ) < patMag f (c % f.sign) := by rw [← abs_val]; exact abs_pos.2 hv
  have hval := val_eq f c
  rw [hopp]
  rcases lt_trichotomy y 0 with hy | rfl | hy
  · rw [h.neg hy, if_pos rfl] at hval
    rw [hval, abs_lt, neg_neg]
    rcases abs_cases (y - patMag f (c % f.sign)) with ⟨e, _⟩ | ⟨e, _⟩ <;> rw [e] <;> constructor <;> linarith
  · rw [h.mag_eq_zero, patMag_zero] at hM
    simp at hM
  · rw [h.pos hy, if_neg Bool.false_ne_true] at hval
    rw [hval, abs_lt]
    rcases abs_cases (y - -(patMag f (c % f.sign) : ℝ)) with ⟨e, _⟩ | ⟨e, _⟩ <;> rw [e] <;> constructor <;> linarith

/-- A finite result is the nearest of all values of the format, ties to even (R124). -/
theorem Rounded.nearest (hf : f.Sound) (h : Rounded f y c) (hfin : isInf f c = false) (c' : Nat) :
    |y - val f c| < |y - val f c'| ∨ val f c' = val f c ∨ (|y - val f c| = |y - val f c'| ∧ c % 2 = 0) := by
  obtain ⟨R, hR, hc⟩ := h.near
  have hRc : c % f.sign = R := by
    simp only [isInf, decide_eq_false_iff_not] at hfin
    omega
  have hd : |y - val f c| = |(|y| - patMag f R)| := by rw [h.abs_sub_val, hRc]
  have hd' : |(|y| - patMag f (c' % f.sign))| ≤ |y - val f c'| := by
    rw [← abs_val]; exact abs_abs_sub_abs_le _ _
  rcases hR (c' % f.sign) with hlt | heq | ⟨htie, heven⟩
  · exact .inl (by rw [hd]; exact hlt.trans_le hd')
  · by_cases hv : val f c' = val f c
    · exact .inr (.inl hv)
    · exact .inl (h.lt_of_opposite (by rw [heq, hRc]) hv)
  · rcases (htie.le.trans hd').lt_or_eq with hlt | he
    · exact .inl (by rwa [hd])
    · refine .inr (.inr ⟨by rwa [hd], ?_⟩)
      rw [code_eq_sign_add h.bound, hRc]
      have := hf.signEven
      split <;> omega

/-- Rounding keeps the order of values. -/
theorem Rounded.val_mono (h : Rounded f y c) (h' : Rounded f y' c') (hy : y ≤ y') : val f c ≤ val f c' := by
  obtain ⟨R, hR, hc⟩ := h.near
  obtain ⟨R', hR', hc'⟩ := h'.near
  have hmono := (patMag_strictMono f).monotone
  have hv := val_eq f c
  have hv' := val_eq f c'
  have h0 : (0 : ℝ) ≤ patMag f (c % f.sign) := Nat.cast_nonneg _
  have h0' : (0 : ℝ) ≤ patMag f (c' % f.sign) := Nat.cast_nonneg _
  suffices (val f c : ℝ) ≤ val f c' by exact_mod_cast this
  rcases lt_trichotomy y' 0 with hy' | rfl | hy'
  · have hneg : y < 0 := hy.trans_lt hy'
    have hle : R' ≤ R := hR'.mono hR (by rw [abs_of_neg hneg, abs_of_neg hy']; linarith)
    have : (patMag f (c' % f.sign) : ℝ) ≤ patMag f (c % f.sign) := by
      exact_mod_cast hmono (by rw [hc, hc']; omega)
    rw [hv, hv', h.neg hneg, h'.neg hy', if_pos rfl, if_pos rfl]; linarith
  · have hz' : (val f c' : ℝ) = 0 := by
      rw [hv', h'.mag_eq_zero]; simp
    rcases hy.lt_or_eq with hneg | rfl
    · rw [hv, h.neg hneg, if_pos rfl, hz']; linarith
    · rw [hz', hv, h.mag_eq_zero]; simp
  · rw [hv', h'.pos hy', if_neg Bool.false_ne_true]
    rcases lt_trichotomy y 0 with hneg | rfl | hpos
    · rw [hv, h.neg hneg, if_pos rfl]; linarith
    · rw [hv, h.mag_eq_zero]; simp
    · have hle : R ≤ R' := hR.mono hR' (by rwa [abs_of_pos hpos, abs_of_pos hy'])
      have : (patMag f (c % f.sign) : ℝ) ≤ patMag f (c' % f.sign) := by
        exact_mod_cast hmono (by rw [hc, hc']; omega)
      rwa [hv, h.pos hpos, if_neg Bool.false_ne_true]

/-- A finite pattern is the rounding of its own value. -/
theorem rounded_val (hc : c < 2 * f.sign) (hfin : c % f.sign < f.inf) : Rounded f (val f c) c := by
  have hM : (0 : ℝ) ≤ patMag f (c % f.sign) := Nat.cast_nonneg _
  refine ⟨hc, ?_, ?_, c % f.sign, by rw [abs_val]; exact nearestPat_patMag f _, by omega⟩
  · rw [val_eq]
    cases isNeg f c
    · intro h; simp at h; linarith
    · exact fun _ => rfl
  · rw [val_eq]
    cases isNeg f c
    · exact fun _ => rfl
    · intro h; simp at h; linarith

/-- Values of the format are not rounded. -/
theorem Rounded.exact (h : Rounded f (val f c') c) (hc' : c' < 2 * f.sign) (hfin : c' % f.sign < f.inf) :
    c % f.sign = c' % f.sign ∧ val f c = val f c' := by
  have h' := rounded_val hc' hfin
  obtain ⟨R, hR, hc⟩ := h.near
  obtain ⟨R', hR', hc''⟩ := h'.near
  exact ⟨by rw [hc, hc'', hR.unique hR'], le_antisymm (h.val_mono h' le_rfl) (h'.val_mono h le_rfl)⟩

/-- A value of the format other than 0 has one pattern. -/
theorem Rounded.exact_code (h : Rounded f (val f c') c) (hc' : c' < 2 * f.sign) (hfin : c' % f.sign < f.inf)
    (h0 : val f c' ≠ 0) : c = c' := by
  have h' := rounded_val hc' hfin
  have hneg : isNeg f c = isNeg f c' := by
    have h0' : (val f c' : ℝ) ≠ 0 := by exact_mod_cast h0
    rcases lt_or_gt_of_ne h0' with hlt | hgt
    · rw [h.neg hlt, h'.neg hlt]
    · rw [h.pos hgt, h'.pos hgt]
  rw [code_eq_sign_add h.bound, code_eq_sign_add hc', hneg, (h.exact hc' hfin).1]

theorem val_zero_code (f : Fmt) : val f 0 = 0 := by
  unfold val
  rw [mag_eq_patMag, Nat.zero_mod, patMag_zero]
  split <;> rfl

theorem rounded_zero (hf : f.Sound) : Rounded f 0 0 := by
  have hpos := hf.infPos.trans hf.infLt
  have hz := rounded_val (f := f) (c := 0) (by omega) (by rw [Nat.zero_mod]; exact hf.infPos)
  rwa [val_zero_code, Int.cast_zero] at hz

theorem Rounded.val_nonneg (hf : f.Sound) (h : Rounded f y c) (hy : 0 ≤ y) : 0 ≤ val f c := by
  rw [← val_zero_code f]
  exact (rounded_zero hf).val_mono h hy

/-- A magnitude of the format is not rounded. -/
theorem Rounded.val_of_patMag (h : Rounded f y c) {p : Nat} (hp : |y| = patMag f p) (hfin : p < f.inf) :
    c % f.sign = p ∧ (val f c : ℝ) = y := by
  obtain ⟨R, hR, hc⟩ := h.near
  have hcp : c % f.sign = p := by
    rw [hp] at hR
    rw [hc, hR.unique (nearestPat_patMag f p)]; omega
  refine ⟨hcp, ?_⟩
  rw [val_eq, hcp, ← hp]
  rcases lt_trichotomy y 0 with hy | rfl | hy
  · rw [h.neg hy, if_pos rfl, abs_of_neg hy, neg_neg]
  · simp
  · rw [h.pos hy, if_neg Bool.false_ne_true, abs_of_pos hy]

end Rounded

/-! ## The operations on patterns -/

section Ops
variable {f : Fmt} {nan a b : Nat}

theorem addCode_rounded (hf : f.Sound) (ha : isNaN f a = false ∧ isInf f a = false)
    (hb : isNaN f b = false ∧ isInf f b = false) : Rounded f (val f a + val f b) (addCode f nan a b) := by
  unfold addCode
  simp only [ha.1, ha.2, hb.1, hb.2, Bool.or_self, Bool.false_eq_true, if_false]
  have hs : (val f a + val f b : ℝ) = ((val f a + val f b : ℤ) : ℝ) := by push_cast; rfl
  rw [hs]
  generalize val f a + val f b = s
  split
  · subst s
    have hsign : 0 < f.sign := hf.infPos.trans hf.infLt
    refine ⟨by split <;> omega, by simp, by simp, 0, by simpa using nearestPat_patMag f 0, ?_⟩
    split <;> simp
  · have h := pack_rounded hf (decide (s < 0)) s.natAbs Nat.one_pos
    convert h using 1
    have hn : ((s.natAbs : ℕ) : ℝ) = |(s : ℝ)| := by rw [Nat.cast_natAbs, Int.cast_abs]
    rw [hn, Nat.cast_one, div_one]
    rcases lt_or_ge s 0 with hlt | hge
    · have : (s : ℝ) < 0 := by exact_mod_cast hlt
      simp [hlt, abs_of_neg this]
    · have : (0 : ℝ) ≤ s := by exact_mod_cast hge
      simp [not_lt.2 hge, abs_of_nonneg this]

/-- The value of a signed fraction of magnitudes. -/
theorem sign_ite_mul {x y : ℝ} (n m : Bool) :
    (if (n != m) then -(x * y) else x * y) = (if n then -x else x) * (if m then -y else y) := by
  cases n <;> cases m <;> simp

theorem mulCode_rounded (hf : f.Sound) (ha : isNaN f a = false ∧ isInf f a = false)
    (hb : isNaN f b = false ∧ isInf f b = false) :
    Rounded f (val f a * val f b / 2 ^ f.unit) (mulCode f nan a b) := by
  unfold mulCode
  simp only [ha.1, ha.2, hb.1, hb.2, Bool.or_self, Bool.false_eq_true, if_false]
  have h := pack_rounded hf (isNeg f a != isNeg f b) (mag f a * mag f b) (Nat.two_pow_pos f.unit)
  convert h using 1
  rw [val_eq, val_eq, mag_eq_patMag, mag_eq_patMag, ← sign_ite_mul]
  push_cast
  split <;> ring

theorem divCode_rounded (hf : f.Sound) (ha : isNaN f a = false ∧ isInf f a = false)
    (hb : isNaN f b = false ∧ isInf f b = false) (h0 : val f b ≠ 0) :
    Rounded f (val f a * 2 ^ f.unit / val f b) (divCode f nan a b) := by
  have hm : mag f b ≠ 0 := by rwa [← val_natAbs, Int.natAbs_ne_zero]
  unfold divCode
  simp only [ha.1, ha.2, hb.1, hb.2, Bool.or_self, Bool.false_eq_true, if_false, hm]
  have h := pack_rounded hf (isNeg f a != isNeg f b) (mag f a * 2 ^ f.unit) (Nat.pos_of_ne_zero hm)
  convert h using 1
  rw [val_eq, val_eq, mag_eq_patMag, mag_eq_patMag]
  push_cast
  cases isNeg f a <;> cases isNeg f b <;> simp [neg_div, div_neg]

theorem cvtCode_rounded {src dst : Fmt} (hdst : dst.Sound) (ha : isNaN src a = false ∧ isInf src a = false) :
    Rounded dst (val src a * 2 ^ dst.unit / 2 ^ src.unit) (cvtCode src dst nan a) := by
  unfold cvtCode
  simp only [ha.1, ha.2, Bool.false_eq_true, if_false]
  have h := pack_rounded hdst (isNeg src a) (mag src a * 2 ^ dst.unit) (Nat.two_pow_pos src.unit)
  convert h using 1
  rw [val_eq, mag_eq_patMag]
  push_cast
  split <;> ring

end Ops

end Sys2Proof.Machine
end

section
/-! F32 and F64 words as patterns: their values, their signs, and the words that are a rounded real number
(40_numerics R124). -/

namespace Sys2Proof.Machine

/-! ## Words and values -/

theorem toNat_lt_two_sign32 (x : F32) : x.toNat < 2 * fmt32.sign := x.isLt

theorem toNat_lt_two_sign64 (x : F64) : x.toNat < 2 * fmt64.sign := x.isLt

theorem finite32_iff {x : F32} : finite32 x ↔ x.toNat % fmt32.sign < fmt32.inf := finite_code_iff

theorem finite64_iff {x : F64} : finite64 x ↔ x.toNat % fmt64.sign < fmt64.inf := finite_code_iff

theorem rat32_cast (x : F32) : ((rat32 x : ℚ) : ℝ) = val fmt32 x.toNat / 2 ^ 149 := by
  unfold rat32; push_cast; rfl

theorem rat64_cast (x : F64) : ((rat64 x : ℚ) : ℝ) = val fmt64 x.toNat / 2 ^ 1074 := by
  unfold rat64; push_cast; rfl

theorem rat32_mul_unit (x : F32) : ((rat32 x : ℚ) : ℝ) * 2 ^ 149 = val fmt32 x.toNat := by
  rw [rat32_cast, div_mul_cancel₀ _ (by positivity)]

theorem rat64_mul_unit (x : F64) : ((rat64 x : ℚ) : ℝ) * 2 ^ 1074 = val fmt64 x.toNat := by
  rw [rat64_cast, div_mul_cancel₀ _ (by positivity)]

theorem rat32_lt_iff {a b : F32} : rat32 a < rat32 b ↔ val fmt32 a.toNat < val fmt32 b.toNat := by
  rw [rat32, rat32, div_lt_div_iff_of_pos_right (by positivity), Int.cast_lt]

theorem rat64_lt_iff {a b : F64} : rat64 a < rat64 b ↔ val fmt64 a.toNat < val fmt64 b.toNat := by
  rw [rat64, rat64, div_lt_div_iff_of_pos_right (by positivity), Int.cast_lt]

theorem val_eq_zero_iff {f : Fmt} {c : Nat} : val f c = 0 ↔ c % f.sign = 0 := by
  rw [← Int.natAbs_eq_zero, val_natAbs, mag_eq_patMag]
  exact ⟨fun h => (patMag_strictMono f).injective (by rw [h, patMag_zero]), fun h => by rw [h, patMag_zero]⟩

theorem zero32_iff {x : F32} : zero32 x ↔ val fmt32 x.toNat = 0 := by
  rw [val_eq_zero_iff]
  constructor
  · rintro (rfl | rfl) <;> decide
  · intro h
    have hx := code_eq_sign_add (toNat_lt_two_sign32 x)
    rw [h] at hx
    cases hn : isNeg fmt32 x.toNat <;> rw [hn] at hx
    · exact .inl (BitVec.eq_of_toNat_eq hx)
    · exact .inr (BitVec.eq_of_toNat_eq hx)

theorem zero32_iff_rat {x : F32} : zero32 x ↔ rat32 x = 0 := by
  rw [zero32_iff, rat32, div_eq_zero_iff, Int.cast_eq_zero]
  simp

theorem not_nan32 {x : F32} (h : finite32 x) : ¬nan32P x := by simp [nan32P, h.1]

theorem not_nan64 {x : F64} (h : finite64 x) : ¬nan64P x := by simp [nan64P, h.1]

/-! ## Bit 31 -/

theorem isNeg_eq_getLsbD (x : F32) : isNeg fmt32 x.toNat = x.getLsbD 31 := by
  rw [show x.getLsbD 31 = x.msb from (BitVec.msb_eq_getLsbD_last x).symm, BitVec.msb_eq_decide]
  rfl

theorem getLsbD_signBit (i : Nat) : (0x80000000 : F32).getLsbD i = decide (i = 31) := by
  rcases Nat.lt_or_ge i 32 with hlt | hge
  · exact (by decide : ∀ i < 32, (0x80000000 : F32).getLsbD i = decide (i = 31)) i hlt
  · rw [BitVec.getLsbD_of_ge _ _ hge, decide_eq_false (by omega)]

theorem getLsbD_magBits (i : Nat) : (0x7FFFFFFF : F32).getLsbD i = decide (i < 31) := by
  rcases Nat.lt_or_ge i 32 with hlt | hge
  · exact (by decide : ∀ i < 32, (0x7FFFFFFF : F32).getLsbD i = decide (i < 31)) i hlt
  · rw [BitVec.getLsbD_of_ge _ _ hge, decide_eq_false (by omega)]

/-- The magnitude pattern of a word is what is left without bit 31. -/
theorem toNat_and_magBits (x : F32) : (x &&& 0x7FFFFFFF).toNat = x.toNat % fmt32.sign := by
  rw [BitVec.toNat_and]
  exact Nat.and_two_pow_sub_one_eq_mod x.toNat 31

theorem refNeg32_mod (x : F32) : (refNeg32 x).toNat % fmt32.sign = x.toNat % fmt32.sign := by
  rw [← toNat_and_magBits, ← toNat_and_magBits]
  congr 1
  refine BitVec.eq_of_getLsbD_eq fun i hi => ?_
  rw [refNeg32, BitVec.getLsbD_and, BitVec.getLsbD_and, BitVec.getLsbD_xor, getLsbD_signBit, getLsbD_magBits]
  rcases eq_or_ne i 31 with rfl | hne
  · simp
  · simp [hne]

theorem isNeg_refNeg32 (x : F32) : isNeg fmt32 (refNeg32 x).toNat = !isNeg fmt32 x.toNat := by
  rw [isNeg_eq_getLsbD, isNeg_eq_getLsbD, refNeg32, BitVec.getLsbD_xor, getLsbD_signBit]
  simp

theorem isNeg_refAbs32 (x : F32) : isNeg fmt32 (refAbs32 x).toNat = false := by
  rw [isNeg_eq_getLsbD, refAbs32, BitVec.getLsbD_and, getLsbD_magBits]
  simp

theorem val_refNeg32 (x : F32) : val fmt32 (refNeg32 x).toNat = -val fmt32 x.toNat := by
  simp only [val, isNeg_refNeg32, mag_eq_patMag, refNeg32_mod]
  cases isNeg fmt32 x.toNat <;> simp

theorem val_refAbs32 (x : F32) : val fmt32 (refAbs32 x).toNat = |val fmt32 x.toNat| := by
  have h : (refAbs32 x).toNat % fmt32.sign = x.toNat % fmt32.sign := by
    rw [refAbs32, toNat_and_magBits, Nat.mod_mod]
  simp only [val, isNeg_refAbs32, mag_eq_patMag, h]
  cases isNeg fmt32 x.toNat <;> simp

theorem finite32_refNeg32 {x : F32} : finite32 (refNeg32 x) ↔ finite32 x := by
  rw [finite32_iff, finite32_iff, refNeg32_mod]

theorem nan32P_refNeg32 {x : F32} : nan32P (refNeg32 x) ↔ nan32P x := by
  simp only [nan32P, isNaN, refNeg32_mod]

theorem rat32_refNeg32 (x : F32) : rat32 (refNeg32 x) = -rat32 x := by
  rw [rat32, rat32, val_refNeg32]; push_cast; ring

/-! ## Words that are a rounded number -/

/-- `r` is the F32 nearest to `y`, ties to even, or the infinity of its sign (R124, R125). -/
def Rounds32 (y : ℝ) (r : F32) : Prop := Rounded fmt32 (y * 2 ^ 149) r.toNat

/-- `r` is the F64 nearest to `y`, ties to even, or the infinity of its sign (R124, R125). -/
def Rounds64 (y : ℝ) (r : F64) : Prop := Rounded fmt64 (y * 2 ^ 1074) r.toNat

theorem Rounded.toNat_ofNat32 {y : ℝ} {c : Nat} (h : Rounded fmt32 y c) : (BitVec.ofNat 32 c).toNat = c := by
  rw [BitVec.toNat_ofNat]; exact Nat.mod_eq_of_lt h.bound

theorem Rounded.toNat_ofNat64 {y : ℝ} {c : Nat} (h : Rounded fmt64 y c) : (BitVec.ofNat 64 c).toNat = c := by
  rw [BitVec.toNat_ofNat]; exact Nat.mod_eq_of_lt h.bound

theorem rounds32_ofNat {y : ℝ} {c : Nat} (h : Rounded fmt32 (y * 2 ^ 149) c) : Rounds32 y (BitVec.ofNat 32 c) := by
  rw [Rounds32, h.toNat_ofNat32]; exact h

theorem rounds64_ofNat {y : ℝ} {c : Nat} (h : Rounded fmt64 (y * 2 ^ 1074) c) : Rounds64 y (BitVec.ofNat 64 c) := by
  rw [Rounds64, h.toNat_ofNat64]; exact h

section Rounds
variable {y y' : ℝ}

theorem Rounds32.le32 {r r' : F32} (h : Rounds32 y r) (h' : Rounds32 y' r') (hy : y ≤ y') : le32 r r' :=
  fun _ _ => Rounded.val_mono h h' (by gcongr)

/-- A finite word is its own value, rounded. -/
theorem rounds32_self {x : F32} (h : finite32 x) : Rounds32 (rat32 x) x := by
  rw [Rounds32, rat32_mul_unit]
  exact rounded_val (toNat_lt_two_sign32 x) (finite32_iff.1 h)

theorem rounds64_self {x : F64} (h : finite64 x) : Rounds64 (rat64 x) x := by
  rw [Rounds64, rat64_mul_unit]
  exact rounded_val (toNat_lt_two_sign64 x) (finite64_iff.1 h)

/-- The value of a finite word other than a zero is rounded to that word. -/
theorem Rounds32.eq_of_exact {r x : F32} (h : Rounds32 (rat32 x) r) (hx : finite32 x) (h0 : ¬zero32 x) : r = x := by
  rw [Rounds32, rat32_mul_unit] at h
  exact BitVec.eq_of_toNat_eq (h.exact_code (toNat_lt_two_sign32 x) (finite32_iff.1 hx) (mt zero32_iff.2 h0))

theorem Rounds32.zero {r : F32} (h : Rounds32 0 r) : zero32 r := by
  rw [Rounds32, zero_mul] at h
  exact zero32_iff.2 (val_eq_zero_iff.2 h.mag_eq_zero)

/-- An exact value of the format. -/
theorem Rounds64.of_patMag {r : F64} (h : Rounds64 y r) {p : Nat} (hp : |y| * 2 ^ 1074 = patMag fmt64 p)
    (hfin : p < fmt64.inf) : finite64 r ∧ ((rat64 r : ℚ) : ℝ) = y := by
  have hp' : |y * 2 ^ 1074| = (patMag fmt64 p : ℝ) := by rw [abs_mul, abs_of_pos (by positivity : (0 : ℝ) < 2 ^ 1074), hp]
  obtain ⟨hm, hv⟩ := Rounded.val_of_patMag h hp' hfin
  exact ⟨finite64_iff.2 (hm ▸ hfin), by rw [rat64_cast, hv, mul_div_cancel_right₀ _ (by positivity)]⟩

end Rounds

/-! ## The operations of `Num_ref` on finite operands (R125, R132) -/

section Arithmetic
variable {a b : F32} {c d : F64}

theorem refAdd32_rounds (ha : finite32 a) (hb : finite32 b) :
    Rounds32 (rat32 a + rat32 b) (refAdd32 a b) := by
  refine rounds32_ofNat ?_
  rw [add_mul, rat32_mul_unit, rat32_mul_unit]
  exact addCode_rounded fmt32_sound ha hb

theorem refSub32_rounds (ha : finite32 a) (hb : finite32 b) :
    Rounds32 (rat32 a - rat32 b) (refSub32 a b) := by
  have h := refAdd32_rounds ha (finite32_refNeg32.2 hb)
  rwa [rat32_refNeg32, Rat.cast_neg, ← sub_eq_add_neg] at h

theorem rat32_one : rat32 one32 = 1 := by
  rw [rat32, show val fmt32 one32.toNat = 2 ^ 149 by decide +kernel, Int.cast_pow, Int.cast_ofNat,
    div_self (pow_ne_zero _ two_ne_zero)]

theorem refMul32_rounds (ha : finite32 a) (hb : finite32 b) :
    Rounds32 (rat32 a * rat32 b) (refMul32 a b) := by
  unfold refMul32
  split
  · next h =>
    rw [h, rat32_one, Rat.cast_one, mul_one]
    exact rounds32_self ha
  · refine rounds32_ofNat ?_
    have h := mulCode_rounded (nan := nan32 1 a b) fmt32_sound ha hb
    rwa [← rat32_mul_unit, ← rat32_mul_unit, mul_mul_mul_comm, ← mul_assoc, fmt32,
      mul_div_cancel_right₀ _ (pow_ne_zero _ two_ne_zero)] at h

theorem refDiv32_rounds (ha : finite32 a) (hb : finite32 b) (h0 : rat32 b ≠ 0) :
    Rounds32 (rat32 a / rat32 b) (refDiv32 a b) := by
  refine rounds32_ofNat ?_
  have h := divCode_rounded (nan := nan32 2 a b) fmt32_sound ha hb (mt (zero32_iff_rat.1 ∘ zero32_iff.2) h0)
  rwa [← rat32_mul_unit, ← rat32_mul_unit, mul_right_comm, mul_div_mul_right _ _ (pow_ne_zero _ two_ne_zero), mul_div_right_comm] at h

theorem refAdd64_rounds (hc : finite64 c) (hd : finite64 d) :
    Rounds64 (rat64 c + rat64 d) (refAdd64 c d) := by
  refine rounds64_ofNat ?_
  rw [add_mul, rat64_mul_unit, rat64_mul_unit]
  exact addCode_rounded fmt64_sound hc hd

theorem refMul64_rounds (hc : finite64 c) (hd : finite64 d) :
    Rounds64 (rat64 c * rat64 d) (refMul64 c d) := by
  refine rounds64_ofNat ?_
  have h := mulCode_rounded (nan := nan64 6 c d) fmt64_sound hc hd
  rwa [← rat64_mul_unit, ← rat64_mul_unit, mul_mul_mul_comm, ← mul_assoc, fmt64,
    mul_div_cancel_right₀ _ (pow_ne_zero _ two_ne_zero)] at h

theorem refDiv64_rounds (hc : finite64 c) (hd : finite64 d) (h0 : rat64 d ≠ 0) :
    Rounds64 (rat64 c / rat64 d) (refDiv64 c d) := by
  have h0' : val fmt64 d.toNat ≠ 0 := fun e => h0 (by rw [rat64, e, Int.cast_zero, zero_div])
  refine rounds64_ofNat ?_
  have h := divCode_rounded (nan := nan64 7 c d) fmt64_sound hc hd h0'
  rwa [← rat64_mul_unit, ← rat64_mul_unit, mul_right_comm, mul_div_mul_right _ _ (pow_ne_zero _ two_ne_zero), mul_div_right_comm] at h

theorem refCvt32to64_rounds (ha : finite32 a) : Rounds64 (rat32 a) (refCvt32to64 a) := by
  refine rounds64_ofNat ?_
  rw [rat32_cast, div_mul_eq_mul_div]
  exact cvtCode_rounded fmt64_sound ha

theorem refCvt64to32_rounds (hc : finite64 c) : Rounds32 (rat64 c) (refCvt64to32 c) := by
  refine rounds32_ofNat ?_
  rw [rat64_cast, div_mul_eq_mul_div]
  exact cvtCode_rounded fmt32_sound hc

theorem refCvtU24to64_rounds (n : Index) : Rounds64 n.toNat (refCvtU24to64 n) := by
  refine rounds64_ofNat ?_
  have h := pack_rounded fmt64_sound false (n.toNat * 2 ^ fmt64.unit) Nat.one_pos
  rwa [if_neg Bool.false_ne_true, Nat.cast_one, div_one, Nat.cast_mul, Nat.cast_pow, Nat.cast_ofNat] at h

end Arithmetic

end Sys2Proof.Machine
end

section
/-! `Num_ref`'s arithmetic is to nearest, ties to even (40_numerics R124, R125). -/

namespace Sys2Proof.Machine

/-! ## Overflow -/

/-- The magnitudes on both sides of the finite range. -/
theorem patMag_fmt32_inf : patMag fmt32 fmt32.inf = 2 ^ 24 * 2 ^ 253 ∧ patMag fmt32 (fmt32.inf - 1) = (2 ^ 24 - 1) * 2 ^ 253 := by
  decide +kernel

theorem overflow32_units :
    (patMag fmt32 (fmt32.inf - 1) + patMag fmt32 fmt32.inf : ℝ) = 2 * ((overflow32 : ℚ) * 2 ^ 149) := by
  have e2 : (2 : ℝ) ^ 127 * 2 ^ 149 = 2 ^ 23 * 2 ^ 253 := by rw [← pow_add, ← pow_add]
  rw [patMag_fmt32_inf.1, patMag_fmt32_inf.2, overflow32]
  push_cast
  rw [mul_assoc, e2]
  ring

section Overflow
variable {x : ℝ} {r : F32}

/-- A rounded number is an infinity from `overflow32` on (R125). -/
theorem Rounds32.isInf_iff (h : Rounds32 x r) : isInf fmt32 r.toNat = true ↔ (overflow32 : ℚ) ≤ |x| := by
  rw [Rounded.isInf_iff fmt32_sound h, overflow32_units, abs_mul, abs_of_pos (by positivity : (0 : ℝ) < 2 ^ 149)]
  constructor
  · intro hle
    exact le_of_mul_le_mul_right (by linarith) (by positivity : (0 : ℝ) < 2 ^ 149)
  · intro hle
    have := mul_le_mul_of_nonneg_right hle (by positivity : (0 : ℝ) ≤ 2 ^ 149)
    linarith

theorem Rounds32.finite_iff (h : Rounds32 x r) : finite32 r ↔ |x| < (overflow32 : ℚ) := by
  rw [← not_le, ← h.isInf_iff, Bool.not_eq_true]
  exact and_iff_right (Rounded.not_nan h)

theorem overflow32_pos : (0 : ℝ) < (overflow32 : ℚ) := by
  rw [overflow32]; norm_num

theorem Rounds32.eq_inf (h : Rounds32 x r) (hx : (overflow32 : ℚ) ≤ x) : r = 0x7F800000 := by
  have hinf := h.isInf_iff.2 (hx.trans (le_abs_self x))
  have hneg : isNeg fmt32 r.toNat = false := Rounded.pos h (mul_pos (overflow32_pos.trans_le hx) (by positivity))
  have hr := code_eq_sign_add (toNat_lt_two_sign32 r)
  rw [hneg, of_decide_eq_true hinf] at hr
  exact BitVec.eq_of_toNat_eq hr

theorem Rounds32.eq_negInf (h : Rounds32 x r) (hx : x ≤ -(overflow32 : ℚ)) : r = 0xFF800000 := by
  have hinf := h.isInf_iff.2 ((le_neg_of_le_neg hx).trans (neg_le_abs x))
  have hneg : isNeg fmt32 r.toNat = true :=
    Rounded.neg h (mul_neg_of_neg_of_pos (hx.trans_lt (neg_lt_zero.2 overflow32_pos)) (by positivity))
  have hr := code_eq_sign_add (toNat_lt_two_sign32 r)
  rw [hneg, of_decide_eq_true hinf] at hr
  exact BitVec.eq_of_toNat_eq hr

/-- A finite result is the nearest of the finite F32, ties to even. -/
theorem Rounds32.nearest (h : Rounds32 x r) (hr : finite32 r) (c : F32) :
    |x - rat32 r| < |x - rat32 c| ∨ rat32 c = rat32 r ∨ (|x - rat32 r| = |x - rat32 c| ∧ r.getLsbD 0 = false) := by
  have hu : ∀ c : F32, |x * 2 ^ 149 - val fmt32 c.toNat| = |x - rat32 c| * 2 ^ 149 := fun c => by
    rw [← rat32_mul_unit, ← sub_mul, abs_mul, abs_of_pos (by positivity : (0 : ℝ) < 2 ^ 149)]
  have hpos : (0 : ℝ) < 2 ^ 149 := by positivity
  rcases Rounded.nearest fmt32_sound h hr.2 c.toNat with hlt | heq | ⟨htie, heven⟩
  · rw [hu, hu] at hlt
    exact .inl (lt_of_mul_lt_mul_right hlt hpos.le)
  · exact .inr (.inl (by rw [rat32, rat32, heq]))
  · rw [hu, hu] at htie
    refine .inr (.inr ⟨mul_right_cancel₀ hpos.ne' htie, ?_⟩)
    rw [BitVec.getLsbD, Nat.testBit_zero, heven]
    rfl

end Overflow

/-- What R124 and R125 ask of a result is what a rounded number is. -/
theorem Rounds32.nearestEven32 {x : ℚ} {r : F32} (h : Rounds32 x r) : nearestEven32 x r := by
  unfold Sys2Proof.Machine.nearestEven32
  split
  · next hx => exact h.eq_inf (by exact_mod_cast hx)
  · split
    · next hx => exact h.eq_negInf (by exact_mod_cast hx)
    · next hlo hhi =>
      have hr : finite32 r := h.finite_iff.2 (abs_lt.2 ⟨by exact_mod_cast not_le.1 hhi, by exact_mod_cast not_le.1 hlo⟩)
      refine ⟨hr, fun c _ => ?_⟩
      have := h.nearest hr c
      exact_mod_cast this

/-- Settles O51: each of the four results is a rounded number. -/
theorem refArithmeticIsNearestEven : Obligations.RefArithmeticIsNearestEven := by
  intro a b ha hb
  refine ⟨?sum, ?difference, ?product, fun h0 => ?quotient⟩
  case sum =>
    have h := refAdd32_rounds ha hb
    exact Rounds32.nearestEven32 (by exact_mod_cast h)
  case difference =>
    have h := refSub32_rounds ha hb
    exact Rounds32.nearestEven32 (by exact_mod_cast h)
  case product =>
    have h := refMul32_rounds ha hb
    exact Rounds32.nearestEven32 (by exact_mod_cast h)
  case quotient =>
    have h := refDiv32_rounds ha hb h0
    exact Rounds32.nearestEven32 (by exact_mod_cast h)

end Sys2Proof.Machine
end

section
/-! `Num_ref`'s comparisons, special operands, exact conversions and neutral operands (40_numerics R121 to R128, R132, R145),
and the static curve that E_GRC evaluates with them (R140, 42_envelope R189). -/

namespace Sys2Proof.Machine

/-! ## Comparison, magnitude, negation (R126 to R128) -/

section Compare
variable {f : Fmt} {c d : Nat}

theorem gtCode_iff (hc : isNaN f c = false) (hd : isNaN f d = false) : gtCode f c d = true ↔ val f d < val f c := by
  simp [gtCode, hc, hd]

theorem gtCode_nan (h : isNaN f c = true ∨ isNaN f d = true) : gtCode f c d = false := by
  rcases h with h | h <;> simp [gtCode, h]

/-- The value of a pattern that is no NaN lies between the infinities, and strictly so for a finite one. -/
theorem natAbs_val_lt_inf (hc : c % f.sign < f.inf) : (val f c).natAbs < patMag f f.inf := by
  rw [val_natAbs, mag_eq_patMag]; exact patMag_strictMono f hc

end Compare

/-- The comparisons of R122 for `Num_ref`. -/
theorem numRef_compares : NumCompares numRef where
  gt _ _ ha hb := (gtCode_iff ha.1 hb.1).trans rat32_lt_iff.symm
  lt _ _ ha hb := (gtCode_iff hb.1 ha.1).trans rat32_lt_iff.symm
  max _ _ := rfl
  min _ _ := rfl
  gt64 _ _ ha hb := (gtCode_iff ha.1 hb.1).trans rat64_lt_iff.symm
  isfinite _ := isFinite64_iff _

theorem val_inf32 : val fmt32 (0x7F800000 : F32).toNat = patMag fmt32 fmt32.inf ∧
    val fmt32 (0xFF800000 : F32).toNat = -patMag fmt32 fmt32.inf := by decide +kernel

/-- A finite F32 lies strictly between the infinities. -/
theorem refGt32_inf {a : F32} (ha : finite32 a) :
    refGt32 0x7F800000 a = true ∧ refGt32 a 0xFF800000 = true ∧
      refGt32 a 0x7F800000 = false ∧ refGt32 0xFF800000 a = false := by
  have hlt := natAbs_val_lt_inf (finite32_iff.1 ha)
  have hp : isNaN fmt32 (0x7F800000 : F32).toNat = false := by decide
  have hn : isNaN fmt32 (0xFF800000 : F32).toNat = false := by decide
  obtain ⟨vp, vn⟩ := val_inf32
  refine ⟨(gtCode_iff hp ha.1).2 ?_, (gtCode_iff ha.1 hn).2 ?_, Bool.eq_false_iff.2 (mt (gtCode_iff ha.1 hp).1 ?_),
    Bool.eq_false_iff.2 (mt (gtCode_iff hn ha.1).1 ?_)⟩ <;> simp only [vp, vn] <;> omega

theorem rat32_refAbs32 (a : F32) : rat32 (refAbs32 a) = |rat32 a| := by
  rw [rat32, rat32, val_refAbs32, abs_div, abs_of_pos (by positivity : (0 : ℚ) < 2 ^ 149)]
  push_cast
  rfl

/-- Settles O53: comparisons follow values, and R126's functions change bit 31 alone. -/
theorem refComparisons : Obligations.RefComparisons := by
  refine ⟨rateValid_iff numRef_compares, by decide +kernel, numRef_compares.gt, fun _ => refGt32_inf, fun _ _ => gtCode_nan,
    numRef_compares.gt64, fun _ _ => rfl, fun a k hk => ⟨?absBit, ?negBit⟩,
    fun a _ => ⟨rat32_refAbs32 a, rat32_refNeg32 a⟩, fun a b => ⟨fun hlt ha hb => ?less, fun hle ha hb => ?notLess,
      fun hnan => ?nan⟩⟩
  case absBit =>
    rw [show numRef.abs32 a = a &&& 0x7FFFFFFF from rfl, BitVec.getLsbD_and, getLsbD_magBits]
    congr 1
    exact decide_eq_decide.2 (by omega)
  case negBit =>
    rw [show numRef.neg32 a = a ^^^ 0x80000000 from rfl, BitVec.getLsbD_xor, getLsbD_signBit]
  case less =>
    have h := (numRef_compares.lt a b ha hb).2 hlt
    exact ⟨by rw [numRef_compares.max, if_pos h], by rw [numRef_compares.min, if_pos h]⟩
  case notLess =>
    have h := mt (numRef_compares.lt a b ha hb).1 (not_lt.2 hle)
    exact ⟨by rw [numRef_compares.max, if_neg h], by rw [numRef_compares.min, if_neg h]⟩
  case nan =>
    have h : numRef.lt32 a b = false := gtCode_nan hnan.symm
    have h' : numRef.lt32 b a = false := gtCode_nan hnan
    exact ⟨by rw [numRef_compares.max, h]; rfl, by rw [numRef_compares.min, h']; rfl⟩

/-! ## Special operands (R125) -/

/-- The pattern of a NaN result is a NaN. -/
theorem nanCode_isNaN {f : Fmt} (hf : f.Sound) (bits : Nat) :
    isNaN f (nanCode f bits) = true ∧ nanCode f bits < 2 * f.sign := by
  unfold nanCode
  have hmod := Nat.mod_lt bits (Nat.two_pow_pos (f.prec - 1))
  have hroom := hf.nanRoom
  have hone : 2 ^ 1 ≤ 2 ^ (f.prec - 1) := Nat.pow_le_pow_right (by omega) (by have := hf.prec; omega)
  simp only
  generalize bits % 2 ^ (f.prec - 1) = frac at *
  have hfrac : 0 < (if frac = 0 then 1 else frac) ∧ (if frac = 0 then 1 else frac) < 2 ^ (f.prec - 1) := by
    split <;> omega
  generalize (if frac = 0 then 1 else frac) = q at *
  have hlt : f.inf + q < f.sign := by omega
  rw [Nat.add_assoc, isNaN, sign_add_mod f hlt, decide_eq_true_eq]
  exact ⟨by omega, by split <;> omega⟩

theorem nan32P_ofNat_nan32 (site : Nat) (a b : Word) : nan32P (BitVec.ofNat 32 (nan32 site a b)) := by
  obtain ⟨hn, hlt⟩ := nanCode_isNaN fmt32_sound (Config.nanBits32 site a b).toNat
  have hlt' : nanCode fmt32 (Config.nanBits32 site a b).toNat < 2 ^ 32 := hlt
  rw [nan32P, nan32, BitVec.toNat_ofNat, Nat.mod_eq_of_lt hlt']
  exact hn

/-- Nothing, packed, is the zero of its sign. -/
theorem pack_zero {f : Fmt} (hf : f.Sound) (neg : Bool) {den : Nat} (hden : 0 < den) :
    pack f neg 0 den = if neg then f.sign else 0 := by
  have h := roundUnits_nearest hf 0 hden
  have h0 : NearestPat f ((0 : ℕ) / den) 0 := by simpa using nearestPat_patMag f 0
  unfold pack
  rw [h.unique h0, if_neg (show ¬f.inf ≤ 0 from Nat.not_le.2 hf.infPos), Nat.add_zero]

/-- The sign bit of an exclusive-or. -/
theorem xor_signBit (a b : F32) :
    (a ^^^ b) &&& 0x80000000 =
      BitVec.ofNat 32 (if (isNeg fmt32 a.toNat != isNeg fmt32 b.toNat) then fmt32.sign else 0) := by
  have h : (a ^^^ b) &&& 0x80000000 = if (a.getLsbD 31 ^^ b.getLsbD 31) then 0x80000000 else 0x00000000 := by
    refine BitVec.eq_of_getLsbD_eq fun i hi => ?_
    rw [BitVec.getLsbD_and, BitVec.getLsbD_xor, getLsbD_signBit]
    rcases eq_or_ne i 31 with rfl | hne
    · cases a.getLsbD 31 <;> cases b.getLsbD 31 <;> decide
    · rw [decide_eq_false hne, Bool.and_false]
      split
      · rw [getLsbD_signBit, decide_eq_false hne]
      · simp
  rw [h, isNeg_eq_getLsbD, isNeg_eq_getLsbD]
  cases a.getLsbD 31 <;> cases b.getLsbD 31 <;> rfl

/-- The words without bit 31 that are an infinity. -/
theorem inf32_facts {a : F32} (ha : a &&& 0x7FFFFFFF = 0x7F800000) :
    isNaN fmt32 a.toNat = false ∧ isInf fmt32 a.toNat = true ∧ mag fmt32 a.toNat ≠ 0 := by
  have hmod : a.toNat % fmt32.sign = fmt32.inf := by rw [← toNat_and_magBits, ha]; rfl
  refine ⟨by simp [isNaN, hmod], by simp [isInf, hmod], ?_⟩
  rw [mag_eq_patMag, hmod, patMag_fmt32_inf.1]
  positivity

section Special
variable {a b z : F32}

theorem refAdd32_nan (h : nan32P a ∨ nan32P b) : nan32P (refAdd32 a b) := by
  have e : addCode fmt32 (nan32 0 a b) a.toNat b.toNat = nan32 0 a b := by
    rcases h with h | h <;> simp [addCode, show isNaN fmt32 _ = true from h]
  rw [refAdd32, e]; exact nan32P_ofNat_nan32 _ _ _

theorem refMul32_nan (h : nan32P a ∨ nan32P b) : nan32P (refMul32 a b) := by
  unfold refMul32
  split
  · next hb =>
    refine h.resolve_right ?_
    rw [hb]; unfold nan32P; decide
  · have e : mulCode fmt32 (nan32 1 a b) a.toNat b.toNat = nan32 1 a b := by
      rcases h with h | h <;> simp [mulCode, show isNaN fmt32 _ = true from h]
    rw [e]; exact nan32P_ofNat_nan32 _ _ _

theorem refDiv32_nan (h : nan32P a ∨ nan32P b) : nan32P (refDiv32 a b) := by
  have e : divCode fmt32 (nan32 2 a b) a.toNat b.toNat = nan32 2 a b := by
    rcases h with h | h <;> simp [divCode, show isNaN fmt32 _ = true from h]
  rw [refDiv32, e]; exact nan32P_ofNat_nan32 _ _ _

theorem refAdd32_neg_self (ha : finite32 a) : refAdd32 a (refNeg32 a) = 0x00000000 := by
  have hn := finite32_refNeg32.2 ha
  have e : addCode fmt32 (nan32 0 a (refNeg32 a)) a.toNat (refNeg32 a).toNat = 0 := by
    simp [addCode, ha.1, ha.2, hn.1, hn.2, val_refNeg32, isNeg_refNeg32]
  rw [refAdd32, e]; rfl

/-- The product of patterns one of which is a zero. -/
theorem mulCode_zero (nan : Nat) (ha : finite32 a) (hb : finite32 b) (h : mag fmt32 a.toNat = 0 ∨ mag fmt32 b.toNat = 0) :
    BitVec.ofNat 32 (mulCode fmt32 nan a.toNat b.toNat) = (a ^^^ b) &&& 0x80000000 := by
  have e : mag fmt32 a.toNat * mag fmt32 b.toNat = 0 := Nat.mul_eq_zero.2 h
  rw [xor_signBit, ← pack_zero fmt32_sound _ (Nat.two_pow_pos fmt32.unit)]
  simp [mulCode, ha.1, ha.2, hb.1, hb.2, e]

theorem refMul32_zero_sign (ha : finite32 a) (hz : zero32 z) :
    refMul32 a z = (a ^^^ z) &&& 0x80000000 ∧ refMul32 z a = (a ^^^ z) &&& 0x80000000 := by
  have hzf := (zero32_facts hz).1
  have hne : z ≠ one32 := by rintro rfl; rcases hz with h | h <;> exact absurd h (by decide)
  constructor
  · rw [refMul32, if_neg hne]
    exact mulCode_zero _ ha hzf (.inr (zero32_mag hz))
  · rw [refMul32, BitVec.xor_comm]
    split
    · next h => rw [h]; rcases hz with rfl | rfl <;> decide
    · exact mulCode_zero _ hzf ha (.inl (zero32_mag hz))

theorem mag_ne_zero (h0 : ¬zero32 a) : mag fmt32 a.toNat ≠ 0 := fun e =>
  h0 (zero32_iff.2 (Int.natAbs_eq_zero.1 (by rw [val_natAbs, e])))

theorem refDiv32_zero_left (ha : finite32 a) (h0 : ¬zero32 a) (hz : zero32 z) :
    refDiv32 z a = (a ^^^ z) &&& 0x80000000 := by
  have hzf := (zero32_facts hz).1
  rw [BitVec.xor_comm, xor_signBit, ← pack_zero fmt32_sound _ (Nat.pos_of_ne_zero (mag_ne_zero h0)), refDiv32]
  simp [divCode, ha.1, ha.2, hzf.1, hzf.2, mag_ne_zero h0, zero32_mag hz]

theorem refDiv32_zero_right (ha : finite32 a) (h0 : ¬zero32 a) (hz : zero32 z) :
    refDiv32 a z = ((a ^^^ z) &&& 0x80000000) ||| 0x7F800000 := by
  have hzf := (zero32_facts hz).1
  have e : divCode fmt32 (nan32 2 a z) a.toNat z.toNat =
      infCode fmt32 (isNeg fmt32 a.toNat != isNeg fmt32 z.toNat) := by
    simp [divCode, ha.1, ha.2, hzf.1, hzf.2, mag_ne_zero h0, zero32_mag hz]
  rw [xor_signBit, refDiv32, e]
  cases isNeg fmt32 a.toNat != isNeg fmt32 z.toNat <;> decide

theorem refSub32_inf_self (ha : a &&& 0x7FFFFFFF = 0x7F800000) : nan32P (refSub32 a a) := by
  obtain ⟨hn, hi, -⟩ := inf32_facts ha
  have hn' : isNaN fmt32 (refNeg32 a).toNat = false := by rw [isNaN, refNeg32_mod]; exact hn
  have hi' : isInf fmt32 (refNeg32 a).toNat = true := by rw [isInf, refNeg32_mod]; exact hi
  have e : addCode fmt32 (nan32 0 a (refNeg32 a)) a.toNat (refNeg32 a).toNat = nan32 0 a (refNeg32 a) := by
    simp [addCode, hn, hi, hn', hi', isNeg_refNeg32]
  rw [refSub32, refAdd32, e]; exact nan32P_ofNat_nan32 _ _ _

theorem refDiv32_inf_inf (ha : a &&& 0x7FFFFFFF = 0x7F800000) (hb : b &&& 0x7FFFFFFF = 0x7F800000) :
    nan32P (refDiv32 a b) := by
  obtain ⟨hn, hi, -⟩ := inf32_facts ha
  obtain ⟨hn', hi', -⟩ := inf32_facts hb
  have e : divCode fmt32 (nan32 2 a b) a.toNat b.toNat = nan32 2 a b := by simp [divCode, hn, hi, hn', hi']
  rw [refDiv32, e]; exact nan32P_ofNat_nan32 _ _ _

theorem refMul32_inf_zero (ha : a &&& 0x7FFFFFFF = 0x7F800000) (hz : zero32 z) :
    nan32P (refMul32 a z) ∧ nan32P (refMul32 z a) := by
  obtain ⟨hn, hi, -⟩ := inf32_facts ha
  obtain ⟨⟨hn', hi'⟩, -, -⟩ := zero32_facts hz
  have hm := zero32_mag hz
  have hne : z ≠ one32 := by rintro rfl; rcases hz with h | h <;> exact absurd h (by decide)
  have hne' : a ≠ one32 := by rintro rfl; exact absurd ha (by decide)
  have e : mulCode fmt32 (nan32 1 a z) a.toNat z.toNat = nan32 1 a z := by simp [mulCode, hn, hi, hn', hm]
  have e' : mulCode fmt32 (nan32 1 z a) z.toNat a.toNat = nan32 1 z a := by simp [mulCode, hn, hi, hn', hm]
  rw [refMul32, refMul32, if_neg hne, if_neg hne', e, e']
  exact ⟨nan32P_ofNat_nan32 _ _ _, nan32P_ofNat_nan32 _ _ _⟩

theorem refDiv32_zero_zero (ha : zero32 a) (hz : zero32 z) : nan32P (refDiv32 a z) := by
  obtain ⟨⟨hn, hi⟩, -, -⟩ := zero32_facts ha
  obtain ⟨⟨hn', hi'⟩, -, -⟩ := zero32_facts hz
  have e : divCode fmt32 (nan32 2 a z) a.toNat z.toNat = nan32 2 a z := by
    simp [divCode, hn, hi, hn', hi', zero32_mag ha, zero32_mag hz]
  rw [refDiv32, e]; exact nan32P_ofNat_nan32 _ _ _

end Special

/-- Settles O52, operand by operand. -/
theorem refSpecialOperands : Obligations.RefSpecialOperands :=
  ⟨fun _ ha => ⟨refAdd32_neg_self ha, refAdd32_neg_self ha⟩,
    fun _ _ ha hz => refMul32_zero_sign ha hz,
    fun _ _ ha h0 hz => ⟨refDiv32_zero_left ha h0 hz, refDiv32_zero_right ha h0 hz⟩,
    fun _ _ h => ⟨refAdd32_nan h, refAdd32_nan (h.imp id nan32P_refNeg32.2), refMul32_nan h, refDiv32_nan h⟩,
    fun _ _ ha hb => ⟨refSub32_inf_self ha, refDiv32_inf_inf ha hb⟩,
    fun _ _ ha hz => refMul32_inf_zero ha hz,
    fun _ _ hz hy => refDiv32_zero_zero hz hy⟩

/-! ## Exact conversions (R121, R132, R145) -/

/-- The magnitude that comes after the largest finite F64. The exponent is a variable, so that no proof evaluates the power. -/
theorem patMag_fmt64_inf {k : Nat} (hk : k = 2045) : patMag fmt64 fmt64.inf = 2 ^ 53 * 2 ^ k := by
  rw [← patMag_scaled fmt64 (k := k) (m := 2 ^ 53) (.inr (by decide)) (by decide), hk]
  rfl

/-- The magnitude of a finite F32 is a significand of at most 24 bits with an exponent. -/
theorem finite32_patMag {a : F32} (ha : finite32 a) :
    ∃ k m, patMag fmt32 (a.toNat % fmt32.sign) = m * 2 ^ k ∧ m < 2 ^ 24 ∧ k ≤ 253 := by
  obtain ⟨k, m, hp, hm, hm'⟩ := exists_scaled fmt32 (a.toNat % fmt32.sign)
  refine ⟨k, m, by rw [hp, patMag_scaled fmt32 hm hm'.le], hm', ?_⟩
  have := finite32_iff.1 ha
  simp only [fmt32] at hp this hm
  omega

/-- An F64 result that is a significand of at most 53 bits with an exponent in the range is exact. -/
theorem Rounds64.of_scaled {y : ℝ} {r : F64} (h : Rounds64 y r) {n j : Nat} (hy : |y| * 2 ^ 1074 = n * 2 ^ j)
    (hn : n ≤ 2 ^ 53) (hj : j < 2045) : finite64 r ∧ ((rat64 r : ℚ) : ℝ) = y := by
  obtain ⟨p, hp⟩ := exists_patMag fmt64 j (n := n) (hn.trans (by decide))
  refine h.of_patMag (p := p) (by rw [hy, hp]; push_cast; rfl) ((patMag_strictMono fmt64).lt_iff_lt.1 ?_)
  calc patMag fmt64 p = n * 2 ^ j := hp
    _ ≤ 2 ^ 53 * 2 ^ j := Nat.mul_le_mul_right _ hn
    _ < patMag fmt64 fmt64.inf := by
      obtain ⟨k, hk⟩ : ∃ k, k = 2045 := ⟨_, rfl⟩
      rw [patMag_fmt64_inf hk]
      exact Nat.mul_lt_mul_of_pos_left (Nat.pow_lt_pow_right one_lt_two (by omega)) (Nat.two_pow_pos 53)

theorem abs_rat32 {a : F32} {k m : Nat} (h : patMag fmt32 (a.toNat % fmt32.sign) = m * 2 ^ k) :
    |((rat32 a : ℚ) : ℝ)| = m * 2 ^ k / 2 ^ 149 := by
  rw [rat32_cast, abs_div, abs_val, h, abs_of_pos (by positivity : (0 : ℝ) < 2 ^ 149)]
  push_cast
  rfl

/-- The conversion to F64 keeps the value (R132). -/
theorem refCvt32to64_exact {a : F32} (ha : finite32 a) :
    finite64 (refCvt32to64 a) ∧ rat64 (refCvt32to64 a) = rat32 a := by
  obtain ⟨k, m, hp, hm, hk⟩ := finite32_patMag ha
  have hy : |((rat32 a : ℚ) : ℝ)| * 2 ^ 1074 = m * 2 ^ (k + 925) := by
    rw [abs_rat32 hp, pow_add, show (2 : ℝ) ^ 1074 = 2 ^ 149 * 2 ^ 925 by rw [← pow_add], ← mul_assoc,
      div_mul_cancel₀ _ (by positivity), mul_assoc]
  obtain ⟨hf, hv⟩ := (refCvt32to64_rounds ha).of_scaled hy (by omega) (by omega)
  exact ⟨hf, by exact_mod_cast hv⟩

/-- The square of an F32 is an F64 (R145). -/
theorem refMul64_square {a : F32} (ha : finite32 a) :
    rat64 (refMul64 (refCvt32to64 a) (refCvt32to64 a)) = rat32 a * rat32 a := by
  obtain ⟨hf, hv⟩ := refCvt32to64_exact ha
  obtain ⟨k, m, hp, hm, hk⟩ := finite32_patMag ha
  have h := refMul64_rounds hf hf
  rw [hv] at h
  have hy : |((rat32 a : ℚ) : ℝ) * rat32 a| * 2 ^ 1074 = (m * m : ℕ) * 2 ^ (k + k + 776) := by
    rw [abs_mul, abs_rat32 hp, show (2 : ℝ) ^ 1074 = 2 ^ 149 * 2 ^ 149 * 2 ^ 776 by rw [← pow_add, ← pow_add]]
    have hu : (2 : ℝ) ^ 149 ≠ 0 := by positivity
    rw [Nat.cast_mul, pow_add, pow_add]
    generalize (2 : ℝ) ^ 776 = v
    generalize (2 : ℝ) ^ 149 = u at hu
    field_simp
  have hmm : m * m ≤ 2 ^ 53 := (Nat.mul_le_mul hm.le hm.le).trans (by norm_num)
  exact_mod_cast (h.of_scaled hy hmm (by omega)).2

/-- A non-zero F32 comes back from F64 (R132). -/
theorem refCvt64to32_widened {a : F32} (ha : finite32 a) (h0 : ¬zero32 a) : refCvt64to32 (refCvt32to64 a) = a := by
  obtain ⟨hf, hv⟩ := refCvt32to64_exact ha
  have h := refCvt64to32_rounds hf
  rw [hv] at h
  exact h.eq_of_exact ha h0

/-- A frame count is an F64 (R121). -/
theorem refCvtU24to64_exact (n : Index) : finite64 (refCvtU24to64 n) ∧ rat64 (refCvtU24to64 n) = n.toNat := by
  have hn := n.isLt
  obtain ⟨hf, hv⟩ := (refCvtU24to64_rounds n).of_scaled (n := n.toNat) (j := 1074) (by simp) (by omega) (by omega)
  exact ⟨hf, by exact_mod_cast hv⟩

/-- Settles O54. -/
theorem refConversionsAreExact : Obligations.RefConversionsAreExact :=
  ⟨fun _ ha => ⟨(refCvt32to64_exact ha).1, (refCvt32to64_exact ha).2, refMul64_square ha, refCvt64to32_widened ha⟩,
    refCvtU24to64_exact⟩

/-! ## Neutral operands (R123 NP1 to NP4, NP6) -/

theorem refMul32_zero_right {x z : F32} (hx : finite32 x) (hz : zero32 z) : zero32 (refMul32 x z) := by
  have h := refMul32_rounds hx (zero32_facts hz).1
  rw [zero32_iff_rat.1 hz, Rat.cast_zero, mul_zero] at h
  exact h.zero

theorem refAdd32_zero_right {x z : F32} (hx : finite32 x) (h0 : ¬zero32 x) (hz : zero32 z) : refAdd32 x z = x := by
  have h := refAdd32_rounds hx (zero32_facts hz).1
  rw [zero32_iff_rat.1 hz, Rat.cast_zero, add_zero] at h
  exact h.eq_of_exact hx h0

theorem refAdd32_zeros {y z : F32} (hy : zero32 y) (hz : zero32 z) : zero32 (refAdd32 y z) := by
  have h := refAdd32_rounds (zero32_facts hy).1 (zero32_facts hz).1
  rw [zero32_iff_rat.1 hy, zero32_iff_rat.1 hz, Rat.cast_zero, add_zero] at h
  exact h.zero

/-- NP2 for `Num_ref`. -/
theorem numRef_neutral : NumNeutral numRef where
  one x := show refMul32 x one32 = x from if_pos rfl
  mul _ _ := refMul32_zero_right
  add _ _ := refAdd32_zero_right
  zeros _ _ := refAdd32_zeros

/-- NP1 for `Num_ref`. -/
theorem refPow10_zero : refPow10 0x00000000 = 0x3F800000 ∧ refPow10 0x80000000 = 0x3F800000 := by decide +kernel

/-- NP3 for `Num_ref`. -/
theorem refOnes : refDiv32 0x3F800000 0x3F800000 = 0x3F800000 ∧ refSub32 0x3F800000 0x3F800000 = 0x00000000 := by
  decide +kernel

/-- NP6 for `Num_ref`. -/
theorem refLog10_one : refLog10 0x3F800000 = 0x00000000 := by decide +kernel

/-- The values of NP4 for `Num_ref`. -/
theorem refExp64_values :
    refExp64 0xFFF0000000000000 = 0x0000000000000000 ∧
      refExp64 0x0000000000000000 = 0x3FF0000000000000 ∧ refExp64 0x8000000000000000 = 0x3FF0000000000000 := by
  decide +kernel

/-- Settles O55. -/
theorem refNP1NP2NP3NP6AndValuesOfNP4 : Obligations.RefNP1NP2NP3NP6AndValuesOfNP4 := by
  refine ⟨?pow, numRef_neutral.one, numRef_neutral.mul, numRef_neutral.add, numRef_neutral.zeros, refOnes.1, refOnes.2,
    refLog10_one, refExp64_values.1, refExp64_values.2⟩
  case pow =>
    rintro z (rfl | rfl)
    · exact refPow10_zero.1
    · exact refPow10_zero.2

/-! ## The static curve (R189) -/

theorem linToDb_eq (N : Num) (dbFloor x : F32) :
    linToDb N dbFloor x =
      if isNaN fmt32 x.toNat = true ∨ x.getLsbD 31 = true then dbFloor
      else if N.gt32 x 0x00000000 then N.max32 dbFloor (N.mul32 0x41A00000 (N.log10_32 x)) else dbFloor := by
  rw [linToDb, isNeg_eq_getLsbD]
  simp only [Bool.or_eq_true]
  rfl

/-- Settles O25: the branches of LinToDb by bit 31, then E_GRC as it is written. -/
theorem eGrcStaticCurve : Obligations.EGrcStaticCurve := by
  intro s
  rw [show exec .eGrc s = execEGrc s from rfl, execEGrc, gainReduction, linToDb_eq]
  rfl

end Sys2Proof.Machine
end

section
/-! The concrete kernels are admissible (40_numerics R149 to R151): the fixed-point sine and cosine of K_RBJ's designs are
bounded, so that its coefficients are finite; silence stays silent; and finite values stay finite short of overflow. -/

namespace Sys2Proof.Machine

/-! ## Division in fixed point -/

/-- The integer quotient is less than one below the quotient. -/
theorem ediv_bounds (a : Int) {b : Int} (hb : 0 < b) : ((a / b : Int) : ℝ) ≤ a / b ∧ (a / b : ℝ) < (a / b : Int) + 1 := by
  have hb' : (0 : ℝ) < b := by exact_mod_cast hb
  constructor
  · rw [le_div_iff₀ hb']
    exact_mod_cast Int.ediv_mul_le a hb.ne'
  · rw [div_lt_iff₀ hb']
    exact_mod_cast Int.lt_ediv_add_one_mul_self a hb

/-- The same for natural numbers. -/
theorem natDiv_bounds (a : Nat) {b : Nat} (hb : 0 < b) : ((a / b : Nat) : ℝ) ≤ a / b ∧ (a / b : ℝ) < (a / b : Nat) + 1 := by
  have h := ediv_bounds (a : Int) (b := (b : Int)) (by exact_mod_cast hb)
  rwa [← Int.natCast_ediv, Int.cast_natCast, Int.cast_natCast, Int.cast_natCast] at h

theorem fxOne_pos : 0 < fxOne := Nat.two_pow_pos _

theorem fxOne_large : (2 : ℝ) ^ 100 ≤ fxOne := by
  rw [fxOne, Nat.cast_pow, Nat.cast_ofNat]
  exact pow_le_pow_right₀ one_le_two (by decide)

/-! ## The trigonometric series -/

/-- The term of `trigSeries` that follows `term`. -/
def trigNext (i : Nat) (term : Int) (rr : Nat) : Int :=
  -(term * (rr : Int) / (fxOne : Int)) / (((i + 1) * (i + 2) : Nat) : Int)

theorem trigSeries_succ (fuel i : Nat) (term : Int) (rr : Nat) (acc : Int) :
    trigSeries (fuel + 1) i term rr acc =
      trigSeries fuel (i + 2) (trigNext i term rr) rr (acc + trigNext i term rr) := rfl

/-- A term is the exact one but for the two roundings. -/
theorem trigNext_near (i : Nat) (term : Int) (rr : Nat) :
    |(trigNext i term rr : ℝ) + term * (rr / fxOne) / ((i + 1) * (i + 2))| ≤ 1 := by
  have hO : (0 : ℝ) < fxOne := (by positivity : (0 : ℝ) < 2 ^ 100).trans_le fxOne_large
  have hD : (2 : ℝ) ≤ ((i + 1) * (i + 2) : ℝ) := by nlinarith [(Nat.cast_nonneg i : (0 : ℝ) ≤ i)]
  have h1 := ediv_bounds (term * (rr : Int)) (b := (fxOne : Int)) (by exact_mod_cast hO)
  have h2 := ediv_bounds (-(term * (rr : Int) / (fxOne : Int))) (b := (((i + 1) * (i + 2) : Nat) : Int))
    (by exact_mod_cast Nat.mul_pos (Nat.succ_pos i) (Nat.succ_pos (i + 1)))
  unfold trigNext
  generalize -(term * (rr : Int) / (fxOne : Int)) / (((i + 1) * (i + 2) : Nat) : Int) = q at *
  push_cast at h1 h2
  generalize term * (rr : Int) / (fxOne : Int) = p at *
  rw [← mul_div_assoc]
  generalize (term * rr / fxOne : ℝ) = a at *
  generalize ((i + 1) * (i + 2) : ℝ) = D at *
  have hD0 : 0 < D := by linarith
  have hgap : 0 ≤ (a - p) / D ∧ (a - p) / D ≤ 1 := by
    constructor
    · exact div_nonneg (by linarith) hD0.le
    · rw [div_le_one hD0]; linarith
  have e : a / D = (a - p) / D + p / D := by rw [← add_div]; ring_nf
  rw [neg_div] at h2
  rw [abs_le]
  constructor <;> linarith

/-- From the second term on the terms fall by a factor of four, so that what is left of the series is a third of the last
term. -/
theorem trigSeries_tail {rr : Nat} (hrr : (rr : ℝ) / fxOne ≤ 5 / 2) (fuel : Nat) {i : Nat} (hi : 2 ≤ i) (term acc : Int) :
    |(trigSeries fuel i term rr acc : ℝ) - acc| ≤ |(term : ℝ)| / 3 + 2 * fuel := by
  induction fuel generalizing i term acc with
  | zero =>
    rw [trigSeries, sub_self, abs_zero]
    positivity
  | succ fuel ih =>
    have hnext := trigNext_near i term rr
    have hO : (0 : ℝ) < fxOne := (by positivity : (0 : ℝ) < 2 ^ 100).trans_le fxOne_large
    have hi' : (2 : ℝ) ≤ i := by exact_mod_cast hi
    have hD : (12 : ℝ) ≤ (i + 1) * (i + 2) := by nlinarith
    have hexact : |(term : ℝ) * (rr / fxOne) / ((i + 1) * (i + 2))| ≤ |(term : ℝ)| / 4 := by
      have h0 : (0 : ℝ) ≤ rr / fxOne := by positivity
      rw [abs_div, abs_mul, abs_of_nonneg h0, abs_of_nonneg (by linarith : (0 : ℝ) ≤ (i + 1) * (i + 2)),
        div_le_div_iff₀ (by linarith) (by norm_num)]
      have := abs_nonneg (term : ℝ)
      nlinarith
    have hstep := ih (i := i + 2) (by omega) (trigNext i term rr) (acc + trigNext i term rr)
    rw [trigSeries_succ]
    generalize trigNext i term rr = t at *
    have ht : |(t : ℝ)| ≤ |(term : ℝ)| / 4 + 1 := by
      have := abs_sub_abs_le_abs_sub (t : ℝ) (-(term * (rr / fxOne) / ((i + 1) * (i + 2))))
      rw [sub_neg_eq_add, abs_neg] at this
      linarith
    push_cast at hstep ⊢
    generalize (trigSeries fuel (i + 2) t rr (acc + t) : ℝ) = x at *
    have := abs_sub_le x (acc + t) acc
    rw [add_sub_cancel_left] at this
    linarith

/-- The series that begins with `x > 0`: between `x` and what the first two terms leave at most. -/
theorem trigSeries_bounds {rr : Nat} (hrr : (rr : ℝ) / fxOne ≤ 5 / 2) (i : Nat) {term : Nat} :
    (trigSeries 60 i term rr term : ℝ) ≤ term - 2 / 3 * (term * (rr / fxOne) / ((i + 1) * (i + 2))) + 200 ∧
      term - 4 / 3 * (term * (rr / fxOne) / ((i + 1) * (i + 2))) - 200 ≤ (trigSeries 60 i term rr term : ℝ) := by
  have hnext := trigNext_near i term rr
  have htail := trigSeries_tail hrr 59 (i := i + 2) (by omega) (trigNext i term rr) (term + trigNext i term rr)
  rw [trigSeries_succ]
  have hy : (0 : ℝ) ≤ term * (rr / fxOne) / ((i + 1) * (i + 2)) := by positivity
  push_cast at hnext htail ⊢
  generalize (term * (rr / fxOne) / ((i + 1) * (i + 2)) : ℝ) = y at *
  generalize (trigNext i term rr : ℤ) = t at *
  have ht : |(t : ℝ)| ≤ y + 1 := by
    have := abs_sub_abs_le_abs_sub (t : ℝ) (-y)
    rw [sub_neg_eq_add, abs_neg, abs_of_nonneg hy] at this
    linarith
  rw [abs_le] at hnext htail
  constructor <;> linarith

/-- The quarter turn that `sinCosTurns` works in. -/
def quarterArg (turns : Nat) : Nat := 4 * turns % fxOne * fxHalfPi / fxOne

theorem quarterArg_le (turns : Nat) : quarterArg turns ≤ fxHalfPi := by
  have hmod : 4 * turns % fxOne < fxOne := Nat.mod_lt _ (Nat.two_pow_pos _)
  exact Nat.div_le_of_le_mul (Nat.mul_le_mul_right _ hmod.le)

theorem fxHalfPi_le : 100 * fxHalfPi ≤ 158 * fxOne := by decide +kernel

/-- The sine's bound: `x - x³ / 9` and `x - 2 x³ / 9` are between 0 and 12/10 on a quarter turn. -/
theorem sine_quarter_bound {x u one s : ℝ} (hone : 1000000 ≤ one) (hx0 : 0 ≤ x) (hx1 : x ≤ 158 / 100)
    (hu1 : u ≤ x * x) (hu2 : x * x - 1 / 1000000 ≤ u)
    (hupper : s ≤ x * one - 2 / 3 * (x * one * u / 6) + 200) (hlower : x * one - 4 / 3 * (x * one * u / 6) - 200 ≤ s) :
    4 * |s| ≤ 5 * one := by
  have hxu := mul_le_mul_of_nonneg_left hu2 hx0
  have hxu' := mul_le_mul_of_nonneg_left hu1 hx0
  have hcubic : x - x * u / 9 ≤ 12 / 10 := by
    linarith [mul_nonneg (sq_nonneg (x - 173 / 100)) (by linarith : (0 : ℝ) ≤ x + 346 / 100)]
  have hlow : 0 ≤ x - 2 * (x * u) / 9 := by
    have : x * (x * x) ≤ x * (158 / 100 * (158 / 100)) := by gcongr
    linarith
  have hcubic' := mul_le_mul_of_nonneg_right hcubic (by linarith : 0 ≤ one)
  have hlow' := mul_nonneg hlow (by linarith : 0 ≤ one)
  rcases abs_cases s with ⟨e, _⟩ | ⟨e, _⟩ <;> rw [e] <;> linarith

/-- The cosine's bound. -/
theorem cosine_quarter_bound {u one c : ℝ} (hone : 1000000 ≤ one) (hu0 : 0 ≤ u) (hu1 : u ≤ 5 / 2)
    (hupper : c ≤ one - 2 / 3 * (one * u / 2) + 200) (hlower : one - 4 / 3 * (one * u / 2) - 200 ≤ c) :
    4 * |c| ≤ 5 * one := by
  have hu0' := mul_nonneg hu0 (by linarith : 0 ≤ one)
  have hu1' := mul_le_mul_of_nonneg_right hu1 (by linarith : 0 ≤ one)
  rcases abs_cases c with ⟨e, _⟩ | ⟨e, _⟩ <;> rw [e] <;> linarith

/-- The square of a fixed-point number, in fixed point. -/
theorem square_bounds {r : Nat} {x : ℝ} (hx : (r : ℝ) = x * fxOne) :
    ((r * r / fxOne : ℕ) : ℝ) / fxOne ≤ x * x ∧ x * x - 1 / 1000000 ≤ ((r * r / fxOne : ℕ) : ℝ) / fxOne := by
  have hlarge : (1000000 : ℝ) ≤ fxOne := le_trans (by norm_num) fxOne_large
  have hO : (0 : ℝ) < fxOne := by linarith
  have hrr := natDiv_bounds (r * r) fxOne_pos
  have hxx : ((r * r : ℕ) : ℝ) / fxOne = x * x * fxOne := by rw [Nat.cast_mul, hx]; field_simp
  rw [hxx] at hrr
  rw [div_le_iff₀ hO, le_div_iff₀ hO]
  exact ⟨hrr.1, by linarith [hrr.2]⟩

/-- Sine and cosine of the quarter turn are at most 5/4 in magnitude. -/
theorem quarter_bounds (r : Nat) (hr : r ≤ fxHalfPi) :
    4 * |trigSeries 60 1 (r : Int) (r * r / fxOne) (r : Int)| ≤ 5 * (fxOne : Int) ∧
      4 * |trigSeries 60 0 (fxOne : Int) (r * r / fxOne) (fxOne : Int)| ≤ 5 * (fxOne : Int) := by
  have hlarge : (1000000 : ℝ) ≤ fxOne := le_trans (by norm_num) fxOne_large
  have hO : (0 : ℝ) < fxOne := by linarith
  have hr1 : (r : ℝ) / fxOne ≤ 158 / 100 := by
    have h : (100 : ℝ) * r ≤ 158 * fxOne := by exact_mod_cast (Nat.mul_le_mul_left 100 hr).trans fxHalfPi_le
    rw [div_le_iff₀ hO]; linarith
  have hrx : (r : ℝ) = r / fxOne * fxOne := (div_mul_cancel₀ _ hO.ne').symm
  have hx0 : (0 : ℝ) ≤ r / fxOne := by positivity
  obtain ⟨hu1, hu2⟩ := square_bounds hrx
  have hu0 : (0 : ℝ) ≤ ((r * r / fxOne : ℕ) : ℝ) / fxOne := by positivity
  generalize r * r / fxOne = q at *
  have hu3 : (q : ℝ) / fxOne ≤ 5 / 2 := hu1.trans (by nlinarith)
  have hsin := trigSeries_bounds hu3 1 (term := r)
  have hcos := trigSeries_bounds hu3 0 (term := fxOne)
  norm_num at hsin hcos
  rw [hrx] at hsin
  constructor
  · have := sine_quarter_bound (s := (trigSeries 60 1 (r : Int) q (r : Int) : ℝ)) hlarge hx0 hr1 hu1 hu2
      (by linarith [hsin.1]) (by linarith [hsin.2])
    exact_mod_cast this
  · have := cosine_quarter_bound (c := (trigSeries 60 0 (fxOne : Int) q (fxOne : Int) : ℝ)) hlarge hu0 hu3
      (by linarith [hcos.1]) (by linarith [hcos.2])
    exact_mod_cast this

/-- Sine and cosine in fixed point are at most 5/4 in magnitude. -/
theorem sinCosTurns_bounds (turns : Nat) :
    4 * |(sinCosTurns turns).1| ≤ 5 * (fxOne : Int) ∧ 4 * |(sinCosTurns turns).2| ≤ 5 * (fxOne : Int) := by
  obtain ⟨hs, hc⟩ := quarter_bounds _ (quarterArg_le turns)
  unfold quarterArg at hs hc
  unfold sinCosTurns
  simp only
  generalize trigSeries 60 1 _ _ _ = s at *
  generalize trigSeries 60 0 _ _ _ = c at *
  generalize 5 * (fxOne : Int) = bound at *
  have hs' : 4 * |-s| ≤ bound := by rwa [abs_neg]
  have hc' : 4 * |-c| ≤ bound := by rwa [abs_neg]
  split
  · exact ⟨hs, hc⟩
  · split
    · exact ⟨hc, hs'⟩
    · split
      · exact ⟨hs', hc'⟩
      · exact ⟨hc', hs⟩

/-! ## The designs of K_RBJ (R150) -/

/-- A coefficient whose denominator is not small beside its numerator is finite. -/
theorem coef32_finite {num den : Int} (hden : 0 < den) (hnum : |num| ≤ 1000 * den) : finite32 (coef32 num den) := by
  have hd : (0 : ℝ) < den := by exact_mod_cast hden
  have hdn : ((den.toNat : ℕ) : ℝ) = den := by exact_mod_cast Int.toNat_of_nonneg hden.le
  have hn : ((num.natAbs : ℕ) : ℝ) = |(num : ℝ)| := by rw [Nat.cast_natAbs, Int.cast_abs]
  have h := pack_rounded fmt32_sound (decide (num < 0)) (num.natAbs * 2 ^ fmt32.unit) (den := den.toNat) (by omega)
  have hr : Rounds32 (if decide (num < 0) then -(|(num : ℝ)| / den) else |(num : ℝ)| / den) (coef32 num den) := by
    refine rounds32_ofNat ?_
    convert h using 1
    rw [Nat.cast_mul, hdn, hn]
    split
    · rw [neg_mul, div_mul_eq_mul_div]; norm_num [fmt32]
    · rw [div_mul_eq_mul_div]; norm_num [fmt32]
  have habs : |if decide (num < 0) then -(|(num : ℝ)| / den) else |(num : ℝ)| / den| = |(num : ℝ)| / den := by
    split <;> simp [abs_div, abs_of_pos hd]
  rw [hr.finite_iff, habs, div_lt_iff₀ hd]
  have hover : (1000 : ℝ) < (overflow32 : ℚ) := by rw [overflow32]; norm_num
  have hnum' : |(num : ℝ)| ≤ 1000 * den := by exact_mod_cast hnum
  calc |(num : ℝ)| ≤ 1000 * den := hnum'
    _ < (overflow32 : ℚ) * den := mul_lt_mul_of_pos_right hover hd

theorem rbjBandPass_finite (sr : F64) : ∀ w ∈ rbjBandPass sr, finite32 w := by
  obtain ⟨hs, hc⟩ := sinCosTurns_bounds (turnsOf 1000 sr)
  have hO : (1000 : Int) ≤ fxOne := by exact_mod_cast (le_trans (by norm_num) fxOne_large : (1000 : ℝ) ≤ fxOne)
  unfold rbjBandPass
  simp only
  generalize sinCosTurns (turnsOf 1000 sr) = sc at *
  generalize (fxOne : Int) = one at *
  rw [abs_eq_max_neg] at hs hc
  have hden : 0 < one + sc.1 / 3 := by omega
  simp only [List.mem_cons, List.not_mem_nil, or_false, forall_eq_or_imp, forall_eq]
  refine ⟨coef32_finite hden ?_, ⟨by decide, by decide⟩, coef32_finite hden ?_, coef32_finite hden ?_,
    coef32_finite hden ?_⟩ <;> rw [abs_eq_max_neg] <;> omega

theorem fxSqrt2_bounds : 1414 * fxOne ≤ 1000 * fxSqrt2 := by decide +kernel

/-- The high-pass design's alpha is below 1 in magnitude. -/
theorem abs_mul_ediv_le {x one root : Int} (hone : 1000 ≤ one) (hroot : 1414 * one ≤ 1000 * root)
    (hx : 4 * |x| ≤ 5 * one) : 10 * |x * one / root| ≤ 9 * one := by
  have hroot0 : 0 < root := by omega
  rw [abs_eq_max_neg] at hx
  have hsq : 0 ≤ one * (one - 1000) := mul_nonneg (by omega) (by omega)
  have hlow : -(9 * one / 10) ≤ x * one / root := by
    rw [Int.le_ediv_iff_mul_le hroot0]
    have h1 : 0 ≤ (9 * one / 10) * (1000 * root - 1414 * one) := mul_nonneg (by omega) (by omega)
    have h2 : 0 ≤ (10 * (9 * one / 10) - (9 * one - 9)) * one := mul_nonneg (by omega) (by omega)
    have h3 : 0 ≤ (5 * one + 4 * x) * one := mul_nonneg (by omega) (by omega)
    nlinarith
  have hhigh : x * one / root < 9 * one / 10 := by
    rw [Int.ediv_lt_iff_lt_mul hroot0]
    have h1 : 0 ≤ (9 * one / 10) * (1000 * root - 1414 * one) := mul_nonneg (by omega) (by omega)
    have h2 : 0 ≤ (10 * (9 * one / 10) - (9 * one - 9)) * one := mul_nonneg (by omega) (by omega)
    have h3 : 0 ≤ (5 * one - 4 * x) * one := mul_nonneg (by omega) (by omega)
    nlinarith
  rw [abs_eq_max_neg]; omega

theorem rbjHighPass_finite (sr : F64) : ∀ w ∈ rbjHighPass sr, finite32 w := by
  obtain ⟨hs, hc⟩ := sinCosTurns_bounds (turnsOf 15000 sr)
  have hO : (1000 : Int) ≤ fxOne := by exact_mod_cast (le_trans (by norm_num) fxOne_large : (1000 : ℝ) ≤ fxOne)
  have hroot : 1414 * (fxOne : Int) ≤ 1000 * fxSqrt2 := by exact_mod_cast fxSqrt2_bounds
  unfold rbjHighPass
  simp only
  generalize sinCosTurns (turnsOf 15000 sr) = sc at *
  generalize (fxOne : Int) = one at *
  generalize (fxSqrt2 : Int) = root at *
  have halpha := abs_mul_ediv_le hO hroot hs
  generalize sc.1 * one / root = alpha at *
  rw [abs_eq_max_neg] at hc halpha
  have hden : 0 < one + alpha := by omega
  have hden' : 0 < 2 * (one + alpha) := by omega
  simp only [List.mem_cons, List.not_mem_nil, or_false, forall_eq_or_imp, forall_eq]
  refine ⟨coef32_finite hden' ?_, coef32_finite hden ?_, coef32_finite hden' ?_, coef32_finite hden ?_,
    coef32_finite hden ?_⟩ <;> rw [abs_eq_max_neg] <;> omega

/-! ## K_RBJ's step -/

theorem getD_finite {k : KCoef} (hk : ∀ w ∈ k, finite32 w) (i : Nat) : finite32 (k.getD i 0) := by
  rw [List.getD_eq_getElem?_getD]
  cases h : k[i]? with
  | none => exact ⟨by decide, by decide⟩
  | some w => exact hk w (List.mem_of_getElem? h)

theorem getD_zero {m : KMem} (hm : ∀ w ∈ m, zero32 w) (i : Nat) : zero32 (m.getD i 0) := by
  rw [List.getD_eq_getElem?_getD]
  cases h : m[i]? with
  | none => exact .inl rfl
  | some w => exact hm w (List.mem_of_getElem? h)

theorem refSub32_zeros {y z : F32} (hy : zero32 y) (hz : zero32 z) : zero32 (refSub32 y z) :=
  refAdd32_zeros hy (hz.elim (fun e => .inr (by rw [e]; rfl)) fun e => .inl (by rw [e]; rfl))

section Guarded
variable {a b : F32}

theorem guarded_mul_zero (ha : finite32 a) (hb : zero32 b) : zero32 ((guarded true numRef).mul32 a b) := by
  have h := refMul32_zero_right ha hb
  rwa [guarded_mul32 numRef ha (zero32_facts hb).1 (zero32_facts h).1]

theorem guarded_add_zeros (ha : zero32 a) (hb : zero32 b) : zero32 ((guarded true numRef).add32 a b) := by
  have h := refAdd32_zeros ha hb
  rwa [guarded_add32 numRef (zero32_facts ha).1 (zero32_facts hb).1 (zero32_facts h).1]

theorem guarded_sub_zeros (ha : zero32 a) (hb : zero32 b) : zero32 ((guarded true numRef).sub32 a b) := by
  have h := refSub32_zeros ha hb
  rwa [guarded_sub32 numRef (zero32_facts ha).1 (zero32_facts hb).1 (zero32_facts h).1]

end Guarded

/-- KP1: K_RBJ over `Num_ref` is quiet with a memory of zeros. -/
theorem kernelRbj_quiet (design : F64 → KCoef) {k : KCoef} (hk : ∀ w ∈ k, finite32 w) :
    QuietKernel (kernelRbj numRef design) k (fun m => ∀ w ∈ m, zero32 w) where
  zero w hw := by
    rw [show (kernelRbj numRef design).zero = [0, 0] from rfl] at hw
    simp only [List.mem_cons, List.not_mem_nil, or_false, or_self] at hw
    exact .inl hw
  step m z hm hz := by
    have hy := guarded_add_zeros (guarded_mul_zero (getD_finite hk 0) hz) (getD_zero hm 0)
    have hk' := getD_finite hk
    refine ⟨hy, fun w hw => ?_⟩
    rcases List.mem_cons.1 hw with rfl | hw
    · exact guarded_add_zeros (guarded_sub_zeros (guarded_mul_zero (hk' 1) hz) (guarded_mul_zero (hk' 3) hy))
        (getD_zero hm 1)
    · rw [List.mem_singleton.1 hw]
      exact guarded_sub_zeros (guarded_mul_zero (hk' 2) hz) (guarded_mul_zero (hk' 4) hy)

/-- Short of overflow, K_RBJ's guarded step gives the values that `rbjValues` lists, and they are finite. -/
theorem rbjStep_finite {N : Num} {k : KCoef} {m : KMem} {x : F32} (hk : ∀ w ∈ k, finite32 w) (hm : ∀ w ∈ m, finite32 w)
    (hx : finite32 x) (hv : (rbjValues N k m x).all isFinite32 = true) :
    finite32 (rbjStep (guarded true N) k m x).1 ∧ ∀ w ∈ (rbjStep (guarded true N) k m x).2, finite32 w := by
  have hk' := getD_finite hk
  have hm' := getD_finite hm
  simp only [rbjValues, List.all_cons, List.all_nil, Bool.and_true, Bool.and_eq_true, isFinite32_iff] at hv
  obtain ⟨hp0, hy, hp1, hq1, hd1, hm1, hp2, hq2, hm2⟩ := hv
  have ey : (guarded true N).add32 ((guarded true N).mul32 (k.getD 0 0) x) (m.getD 0 0) =
      N.add32 (N.mul32 (k.getD 0 0) x) (m.getD 0 0) := by
    rw [guarded_mul32 N (hk' 0) hx hp0, guarded_add32 N hp0 (hm' 0) hy]
  have e1 : (guarded true N).mul32 (k.getD 1 0) x = N.mul32 (k.getD 1 0) x := guarded_mul32 N (hk' 1) hx hp1
  have e2 : (guarded true N).mul32 (k.getD 2 0) x = N.mul32 (k.getD 2 0) x := guarded_mul32 N (hk' 2) hx hp2
  simp only [rbjStep, ey, e1, e2, List.mem_cons, List.not_mem_nil, or_false, forall_eq_or_imp, forall_eq]
  rw [guarded_mul32 N (hk' 3) hy hq1, guarded_mul32 N (hk' 4) hy hq2, guarded_sub32 N hp1 hq1 hd1,
    guarded_add32 N hd1 (hm' 1) hm1, guarded_sub32 N hp2 hq2 hm2]
  exact ⟨hy, hm1, hm2⟩

theorem kernelRbj_no_overflow {N : Num} {design : F64 → KCoef} {k : KCoef} {m : KMem} {x : F32}
    (h : (kernelRbj N design).overflows k m x = false) : (rbjValues N k m x).all isFinite32 = true := by
  simpa [kernelRbj] using h

/-- A memory that K_RBJ reaches by finite inputs without overflow is finite. -/
theorem kernelRbj_reached {N : Num} {design : F64 → KCoef} {k : KCoef} (hk : ∀ w ∈ k, finite32 w) {m : KMem}
    (h : KernelReached (kernelRbj N design) k m) : ∀ w ∈ m, finite32 w := by
  induction h with
  | zero =>
    intro w hw
    rw [show (kernelRbj N design).zero = [0, 0] from rfl] at hw
    simp only [List.mem_cons, List.not_mem_nil, or_false, or_self] at hw
    rw [hw]; exact ⟨by decide, by decide⟩
  | step m x _ hx ho ih => exact (rbjStep_finite hk ih hx (kernelRbj_no_overflow ho)).2

/-- KP4: K_RBJ's outputs are finite short of overflow. -/
theorem kernelRbj_finite (N : Num) (design : F64 → KCoef) {k : KCoef} (hk : ∀ w ∈ k, finite32 w) :
    FiniteKernel (kernelRbj N design) k := fun _ _ hm hx ho =>
  (rbjStep_finite hk (kernelRbj_reached hk hm) hx (kernelRbj_no_overflow ho)).1

/-- A design of finite words makes K_RBJ admissible. -/
theorem kernelRbj_admissible {design : F64 → KCoef} (hd : ∀ sr, ∀ w ∈ design sr, finite32 w) :
    AdmissibleKernel (kernelRbj numRef design) :=
  ⟨⟨_, fun sr => kernelRbj_quiet design (hd sr)⟩, fun sr => kernelRbj_finite numRef design (hd sr)⟩

theorem kernelId_quiet (k : KCoef) : QuietKernel kernelId k (fun _ => True) :=
  ⟨trivial, fun _ _ _ hz => ⟨hz, trivial⟩⟩

/-- Settles O59: K_ID copies, and K_RBJ's two designs are finite. -/
theorem concreteKernelsAreAdmissible : Obligations.ConcreteKernelsAreAdmissible := by
  refine ⟨kernelId_quiet, ⟨⟨_, fun _ => kernelId_quiet _⟩, fun _ _ _ _ hx _ => hx⟩,
    fun design _ hk => ⟨kernelRbj_quiet design hk, kernelRbj_finite numRef design hk⟩,
    kernelRbj_admissible rbjBandPass_finite, kernelRbj_admissible rbjHighPass_finite, fun sr w hw => ?_⟩
  rcases List.mem_append.1 hw with h | h
  · exact rbjBandPass_finite sr w h
  · exact rbjHighPass_finite sr w h

end Sys2Proof.Machine
end

section
/-! NP5 for the sum, the difference, the product and the conversion to F32 (40_numerics R123): what each gives where an
operand is an infinity, and that rounding keeps the order elsewhere. -/

namespace Sys2Proof.Machine

/-! ## Infinities as values -/

section Infinite
variable {f : Fmt} {c : Nat}

theorem patMag_inf_pos {f : Fmt} (hf : f.Sound) : (0 : Int) < patMag f f.inf := by
  have := patMag_strictMono f hf.infPos
  rw [patMag_zero] at this
  exact_mod_cast this

theorem natAbs_val_of_isInf (h : isInf f c = true) : (val f c).natAbs = patMag f f.inf := by
  rw [val_natAbs, mag_eq_patMag, of_decide_eq_true h]

theorem val_of_isInf (h : isInf f c = true) : val f c = if isNeg f c then -(patMag f f.inf : Int) else patMag f f.inf := by
  unfold val
  rw [mag_eq_patMag, of_decide_eq_true h]

/-- No value lies beyond the infinities. -/
theorem natAbs_val_le_inf (h : isNaN f c = false) : (val f c).natAbs ≤ patMag f f.inf := by
  rw [val_natAbs, mag_eq_patMag]
  exact (patMag_strictMono f).monotone (by simpa [isNaN] using h)

/-- A number that is as large as an infinity is one. -/
theorem isInf_of_natAbs (h : isNaN f c = false) (hv : (val f c).natAbs = patMag f f.inf) : isInf f c = true := by
  by_contra hi
  have := natAbs_val_lt_inf (finite_code_iff.1 ⟨h, Bool.not_eq_true _ ▸ hi⟩)
  omega

/-- What is not above a finite number, and not negative, is finite. -/
theorem isInf_false_of_le {c' : Nat} (h0 : 0 ≤ val f c) (hle : val f c ≤ val f c')
    (h' : isNaN f c' = false ∧ isInf f c' = false) : isInf f c = false := by
  by_contra hi
  have := natAbs_val_of_isInf (Bool.not_eq_false _ ▸ hi)
  have := natAbs_val_lt_inf (finite_code_iff.1 h')
  omega

/-- An infinity that is not negative has no sign. -/
theorem isNeg_false_of_isInf (hf : f.Sound) (h : isInf f c = true) (h0 : 0 ≤ val f c) : isNeg f c = false := by
  have hM := patMag_strictMono f hf.infPos
  have hval := val_of_isInf h
  cases hn : isNeg f c
  · rfl
  · rw [hn, if_pos rfl] at hval
    rw [patMag_zero] at hM
    omega

theorem infCode_val {f : Fmt} (hf : f.Sound) (neg : Bool) :
    val f (infCode f neg) = if neg then -(patMag f f.inf : Int) else patMag f f.inf := by
  unfold val infCode
  rw [isNeg_sign_add f hf.infLt, mag_eq_patMag, sign_add_mod f hf.infLt]

end Infinite

/-! ## Sums -/

/-- What a sum that is no NaN is: an infinite operand, or the rounded sum of finite ones. -/
structure SumResult (f : Fmt) (a b r : Nat) : Prop where
  left : isInf f a = true → val f r = val f a
  right : isInf f b = true → val f r = val f b
  finite : isInf f a = false → isInf f b = false → Rounded f (val f a + val f b) r

section Sums
variable {f : Fmt} {nan a a' b r r' : Nat}

theorem SumResult.symm (h : SumResult f a b r) : SumResult f b a r :=
  ⟨h.right, h.left, fun hb ha => by rw [add_comm]; exact h.finite ha hb⟩

theorem addCode_result (hf : f.Sound) (hnan : isNaN f nan = true) (ha : isNaN f a = false) (hb : isNaN f b = false)
    (hr : isNaN f (addCode f nan a b) = false) : SumResult f a b (addCode f nan a b) := by
  cases hia : isInf f a
  · cases hib : isInf f b
    · exact ⟨fun e => absurd (hia.symm.trans e) Bool.false_ne_true, fun e => absurd (hib.symm.trans e) Bool.false_ne_true,
        fun _ _ => addCode_rounded hf ⟨ha, hia⟩ ⟨hb, hib⟩⟩
    · have e : addCode f nan a b = b := by simp [addCode, ha, hb, hia, hib]
      rw [e]
      exact ⟨fun e => absurd (hia.symm.trans e) Bool.false_ne_true, fun _ => rfl,
        fun _ e => absurd (e.symm.trans hib) Bool.false_ne_true⟩
  · have hsame : isInf f b = true → isNeg f a = isNeg f b := fun hib => by
      by_contra hne
      have e : addCode f nan a b = nan := by simp [addCode, ha, hb, hia, hib, hne]
      rw [e, hnan] at hr; cases hr
    have e : addCode f nan a b = a := by
      cases hib : isInf f b
      · simp [addCode, ha, hb, hia, hib]
      · simp [addCode, ha, hb, hia, hib, hsame hib]
    rw [e]
    refine ⟨fun _ => rfl, fun hib => ?_, fun e => absurd (e.symm.trans hia) Bool.false_ne_true⟩
    rw [val_of_isInf hia, val_of_isInf hib, hsame hib]

theorem SumResult.mono (hf : f.Sound) (h : SumResult f a b r) (h' : SumResult f a' b r') (ha : isNaN f a = false)
    (ha' : isNaN f a' = false) (hr : isNaN f r = false) (hr' : isNaN f r' = false) (hle : val f a ≤ val f a') :
    val f r ≤ val f r' := by
  have hM := patMag_inf_pos hf
  have hrM := natAbs_val_le_inf hr
  have hrM' := natAbs_val_le_inf hr'
  have hM' := natAbs_val_le_inf ha'
  cases hib : isInf f b
  · cases hia : isInf f a
    · cases hia' : isInf f a'
      · exact (h.finite hia hib).val_mono (h'.finite hia' hib) (by gcongr)
      · have hlt := natAbs_val_lt_inf (finite_code_iff.1 ⟨ha, hia⟩)
        have hv := natAbs_val_of_isInf hia'
        have := h'.left hia'
        omega
    · have hv := natAbs_val_of_isInf hia
      have hvr := h.left hia
      rcases lt_or_ge (val f a) 0 with hneg | hpos
      · omega
      · have := h'.left (isInf_of_natAbs ha' (by omega))
        omega
  · rw [h.right hib, h'.right hib]

end Sums

/-! ## Products -/

/-- What a product that is no NaN is: the rounded product of finite operands, or the infinity of the combined sign. -/
structure ProductResult (f : Fmt) (a b r : Nat) : Prop where
  infinite : isInf f a = true ∨ isInf f b = true →
    (0 < val f a * val f b ∧ val f r = patMag f f.inf) ∨ (val f a * val f b < 0 ∧ val f r = -patMag f f.inf)
  finite : isInf f a = false → isInf f b = false → Rounded f (val f a * val f b / 2 ^ f.unit) r

section Products
variable {f : Fmt} {nan a a' b r r' : Nat}

theorem ProductResult.symm (h : ProductResult f a b r) : ProductResult f b a r := by
  refine ⟨fun hi => ?_, fun hb ha => ?_⟩
  · rw [mul_comm (val f b)]
    exact h.infinite hi.symm
  · rw [mul_comm (val f b : ℝ)]
    exact h.finite ha hb

theorem isNeg_iff_val (h : mag f a ≠ 0) : isNeg f a = true ↔ val f a < 0 := by
  unfold val
  cases isNeg f a
  · simp
  · simp
    omega

theorem mulCode_result (hf : f.Sound) (hnan : isNaN f nan = true) (ha : isNaN f a = false) (hb : isNaN f b = false)
    (hr : isNaN f (mulCode f nan a b) = false) : ProductResult f a b (mulCode f nan a b) := by
  refine ⟨fun hi => ?_, fun hia hib => mulCode_rounded hf ⟨ha, hia⟩ ⟨hb, hib⟩⟩
  have hi' : (isInf f a || isInf f b) = true := by simpa using hi
  by_cases hz : mag f a = 0 ∨ mag f b = 0
  · have e : mulCode f nan a b = nan := by simp only [mulCode, ha, hb, hi', hz]; simp
    rw [e, hnan] at hr; cases hr
  · have e : mulCode f nan a b = infCode f (isNeg f a != isNeg f b) := by
      simp only [mulCode, ha, hb, hi', hz]; simp
    rw [not_or] at hz
    have hna := isNeg_iff_val hz.1
    have hnb := isNeg_iff_val hz.2
    have hva : val f a ≠ 0 := by rw [← Int.natAbs_ne_zero, val_natAbs]; exact hz.1
    have hvb : val f b ≠ 0 := by rw [← Int.natAbs_ne_zero, val_natAbs]; exact hz.2
    rw [e, infCode_val hf]
    cases ea : isNeg f a <;> cases eb : isNeg f b <;> rw [ea] at hna <;> rw [eb] at hnb
    · exact .inl ⟨mul_pos (by simp at hna; omega) (by simp at hnb; omega), by simp⟩
    · exact .inr ⟨mul_neg_of_pos_of_neg (by simp at hna; omega) (by simpa using hnb), by simp⟩
    · exact .inr ⟨mul_neg_of_neg_of_pos (by simpa using hna) (by simp at hnb; omega), by simp⟩
    · exact .inl ⟨mul_pos_of_neg_of_neg (by simpa using hna) (by simpa using hnb), by simp⟩

theorem ProductResult.mono (hf : f.Sound) (h : ProductResult f a b r) (h' : ProductResult f a' b r')
    (ha : isNaN f a = false) (ha' : isNaN f a' = false) (hr : isNaN f r = false) (hr' : isNaN f r' = false)
    (hle : val f a ≤ val f a') (h0 : 0 ≤ val f b) : val f r ≤ val f r' := by
  have hM := patMag_inf_pos hf
  have hrM := natAbs_val_le_inf hr
  have hrM' := natAbs_val_le_inf hr'
  have hprod : val f a * val f b ≤ val f a' * val f b := mul_le_mul_of_nonneg_right hle h0
  cases hia : isInf f a
  · cases hib : isInf f b
    · cases hia' : isInf f a'
      · refine (h.finite hia hib).val_mono (h'.finite hia' hib) ?_
        gcongr
      · rcases h'.infinite (.inl hia') with ⟨-, e⟩ | ⟨hneg, -⟩
        · omega
        · have hlt := natAbs_val_lt_inf (finite_code_iff.1 ⟨ha, hia⟩)
          have hv := natAbs_val_of_isInf hia'
          have : val f a' < 0 := by
            by_contra hge
            exact absurd (mul_nonneg (not_lt.1 hge) h0) (not_le.2 hneg)
          omega
    · rcases h.infinite (.inr hib) with ⟨hpos, e⟩ | ⟨-, e⟩
      · rcases h'.infinite (.inr hib) with ⟨-, e'⟩ | ⟨hneg, -⟩ <;> omega
      · omega
  · rcases h.infinite (.inl hia) with ⟨hpos, e⟩ | ⟨-, e⟩
    · have hv := natAbs_val_of_isInf hia
      have hM' := natAbs_val_le_inf ha'
      have : 0 < val f a := by
        by_contra hle0
        exact absurd (mul_nonpos_of_nonpos_of_nonneg (not_lt.1 hle0) h0) (not_le.2 hpos)
      rcases h'.infinite (.inl (isInf_of_natAbs ha' (by omega))) with ⟨-, e'⟩ | ⟨hneg, -⟩ <;> omega
    · omega

end Products

/-! ## NP5 for words -/

theorem isNaN_of_not_nan32 {x : F32} (h : ¬nan32P x) : isNaN fmt32 x.toNat = false := Bool.not_eq_true _ ▸ h

theorem isNaN_of_not_nan64 {x : F64} (h : ¬nan64P x) : isNaN fmt64 x.toNat = false := Bool.not_eq_true _ ▸ h

section Words
variable {a a' b : F32}

/-- A sum of patterns is a pattern. -/
theorem addCode_lt (site : Nat) (a b : F32) : addCode fmt32 (nan32 site a b) a.toNat b.toNat < 2 * fmt32.sign := by
  have hnan : nan32 site a b < 2 * fmt32.sign := (nanCode_isNaN fmt32_sound _).2
  cases hna : isNaN fmt32 a.toNat || isNaN fmt32 b.toNat
  · cases hia : isInf fmt32 a.toNat
    · cases hib : isInf fmt32 b.toNat
      · rw [Bool.or_eq_false_iff] at hna
        exact (addCode_rounded fmt32_sound ⟨hna.1, hia⟩ ⟨hna.2, hib⟩).bound
      · simpa [addCode, hna, hia, hib] using toNat_lt_two_sign32 b
    · have e : addCode fmt32 (nan32 site a b) a.toNat b.toNat =
          if isInf fmt32 b.toNat && (isNeg fmt32 a.toNat != isNeg fmt32 b.toNat) then nan32 site a b else a.toNat := by
        simp [addCode, hna, hia]
      rw [e]
      split
      · exact hnan
      · exact toNat_lt_two_sign32 a
  · simpa [addCode, hna] using hnan

theorem toNat_refAdd32 (a b : F32) : (refAdd32 a b).toNat = addCode fmt32 (nan32 0 a b) a.toNat b.toNat := by
  rw [refAdd32, BitVec.toNat_ofNat]
  exact Nat.mod_eq_of_lt (addCode_lt 0 a b)

theorem refAdd32_result (ha : ¬nan32P a) (hb : ¬nan32P b) (hr : ¬nan32P (refAdd32 a b)) :
    SumResult fmt32 a.toNat b.toNat (refAdd32 a b).toNat := by
  have hr' := isNaN_of_not_nan32 hr
  rw [toNat_refAdd32] at hr' ⊢
  exact addCode_result fmt32_sound (nanCode_isNaN fmt32_sound _).1 (isNaN_of_not_nan32 ha) (isNaN_of_not_nan32 hb) hr'

/-- NP5 of the sum. -/
theorem refAdd32_mono (ha : ¬nan32P a) (ha' : ¬nan32P a') (hb : ¬nan32P b) (hle : le32 a a') :
    le32 (refAdd32 a b) (refAdd32 a' b) ∧ le32 (refAdd32 b a) (refAdd32 b a') := by
  have hv := hle ha ha'
  constructor <;> intro hr hr'
  · exact (refAdd32_result ha hb hr).mono fmt32_sound (refAdd32_result ha' hb hr') (isNaN_of_not_nan32 ha)
      (isNaN_of_not_nan32 ha') (isNaN_of_not_nan32 hr) (isNaN_of_not_nan32 hr') hv
  · exact (refAdd32_result hb ha hr).symm.mono fmt32_sound (refAdd32_result hb ha' hr').symm (isNaN_of_not_nan32 ha)
      (isNaN_of_not_nan32 ha') (isNaN_of_not_nan32 hr) (isNaN_of_not_nan32 hr') hv

theorem le32_refNeg32 (ha : ¬nan32P a) (ha' : ¬nan32P a') (hle : le32 a a') : le32 (refNeg32 a') (refNeg32 a) :=
  fun _ _ => by rw [val_refNeg32, val_refNeg32]; exact neg_le_neg (hle ha ha')

/-- NP5 of the difference. -/
theorem refSub32_mono (ha : ¬nan32P a) (ha' : ¬nan32P a') (hb : ¬nan32P b) (hle : le32 a a') :
    le32 (refSub32 a b) (refSub32 a' b) ∧ le32 (refSub32 b a') (refSub32 b a) :=
  ⟨(refAdd32_mono ha ha' (mt nan32P_refNeg32.1 hb) hle).1,
    (refAdd32_mono (mt nan32P_refNeg32.1 ha') (mt nan32P_refNeg32.1 ha) hb (le32_refNeg32 ha ha' hle)).2⟩

theorem mulCode_lt (site : Nat) (a b : F32) : mulCode fmt32 (nan32 site a b) a.toNat b.toNat < 2 * fmt32.sign := by
  have hnan : nan32 site a b < 2 * fmt32.sign := (nanCode_isNaN fmt32_sound _).2
  unfold mulCode
  simp only
  split
  · exact hnan
  · split
    · split
      · exact hnan
      · cases isNeg fmt32 a.toNat != isNeg fmt32 b.toNat <;> decide
    · exact (pack_rounded fmt32_sound _ _ (Nat.two_pow_pos _)).bound

theorem val_one32 : val fmt32 one32.toNat = 2 ^ fmt32.unit := by decide +kernel

theorem refMul32_result (ha : ¬nan32P a) (hb : ¬nan32P b) (hr : ¬nan32P (refMul32 a b)) :
    ProductResult fmt32 a.toNat b.toNat (refMul32 a b).toNat := by
  have hpow : (0 : Int) < 2 ^ fmt32.unit := by positivity
  have ha' := isNaN_of_not_nan32 ha
  by_cases hone : b = one32
  · rw [refMul32, if_pos hone, hone]
    refine ⟨fun hi => ?_, fun hia _ => ?_⟩
    · have hia : isInf fmt32 a.toNat = true := hi.resolve_right (by decide)
      have hM := patMag_inf_pos fmt32_sound
      have hv := val_of_isInf hia
      rw [val_one32]
      cases hn : isNeg fmt32 a.toNat <;> rw [hn] at hv
      · exact .inl ⟨mul_pos (by rw [hv]; exact hM) hpow, hv⟩
      · exact .inr ⟨mul_neg_of_neg_of_pos (by rw [hv]; exact neg_lt_zero.2 hM) hpow, hv⟩
    · rw [val_one32, Int.cast_pow, Int.cast_ofNat, mul_div_cancel_right₀ _ (pow_ne_zero _ two_ne_zero)]
      exact rounded_val (toNat_lt_two_sign32 a) (finite_code_iff.1 ⟨ha', hia⟩)
  · have e : (refMul32 a b).toNat = mulCode fmt32 (nan32 1 a b) a.toNat b.toNat := by
      rw [refMul32, if_neg hone, BitVec.toNat_ofNat]
      exact Nat.mod_eq_of_lt (mulCode_lt 1 a b)
    have hr' := isNaN_of_not_nan32 hr
    rw [e] at hr' ⊢
    exact mulCode_result fmt32_sound (nanCode_isNaN fmt32_sound _).1 ha' (isNaN_of_not_nan32 hb) hr'

/-- NP5 of the product with a factor that is not negative. -/
theorem refMul32_mono (ha : ¬nan32P a) (ha' : ¬nan32P a') (hb : ¬nan32P b) (hle : le32 a a') (h0 : le32 0x00000000 b) :
    le32 (refMul32 a b) (refMul32 a' b) ∧ le32 (refMul32 b a) (refMul32 b a') := by
  have hv := hle ha ha'
  have hb0 : 0 ≤ val fmt32 b.toNat := h0 (by unfold nan32P; decide) hb
  constructor <;> intro hr hr'
  · exact (refMul32_result ha hb hr).mono fmt32_sound (refMul32_result ha' hb hr') (isNaN_of_not_nan32 ha)
      (isNaN_of_not_nan32 ha') (isNaN_of_not_nan32 hr) (isNaN_of_not_nan32 hr') hv hb0
  · exact (refMul32_result hb ha hr).symm.mono fmt32_sound (refMul32_result hb ha' hr').symm (isNaN_of_not_nan32 ha)
      (isNaN_of_not_nan32 ha') (isNaN_of_not_nan32 hr) (isNaN_of_not_nan32 hr') hv hb0

end Words

/-! ## The conversion to F32 -/

theorem refCvt64to32_inf {x : F64} (hn : isNaN fmt64 x.toNat = false) (hi : isInf fmt64 x.toNat = true) :
    val fmt32 (refCvt64to32 x).toNat =
      if isNeg fmt64 x.toNat then -(patMag fmt32 fmt32.inf : Int) else patMag fmt32 fmt32.inf := by
  have e : (refCvt64to32 x).toNat = infCode fmt32 (isNeg fmt64 x.toNat) := by
    have hcode : ∀ nan, cvtCode fmt64 fmt32 nan x.toNat = infCode fmt32 (isNeg fmt64 x.toNat) := fun nan => by
      simp [cvtCode, hn, hi]
    rw [refCvt64to32, hcode]
    cases isNeg fmt64 x.toNat <;> decide
  rw [e, infCode_val fmt32_sound]

/-- NP5 of the conversion. -/
theorem refCvt64to32_mono {x x' : F64} (hx : ¬nan64P x) (hx' : ¬nan64P x') (hle : le64 x x') :
    le32 (refCvt64to32 x) (refCvt64to32 x') := by
  intro hr hr'
  have hv := hle hx hx'
  have hn := isNaN_of_not_nan64 hx
  have hn' := isNaN_of_not_nan64 hx'
  have hrM := natAbs_val_le_inf (isNaN_of_not_nan32 hr)
  have hrM' := natAbs_val_le_inf (isNaN_of_not_nan32 hr')
  have hM := patMag_inf_pos fmt64_sound
  have hx'M := natAbs_val_le_inf hn'
  cases hi : isInf fmt64 x.toNat
  · cases hi' : isInf fmt64 x'.toNat
    · have hq : rat64 x ≤ rat64 x' := (le64_rat ⟨hn, hi⟩ ⟨hn', hi'⟩).1 hle
      exact (refCvt64to32_rounds ⟨hn, hi⟩).le32 (refCvt64to32_rounds ⟨hn', hi'⟩) (by exact_mod_cast hq) hr hr'
    · have hlt := natAbs_val_lt_inf (finite_code_iff.1 ⟨hn, hi⟩)
      have hval := val_of_isInf hi'
      rw [refCvt64to32_inf hn' hi']
      cases hneg : isNeg fmt64 x'.toNat <;> rw [hneg] at hval
      · rw [if_neg Bool.false_ne_true]; omega
      · rw [if_pos rfl] at hval; omega
  · have hval := val_of_isInf hi
    cases hneg : isNeg fmt64 x.toNat <;> rw [hneg] at hval
    · rw [if_neg Bool.false_ne_true] at hval
      have hi' := isInf_of_natAbs hn' (by omega)
      have hneg' := isNeg_false_of_isInf fmt64_sound hi' (by omega)
      rw [refCvt64to32_inf hn hi, refCvt64to32_inf hn' hi', hneg, hneg']
    · rw [refCvt64to32_inf hn hi, hneg, if_pos rfl]; omega

end Sys2Proof.Machine
end

section
/-! NP8 (40_numerics R123): the rounding of a number that is close to the exact one is one of the two values nearest to the
exact one. -/

namespace Sys2Proof.Machine

/-! ## Gaps between values -/

section Gaps
variable {f : Fmt} {u v : Nat}

/-- Two values differ by a unit at least. -/
theorem one_le_abs_val_sub (h : val f u ≠ val f v) : (1 : ℝ) ≤ |(val f u : ℝ) - val f v| := by
  have : (1 : Int) ≤ |val f u - val f v| := Int.one_le_abs (sub_ne_zero.2 h)
  exact_mod_cast this

/-- Two values differ by a part of each that the precision bounds. -/
theorem abs_val_le_gap (h : val f u ≠ val f v) :
    |(val f u : ℝ)| ≤ |(val f u : ℝ) - val f v| * (2 * 2 ^ (f.prec - 1)) := by
  have hP : (1 : ℝ) ≤ 2 * 2 ^ (f.prec - 1) := by
    have : (1 : ℝ) ≤ 2 ^ (f.prec - 1) := one_le_pow₀ one_le_two
    linarith
  have hrev : |(|(val f u : ℝ)| - |(val f v : ℝ)|)| ≤ |(val f u : ℝ) - val f v| := abs_abs_sub_abs_le _ _
  rw [abs_val, abs_val] at hrev
  have hself : ∀ {d : ℝ}, |(val f u : ℝ)| ≤ d → |(val f u : ℝ)| ≤ d * (2 * 2 ^ (f.prec - 1)) := fun {d} hd =>
    hd.trans (le_mul_of_one_le_right ((abs_nonneg _).trans hd) hP)
  rcases lt_trichotomy (u % f.sign) (v % f.sign) with hlt | heq | hgt
  · obtain ⟨-, hgap⟩ := patMag_gap f hlt
    have hle : (patMag f (u % f.sign) : ℝ) ≤ patMag f (v % f.sign) := by
      exact_mod_cast (patMag_strictMono f).monotone hlt.le
    rw [abs_val]
    calc (patMag f (u % f.sign) : ℝ) ≤ (patMag f (v % f.sign) - patMag f (u % f.sign)) * (2 * 2 ^ (f.prec - 1)) :=
          hle.trans hgap
      _ ≤ |(val f u : ℝ) - val f v| * (2 * 2 ^ (f.prec - 1)) := by
          refine mul_le_mul_of_nonneg_right (le_trans ?_ hrev) (by positivity)
          rw [abs_sub_comm]; exact le_abs_self _
  · refine hself ?_
    have habs : |(val f u : ℝ)| = |(val f v : ℝ)| := by rw [abs_val, abs_val, heq]
    rcases abs_eq_abs.1 habs with e | e
    · exact absurd (by exact_mod_cast e) h
    · rw [show (val f v : ℝ) = -val f u by linarith, sub_neg_eq_add, ← two_mul, abs_mul, abs_two]
      linarith [abs_nonneg (val f u : ℝ)]
  · obtain ⟨-, hgap⟩ := patMag_gap f hgt
    rw [abs_val]
    refine hgap.trans (mul_le_mul_of_nonneg_right (le_trans ?_ hrev) (by positivity))
    exact le_abs_self _

end Gaps

/-! ## Numbers close to the exact one -/

/-- `y'` is so close to `y` that its rounding is one of the two values nearest to `y`: within a quarter of a unit, or within a
small part of the last place. -/
def CloseTo (f : Fmt) (y y' : ℝ) : Prop := |y' - y| ≤ 1 / 4 ∨ |y' - y| * (64 * 2 ^ (f.prec - 1)) ≤ |y|

theorem CloseTo.refl (f : Fmt) (y : ℝ) : CloseTo f y y := .inl (by rw [sub_self, abs_zero]; norm_num)

/-- The nearest magnitude is within half a unit, or within half of the number. -/
theorem NearestPat.error {f : Fmt} {x : ℝ} {R : Nat} (h : NearestPat f x R) (hx : 0 ≤ x) :
    |x - patMag f R| ≤ 1 / 2 ∨ |x - patMag f R| ≤ x / 2 := by
  have hone : (1 : Nat) ≤ 2 * 2 ^ (f.prec - 1) := Nat.mul_pos two_pos (Nat.two_pow_pos _)
  rcases lt_or_ge x 1 with hlt | hge
  · left
    obtain ⟨p, hp⟩ := exists_patMag f 0 hone
    have h0 := h.le 0
    have h1 := h.le p
    rw [patMag_zero, Nat.cast_zero, sub_zero, abs_of_nonneg hx] at h0
    rw [hp, pow_zero, mul_one, Nat.cast_one, abs_sub_comm x 1, abs_of_nonneg (show 0 ≤ 1 - x by linarith)] at h1
    linarith
  · right
    obtain ⟨j, hj, hj'⟩ := exists_nat_pow_near hge one_lt_two
    obtain ⟨p, hp⟩ := exists_patMag f j hone
    refine (h.le p).trans ?_
    rw [hp]
    push_cast
    rw [one_mul, abs_of_nonneg (by linarith), pow_succ] at *
    linarith

section Near
variable {f : Fmt} {y y' : ℝ} {c : Nat}

theorem Rounded.error (h : Rounded f y c) (hfin : isInf f c = false) :
    |y - val f c| ≤ 1 / 2 ∨ |y - val f c| ≤ |y| / 2 := by
  obtain ⟨R, hR, hc⟩ := h.near
  have hRc : c % f.sign = R := by
    simp only [isInf, decide_eq_false_iff_not] at hfin
    omega
  rw [h.abs_sub_val, hRc]
  exact hR.error (abs_nonneg y)

/-- Two values that are no farther from `y` than the rounding of `y'` are more than twice the error apart. -/
theorem Rounded.gap_of_close (hf : f.Sound) (h : Rounded f y' c) (hfin : isInf f c = false) (hclose : CloseTo f y y')
    {u v : Nat} (hne : val f u ≠ val f v) (hu : |y - val f u| ≤ |y - val f c|) :
    2 * |y' - y| < |(val f u : ℝ) - val f v| := by
  have hunit := one_le_abs_val_sub hne
  rcases hclose with habs | hrel
  · linarith
  · by_contra hle
    rw [not_lt] at hle
    have hgap := abs_val_le_gap hne
    have hP : (2 : ℝ) ≤ 2 ^ (f.prec - 1) := by
      have : (2 : ℝ) ^ 1 ≤ 2 ^ (f.prec - 1) := pow_le_pow_right₀ one_le_two (by have := hf.prec; omega)
      linarith
    have hδ : 0 ≤ |y' - y| := abs_nonneg _
    have hsmall : 128 * |y' - y| ≤ |y| := by
      refine le_trans ?_ hrel
      nlinarith
    have hul : 16 * |(val f u : ℝ)| ≤ |y| := by
      have : |(val f u : ℝ) - val f v| * (2 * 2 ^ (f.prec - 1)) ≤ 2 * |y' - y| * (2 * 2 ^ (f.prec - 1)) :=
        mul_le_mul_of_nonneg_right hle (by positivity)
      linarith
    have h1 : |y| - |(val f u : ℝ)| ≤ |y - val f u| := abs_sub_abs_le_abs_sub _ _
    have h2 : |y - val f c| ≤ |y - y'| + |y' - val f c| := abs_sub_le _ _ _
    have h3 : |y'| - |y| ≤ |y' - y| := abs_sub_abs_le_abs_sub _ _
    rw [abs_sub_comm y y'] at h2
    rcases h.error hfin with herr | herr <;> linarith

/-- Numbers on one side of `y`, at almost the same distance, are close to each other. -/
theorem abs_sub_le_of_same_side {y a b d δ : ℝ} (hside : (a ≤ y ∧ b ≤ y) ∨ (y ≤ a ∧ y ≤ b)) (ha : |y - a| ≤ d)
    (hb : |y - b| ≤ d) (ha' : d ≤ |y - a| + δ) (hb' : d ≤ |y - b| + δ) : |a - b| ≤ δ := by
  rcases hside with ⟨h1, h2⟩ | ⟨h1, h2⟩
  · rw [abs_of_nonneg (show 0 ≤ y - a by linarith)] at ha ha'
    rw [abs_of_nonneg (show 0 ≤ y - b by linarith)] at hb hb'
    rw [abs_le]; constructor <;> linarith
  · rw [abs_of_nonpos (show y - a ≤ 0 by linarith)] at ha ha'
    rw [abs_of_nonpos (show y - b ≤ 0 by linarith)] at hb hb'
    rw [abs_le]; constructor <;> linarith

/-- Of the values of the format one at most is strictly nearer to `y` than the rounding of a number close to `y`. -/
theorem Rounded.one_nearer (hf : f.Sound) (h : Rounded f y' c) (hfin : isInf f c = false) (hclose : CloseTo f y y')
    {u v : Nat} (hu : |y - val f u| < |y - val f c|) (hv : |y - val f v| < |y - val f c|) : val f u = val f v := by
  by_contra hne
  have hnear : ∀ w, |y - val f c| ≤ |y - val f w| + 2 * |y' - y| := fun w => by
    have h1 : |y - val f c| ≤ |y - y'| + |y' - val f c| := abs_sub_le _ _ _
    have h2 : |y' - val f w| ≤ |y' - y| + |y - val f w| := abs_sub_le _ _ _
    have h3 : |y' - val f c| ≤ |y' - val f w| := by
      rcases h.nearest hf hfin w with hlt | heq | ⟨htie, -⟩
      · exact hlt.le
      · rw [heq]
      · exact htie.le
    rw [abs_sub_comm y y'] at h1
    linarith
  have hcu : val f c ≠ val f u := fun e => by rw [e] at hu; exact lt_irrefl _ hu
  have hcv : val f c ≠ val f v := fun e => by rw [e] at hv; exact lt_irrefl _ hv
  have hδ : (0 : ℝ) ≤ 2 * |y' - y| := by positivity
  have apart : ∀ {a b : Nat}, val f a ≠ val f b → |y - val f a| ≤ |y - val f c| → |y - val f b| ≤ |y - val f c| →
      ¬(((val f a : ℝ) ≤ y ∧ (val f b : ℝ) ≤ y) ∨ (y ≤ (val f a : ℝ) ∧ y ≤ (val f b : ℝ))) := fun hab ha hb hside =>
    absurd (abs_sub_le_of_same_side hside ha hb (hnear _) (hnear _))
      (not_le.2 (h.gap_of_close hf hfin hclose hab ha))
  have h1 := apart hcu le_rfl hu.le
  have h2 := apart hcv le_rfl hv.le
  have h3 := apart hne hu.le hv.le
  rcases le_total (val f c : ℝ) y with a | a <;> rcases le_total (val f u : ℝ) y with b | b
  · exact h1 (.inl ⟨a, b⟩)
  · rcases le_total (val f v : ℝ) y with d | d
    · exact h2 (.inl ⟨a, d⟩)
    · exact h3 (.inr ⟨b, d⟩)
  · rcases le_total (val f v : ℝ) y with d | d
    · exact h3 (.inl ⟨b, d⟩)
    · exact h2 (.inr ⟨a, d⟩)
  · exact h1 (.inr ⟨a, b⟩)

/-- The rounding of a number close to one within the finite range is finite. -/
theorem Rounded.finite_of_close (hf : f.Sound) (h : Rounded f y' c) (hclose : CloseTo f y y')
    (hy : |y| ≤ patMag f (f.inf - 1)) : isInf f c = false := by
  by_contra hi
  rw [Bool.not_eq_false, h.isInf_iff hf] at hi
  obtain ⟨hunit, hgap⟩ := patMag_gap f (p := f.inf - 1) (q := f.inf) (by have := hf.infPos; omega)
  have h1 : |y'| - |y| ≤ |y' - y| := abs_sub_abs_le_abs_sub _ _
  rcases hclose with habs | hrel
  · linarith
  · have hP : (0 : ℝ) < 2 ^ (f.prec - 1) := by positivity
    have h2 : (patMag f f.inf - patMag f (f.inf - 1) : ℝ) ≤ 2 * |y' - y| := by linarith
    have h3 : (patMag f f.inf - patMag f (f.inf - 1) : ℝ) * (2 * 2 ^ (f.prec - 1)) ≤
        2 * |y' - y| * (2 * 2 ^ (f.prec - 1)) := mul_le_mul_of_nonneg_right h2 (by positivity)
    linarith

end Near

/-! ## NP8 for words -/

theorem patMag_max32 : ((rat32 0x7F7FFFFF : ℚ) : ℝ) * 2 ^ 149 = patMag fmt32 (fmt32.inf - 1) := by
  rw [rat32_mul_unit, val_eq]
  norm_num [show isNeg fmt32 (0x7F7FFFFF : F32).toNat = false by decide]
  rfl

theorem patMag_max64 : ((rat64 0x7FEFFFFFFFFFFFFF : ℚ) : ℝ) * 2 ^ 1074 = patMag fmt64 (fmt64.inf - 1) := by
  rw [rat64_mul_unit, val_eq, show isNeg fmt64 (0x7FEFFFFFFFFFFFFF : F64).toNat = false by decide,
    if_neg Bool.false_ne_true]
  rfl

/-- NP8 for F32: a rounded number close to the exact one. -/
theorem nearTwo32_of_close {x y' : ℝ} {r : F32} (h : Rounded fmt32 y' r.toNat) (hclose : CloseTo fmt32 (x * 2 ^ 149) y') :
    nearTwo32 false x r := by
  intro hx
  have hpos : (0 : ℝ) < 2 ^ 149 := by positivity
  have hfin : isInf fmt32 r.toNat = false := h.finite_of_close fmt32_sound hclose (by
    rw [abs_mul, abs_of_pos hpos, ← patMag_max32]; gcongr)
  have hu : ∀ c : F32, |x * 2 ^ 149 - val fmt32 c.toNat| = |x - rat32 c| * 2 ^ 149 := fun c => by
    rw [← rat32_mul_unit, ← sub_mul, abs_mul, abs_of_pos hpos]
  refine ⟨⟨h.not_nan, hfin⟩, .inl ?_⟩
  rintro _ ⟨c, -, rfl⟩ _ ⟨c', -, rfl⟩ hc hc'
  have := h.one_nearer fmt32_sound hfin hclose (u := c.toNat) (v := c'.toNat)
    (by rw [hu, hu]; gcongr) (by rw [hu, hu]; gcongr)
  rw [rat32_cast, rat32_cast, this]

/-- NP8 for F64. -/
theorem nearTwo64_of_close {x y' : ℝ} {r : F64} (h : Rounded fmt64 y' r.toNat) (hclose : CloseTo fmt64 (x * 2 ^ 1074) y') :
    nearTwo64 false x r := by
  intro hx
  have hpos : (0 : ℝ) < 2 ^ 1074 := by positivity
  have hfin : isInf fmt64 r.toNat = false := h.finite_of_close fmt64_sound hclose (by
    rw [abs_mul, abs_of_pos hpos, ← patMag_max64]; gcongr)
  have hu : ∀ c : F64, |x * 2 ^ 1074 - val fmt64 c.toNat| = |x - rat64 c| * 2 ^ 1074 := fun c => by
    rw [← rat64_mul_unit, ← sub_mul, abs_mul, abs_of_pos hpos]
  refine ⟨⟨h.not_nan, hfin⟩, .inl ?_⟩
  rintro _ ⟨c, -, rfl⟩ _ ⟨c', -, rfl⟩ hc hc'
  have := h.one_nearer fmt64_sound hfin hclose (u := c.toNat) (v := c'.toNat)
    (by rw [hu, hu]; gcongr) (by rw [hu, hu]; gcongr)
  rw [rat64_cast, rat64_cast, this]

theorem Rounds32.nearTwo32 {x : ℝ} {r : F32} (h : Rounds32 x r) : nearTwo32 false x r :=
  nearTwo32_of_close h (.refl _ _)

theorem Rounds64.nearTwo64 {x : ℝ} {r : F64} (h : Rounds64 x r) : nearTwo64 false x r :=
  nearTwo64_of_close h (.refl _ _)

end Sys2Proof.Machine
end

section
/-! The F64 square root of `Num_ref` (40_numerics R131): Newton's iteration reaches the integer root within its fuel, and the
rounding of the marked root is a rounding of the root itself; NP5 and NP8 for it. -/

namespace Sys2Proof.Machine

/-! ## Newton's iteration -/

section Newton
variable {n x : Nat}

/-- A step of the iteration does not fall below the root. -/
theorem sqrt_le_newton (hx : 0 < x) : Nat.sqrt n ≤ (x + n / x) / 2 := by
  rw [Nat.le_div_iff_mul_le two_pos]
  rcases le_total (2 * Nat.sqrt n) x with h | h
  · exact (mul_comm _ _).trans_le (h.trans (Nat.le_add_right _ _))
  · have : 2 * Nat.sqrt n - x ≤ n / x := by
      rw [Nat.le_div_iff_mul_le hx]
      obtain ⟨d, hd⟩ := Nat.exists_eq_add_of_le h
      have hs := Nat.sqrt_le n
      rw [hd, Nat.add_sub_cancel_left]
      nlinarith [sq_nonneg ((x : Int) - d)]
    omega

/-- The iteration stops at the root. -/
theorem eq_sqrt_of_newton_stops (hx : 0 < x) (hs : Nat.sqrt n ≤ x) (hstop : ¬(x + n / x) / 2 < x) : x = Nat.sqrt n := by
  refine le_antisymm (Nat.le_sqrt.2 ?_) hs
  rw [← Nat.le_div_iff_mul_le hx]
  omega

/-- Newton's step squares the distance from the root, as a part of twice the root. -/
theorem newton_quadratic {q : ℝ} (hn : 0 < n) (hx : 0 < x) (hq : (x : ℝ) - √n ≤ 2 * √n * q)
    (hmoves : (x + n / x) / 2 < x) : (((x + n / x) / 2 : ℕ) : ℝ) - √n ≤ 2 * √n * (q * q) := by
  have hr : 0 < √(n : ℝ) := Real.sqrt_pos.2 (by exact_mod_cast hn)
  have hx' : (0 : ℝ) < x := by exact_mod_cast hx
  have hrr : √(n : ℝ) * √n = n := Real.mul_self_sqrt (Nat.cast_nonneg n)
  have habove : √(n : ℝ) ≤ x := by
    have hlt : n / x < x := by omega
    rw [Nat.div_lt_iff_lt_mul hx] at hlt
    rw [Real.sqrt_le_left hx'.le, sq]
    exact_mod_cast hlt.le
  have hy : (((x + n / x) / 2 : ℕ) : ℝ) ≤ (x + n / x) / 2 := by
    refine Nat.cast_div_le.trans ?_
    push_cast
    gcongr
    exact Nat.cast_div_le
  have hstep : (x + n / x : ℝ) / 2 - √n = (x - √n) * (x - √n) / (2 * x) := by
    field_simp
    linear_combination -hrr
  calc (((x + n / x) / 2 : ℕ) : ℝ) - √n ≤ (x - √n) * (x - √n) / (2 * x) := by linarith
    _ ≤ (2 * √n * q) * (2 * √n * q) / (2 * √n) :=
        div_le_div₀ (mul_self_nonneg _) (mul_self_le_mul_self (by linarith) hq) (by linarith) (by linarith)
    _ = 2 * √n * (q * q) := by field_simp

/-- With fuel for as many steps as the distance needs, squared at each step, the iteration gives the root. -/
theorem isqrtLoop_eq_sqrt (hn : 0 < n) (fuel j : Nat) (hx : 0 < x) (hs : Nat.sqrt n ≤ x)
    (hq : (x : ℝ) - √n ≤ 2 * √n * (1 / 2 ^ 2 ^ j)) (hfuel : 2 * √(n : ℝ) < 2 ^ 2 ^ (j + fuel)) :
    isqrtLoop (fuel + 1) n x = Nat.sqrt n := by
  induction fuel generalizing j x with
  | zero =>
    rw [isqrtLoop]
    split
    · next hmoves =>
      have hlt : (x : ℝ) < √n + 1 := by
        have hpow : (0 : ℝ) < 2 ^ 2 ^ j := by positivity
        rw [Nat.add_zero] at hfuel
        have : 2 * √(n : ℝ) * (1 / 2 ^ 2 ^ j) < 1 := by rw [mul_one_div, div_lt_one hpow]; exact hfuel
        linarith
      have hroot := Real.real_sqrt_lt_nat_sqrt_succ (a := n)
      have hx2 : x < Nat.sqrt n + 2 := by
        have : (x : ℝ) < Nat.sqrt n + 2 := by linarith
        exact_mod_cast this
      have := sqrt_le_newton (n := n) hx
      rw [isqrtLoop]
      omega
    · next hstop => exact eq_sqrt_of_newton_stops hx hs hstop
  | succ fuel ih =>
    rw [isqrtLoop]
    split
    · next hmoves =>
      have hle := sqrt_le_newton (n := n) hx
      refine ih (j + 1) ((Nat.sqrt_pos.2 hn).trans_le hle) hle ?_ (by rwa [show j + 1 + fuel = j + (fuel + 1) by omega])
      have hsq : (1 : ℝ) / 2 ^ 2 ^ (j + 1) = 1 / 2 ^ 2 ^ j * (1 / 2 ^ 2 ^ j) := by
        rw [pow_succ 2 j, pow_mul, sq, div_mul_div_comm, one_mul]
      rw [hsq]
      exact newton_quadratic hn hx hq hmoves
    · next hstop => exact eq_sqrt_of_newton_stops hx hs hstop

/-- `isqrt` is the integer root of every number that the formats can ask of it. -/
theorem isqrt_eq_sqrt {b : Nat} (hb : b ≤ 2 ^ 60) (h : n < 2 ^ b) : isqrt n = Nat.sqrt n := by
  unfold isqrt
  split
  · next h0 => rw [h0, Nat.sqrt_zero]
  · next h0 =>
    have hn : 0 < n := Nat.pos_of_ne_zero h0
    have hlog : n < 2 ^ (n.log2 + 1) := Nat.lt_log2_self
    have hself : 2 ^ n.log2 ≤ n := Nat.log2_self_le h0
    have hstart : ((2 ^ (n.log2 / 2 + 1) : ℕ) : ℝ) ≤ 2 * √n := by
      rw [pow_succ, Nat.cast_mul, mul_comm, Nat.cast_ofNat]
      gcongr
      rw [Real.le_sqrt' (by positivity), ← Nat.cast_pow, ← pow_mul]
      exact_mod_cast (Nat.pow_le_pow_right two_pos (Nat.div_mul_le_self _ _)).trans hself
    have hroot : Nat.sqrt n ≤ 2 ^ (n.log2 / 2 + 1) := by
      have : n < (2 ^ (n.log2 / 2 + 1)) * 2 ^ (n.log2 / 2 + 1) := by
        rw [← pow_add]
        exact hlog.trans_le (Nat.pow_le_pow_right two_pos (by omega))
      exact (Nat.sqrt_lt.2 this).le
    refine isqrtLoop_eq_sqrt hn 63 0 (Nat.two_pow_pos _) hroot ?_ ?_
    · rw [pow_zero, pow_one]
      linarith [Real.sqrt_nonneg (n : ℝ)]
    · have hsmall : √(n : ℝ) < 2 ^ b := by
        rw [Real.sqrt_lt' (by positivity)]
        have h1 : (n : ℝ) < 2 ^ b := by exact_mod_cast h
        exact h1.trans_le (le_self_pow₀ (one_le_pow₀ one_le_two) two_ne_zero)
      calc 2 * √(n : ℝ) < 2 * 2 ^ b := by linarith
        _ = 2 ^ (b + 1) := by rw [pow_succ]; ring
        _ ≤ 2 ^ 2 ^ (0 + 63) := pow_le_pow_right₀ one_le_two (by norm_num; omega)

end Newton

/-! ## The rounded root (R131) -/

/-- The integer root with its mark, which `sqrtCode` rounds in its place. -/
def markedRoot (n : Nat) : Nat := 2 * Nat.sqrt n + (if Nat.sqrt n * Nat.sqrt n = n then 0 else 1)

/-- The marked root is within half a unit of the root. -/
theorem markedRoot_near (n : Nat) : |(markedRoot n : ℝ) / 2 - √n| ≤ 1 / 2 := by
  have h1 := Real.nat_sqrt_le_real_sqrt (a := n)
  have h2 := Real.real_sqrt_lt_nat_sqrt_succ (a := n)
  unfold markedRoot
  rw [abs_le]
  split
  · next h =>
    have : √(n : ℝ) = Nat.sqrt n := by
      rw [Real.sqrt_eq_iff_mul_self_eq (Nat.cast_nonneg _) (Nat.cast_nonneg _)]
      exact_mod_cast h.symm
    push_cast
    constructor <;> linarith
  · push_cast
    constructor <;> linarith

theorem markedRoot_mono {m n : Nat} (h : m ≤ n) : markedRoot m ≤ markedRoot n := by
  unfold markedRoot
  rcases (Nat.sqrt_le_sqrt h).lt_or_eq with hlt | heq
  · split <;> omega
  · have hm := Nat.sqrt_le m
    rw [heq] at hm ⊢
    split_ifs <;> omega

section Root
variable {x x' : F64}

/-- The radicand in units of the root. -/
def radicand (x : F64) : Nat := mag fmt64 x.toNat * 2 ^ fmt64.unit

theorem isqrt_radicand (hx : finite64 x) : isqrt (radicand x) = Nat.sqrt (radicand x) := by
  obtain ⟨k, hk⟩ : ∃ k, k = 2045 := ⟨_, rfl⟩
  refine isqrt_eq_sqrt (b := 53 + k + fmt64.unit) (by rw [hk]; decide) ?_
  have h := natAbs_val_lt_inf (finite64_iff.1 hx)
  rw [val_natAbs, patMag_fmt64_inf hk, ← pow_add] at h
  rw [pow_add _ (53 + k), radicand]
  exact Nat.mul_lt_mul_of_pos_right h (Nat.two_pow_pos _)

/-- A positive finite operand: the result is the rounded marked root. -/
theorem refSqrt64_rounded (hx : finite64 x) (hpos : 0 < val fmt64 x.toNat) :
    Rounded fmt64 (markedRoot (radicand x) / 2) (refSqrt64 x).toNat := by
  have hneg : isNeg fmt64 x.toNat = false := by
    cases h : isNeg fmt64 x.toNat
    · rfl
    · unfold val at hpos; rw [h, if_pos rfl] at hpos; omega
  have hmag : mag fmt64 x.toNat ≠ 0 := by rw [← val_natAbs]; omega
  have e : sqrtCode fmt64 (nan64 8 x 0) x.toNat = pack fmt64 false (markedRoot (radicand x)) 2 := by
    unfold sqrtCode
    simp only [hx.1, hx.2, hmag, hneg, Bool.false_eq_true, if_false]
    rw [show mag fmt64 x.toNat * 2 ^ fmt64.unit = radicand x from rfl, isqrt_radicand hx]
    rfl
  have h := pack_rounded fmt64_sound false (markedRoot (radicand x)) two_pos
  rw [if_neg Bool.false_ne_true, Nat.cast_ofNat] at h
  rw [refSqrt64, e, h.toNat_ofNat64]
  exact h

/-- A zero and an infinity are their own roots. -/
theorem refSqrt64_self (hn : isNaN fmt64 x.toNat = false)
    (h : val fmt64 x.toNat = 0 ∨ (isInf fmt64 x.toNat = true ∧ isNeg fmt64 x.toNat = false)) : refSqrt64 x = x := by
  have e : sqrtCode fmt64 (nan64 8 x 0) x.toNat = x.toNat := by
    rcases h with h0 | ⟨hi, hneg⟩
    · have hmag : mag fmt64 x.toNat = 0 := by rw [← val_natAbs, h0]; rfl
      simp [sqrtCode, hn, hmag]
    · simp [sqrtCode, hn, hi, hneg]
  rw [refSqrt64, e, BitVec.ofNat_toNat, BitVec.setWidth_eq]

/-- The exact root in units of the format. -/
theorem sqrt_rat64_units (h0 : 0 ≤ val fmt64 x.toNat) : √(rat64 x : ℝ) * 2 ^ 1074 = √(radicand x : ℝ) := by
  have hmag : (radicand x : ℝ) = val fmt64 x.toNat * 2 ^ 1074 := by
    have : ((mag fmt64 x.toNat : ℕ) : ℤ) = val fmt64 x.toNat := by rw [← val_natAbs]; omega
    rw [← this, radicand, Nat.cast_mul, Nat.cast_pow, Nat.cast_ofNat, Int.cast_natCast]
    rfl
  rw [hmag, rat64_cast]
  have hu : (0 : ℝ) < 2 ^ 1074 := by positivity
  generalize (2 : ℝ) ^ 1074 = u at hu
  have hv : (0 : ℝ) ≤ val fmt64 x.toNat := by exact_mod_cast h0
  rw [show (val fmt64 x.toNat : ℝ) * u = val fmt64 x.toNat / u * (u * u) by field_simp,
    Real.sqrt_mul (div_nonneg hv hu.le), Real.sqrt_mul_self hu.le]

/-- The root of a positive number has far more bits than the precision. -/
theorem sqrt_radicand_large (hpos : 0 < val fmt64 x.toNat) : (2 : ℝ) ^ 58 ≤ √(radicand x : ℝ) := by
  have hmag : 0 < mag fmt64 x.toNat := by rw [← val_natAbs]; omega
  rw [Real.le_sqrt' (by positivity), ← pow_mul]
  have hunit : 58 * 2 ≤ fmt64.unit := by decide
  have : 2 ^ (58 * 2) ≤ radicand x := by
    unfold radicand
    generalize fmt64.unit = k at hunit
    exact (Nat.pow_le_pow_right two_pos hunit).trans (Nat.le_mul_of_pos_left _ hmag)
  exact_mod_cast this

/-- NP8 of the root. -/
theorem refSqrt64_near (hx : finite64 x) (h0 : 0 ≤ rat64 x) : nearTwo64 false (√(rat64 x : ℝ)) (refSqrt64 x) := by
  have hv0 : 0 ≤ val fmt64 x.toNat := by
    have : (0 : ℚ) ≤ val fmt64 x.toNat := by
      have := mul_nonneg h0 (by positivity : (0 : ℚ) ≤ 2 ^ 1074)
      rwa [rat64, div_mul_cancel₀ _ (by positivity)] at this
    exact_mod_cast this
  rcases hv0.lt_or_eq with hpos | hzero
  · refine nearTwo64_of_close (refSqrt64_rounded hx hpos) ?_
    rw [sqrt_rat64_units hv0]
    right
    have hnear := markedRoot_near (radicand x)
    have hlarge := sqrt_radicand_large hpos
    rw [abs_of_nonneg (Real.sqrt_nonneg _), show fmt64.prec - 1 = 52 from rfl]
    calc |(markedRoot (radicand x) : ℝ) / 2 - √(radicand x : ℝ)| * (64 * 2 ^ 52) ≤ 1 / 2 * (64 * 2 ^ 52) := by gcongr
      _ ≤ 2 ^ 58 := by norm_num
      _ ≤ √(radicand x : ℝ) := hlarge
  · rw [refSqrt64_self hx.1 (.inl hzero.symm)]
    have hz : ((rat64 x : ℚ) : ℝ) = 0 := by rw [rat64_cast, ← hzero, Int.cast_zero, zero_div]
    have h := rounds64_self hx
    rw [hz] at h
    rw [hz, Real.sqrt_zero]
    exact h.nearTwo64

/-- NP5 of the root. -/
theorem refSqrt64_mono (hx : ¬nan64P x) (hx' : ¬nan64P x') (h0 : le64 0x0000000000000000 x) (hle : le64 x x') :
    le64 (refSqrt64 x) (refSqrt64 x') := by
  intro hr _
  have hn := isNaN_of_not_nan64 hx
  have hn' := isNaN_of_not_nan64 hx'
  have hv0 : 0 ≤ val fmt64 x.toNat := h0 (by unfold nan64P; decide) hx
  have hv := hle hx hx'
  rcases hv0.lt_or_eq with hpos | hzero
  · cases hi' : isInf fmt64 x'.toNat
    · have hi := isInf_false_of_le hv0 hv ⟨hn', hi'⟩
      refine (refSqrt64_rounded ⟨hn, hi⟩ hpos).val_mono (refSqrt64_rounded ⟨hn', hi'⟩ (hpos.trans_le hv)) ?_
      have hrad : radicand x ≤ radicand x' := by
        refine Nat.mul_le_mul_right _ ?_
        rw [← val_natAbs, ← val_natAbs]; omega
      gcongr
      exact_mod_cast markedRoot_mono hrad
    · have hneg' := isNeg_false_of_isInf fmt64_sound hi' (hv0.trans hv)
      have hval := val_of_isInf hi'
      rw [hneg', if_neg Bool.false_ne_true] at hval
      have hrM := natAbs_val_le_inf (isNaN_of_not_nan64 hr)
      rw [refSqrt64_self hn' (.inr ⟨hi', hneg'⟩), hval]
      omega
  · rw [refSqrt64_self hn (.inl hzero.symm), ← hzero]
    rcases (hv0.trans hv).lt_or_eq with hpos' | hzero'
    · cases hi' : isInf fmt64 x'.toNat
      · exact (refSqrt64_rounded ⟨hn', hi'⟩ hpos').val_nonneg fmt64_sound (by positivity)
      · rw [refSqrt64_self hn' (.inr ⟨hi', isNeg_false_of_isInf fmt64_sound hi' hpos'.le⟩)]; exact hpos'.le
    · rw [refSqrt64_self hn' (.inl hzero'.symm), ← hzero']

end Root

end Sys2Proof.Machine
end

section
/-! The logarithm of `Num_ref` (40_numerics R129): the fixed-point series is close to the real logarithm and monotone, and so
are the constants ln 2 and ln 10; NP5 and NP8 for `log10_32`. -/

namespace Sys2Proof.Machine

/-! ## The series of the inverse hyperbolic tangent -/

/-- `n` terms of the exact series, from the term `j` on. -/
noncomputable def atanhSum (Z : ℝ) (j n : Nat) : ℝ :=
  ∑ m ∈ Finset.range n, Z ^ (2 * (j + m) + 1) / ((2 * (j + m) + 1 : ℕ) : ℝ)

theorem atanhSum_succ (Z : ℝ) (j n : Nat) :
    atanhSum Z j (n + 1) = Z ^ (2 * j + 1) / ((2 * j + 1 : ℕ) : ℝ) + atanhSum Z (j + 1) n := by
  unfold atanhSum
  rw [Finset.sum_range_succ', add_comm]
  congr 1
  refine Finset.sum_congr rfl fun m _ => ?_
  rw [show j + (m + 1) = j + 1 + m by omega]

theorem fxOne_eq : (fxOne : ℝ) = 2 ^ 70 * 2 ^ 250 := by
  rw [fxOne, Nat.cast_pow, Nat.cast_ofNat, ← pow_add]

section Atanh
variable {Z : ℝ} {zz zp j : Nat}

/-- A power of the argument, from the one before it: each product loses two units and one more. -/
theorem atanhPower_next (h0 : 0 ≤ Z) (h1 : Z ≤ 1 / 2) (hzz : (zz : ℝ) ≤ fxOne * Z ^ 2) (hzz' : fxOne * Z ^ 2 ≤ zz + 2)
    (hzp : (zp : ℝ) ≤ fxOne * Z ^ (2 * j + 1)) (hzp' : fxOne * Z ^ (2 * j + 1) ≤ zp + 1 + 3 * j) :
    ((zp * zz / fxOne : ℕ) : ℝ) ≤ fxOne * Z ^ (2 * (j + 1) + 1) ∧
      fxOne * Z ^ (2 * (j + 1) + 1) ≤ ((zp * zz / fxOne : ℕ) : ℝ) + 1 + 3 * (j + 1) := by
  have hO : (0 : ℝ) < fxOne := by exact_mod_cast fxOne_pos
  have hj0 : (0 : ℝ) ≤ j := Nat.cast_nonneg _
  obtain ⟨hm, hm'⟩ := natDiv_bounds (zp * zz) fxOne_pos
  rw [Nat.cast_mul] at hm hm'
  have hZ2 : Z ^ 2 ≤ 1 := pow_le_one₀ h0 (by linarith)
  have hZp : Z ^ (2 * j + 1) ≤ 1 / 2 := by
    calc Z ^ (2 * j + 1) ≤ Z ^ 1 := pow_le_pow_of_le_one h0 (by linarith) (by omega)
      _ ≤ 1 / 2 := by rwa [pow_one]
  have hsplit : Z ^ (2 * (j + 1) + 1) = Z ^ (2 * j + 1) * Z ^ 2 := by rw [← pow_add]; ring_nf
  rw [hsplit]
  constructor
  · refine hm.trans ?_
    rw [div_le_iff₀ hO]
    calc (zp : ℝ) * zz ≤ (fxOne * Z ^ (2 * j + 1)) * (fxOne * Z ^ 2) := by gcongr
      _ = fxOne * (Z ^ (2 * j + 1) * Z ^ 2) * fxOne := by ring
  · have hsmall : (zp : ℝ) / fxOne ≤ 1 / 2 := by
      rw [div_le_iff₀ hO]
      have : fxOne * Z ^ (2 * j + 1) ≤ fxOne * (1 / 2) := by gcongr
      linarith
    have hprod : (zp : ℝ) * Z ^ 2 ≤ zp * zz / fxOne + 2 * (zp / fxOne) := by
      have : (zp : ℝ) * (fxOne * Z ^ 2) ≤ zp * (zz + 2) := by gcongr
      rw [← mul_div_assoc, ← add_div, le_div_iff₀ hO]
      linarith
    calc fxOne * (Z ^ (2 * j + 1) * Z ^ 2) = fxOne * Z ^ (2 * j + 1) * Z ^ 2 := by ring
      _ ≤ (zp + 1 + 3 * j) * Z ^ 2 := by gcongr
      _ = zp * Z ^ 2 + (1 + 3 * j) * Z ^ 2 := by ring
      _ ≤ zp * zz / fxOne + 2 * (zp / fxOne) + (1 + 3 * j) * 1 := by gcongr
      _ ≤ ((zp * zz / fxOne : ℕ) : ℝ) + 1 + 3 * (j + 1) := by linarith

/-- A term of the series, from its power of the argument. -/
theorem atanhTerm_error (hj : j ≤ 110) (hzp : (zp : ℝ) ≤ fxOne * Z ^ (2 * j + 1))
    (hzp' : fxOne * Z ^ (2 * j + 1) ≤ zp + 1 + 3 * j) :
    ((zp / (2 * j + 1) : ℕ) : ℝ) ≤ fxOne * (Z ^ (2 * j + 1) / ((2 * j + 1 : ℕ) : ℝ)) ∧
      fxOne * (Z ^ (2 * j + 1) / ((2 * j + 1 : ℕ) : ℝ)) ≤ ((zp / (2 * j + 1) : ℕ) : ℝ) + 400 := by
  have hj0 : (0 : ℝ) ≤ j := Nat.cast_nonneg _
  have hj' : (j : ℝ) ≤ 110 := by exact_mod_cast hj
  have hi : (1 : ℝ) ≤ ((2 * j + 1 : ℕ) : ℝ) := by exact_mod_cast (show 1 ≤ 2 * j + 1 by omega)
  obtain ⟨hd, hd'⟩ := natDiv_bounds zp (b := 2 * j + 1) (by omega)
  rw [← mul_div_assoc]
  constructor
  · exact hd.trans (by gcongr)
  · calc fxOne * Z ^ (2 * j + 1) / ((2 * j + 1 : ℕ) : ℝ) ≤ (zp + 1 + 3 * j) / ((2 * j + 1 : ℕ) : ℝ) := by gcongr
      _ = zp / ((2 * j + 1 : ℕ) : ℝ) + (1 + 3 * j) / ((2 * j + 1 : ℕ) : ℝ) := by rw [add_assoc, add_div]
      _ ≤ zp / ((2 * j + 1 : ℕ) : ℝ) + (1 + 3 * j) := by gcongr; exact div_le_self (by linarith) hi
      _ ≤ ((zp / (2 * j + 1) : ℕ) : ℝ) + 400 := by linarith

/-- The fixed-point series is below the exact one by at most 400 for each term. -/
theorem atanhSeries_error (h0 : 0 ≤ Z) (h1 : Z ≤ 1 / 2) (hzz : (zz : ℝ) ≤ fxOne * Z ^ 2)
    (hzz' : fxOne * Z ^ 2 ≤ zz + 2) (n : Nat) (hj : j + n ≤ 110) (acc : Nat)
    (hzp : (zp : ℝ) ≤ fxOne * Z ^ (2 * j + 1)) (hzp' : fxOne * Z ^ (2 * j + 1) ≤ zp + 1 + 3 * j) :
    (atanhSeries n (2 * j + 1) zp zz acc : ℝ) ≤ acc + fxOne * atanhSum Z j n ∧
      acc + fxOne * atanhSum Z j n ≤ atanhSeries n (2 * j + 1) zp zz acc + 400 * n := by
  induction n generalizing j zp acc with
  | zero => simp [atanhSeries, atanhSum]
  | succ n ih =>
    obtain ⟨hnext, hnext'⟩ := atanhPower_next h0 h1 hzz hzz' hzp hzp'
    obtain ⟨hterm, hterm'⟩ := atanhTerm_error (by omega) hzp hzp'
    have hstep := ih (j := j + 1) (by omega) (acc + zp / (2 * j + 1)) hnext (by push_cast; exact hnext')
    rw [atanhSeries, atanhSum_succ, mul_add]
    rw [show 2 * (j + 1) + 1 = 2 * j + 1 + 2 by omega, Nat.cast_add acc] at hstep
    push_cast at hstep hterm hterm' ⊢
    constructor <;> linarith [hstep.1, hstep.2]

end Atanh

/-- The series gives the logarithm. -/
theorem atanhSeries_near {Z : ℝ} (h0 : 0 ≤ Z) (h1 : Z ≤ 1 / 3) {z : Nat} (hz : (z : ℝ) ≤ fxOne * Z)
    (hz' : fxOne * Z < z + 1) :
    |2 * (atanhSeries 110 1 z (z * z / fxOne) 0 : ℝ) / fxOne - Real.log ((1 + Z) / (1 - Z))| ≤ 1 / 2 ^ 250 := by
  have hO : (0 : ℝ) < fxOne := by exact_mod_cast fxOne_pos
  obtain ⟨hq, hq'⟩ := natDiv_bounds (z * z) fxOne_pos
  rw [Nat.cast_mul] at hq hq'
  have hzz : ((z * z / fxOne : ℕ) : ℝ) ≤ fxOne * Z ^ 2 := by
    refine hq.trans ?_
    rw [div_le_iff₀ hO]
    calc (z : ℝ) * z ≤ (fxOne * Z) * (fxOne * Z) := by gcongr
      _ = fxOne * Z ^ 2 * fxOne := by ring
  have hzz' : fxOne * Z ^ 2 ≤ ((z * z / fxOne : ℕ) : ℝ) + 2 := by
    have : fxOne * Z ^ 2 ≤ z * z / fxOne + 1 := by
      rw [← sub_le_iff_le_add, le_div_iff₀ hO]
      have hz0 : (0 : ℝ) ≤ z := Nat.cast_nonneg _
      nlinarith
    linarith
  have herr := atanhSeries_error h0 (by linarith) hzz hzz' 110 (j := 0) (zp := z) (by omega) 0 (by simpa using hz)
    (by simpa using hz'.le)
  have hsum : atanhSum Z 0 110 = ∑ i ∈ Finset.range 110, Z ^ (2 * i + 1) / (2 * (i : ℝ) + 1) := by
    unfold atanhSum
    refine Finset.sum_congr rfl fun m _ => ?_
    rw [Nat.zero_add]; push_cast; rfl
  have hlow := Real.sum_range_le_log_div h0 (by linarith) 110
  have hhigh := Real.log_div_le_sum_range_add h0 (by linarith) 110
  rw [← hsum] at hlow hhigh
  have htail : Z ^ (2 * 110 + 1) / (1 - Z ^ 2) ≤ 1 / 2 ^ 252 := by
    have hZ2 : Z ^ 2 ≤ 1 / 8 := by nlinarith
    have hden : 1 / 2 ≤ 1 - Z ^ 2 := by linarith
    calc Z ^ (2 * 110 + 1) / (1 - Z ^ 2) ≤ (1 / 8) ^ 110 * (1 / 2) / (1 / 2) := by
          rw [pow_succ, pow_mul]
          gcongr
          linarith
      _ ≤ (1 / 8) ^ 84 := by
          rw [mul_div_cancel_right₀ _ (by norm_num)]
          exact pow_le_pow_of_le_one (by norm_num) (by norm_num) (by norm_num)
      _ = 1 / 2 ^ 252 := by rw [show (1 / 8 : ℝ) = (1 / 2) ^ 3 by norm_num, ← pow_mul]; norm_num
  generalize (atanhSeries 110 1 z (z * z / fxOne) 0 : ℝ) = s at *
  generalize hS : atanhSum Z 0 110 = S at *
  norm_num at herr
  have hs : 2 * s / fxOne ≤ 2 * S := by
    rw [div_le_iff₀ hO]; linarith
  have hs' : 2 * S ≤ 2 * s / fxOne + 1 / 2 ^ 252 := by
    rw [← sub_le_iff_le_add, le_div_iff₀ hO, sub_mul, fxOne_eq]
    have : 1 / 2 ^ 252 * ((2 : ℝ) ^ 70 * 2 ^ 250) = 2 ^ 68 := by norm_num
    rw [this, ← fxOne_eq]
    linarith [herr.2]
  have e252 : (1 : ℝ) / 2 ^ 250 = 4 * (1 / 2 ^ 252) := by norm_num
  rw [abs_le, e252]
  have hp : (0 : ℝ) < 1 / 2 ^ 252 := by positivity
  constructor <;> linarith

/-! ## The constants ln 2 and ln 10 -/

/-- The series for ln 2 and for ln (5/4) give the constants. -/
theorem fxLn_series :
    (2 * atanhSeries 110 1 (fxOne / 3) (fxOne / 3 * (fxOne / 3) / fxOne) 0 ≤ fxLn2 ∧
      fxLn2 ≤ 2 * atanhSeries 110 1 (fxOne / 3) (fxOne / 3 * (fxOne / 3) / fxOne) 0 + 100) ∧
    (3 * fxLn2 + 2 * atanhSeries 110 1 (fxOne / 9) (fxOne / 9 * (fxOne / 9) / fxOne) 0 ≤ fxLn10 ∧
      fxLn10 ≤ 3 * fxLn2 + 2 * atanhSeries 110 1 (fxOne / 9) (fxOne / 9 * (fxOne / 9) / fxOne) 0 + 100) := by
  decide +kernel

/-- A natural number of fixed-point units close to another gives a close value. -/
theorem div_fxOne_near {a b : ℝ} (h : b ≤ a) (h' : a ≤ b + 100) : |a / fxOne - b / fxOne| ≤ 1 / 2 ^ 250 := by
  have hO : (0 : ℝ) < fxOne := by exact_mod_cast fxOne_pos
  rw [← sub_div, abs_of_nonneg (div_nonneg (by linarith) hO.le), div_le_iff₀ hO, fxOne_eq]
  have : 1 / 2 ^ 250 * ((2 : ℝ) ^ 70 * 2 ^ 250) = 2 ^ 70 := by norm_num
  rw [this]
  linarith

theorem fxLn2_near : |(fxLn2 : ℝ) / fxOne - Real.log 2| ≤ 1 / 2 ^ 249 := by
  obtain ⟨hd, hd'⟩ := natDiv_bounds fxOne (b := 3) (by omega)
  have h := atanhSeries_near (Z := 1 / 3) (by norm_num) le_rfl (z := fxOne / 3) (by push_cast at hd; linarith)
    (by push_cast at hd'; linarith)
  rw [show ((1 : ℝ) + 1 / 3) / (1 - 1 / 3) = 2 by norm_num] at h
  obtain ⟨⟨hl, hu⟩, -⟩ := fxLn_series
  generalize atanhSeries 110 1 (fxOne / 3) (fxOne / 3 * (fxOne / 3) / fxOne) 0 = s at *
  have hc := div_fxOne_near (a := (fxLn2 : ℝ)) (b := 2 * s) (by exact_mod_cast hl) (by exact_mod_cast hu)
  have := abs_sub_le ((fxLn2 : ℝ) / fxOne) (2 * s / fxOne) (Real.log 2)
  linarith

theorem fxLn10_near : |(fxLn10 : ℝ) / fxOne - Real.log 10| ≤ 1 / 2 ^ 247 := by
  obtain ⟨hd, hd'⟩ := natDiv_bounds fxOne (b := 9) (by omega)
  have h := atanhSeries_near (Z := 1 / 9) (by norm_num) (by norm_num) (z := fxOne / 9) (by push_cast at hd; linarith)
    (by push_cast at hd'; linarith)
  have hlog : Real.log 10 = 3 * Real.log 2 + Real.log ((1 + 1 / 9) / (1 - 1 / 9)) := by
    rw [show (10 : ℝ) = 2 ^ 3 * ((1 + 1 / 9) / (1 - 1 / 9)) by norm_num, Real.log_mul (by norm_num) (by norm_num),
      Real.log_pow]
    push_cast
    rfl
  obtain ⟨-, hl, hu⟩ := fxLn_series
  have h2 := fxLn2_near
  generalize atanhSeries 110 1 (fxOne / 9) (fxOne / 9 * (fxOne / 9) / fxOne) 0 = s at *
  have hc := div_fxOne_near (a := (fxLn10 : ℝ)) (b := 3 * fxLn2 + 2 * s) (by exact_mod_cast hl) (by exact_mod_cast hu)
  rw [hlog]
  rw [add_div, mul_div_assoc 3] at hc
  rw [abs_le] at *
  constructor <;> linarith [hc.1, hc.2, h.1, h.2, h2.1, h2.2]

/-! ## The logarithm in fixed point -/

/-- The series argument of `lnFx`: the fraction that belongs to the significand. -/
def lnArg (m : Nat) : Nat := (m - 2 ^ m.log2) * fxOne / (m + 2 ^ m.log2)

theorem lnFx_eq (unit m : Nat) :
    lnFx unit m = 2 * (atanhSeries 110 1 (lnArg m) (lnArg m * lnArg m / fxOne) 0 : Int) +
      ((m.log2 : Int) - (unit : Int)) * (fxLn2 : Int) := rfl

section Ln
variable {m m' : Nat}

theorem lnArg_le_third (hm : 0 < m) : lnArg m ≤ fxOne / 3 := by
  have h := Nat.lt_log2_self (n := m)
  rw [pow_succ] at h
  unfold lnArg
  generalize 2 ^ m.log2 = p at *
  rw [Nat.le_div_iff_mul_le (by omega)]
  have hdiv := Nat.div_mul_le_self ((m - p) * fxOne) (m + p)
  have hle : 3 * (m - p) ≤ m + p := by omega
  refine Nat.le_of_mul_le_mul_right (c := m + p) ?_ (by omega)
  calc (m - p) * fxOne / (m + p) * 3 * (m + p) = (m - p) * fxOne / (m + p) * (m + p) * 3 := by ring
    _ ≤ (m - p) * fxOne * 3 := Nat.mul_le_mul_right _ hdiv
    _ = fxOne * (3 * (m - p)) := by ring
    _ ≤ fxOne * (m + p) := Nat.mul_le_mul_left _ hle

/-- The exact series argument: its logarithm is that of the significand. -/
theorem significand_fraction {l : Nat} (hself : 2 ^ l ≤ m) (hlt : m < 2 ^ (l + 1)) :
    ∃ Z : ℝ, 0 ≤ Z ∧ Z ≤ 1 / 3 ∧ (1 + Z) / (1 - Z) = m / 2 ^ l ∧
      (((m - 2 ^ l) * fxOne : ℕ) : ℝ) / ((m + 2 ^ l : ℕ) : ℝ) = fxOne * Z := by
  have hp : (0 : ℝ) < 2 ^ l := by positivity
  have hsub : ((m - 2 ^ l : ℕ) : ℝ) = m - 2 ^ l := by rw [Nat.cast_sub hself]; push_cast; rfl
  have hselfR : (2 : ℝ) ^ l ≤ m := by exact_mod_cast hself
  have hltR : (m : ℝ) < 2 * 2 ^ l := by rw [← pow_succ']; exact_mod_cast hlt
  have hne : (m : ℝ) + 2 ^ l ≠ 0 := by linarith
  refine ⟨(m - 2 ^ l) / (m + 2 ^ l), div_nonneg (by linarith) (by linarith), ?_, ?_, ?_⟩
  · rw [div_le_iff₀ (by linarith)]; linarith
  · field_simp
    ring
  · rw [Nat.cast_mul, hsub]; push_cast; ring

/-- The logarithm of a number of units: that of the significand, in [0, 1], and the exponent's multiple of ln 2. -/
theorem log_units {l : Nat} (unit : Nat) (hself : 2 ^ l ≤ m) (hlt : m < 2 ^ (l + 1)) :
    Real.log (m / 2 ^ unit) = Real.log (m / 2 ^ l) + ((l : ℝ) - unit) * Real.log 2 ∧
      0 ≤ Real.log (m / 2 ^ l) ∧ Real.log (m / 2 ^ l) ≤ 1 := by
  have hp : (0 : ℝ) < 2 ^ l := by positivity
  have hselfR : (2 : ℝ) ^ l ≤ m := by exact_mod_cast hself
  have hltR : (m : ℝ) < 2 * 2 ^ l := by rw [← pow_succ']; exact_mod_cast hlt
  have hm : (0 : ℝ) < m := hp.trans_le hselfR
  refine ⟨?_, Real.log_nonneg (by rw [le_div_iff₀ hp]; linarith), ?_⟩
  · rw [Real.log_div hm.ne' (by positivity), Real.log_div hm.ne' (by positivity), Real.log_pow, Real.log_pow]
    ring
  · have h2 : Real.log (m / 2 ^ l) ≤ Real.log 2 :=
      Real.log_le_log (by positivity) (by rw [div_le_iff₀ hp]; exact hltR.le)
    linarith [Real.log_two_lt_d9]

/-- The fixed-point logarithm is close to the real one. -/
theorem lnFx_near {unit : Nat} (hm : 0 < m) (hl : m.log2 ≤ 1000) (hu : unit ≤ 1000) :
    |(lnFx unit m : ℝ) / fxOne - Real.log (m / 2 ^ unit)| ≤ 1 / 2 ^ 238 ∧ |Real.log (m / 2 ^ unit)| ≤ 1002 := by
  have hO : (0 : ℝ) < fxOne := by exact_mod_cast fxOne_pos
  have hself : 2 ^ m.log2 ≤ m := Nat.log2_self_le (by omega)
  obtain ⟨hz, hz'⟩ := natDiv_bounds ((m - 2 ^ m.log2) * fxOne) (b := m + 2 ^ m.log2) (Nat.add_pos_left hm _)
  obtain ⟨Z, hZ0, hZ1, hratio, hzZ⟩ := significand_fraction hself Nat.lt_log2_self
  obtain ⟨hlog, hfrac0, hfrac1⟩ := log_units unit hself Nat.lt_log2_self
  rw [hzZ] at hz hz'
  change ((lnArg m : ℕ) : ℝ) ≤ _ at hz
  change _ < ((lnArg m : ℕ) : ℝ) + 1 at hz'
  have hseries := atanhSeries_near hZ0 hZ1 hz hz'
  have hln2 := fxLn2_near
  rw [hratio] at hseries
  rw [lnFx_eq, hlog]
  generalize m.log2 = l at *
  have hl0 : (0 : ℝ) ≤ l ∧ (l : ℝ) ≤ 1000 := ⟨Nat.cast_nonneg _, by exact_mod_cast hl⟩
  have hu0 : (0 : ℝ) ≤ unit ∧ (unit : ℝ) ≤ 1000 := ⟨Nat.cast_nonneg _, by exact_mod_cast hu⟩
  have hexp : |(l : ℝ) - unit| ≤ 1000 := by rw [abs_le]; constructor <;> linarith [hl0.1, hl0.2, hu0.1, hu0.2]
  constructor
  · generalize atanhSeries 110 1 (lnArg m) (lnArg m * lnArg m / fxOne) 0 = s at *
    have hsplit : ((2 * (s : Int) + ((l : Int) - (unit : Int)) * (fxLn2 : Int) : Int) : ℝ) / fxOne -
        (Real.log (m / 2 ^ l) + ((l : ℝ) - unit) * Real.log 2) =
        (2 * s / fxOne - Real.log (m / 2 ^ l)) + ((l : ℝ) - unit) * (fxLn2 / fxOne - Real.log 2) := by
      push_cast
      field_simp
      ring
    rw [hsplit]
    calc _ ≤ |2 * (s : ℝ) / fxOne - Real.log (m / 2 ^ l)| + |((l : ℝ) - unit) * (fxLn2 / fxOne - Real.log 2)| :=
          abs_add_le _ _
      _ ≤ 1 / 2 ^ 250 + 1000 * (1 / 2 ^ 249) := by rw [abs_mul]; gcongr
      _ ≤ 1 / 2 ^ 238 := by norm_num
  · calc _ ≤ |Real.log (m / 2 ^ l)| + |((l : ℝ) - unit) * Real.log 2| := abs_add_le _ _
      _ ≤ 1 + 1000 * 1 := by
          rw [abs_mul, abs_of_nonneg hfrac0, abs_of_pos (Real.log_pos one_lt_two)]
          gcongr
          linarith [Real.log_two_lt_d9]
      _ ≤ 1002 := by norm_num

theorem atanhSeries_mono (n i : Nat) {zp zp' zz zz' acc acc' : Nat} (hp : zp ≤ zp') (hz : zz ≤ zz') (ha : acc ≤ acc') :
    atanhSeries n i zp zz acc ≤ atanhSeries n i zp' zz' acc' := by
  induction n generalizing i zp zp' acc acc' with
  | zero => exact ha
  | succ n ih =>
    exact ih (i + 2) (Nat.div_le_div_right (Nat.mul_le_mul hp hz)) (Nat.add_le_add ha (Nat.div_le_div_right hp))

theorem lnSeries_mono {z z' : Nat} (h : z ≤ z') :
    atanhSeries 110 1 z (z * z / fxOne) 0 ≤ atanhSeries 110 1 z' (z' * z' / fxOne) 0 :=
  atanhSeries_mono 110 1 h (Nat.div_le_div_right (Nat.mul_le_mul h h)) le_rfl

/-- The fixed-point logarithm is monotone. -/
theorem lnFx_mono {unit : Nat} (hm : 0 < m) (h : m ≤ m') : lnFx unit m ≤ lnFx unit m' := by
  have hself : 2 ^ m.log2 ≤ m := Nat.log2_self_le (by omega)
  have hlog : m.log2 ≤ m'.log2 := by
    rw [Nat.le_log2 (by omega)]
    exact hself.trans h
  rw [lnFx_eq, lnFx_eq]
  rcases hlog.eq_or_lt with heq | hlt
  · rw [← heq]
    have harg : lnArg m ≤ lnArg m' := by
      unfold lnArg
      rw [← heq]
      generalize 2 ^ m.log2 = p at *
      rw [Nat.le_div_iff_mul_le (by omega)]
      refine Nat.le_of_mul_le_mul_right (c := m + p) ?_ (by omega)
      obtain ⟨a, rfl⟩ := Nat.exists_eq_add_of_le hself
      obtain ⟨b, rfl⟩ := Nat.exists_eq_add_of_le h
      have hdiv := Nat.div_mul_le_self ((p + a - p) * fxOne) (p + a + p)
      rw [Nat.add_sub_cancel_left] at *
      rw [show p + a + b - p = a + b by omega]
      calc a * fxOne / (p + a + p) * (p + a + b + p) * (p + a + p)
          = a * fxOne / (p + a + p) * (p + a + p) * (p + a + b + p) := by ring
        _ ≤ a * fxOne * (p + a + b + p) := Nat.mul_le_mul_right _ hdiv
        _ = fxOne * (a * (p + a + b + p)) := by ring
        _ ≤ fxOne * ((a + b) * (p + a + p)) := Nat.mul_le_mul_left _ (by nlinarith)
        _ = (a + b) * fxOne * (p + a + p) := by ring
    have := lnSeries_mono harg
    gcongr
  · have htop : 2 * atanhSeries 110 1 (lnArg m) (lnArg m * lnArg m / fxOne) 0 ≤ fxLn2 :=
      (Nat.mul_le_mul_left 2 (lnSeries_mono (lnArg_le_third hm))).trans fxLn_series.1.1
    have hstep : ((m.log2 : Int) + 1 - unit) * fxLn2 ≤ ((m'.log2 : Int) - unit) * fxLn2 :=
      mul_le_mul_of_nonneg_right (by omega) (Nat.cast_nonneg _)
    have hexpand : ((m.log2 : Int) + 1 - unit) * fxLn2 = ((m.log2 : Int) - unit) * fxLn2 + fxLn2 := by ring
    generalize atanhSeries 110 1 (lnArg m) (lnArg m * lnArg m / fxOne) 0 = s at *
    generalize atanhSeries 110 1 (lnArg m') (lnArg m' * lnArg m' / fxOne) 0 = s' at *
    omega

end Ln

/-! ## `log10_32` (R129) -/

/-- The logarithm to base 10 that `log10Code` rounds, in fixed point. -/
def log10Fx (m : Nat) : Int := lnFx fmt32.unit m * (fxOne : Int) / (fxLn10 : Int)

theorem fxLn10_pos : 0 < fxLn10 := by decide +kernel

theorem fxLn10_large : (fxOne : ℝ) ≤ fxLn10 := by
  have : fxOne ≤ fxLn10 := by decide +kernel
  exact_mod_cast this

/-- A quotient with a small error in both operands. -/
theorem div_near {a b x y ε δ : ℝ} (ha : |a - x| ≤ ε) (hb : |b - y| ≤ δ) (hb1 : 1 ≤ b) (hy1 : 1 ≤ y) :
    |a / b - x / y| ≤ ε + |x| * δ := by
  have hsplit : a / b - x / y = (a - x) / b + x * (y - b) / (b * y) := by
    field_simp
    ring
  have h1 : |(a - x) / b| ≤ ε := by
    rw [abs_div, abs_of_pos (by linarith : 0 < b)]
    exact (div_le_self (abs_nonneg _) hb1).trans ha
  have h2 : |x * (y - b) / (b * y)| ≤ |x| * δ := by
    have hby : 1 ≤ b * y := one_le_mul_of_one_le_of_one_le hb1 hy1
    rw [abs_div, abs_mul, abs_of_pos (by linarith : 0 < b * y), abs_sub_comm]
    exact (div_le_self (by positivity) hby).trans (by gcongr)
  rw [hsplit]
  linarith [abs_add_le ((a - x) / b) (x * (y - b) / (b * y))]

theorem log10Fx_near {m : Nat} (hm : 0 < m) (hl : m.log2 ≤ 1000) :
    |(log10Fx m : ℝ) / fxOne - Real.logb 10 (m / 2 ^ fmt32.unit)| ≤ 1 / 2 ^ 236 := by
  have hO : (0 : ℝ) < fxOne := by exact_mod_cast fxOne_pos
  have hC : (0 : ℝ) < fxLn10 := by exact_mod_cast fxLn10_pos
  obtain ⟨hln, hbound⟩ := lnFx_near (unit := fmt32.unit) hm hl (by decide)
  obtain ⟨hd, hd'⟩ := ediv_bounds (lnFx fmt32.unit m * (fxOne : Int)) (b := (fxLn10 : Int)) (by exact_mod_cast fxLn10_pos)
  have hlog10 : (1 : ℝ) ≤ Real.log 10 := by
    have h := Real.log_le_log (by norm_num) (show (4 : ℝ) ≤ 10 by norm_num)
    rw [show (4 : ℝ) = 2 ^ 2 by norm_num, Real.log_pow] at h
    push_cast at h
    linarith [Real.log_two_gt_d9]
  have hquot := div_near hln fxLn10_near (by rw [le_div_iff₀ hO, one_mul]; exact fxLn10_large) hlog10
  change ((log10Fx m : Int) : ℝ) ≤ _ at hd
  change _ < ((log10Fx m : Int) : ℝ) + 1 at hd'
  rw [Real.logb]
  generalize log10Fx m = v at *
  generalize Real.log (m / 2 ^ fmt32.unit) = x at *
  have hfloor : |(v : ℝ) / fxOne - lnFx fmt32.unit m / fxOne / (fxLn10 / fxOne)| ≤ 1 / fxOne := by
    push_cast at hd hd'
    have e : (lnFx fmt32.unit m : ℝ) / fxOne / (fxLn10 / fxOne) = lnFx fmt32.unit m * fxOne / fxLn10 / fxOne := by
      field_simp
    rw [e, ← sub_div, abs_div, abs_of_pos hO]
    gcongr
    rw [abs_le]
    constructor <;> linarith
  have hone : 1 / (fxOne : ℝ) ≤ 1 / 2 ^ 250 := by
    rw [fxOne_eq]
    exact one_div_le_one_div_of_le (by positivity) (le_mul_of_one_le_left (by positivity) (one_le_pow₀ one_le_two))
  have htri := abs_sub_le ((v : ℝ) / fxOne) (lnFx fmt32.unit m / fxOne / (fxLn10 / fxOne)) (x / Real.log 10)
  have hx : |x| * (1 / 2 ^ 247) ≤ 1002 * (1 / 2 ^ 247) := by gcongr
  calc |(v : ℝ) / fxOne - x / Real.log 10| ≤ 1 / 2 ^ 250 + (1 / 2 ^ 238 + 1002 * (1 / 2 ^ 247)) := by linarith
    _ ≤ 1 / 2 ^ 236 := by norm_num

theorem log10Fx_mono {m m' : Nat} (hm : 0 < m) (h : m ≤ m') : log10Fx m ≤ log10Fx m' :=
  Int.ediv_le_ediv (by exact_mod_cast fxLn10_pos)
    (mul_le_mul_of_nonneg_right (lnFx_mono hm h) (Nat.cast_nonneg _))

section Log10
variable {a a' : F32}

theorem rat32_pos_iff : 0 < rat32 a ↔ 0 < val fmt32 a.toNat := by
  rw [rat32, div_pos_iff_of_pos_right (by positivity), Int.cast_pos]

theorem refGt32_zero (hn : isNaN fmt32 a.toNat = false) (hpos : 0 < val fmt32 a.toNat) : refGt32 a 0 = true :=
  (gtCode_iff hn (by decide)).2 (by rwa [show val fmt32 (0 : F32).toNat = 0 by decide])

/-- A positive finite operand: the result is the rounded fixed-point logarithm. -/
theorem refLog10_rounded (ha : finite32 a) (hpos : 0 < val fmt32 a.toNat) :
    Rounded fmt32 (log10Fx (mag fmt32 a.toNat) * 2 ^ fmt32.unit / fxOne) (refLog10 a).toNat := by
  have h := pack_rounded fmt32_sound (decide (log10Fx (mag fmt32 a.toNat) < 0))
    ((log10Fx (mag fmt32 a.toNat)).natAbs * 2 ^ fmt32.unit) fxOne_pos
  have e : refLog10 a = BitVec.ofNat 32 (pack fmt32 (decide (log10Fx (mag fmt32 a.toNat) < 0))
      ((log10Fx (mag fmt32 a.toNat)).natAbs * 2 ^ fmt32.unit) fxOne) := by
    rw [refLog10, refGt32_zero ha.1 hpos, if_pos rfl, log10Code, ha.2]
    rfl
  rw [e, h.toNat_ofNat32]
  convert h using 1
  generalize log10Fx (mag fmt32 a.toNat) = v
  have hn : ((v.natAbs : ℕ) : ℝ) = |(v : ℝ)| := by rw [Nat.cast_natAbs, Int.cast_abs]
  rw [Nat.cast_mul, hn, Nat.cast_pow, Nat.cast_ofNat]
  rcases lt_or_ge v 0 with hlt | hge
  · have : (v : ℝ) < 0 := by exact_mod_cast hlt
    rw [decide_eq_true hlt, if_pos rfl, abs_of_neg this]
    ring
  · have : (0 : ℝ) ≤ v := by exact_mod_cast hge
    rw [decide_eq_false (not_lt.2 hge), if_neg Bool.false_ne_true, abs_of_nonneg this]

theorem mag_cast_eq_val {f : Fmt} {c : Nat} (h : 0 ≤ val f c) : ((mag f c : ℕ) : ℝ) = val f c := by
  have : ((mag f c : ℕ) : ℤ) = val f c := by rw [← val_natAbs]; omega
  rw [← this, Int.cast_natCast]

/-- NP8 of the logarithm. -/
theorem refLog10_near (ha : finite32 a) (h0 : 0 < rat32 a) : nearTwo32 false (Real.logb 10 (rat32 a)) (refLog10 a) := by
  have hpos : 0 < val fmt32 a.toNat := rat32_pos_iff.1 h0
  refine nearTwo32_of_close (refLog10_rounded ha hpos) (.inl ?_)
  have hmag : 0 < mag fmt32 a.toNat := by rw [← val_natAbs]; omega
  have hl : (mag fmt32 a.toNat).log2 ≤ 1000 := by
    have h := natAbs_val_lt_inf (finite32_iff.1 ha)
    rw [val_natAbs, patMag_fmt32_inf.1, ← pow_add] at h
    have := (Nat.log2_lt hmag.ne').2 h
    omega
  have hnear := log10Fx_near hmag hl
  rw [mag_cast_eq_val hpos.le, show (2 : ℝ) ^ fmt32.unit = 2 ^ 149 from rfl, ← rat32_cast] at hnear
  rw [show (2 : ℝ) ^ fmt32.unit = 2 ^ 149 from rfl, mul_div_right_comm, ← sub_mul, abs_mul,
    abs_of_pos (by positivity : (0 : ℝ) < 2 ^ 149)]
  calc _ ≤ 1 / 2 ^ 236 * (2 : ℝ) ^ 149 := by gcongr
    _ ≤ 1 / 4 := by norm_num

theorem refLog10_inf (hn : isNaN fmt32 a.toNat = false) (hi : isInf fmt32 a.toNat = true) (hpos : 0 < val fmt32 a.toNat) :
    val fmt32 (refLog10 a).toNat = patMag fmt32 fmt32.inf := by
  have e : refLog10 a = BitVec.ofNat 32 fmt32.inf := by
    rw [refLog10, refGt32_zero hn hpos, if_pos rfl, log10Code, hi]
    rfl
  rw [e]; exact val_inf32.1

/-- NP5 of the logarithm. -/
theorem refLog10_mono (ha : ¬nan32P a) (ha' : ¬nan32P a') (h0 : 0 < rat32 a) (hle : le32 a a') :
    le32 (refLog10 a) (refLog10 a') := by
  intro hr _
  have hn := isNaN_of_not_nan32 ha
  have hn' := isNaN_of_not_nan32 ha'
  have hpos : 0 < val fmt32 a.toNat := rat32_pos_iff.1 h0
  have hv := hle ha ha'
  have hrM := natAbs_val_le_inf (isNaN_of_not_nan32 hr)
  cases hi' : isInf fmt32 a'.toNat
  · have hi := isInf_false_of_le hpos.le hv ⟨hn', hi'⟩
    refine (refLog10_rounded ⟨hn, hi⟩ hpos).val_mono (refLog10_rounded ⟨hn', hi'⟩ (hpos.trans_le hv)) ?_
    have hmag : mag fmt32 a.toNat ≤ mag fmt32 a'.toNat := by rw [← val_natAbs, ← val_natAbs]; omega
    have hmono := log10Fx_mono (by rw [← val_natAbs]; omega) hmag
    gcongr
  · rw [refLog10_inf hn' hi' (hpos.trans_le hv)]
    omega

end Log10

end Sys2Proof.Machine
end

section
/-! The exponential and the power of ten of `Num_ref` (40_numerics R130, R131): the fixed-point series is close to the real
exponential and monotone; NP4, NP5 and NP8 for `exp64` and `pow10_32`. -/

namespace Sys2Proof.Machine

/-! ## The series of the exponential -/

/-- `n` terms of the exact series, from the term `i` on. -/
noncomputable def expSum (ρ : ℝ) (i n : Nat) : ℝ := ∑ m ∈ Finset.range n, ρ ^ (i + m) / ((i + m).factorial : ℝ)

theorem expSum_succ (ρ : ℝ) (i n : Nat) : expSum ρ i (n + 1) = ρ ^ i / (i.factorial : ℝ) + expSum ρ (i + 1) n := by
  unfold expSum
  rw [Finset.sum_range_succ', add_comm]
  congr 1
  refine Finset.sum_congr rfl fun m _ => ?_
  rw [show i + (m + 1) = i + 1 + m by omega]

section ExpSeries
variable {r term i : Nat} {ρ : ℝ}

/-- A term of the series, from the one before it: two roundings lose two units at most. -/
theorem expTerm_next (hr : (r : ℝ) = ρ * fxOne) (h1 : ρ ≤ 1)
    (hterm : (term : ℝ) ≤ fxOne * (ρ ^ i / (i.factorial : ℝ)))
    (hterm' : fxOne * (ρ ^ i / (i.factorial : ℝ)) ≤ term + 2 * i) :
    ((term * r / fxOne / (i + 1) : ℕ) : ℝ) ≤ fxOne * (ρ ^ (i + 1) / ((i + 1).factorial : ℝ)) ∧
      fxOne * (ρ ^ (i + 1) / ((i + 1).factorial : ℝ)) ≤ ((term * r / fxOne / (i + 1) : ℕ) : ℝ) + 2 * (i + 1) := by
  have hO : (0 : ℝ) < fxOne := by exact_mod_cast fxOne_pos
  have h0 : 0 ≤ ρ := nonneg_of_mul_nonneg_left (hr ▸ Nat.cast_nonneg r : (0 : ℝ) ≤ ρ * fxOne) hO
  have hi0 : (0 : ℝ) ≤ i := Nat.cast_nonneg i
  obtain ⟨hd, hd'⟩ := natDiv_bounds (term * r / fxOne) (b := i + 1) (by omega)
  obtain ⟨hm, hm'⟩ := natDiv_bounds (term * r) fxOne_pos
  rw [Nat.cast_mul, hr, show (term : ℝ) * (ρ * fxOne) / fxOne = term * ρ by field_simp] at hm hm'
  push_cast at hd hd'
  have hnext : fxOne * (ρ ^ (i + 1) / ((i + 1).factorial : ℝ)) = fxOne * (ρ ^ i / (i.factorial : ℝ)) * ρ / (i + 1) := by
    rw [Nat.factorial_succ, pow_succ]
    push_cast
    field_simp
  rw [hnext]
  constructor
  · exact hd.trans (by gcongr; exact hm.trans (by gcongr))
  · have hexact : fxOne * (ρ ^ i / (i.factorial : ℝ)) * ρ ≤ term * ρ + 2 * i := by
      calc fxOne * (ρ ^ i / (i.factorial : ℝ)) * ρ ≤ (term + 2 * i) * ρ := by gcongr
        _ = term * ρ + 2 * i * ρ := by ring
        _ ≤ term * ρ + 2 * i * 1 := by gcongr
        _ = term * ρ + 2 * i := by ring
    calc fxOne * (ρ ^ i / (i.factorial : ℝ)) * ρ / (i + 1)
        ≤ (((term * r / fxOne : ℕ) : ℝ) + (1 + 2 * i)) / (i + 1) := by gcongr; linarith
      _ = ((term * r / fxOne : ℕ) : ℝ) / (i + 1) + (1 + 2 * i) / (i + 1) := add_div _ _ _
      _ ≤ ((term * r / fxOne : ℕ) : ℝ) / (i + 1) + (1 + 2 * i) := by
          gcongr; exact div_le_self (by linarith) (by linarith)
      _ ≤ ((term * r / fxOne / (i + 1) : ℕ) : ℝ) + 2 * (i + 1) := by linarith

/-- The fixed-point series is below the exact one by at most 200 for each term. -/
theorem expSeries_error (hr : (r : ℝ) = ρ * fxOne) (h1 : ρ ≤ 1) (n : Nat) (hi : i + n ≤ 91) (acc : Nat)
    (hterm : (term : ℝ) ≤ fxOne * (ρ ^ i / (i.factorial : ℝ)))
    (hterm' : fxOne * (ρ ^ i / (i.factorial : ℝ)) ≤ term + 2 * i) :
    (expSeries n (i + 1) term r acc : ℝ) ≤ acc + fxOne * expSum ρ (i + 1) n ∧
      acc + fxOne * expSum ρ (i + 1) n ≤ expSeries n (i + 1) term r acc + 200 * n := by
  induction n generalizing i term acc with
  | zero => simp [expSeries, expSum]
  | succ n ih =>
    have hi' : (i : ℝ) ≤ 90 := by exact_mod_cast (show i ≤ 90 by omega)
    obtain ⟨hlow, hhigh⟩ := expTerm_next hr h1 hterm hterm'
    have hstep := ih (i := i + 1) (by omega) (acc + term * r / fxOne / (i + 1)) hlow (by push_cast; exact hhigh)
    rw [expSeries, expSum_succ, mul_add]
    rw [Nat.cast_add acc] at hstep
    push_cast at hstep ⊢
    constructor <;> linarith [hstep.1, hstep.2]

end ExpSeries

/-- The significand that `expFx` computes for the remainder `r`. -/
def expFrac (r : Nat) : Nat := expSeries 90 1 fxOne r fxOne

theorem expFrac_near {r : Nat} (hr : r ≤ fxOne) : |(expFrac r : ℝ) / fxOne - Real.exp (r / fxOne)| ≤ 1 / 2 ^ 250 := by
  have hO : (0 : ℝ) < fxOne := by exact_mod_cast fxOne_pos
  have hrρ : (r : ℝ) = r / fxOne * fxOne := (div_mul_cancel₀ _ hO.ne').symm
  have h0 : (0 : ℝ) ≤ r / fxOne := by positivity
  have h1 : (r : ℝ) / fxOne ≤ 1 := by rw [div_le_one hO]; exact_mod_cast hr
  have herr := expSeries_error hrρ h1 90 (i := 0) (term := fxOne) (by omega) fxOne (by simp) (by simp)
  have hsum : ∑ m ∈ Finset.range 91, (r / fxOne : ℝ) ^ m / (m.factorial : ℝ) = 1 + expSum (r / fxOne) 1 90 := by
    have h : expSum (r / fxOne) 0 (90 + 1) = ∑ m ∈ Finset.range 91, (r / fxOne : ℝ) ^ m / (m.factorial : ℝ) :=
      Finset.sum_congr rfl fun m _ => by rw [Nat.zero_add]
    rw [← h, expSum_succ]
    simp
  have hlow := Real.sum_le_exp_of_nonneg h0 91
  have hhigh := Real.exp_bound' h0 h1 (n := 91) (by omega)
  rw [hsum] at hlow hhigh
  rw [show ((91 : ℕ) : ℝ) = 91 from rfl] at hhigh
  have htail : (r / fxOne : ℝ) ^ 91 * (91 + 1) / ((Nat.factorial 91 : ℝ) * 91) ≤ 1 / 2 ^ 252 := by
    have hfac : (2 : ℝ) ^ 252 * 92 ≤ (Nat.factorial 91 : ℝ) * 91 := by
      have : 2 ^ 252 * 92 ≤ Nat.factorial 91 * 91 := by decide +kernel
      exact_mod_cast this
    rw [div_le_div_iff₀ (by positivity) (by positivity)]
    have hpow : (r / fxOne : ℝ) ^ 91 * (91 + 1) ≤ 1 * (91 + 1) := by
      gcongr; exact pow_le_one₀ h0 h1
    linarith [mul_le_mul_of_nonneg_right hpow (by positivity : (0 : ℝ) ≤ 2 ^ 252)]
  rw [Nat.zero_add] at herr
  change ((expFrac r : ℕ) : ℝ) ≤ _ ∧ _ ≤ ((expFrac r : ℕ) : ℝ) + _ at herr
  generalize expSum (r / fxOne) 1 90 = S at *
  have hdiv : (expFrac r : ℝ) / fxOne ≤ 1 + S := by
    rw [div_le_iff₀ hO]; linarith [herr.1]
  have hdiv' : 1 + S ≤ (expFrac r : ℝ) / fxOne + 1 / 2 ^ 252 := by
    have : 1 / 2 ^ 252 * ((2 : ℝ) ^ 70 * 2 ^ 250) = 2 ^ 68 := by norm_num
    rw [← sub_le_iff_le_add, le_div_iff₀ hO, sub_mul, fxOne_eq, this, ← fxOne_eq]
    push_cast at herr
    linarith [herr.2]
  have e250 : (1 : ℝ) / 2 ^ 250 = 4 * (1 / 2 ^ 252) := by norm_num
  have hp : (0 : ℝ) < 1 / 2 ^ 252 := by positivity
  rw [abs_le, e250]
  constructor <;> linarith

theorem expSeries_mono (n i : Nat) {term term' r r' acc acc' : Nat} (ht : term ≤ term') (hr : r ≤ r') (ha : acc ≤ acc') :
    expSeries n i term r acc ≤ expSeries n i term' r' acc' := by
  induction n generalizing i term term' acc acc' with
  | zero => exact ha
  | succ n ih =>
    have hnext : term * r / fxOne / i ≤ term' * r' / fxOne / i :=
      Nat.div_le_div_right (Nat.div_le_div_right (Nat.mul_le_mul ht hr))
    exact ih (i + 1) hnext (Nat.add_le_add ha hnext)

theorem le_expSeries (n i term r acc : Nat) : acc ≤ expSeries n i term r acc := by
  induction n generalizing i term acc with
  | zero => exact le_rfl
  | succ n ih => exact (Nat.le_add_right _ _).trans (ih _ _ _)

theorem expFrac_mono {r r' : Nat} (h : r ≤ r') : expFrac r ≤ expFrac r' := expSeries_mono 90 1 le_rfl h le_rfl

/-- A significand of a remainder below ln 2 lies between 1 and 2. -/
theorem expFrac_bounds {r : Nat} (h : r ≤ fxLn2) : fxOne ≤ expFrac r ∧ expFrac r ≤ 2 * fxOne := by
  have htop : expFrac fxLn2 ≤ 2 * fxOne := by decide +kernel
  exact ⟨le_expSeries _ _ _ _ _, (expFrac_mono h).trans htop⟩

/-! ## The exponential in fixed point -/

theorem fxLn2_bounds : 2 ≤ fxLn2 ∧ fxLn2 ≤ fxOne ∧ fxOne ≤ 2 * fxLn2 := by decide +kernel

/-- What `expFx` computes, as a real number. -/
noncomputable def expReal (x : Int) : ℝ := (expFx x).1 / fxOne * 2 ^ (expFx x).2

/-- `expFx` splits its argument into a multiple of ln 2 and a remainder. -/
theorem expFx_split (x : Int) :
    ∃ (k : Int) (r : Nat), expFx x = (expFrac r, k) ∧ x = k * fxLn2 + r ∧ r < fxLn2 := by
  have hpos : (0 : Int) < fxLn2 := by exact_mod_cast (show 0 < fxLn2 by have := fxLn2_bounds.1; omega)
  have h0 := Int.emod_nonneg x hpos.ne'
  have h1 := Int.emod_lt_of_pos x hpos
  have hdef := Int.emod_def x (fxLn2 : Int)
  have hr : x - x / (fxLn2 : Int) * (fxLn2 : Int) = x % (fxLn2 : Int) := by rw [hdef, mul_comm]
  refine ⟨x / fxLn2, (x % (fxLn2 : Int)).toNat, ?_, ?_, ?_⟩
  · unfold expFx
    simp only [hr]
    rfl
  · rw [Int.toNat_of_nonneg h0, ← hr]; ring
  · omega

theorem expReal_mono {x x' : Int} (h : x ≤ x') : expReal x ≤ expReal x' := by
  obtain ⟨k, r, e, hx, hr⟩ := expFx_split x
  obtain ⟨k', r', e', hx', hr'⟩ := expFx_split x'
  have hO : (0 : ℝ) < fxOne := by exact_mod_cast fxOne_pos
  have hln : (0 : Int) < fxLn2 := by exact_mod_cast (show 0 < fxLn2 by have := fxLn2_bounds.1; omega)
  have hk : k ≤ k' := by
    by_contra hlt
    have : (k' + 1) * (fxLn2 : Int) ≤ k * fxLn2 := mul_le_mul_of_nonneg_right (by omega) hln.le
    rw [add_mul, one_mul] at this
    omega
  unfold expReal
  rw [e, e']
  simp only
  rcases hk.eq_or_lt with rfl | hlt
  · have hrr : expFrac r ≤ expFrac r' := expFrac_mono (by omega)
    gcongr
  · have hu : ((expFrac r : ℕ) : ℝ) / fxOne ≤ 2 := by
      rw [div_le_iff₀ hO]; exact_mod_cast (expFrac_bounds hr.le).2
    have hl : 1 ≤ ((expFrac r' : ℕ) : ℝ) / fxOne := by
      rw [one_le_div hO]; exact_mod_cast (expFrac_bounds hr'.le).1
    calc ((expFrac r : ℕ) : ℝ) / fxOne * 2 ^ k ≤ 2 * 2 ^ k := by gcongr
      _ = 1 * 2 ^ (k + 1) := by rw [zpow_add_one₀ two_ne_zero]; ring
      _ ≤ ((expFrac r' : ℕ) : ℝ) / fxOne * 2 ^ k' := by
          gcongr
          · exact one_le_two
          · omega

/-- The multiple of ln 2 in an argument of moderate size is moderate. -/
theorem abs_multiple_le {x k c ρ : ℝ} (hx : |x| ≤ 2 ^ 12) (hsplit : x = k * c + ρ) (hc : 1 / 2 ≤ c) (hρ0 : 0 ≤ ρ)
    (hρ1 : ρ ≤ 1) : |k| ≤ 2 ^ 14 := by
  have h1 : |k * c| ≤ 2 ^ 12 + 1 := by
    rw [show k * c = x - ρ by rw [hsplit]; ring]
    calc |x - ρ| ≤ |x| + |ρ| := abs_sub _ _
      _ ≤ 2 ^ 12 + 1 := by rw [abs_of_nonneg hρ0]; linarith
  rw [abs_mul, abs_of_nonneg (by linarith : 0 ≤ c)] at h1
  have : |k| * (1 / 2) ≤ |k| * c := by gcongr
  linarith

/-- A product of a scale `s`, a significand `v` and a factor `w` close to 1, without that factor and with `t` for `v`. -/
theorem scaled_near {s t v w : ℝ} (hs : 0 < s) (ht : |t - v| ≤ 1 / 2 ^ 250) (hv : 1 ≤ v) (hw : |w - 1| ≤ 1 / 2 ^ 98) :
    |t * s - s * (v * w)| ≤ s * (v * w) / 2 ^ 90 := by
  have hhalf : 1 / 2 ≤ w := by
    have : (1 : ℝ) / 2 ^ 98 ≤ 1 / 2 := by norm_num
    linarith [(abs_le.1 hw).1]
  rw [show t * s - s * (v * w) = s * ((t - v) - v * (w - 1)) by ring, abs_mul, abs_of_pos hs, mul_div_assoc]
  refine mul_le_mul_of_nonneg_left ?_ hs.le
  calc |t - v - v * (w - 1)| ≤ |t - v| + |v * (w - 1)| := abs_sub _ _
    _ ≤ 1 / 2 ^ 250 + v * (1 / 2 ^ 98) := by
        rw [abs_mul, abs_of_pos (by linarith : 0 < v)]
        gcongr
    _ ≤ v * (1 / 2) / 2 ^ 90 := by
        have : (1 : ℝ) / 2 ^ 250 ≤ v * (1 / 2 ^ 98) := by
          calc (1 : ℝ) / 2 ^ 250 ≤ 1 * (1 / 2 ^ 98) := by norm_num
            _ ≤ v * (1 / 2 ^ 98) := by gcongr
        linarith
    _ ≤ v * w / 2 ^ 90 := by gcongr

/-- The fixed-point exponential is close to the exponential of any number close to its argument. -/
theorem expReal_near {x : Int} {y : ℝ} (hx : |(x : ℝ) / fxOne| ≤ 2 ^ 12) (hy : |y - x / fxOne| ≤ 1 / 2 ^ 100) :
    |expReal x - Real.exp y| ≤ Real.exp y / 2 ^ 90 := by
  obtain ⟨k, r, e, hsplit, hr⟩ := expFx_split x
  have hO : (0 : ℝ) < fxOne := by exact_mod_cast fxOne_pos
  obtain ⟨-, hle, hge⟩ := fxLn2_bounds
  have hfrac := expFrac_near (hr.le.trans hle)
  have hln2 := fxLn2_near
  have hρ0 : (0 : ℝ) ≤ r / fxOne := by positivity
  have hρ1 : (r : ℝ) / fxOne ≤ 1 := by rw [div_le_one hO]; exact_mod_cast hr.le.trans hle
  have hhalf : 1 / 2 ≤ (fxLn2 : ℝ) / fxOne := by
    have : (fxOne : ℝ) ≤ 2 * fxLn2 := by exact_mod_cast hge
    rw [le_div_iff₀ hO]; linarith
  have hxk : (x : ℝ) / fxOne = k * (fxLn2 / fxOne) + r / fxOne := by
    rw [hsplit]; push_cast; ring
  have hk := abs_multiple_le hx hxk hhalf hρ0 hρ1
  obtain ⟨d, hd⟩ : ∃ d : ℝ, d = (y - x / fxOne) + k * (fxLn2 / fxOne - Real.log 2) := ⟨_, rfl⟩
  have hdsmall : |d| ≤ 1 / 2 ^ 99 := by
    rw [hd]
    calc _ ≤ |y - x / fxOne| + |(k : ℝ) * (fxLn2 / fxOne - Real.log 2)| := abs_add_le _ _
      _ ≤ 1 / 2 ^ 100 + 2 ^ 14 * (1 / 2 ^ 249) := by rw [abs_mul]; gcongr
      _ ≤ 1 / 2 ^ 99 := by norm_num
  have hd1 : |Real.exp d - 1| ≤ 1 / 2 ^ 98 := by
    calc _ ≤ 2 * |d| := Real.abs_exp_sub_one_le (hdsmall.trans (by norm_num))
      _ ≤ 2 * (1 / 2 ^ 99) := by gcongr
      _ = 1 / 2 ^ 98 := by norm_num
  have hexp : Real.exp y = 2 ^ k * (Real.exp (r / fxOne) * Real.exp d) := by
    rw [show (2 : ℝ) ^ k = Real.exp (k * Real.log 2) by
      rw [mul_comm, Real.exp_mul, Real.exp_log two_pos, Real.rpow_intCast], ← Real.exp_add, ← Real.exp_add]
    congr 1
    rw [hd, hxk]; ring
  rw [expReal, e, hexp]
  exact scaled_near (by positivity) hfrac (Real.one_le_exp hρ0) hd1

/-! ## `exp64` and `pow10_32` on patterns -/

/-- `packScaled` rounds the value that `expFx` stands for. -/
theorem packScaled_rounded {f : Fmt} (hf : f.Sound) (x : Int) :
    Rounded f (expReal x * 2 ^ f.unit) (packScaled f (expFx x).1 (expFx x).2) := by
  unfold expReal packScaled
  generalize (expFx x).1 = t
  generalize (expFx x).2 = k
  have hscale : (t : ℝ) / fxOne * 2 ^ k * 2 ^ f.unit = t * 2 ^ (k - (fxBits : Int) + f.unit) := by
    rw [fxOne, Nat.cast_pow, Nat.cast_ofNat]
    generalize fxBits = b
    rw [zpow_add₀ two_ne_zero, zpow_sub₀ two_ne_zero, zpow_natCast, zpow_natCast]
    ring
  rw [hscale]
  simp only
  generalize k - (fxBits : Int) + f.unit = s
  split
  · next hs =>
    have h := pack_rounded hf false (t * 2 ^ s.toNat) Nat.one_pos
    rwa [if_neg Bool.false_ne_true, Nat.cast_one, div_one, Nat.cast_mul, Nat.cast_pow, Nat.cast_ofNat, ← zpow_natCast,
      Int.toNat_of_nonneg hs] at h
  · next hs =>
    have h := pack_rounded hf false t (Nat.two_pow_pos (-s).toNat)
    rwa [if_neg Bool.false_ne_true, Nat.cast_pow, Nat.cast_ofNat, ← zpow_natCast, Int.toNat_of_nonneg (by omega), zpow_neg,
      div_inv_eq_mul] at h

/-- What `expCode` and `pow10Code` do with a number: the exponential of `scale` times the value, cut off at `limit`. -/
def expScaled (f : Fmt) (limit scale : Int) (a : Nat) : Nat :=
  if limit * 2 ^ f.unit ≤ val f a then f.inf
  else if val f a ≤ -limit * 2 ^ f.unit then 0
  else packScaled f (expFx (val f a * scale / 2 ^ f.unit)).1 (expFx (val f a * scale / 2 ^ f.unit)).2

theorem expCode_eq {f : Fmt} {a : Nat} (h : isNaN f a = false) (nan : Nat) :
    expCode f nan a = expScaled f 800 (fxOne : Int) a := by
  unfold expCode
  rw [if_neg (by rw [h]; exact Bool.false_ne_true)]
  rfl

theorem pow10Code_eq {f : Fmt} {a : Nat} (h : isNaN f a = false) (nan : Nat) :
    pow10Code f nan a = expScaled f 60 (fxLn10 : Int) a := by
  unfold pow10Code
  rw [if_neg (by rw [h]; exact Bool.false_ne_true)]
  rfl

section Scaled
variable {f : Fmt} {limit scale : Int} {a a' : Nat}

/-- All that the exponential can give: an infinity, a zero, or a rounded value. -/
theorem expScaled_cases (hf : f.Sound) (limit scale : Int) (a : Nat) :
    (limit * 2 ^ f.unit ≤ val f a ∧ expScaled f limit scale a = f.inf) ∨
    (val f a ≤ -limit * 2 ^ f.unit ∧ expScaled f limit scale a = 0) ∨
    (val f a < limit * 2 ^ f.unit ∧ -limit * 2 ^ f.unit < val f a ∧
      Rounded f (expReal (val f a * scale / 2 ^ f.unit) * 2 ^ f.unit) (expScaled f limit scale a)) := by
  unfold expScaled
  split
  · next h => exact .inl ⟨h, rfl⟩
  · split
    · next h => exact .inr (.inl ⟨h, rfl⟩)
    · exact .inr (.inr ⟨by omega, by omega, packScaled_rounded hf _⟩)

theorem expReal_nonneg (x : Int) : 0 ≤ expReal x := by
  unfold expReal; positivity

/-- The exponential is a number from zero to the infinity. -/
theorem expScaled_range (hf : f.Sound) (limit scale : Int) (a : Nat) :
    isNaN f (expScaled f limit scale a) = false ∧ 0 ≤ val f (expScaled f limit scale a) ∧
      expScaled f limit scale a < 2 * f.sign := by
  have hinf := hf.infLt
  rcases expScaled_cases hf limit scale a with ⟨-, e⟩ | ⟨-, e⟩ | ⟨-, -, h⟩
  · rw [e]
    refine ⟨by simp [isNaN, Nat.mod_eq_of_lt hinf], ?_, by omega⟩
    have := infCode_val hf false
    rw [infCode, if_neg Bool.false_ne_true, Nat.zero_add, if_neg Bool.false_ne_true] at this
    rw [this]; exact Nat.cast_nonneg _
  · rw [e]
    have h := rounded_zero hf
    exact ⟨h.not_nan, h.val_nonneg hf le_rfl, h.bound⟩
  · exact ⟨h.not_nan, h.val_nonneg hf (mul_nonneg (expReal_nonneg _) (by positivity)), h.bound⟩

/-- The exponential keeps the order of values. -/
theorem expScaled_mono (hf : f.Sound) (hlimit : 0 < limit) (hscale : 0 ≤ scale) (hle : val f a ≤ val f a') :
    val f (expScaled f limit scale a) ≤ val f (expScaled f limit scale a') := by
  obtain ⟨hnan, h0, -⟩ := expScaled_range hf limit scale a
  obtain ⟨-, h0', -⟩ := expScaled_range hf limit scale a'
  have htop := natAbs_val_le_inf hnan
  have hvinf : val f f.inf = patMag f f.inf := by
    have := infCode_val hf false
    rwa [infCode, if_neg Bool.false_ne_true, Nat.zero_add, if_neg Bool.false_ne_true] at this
  have hpos : (0 : Int) < 2 ^ f.unit := by positivity
  rcases expScaled_cases hf limit scale a' with ⟨-, e'⟩ | ⟨hlow', e'⟩ | ⟨hlt', -, h'⟩
  · rw [e', hvinf]; omega
  · rcases expScaled_cases hf limit scale a with ⟨hhigh, e⟩ | ⟨-, e⟩ | ⟨-, hgt, -⟩
    · have := mul_pos hlimit hpos
      rw [neg_mul] at hlow'
      omega
    · rw [e, e']
    · omega
  · rcases expScaled_cases hf limit scale a with ⟨hhigh, -⟩ | ⟨-, e⟩ | ⟨-, -, h⟩
    · omega
    · rw [e, val_eq_zero_iff.2 (Nat.zero_mod _)]; exact h0'
    · refine h.val_mono h' (mul_le_mul_of_nonneg_right (expReal_mono ?_) (by positivity))
      exact Int.ediv_le_ediv hpos (mul_le_mul_of_nonneg_right hle hscale)

/-- The argument of the fixed-point exponential, in fixed point itself, is close to the exact one and moderate. -/
theorem scaledArg_near {A s c : ℝ} {x : Int} (hs : |s - c| ≤ 1 / 2 ^ 240) (hc0 : 0 < c) (hc : c ≤ 3) (hA : |A| ≤ 1000)
    (hd : (x : ℝ) ≤ A * s * fxOne) (hd' : A * s * fxOne < x + 1) :
    |A * c - x / fxOne| ≤ 1 / 2 ^ 100 ∧ |(x : ℝ) / fxOne| ≤ 2 ^ 12 := by
  have hO : (0 : ℝ) < fxOne := by exact_mod_cast fxOne_pos
  have hfloor : |A * s - x / fxOne| ≤ 1 / 2 ^ 101 := by
    have h1 : (x : ℝ) / fxOne ≤ A * s := by rw [div_le_iff₀ hO]; exact hd
    have h2 : A * s ≤ x / fxOne + 1 / 2 ^ 101 := by
      have : (1 : ℝ) / 2 ^ 101 * (2 ^ 70 * 2 ^ 250) = 2 ^ 219 := by norm_num
      rw [← sub_le_iff_le_add, le_div_iff₀ hO, sub_mul, fxOne_eq, this, ← fxOne_eq]
      linarith
    rw [abs_of_nonneg (by linarith)]
    linarith
  have hscaled : |A * c - A * s| ≤ 1000 * (1 / 2 ^ 240) := by
    rw [← mul_sub, abs_mul, abs_sub_comm c s]
    gcongr
  have harg : |A * c - x / fxOne| ≤ 1 / 2 ^ 100 := by
    have : (1000 : ℝ) * (1 / 2 ^ 240) + 1 / 2 ^ 101 ≤ 1 / 2 ^ 100 := by norm_num
    linarith [abs_sub_le (A * c) (A * s) (x / fxOne)]
  refine ⟨harg, ?_⟩
  have h1 : |A * c| ≤ 1000 * 3 := by rw [abs_mul, abs_of_pos hc0]; gcongr
  have h2 : |(x : ℝ) / fxOne| ≤ |A * c| + |A * c - x / fxOne| := by
    have := abs_sub (A * c) (A * c - x / fxOne)
    rwa [sub_sub_cancel] at this
  have : (1 : ℝ) / 2 ^ 100 ≤ 1 := by norm_num
  linarith

/-- Within the finite range the exponential is the rounding of a number close to the real one. -/
theorem expScaled_near (hf : f.Sound) {c : ℝ} (hscale : |(scale : ℝ) / fxOne - c| ≤ 1 / 2 ^ 240) (hc0 : 0 < c) (hc : c ≤ 3)
    (hlimit : limit ≤ 1000) (hprec : (64 * 2 ^ (f.prec - 1) : ℝ) ≤ 2 ^ 90)
    (hbig : (patMag f f.inf : ℝ) < Real.exp (limit * c) * 2 ^ f.unit)
    (hsmall : Real.exp (-limit * c) * 2 ^ f.unit ≤ 1 / 4)
    (hy : |Real.exp (val f a / 2 ^ f.unit * c) * 2 ^ f.unit| ≤ patMag f (f.inf - 1)) :
    ∃ y', Rounded f y' (expScaled f limit scale a) ∧ CloseTo f (Real.exp (val f a / 2 ^ f.unit * c) * 2 ^ f.unit) y' := by
  have hu : (0 : ℝ) < 2 ^ f.unit := by positivity
  have hO : (0 : ℝ) < fxOne := by exact_mod_cast fxOne_pos
  have hy0 : 0 < Real.exp (val f a / 2 ^ f.unit * c) * 2 ^ f.unit := mul_pos (Real.exp_pos _) hu
  rcases expScaled_cases hf limit scale a with ⟨hhigh, -⟩ | ⟨hlow, e⟩ | ⟨hlt, hgt, h⟩
  · exfalso
    have hA : (limit : ℝ) ≤ val f a / 2 ^ f.unit := by rw [le_div_iff₀ hu]; exact_mod_cast hhigh
    have hle : Real.exp (limit * c) * 2 ^ f.unit ≤ Real.exp (val f a / 2 ^ f.unit * c) * 2 ^ f.unit := by gcongr
    have hM : (patMag f (f.inf - 1) : ℝ) ≤ patMag f f.inf := by
      exact_mod_cast (patMag_strictMono f).monotone (Nat.sub_le _ _)
    rw [abs_of_pos hy0] at hy
    linarith
  · refine ⟨0, by rw [e]; exact rounded_zero hf, .inl ?_⟩
    have hA : (val f a / 2 ^ f.unit : ℝ) ≤ -limit := by rw [div_le_iff₀ hu]; exact_mod_cast hlow
    rw [zero_sub, abs_neg, abs_of_pos hy0]
    refine le_trans ?_ hsmall
    gcongr
  · refine ⟨_, h, .inr ?_⟩
    obtain ⟨A, hA⟩ : ∃ A : ℝ, A = val f a / 2 ^ f.unit := ⟨_, rfl⟩
    have hAlt : A < limit := by rw [hA, div_lt_iff₀ hu]; exact_mod_cast hlt
    have hAgt : -limit < A := by rw [hA, lt_div_iff₀ hu]; exact_mod_cast hgt
    have hL : (limit : ℝ) ≤ 1000 := by exact_mod_cast hlimit
    obtain ⟨hd, hd'⟩ := ediv_bounds (val f a * scale) (b := 2 ^ f.unit) (by positivity)
    rw [show ((val f a * scale : Int) : ℝ) / ((2 ^ f.unit : Int) : ℝ) = A * (scale / fxOne) * fxOne by
      rw [hA]; push_cast; field_simp] at hd hd'
    obtain ⟨harg, hx⟩ := scaledArg_near hscale hc0 hc (abs_le.2 ⟨by linarith, by linarith⟩) hd hd'
    have hnear := expReal_near hx harg
    rw [← hA, ← sub_mul, abs_mul, abs_mul, abs_of_pos hu, abs_of_pos (Real.exp_pos _)]
    calc |expReal (val f a * scale / 2 ^ f.unit) - Real.exp (A * c)| * 2 ^ f.unit * (64 * 2 ^ (f.prec - 1))
        ≤ Real.exp (A * c) / 2 ^ 90 * 2 ^ f.unit * 2 ^ 90 := by gcongr
      _ = Real.exp (A * c) * 2 ^ f.unit := by field_simp

end Scaled

/-! ## `exp64` (R131) -/

section Exp64
variable {x x' : F64}

theorem toNat_refExp64 (hx : ¬nan64P x) : (refExp64 x).toNat = expScaled fmt64 800 (fxOne : Int) x.toNat := by
  rw [refExp64, expCode_eq (isNaN_of_not_nan64 hx), BitVec.toNat_ofNat]
  exact Nat.mod_eq_of_lt (expScaled_range fmt64_sound _ _ _).2.2

theorem refExp64_mono (hx : ¬nan64P x) (hx' : ¬nan64P x') (hle : le64 x x') : le64 (refExp64 x) (refExp64 x') := by
  intro _ _
  rw [toNat_refExp64 hx, toNat_refExp64 hx']
  exact expScaled_mono fmt64_sound (by norm_num) (Nat.cast_nonneg _) (hle hx hx')

theorem refExp64_not_nan (hx : ¬nan64P x) : ¬nan64P (refExp64 x) := by
  rw [nan64P, toNat_refExp64 hx, (expScaled_range fmt64_sound _ _ _).1]
  exact Bool.false_ne_true

theorem rat64_one : rat64 0x3FF0000000000000 = 1 := by
  rw [rat64, show val fmt64 (0x3FF0000000000000 : F64).toNat = 2 ^ 1074 by decide +kernel, Int.cast_pow, Int.cast_ofNat,
    div_self (pow_ne_zero _ two_ne_zero)]

theorem rat64_zero : rat64 0x0000000000000000 = 0 := by
  rw [rat64, show val fmt64 (0x0000000000000000 : F64).toNat = 0 by decide, Int.cast_zero, zero_div]

/-- NP4 for `Num_ref`: at and below zero the exponential is in [0, 1]. -/
theorem numRef_exponential : NumExponential numRef where
  unit x hx h0 := by
    have hz : finite64 0x0000000000000000 := ⟨by decide, by decide⟩
    have hone : finite64 0x3FF0000000000000 := ⟨by decide, by decide⟩
    have hn := not_nan64 hx
    have hle := refExp64_mono hn (not_nan64 hz) ((le64_rat hx hz).2 (by rw [rat64_zero]; exact h0))
    rw [refExp64_values.2.1] at hle
    have hr := refExp64_not_nan hn
    have hrange : 0 ≤ val fmt64 (refExp64 x).toNat := by
      rw [toNat_refExp64 hn]; exact (expScaled_range fmt64_sound _ _ _).2.1
    have hfin : finite64 (refExp64 x) := by
      refine ⟨isNaN_of_not_nan64 hr, ?_⟩
      by_contra hi
      have hv := natAbs_val_of_isInf (Bool.not_eq_false _ ▸ hi)
      have hlt := natAbs_val_lt_inf (finite64_iff.1 hone)
      have := hle hr (not_nan64 hone)
      omega
    refine ⟨hfin, ?_, ?_⟩
    · rw [show numRef.exp64 x = refExp64 x from rfl, rat64]
      have : (0 : ℚ) ≤ val fmt64 (refExp64 x).toNat := by exact_mod_cast hrange
      positivity
    · rw [← rat64_one]
      exact (le64_rat hfin hone).1 hle
  bottom := refExp64_values.1
  zero := refExp64_values.2
  number _ := refExp64_not_nan

/-- Powers of e against powers of two. -/
theorem two_pow_le_exp (n : Nat) : (2 : ℝ) ^ (7 * n) ≤ Real.exp (5 * n) := by
  have h1 : (2 : ℝ) ^ 7 ≤ Real.exp 5 := by
    have h := Real.exp_one_gt_d9
    calc (2 : ℝ) ^ 7 ≤ 2.7 ^ 5 := by norm_num
      _ ≤ Real.exp 1 ^ 5 := by gcongr; linarith
      _ = Real.exp 5 := by rw [← Real.exp_nat_mul]; norm_num
  calc (2 : ℝ) ^ (7 * n) = (2 ^ 7) ^ n := pow_mul _ _ _
    _ ≤ Real.exp 5 ^ n := by gcongr
    _ = Real.exp (5 * n) := by rw [← Real.exp_nat_mul, mul_comm]

/-- Where the exponential is cut off, it is beyond the finite range, and below a quarter of a unit on the other side. -/
theorem cutoff_bounds {n u m : Nat} {e : ℝ} (hexp : (2 : ℝ) ^ n ≤ Real.exp e) (hm : m < n + u) (hu : u + 2 ≤ n) :
    (2 : ℝ) ^ m < Real.exp e * 2 ^ u ∧ Real.exp (-e) * 2 ^ u ≤ 1 / 4 := by
  constructor
  · calc (2 : ℝ) ^ m < 2 ^ (n + u) := pow_lt_pow_right₀ one_lt_two hm
      _ = 2 ^ n * 2 ^ u := pow_add _ _ _
      _ ≤ Real.exp e * 2 ^ u := by gcongr
  · have h4 : (2 : ℝ) ^ u * 4 ≤ Real.exp e := by
      calc (2 : ℝ) ^ u * 4 = 2 ^ (u + 2) := by rw [pow_add]; norm_num
        _ ≤ 2 ^ n := pow_le_pow_right₀ one_le_two hu
        _ ≤ Real.exp e := hexp
    rw [Real.exp_neg, inv_mul_le_iff₀ (Real.exp_pos e)]
    linarith

/-- NP8 of the exponential. -/
theorem refExp64_near (hx : finite64 x) : nearTwo64 false (Real.exp (rat64 x)) (refExp64 x) := by
  intro hrange
  have hO : (0 : ℝ) < fxOne := by exact_mod_cast fxOne_pos
  have hpos : (0 : ℝ) < 2 ^ fmt64.unit := by positivity
  have harg : ((rat64 x : ℚ) : ℝ) = val fmt64 x.toNat / 2 ^ fmt64.unit * 1 := by rw [rat64_cast, mul_one]; rfl
  obtain ⟨k, hk⟩ : ∃ k, k = 2045 := ⟨_, rfl⟩
  have htop : (patMag fmt64 fmt64.inf : ℝ) = 2 ^ (53 + k) := by
    rw [patMag_fmt64_inf hk, ← pow_add, Nat.cast_pow, Nat.cast_ofNat]
  obtain ⟨hbig, hsmall⟩ := cutoff_bounds (u := fmt64.unit) (m := 53 + k) (two_pow_le_exp 160)
    (by rw [hk]; decide) (by decide)
  rw [← htop, show (5 : ℝ) * (160 : ℕ) = (800 : Int) * 1 by norm_num] at hbig
  rw [show -((5 : ℝ) * (160 : ℕ)) = -(800 : Int) * 1 by norm_num] at hsmall
  obtain ⟨y', h, hclose⟩ := expScaled_near (a := x.toNat) (limit := 800) (scale := (fxOne : Int)) (c := 1) fmt64_sound
    (by rw [Int.cast_natCast, div_self hO.ne', sub_self, abs_zero]; positivity) one_pos (by norm_num) (by norm_num)
    (by norm_num [fmt64]) hbig hsmall (by
      rw [← harg, abs_mul, abs_of_pos hpos]
      have := mul_le_mul_of_nonneg_right hrange hpos.le
      exact this.trans patMag_max64.le)
  rw [← harg] at hclose
  rw [← toNat_refExp64 (not_nan64 hx)] at h
  exact nearTwo64_of_close h hclose hrange

end Exp64

/-! ## `pow10_32` (R130) -/

section Pow10
variable {a a' : F32}

theorem toNat_refPow10 (ha : ¬nan32P a) : (refPow10 a).toNat = expScaled fmt32 60 (fxLn10 : Int) a.toNat := by
  rw [refPow10, pow10Code_eq (isNaN_of_not_nan32 ha), BitVec.toNat_ofNat]
  exact Nat.mod_eq_of_lt (expScaled_range fmt32_sound _ _ _).2.2

/-- NP5 of the power of ten. -/
theorem refPow10_mono (ha : ¬nan32P a) (ha' : ¬nan32P a') (hle : le32 a a') : le32 (refPow10 a) (refPow10 a') := by
  intro _ _
  rw [toNat_refPow10 ha, toNat_refPow10 ha']
  exact expScaled_mono fmt32_sound (by norm_num) (Nat.cast_nonneg _) (hle ha ha')

theorem two_pow_le_exp_log10 : (2 : ℝ) ^ 180 ≤ Real.exp (60 * Real.log 10) := by
  rw [show (60 : ℝ) = (60 : ℕ) by norm_num, Real.exp_nat_mul, Real.exp_log (by norm_num)]
  norm_num

theorem log10_le_three : Real.log 10 ≤ 3 := by
  have h := Real.log_le_log (by norm_num) (show (10 : ℝ) ≤ 2 ^ 4 by norm_num)
  rw [Real.log_pow] at h
  push_cast at h
  linarith [Real.log_two_lt_d9]

/-- NP8 of the power of ten. -/
theorem refPow10_near (ha : finite32 a) : nearTwo32 false ((10 : ℝ) ^ (rat32 a : ℝ)) (refPow10 a) := by
  intro hrange
  have hpos : (0 : ℝ) < 2 ^ fmt32.unit := by positivity
  have harg : (10 : ℝ) ^ ((rat32 a : ℚ) : ℝ) = Real.exp (val fmt32 a.toNat / 2 ^ fmt32.unit * Real.log 10) := by
    rw [Real.rpow_def_of_pos (by norm_num), mul_comm, rat32_cast]; rfl
  have htop : (patMag fmt32 fmt32.inf : ℝ) = 2 ^ (24 + 253) := by
    rw [patMag_fmt32_inf.1, ← pow_add, Nat.cast_pow, Nat.cast_ofNat]
  obtain ⟨hbig, hsmall⟩ := cutoff_bounds (u := fmt32.unit) (m := 24 + 253) two_pow_le_exp_log10 (by decide) (by decide)
  rw [← htop, show (60 : ℝ) = (60 : Int) by norm_num] at hbig
  rw [← neg_mul, show (60 : ℝ) = (60 : Int) by norm_num] at hsmall
  obtain ⟨y', h, hclose⟩ := expScaled_near (a := a.toNat) (limit := 60) (scale := (fxLn10 : Int)) fmt32_sound
    (by rw [Int.cast_natCast]; exact fxLn10_near.trans (by norm_num)) (Real.log_pos (by norm_num)) log10_le_three
    (by norm_num) (by norm_num [fmt32]) hbig hsmall (by
      rw [← harg, abs_mul, abs_of_pos hpos]
      have := mul_le_mul_of_nonneg_right hrange hpos.le
      exact this.trans patMag_max32.le)
  rw [← harg] at hclose
  rw [← toNat_refPow10 (not_nan32 ha)] at h
  exact nearTwo32_of_close h hclose hrange

end Pow10

/-! ## All properties together (R123, R133) -/

/-- NP5 for `Num_ref`. -/
theorem numRef_monotone : NumMonotone numRef where
  add _ _ _ := refAdd32_mono
  sub _ _ _ := refSub32_mono
  mul _ _ _ := refMul32_mono
  log _ _ := refLog10_mono
  pow _ _ := refPow10_mono
  cvt _ _ := refCvt64to32_mono
  sqrt _ _ := refSqrt64_mono

/-- NP7 for `Num_ref`. -/
theorem numRef_exact : NumExact numRef where
  abs _ := rfl
  neg _ := rfl
  widen _ := refCvt32to64_exact
  count := refCvtU24to64_exact

/-- NP8 for `Num_ref`: exactly rounded functions round the exact value, the elementary functions one close to it. -/
theorem numRef_nearest : NumNearest false numRef where
  add _ _ ha hb := (refAdd32_rounds ha hb).nearTwo32
  sub _ _ ha hb := (refSub32_rounds ha hb).nearTwo32
  mul _ _ ha hb := (refMul32_rounds ha hb).nearTwo32
  div _ _ ha hb h0 := (refDiv32_rounds ha hb h0).nearTwo32
  log _ := refLog10_near
  pow _ := refPow10_near
  narrow _ ha := (refCvt64to32_rounds ha).nearTwo32
  mac _ _ _ _ _ _ _ _ hp hq := ⟨_, _, .inr rfl, .inr rfl, (refAdd32_rounds hp hq).nearTwo32⟩
  add64 _ _ ha hb := (refAdd64_rounds ha hb).nearTwo64
  mul64 _ _ ha hb := (refMul64_rounds ha hb).nearTwo64
  div64 _ _ ha hb h0 := (refDiv64_rounds ha hb h0).nearTwo64
  sqrt64 _ := refSqrt64_near
  exp64 _ := refExp64_near

/-- `Num_ref` is an admissible record that keeps subnormal results (R123, R124). -/
theorem numRef_properties : NumProperties false numRef where
  compares := numRef_compares
  np1 := refPow10_zero
  np2 := numRef_neutral
  np3 := refOnes
  np4 := numRef_exponential
  np5 := numRef_monotone
  np6 := refLog10_one
  np7 := numRef_exact
  np8 := numRef_nearest

/-- Settles O5: `Num_ref` property by property; its flushed form follows (R133). -/
theorem refAndFlushedRefHaveNP1ToNP8 : Obligations.RefAndFlushedRefHaveNP1ToNP8 :=
  ⟨numRef_properties, flushed_properties numRef_properties refMul32_zero_left⟩

end Sys2Proof.Machine
end

section
/-! The micro-operations of the Spectral Ratio Modulator, one by one (41_spectral_ratio_modulator R161 to R168). -/

namespace Sys2Proof.Machine

/-- S_BPF on a word that exists and has been written, in any command (R162, R163). -/
theorem execSBpf_written {s : State} {v : F32} (hch : s.pos.ch.toNat < s.params.nch.toNat)
    (hidx : s.pos.idx.toNat < s.params.maxlen.toNat) (hv : memRead s.buf (bufAddr s.pos.ch s.pos.idx) = some v) :
    execSBpf s =
      .next ((bandPassed v s).withPos (pairPos phaseSBpf phaseSRms s.params.nch.toNat s.lat.len.toNat s.pos)) := by
  have hread : readSample s s.pos.ch s.pos.idx = .ok v :=
    (readSample_ok_iff _ _ _ v).2 ⟨(inBuf_iff _ _ _).2 ⟨hch, hidx⟩, hv⟩
  rw [execSBpf_ok hread, nextPair_eq_withPos]
  rfl

/-- Settles O18: S_INIT fills the sums of the channels that exist. -/
theorem sInitClears : Obligations.SInitClears := fun s =>
  ⟨laneFill (channels s.params) f64Zero s.scr.sumsq, rfl, laneGet_laneFill _ _ _⟩

/-- Settles O19: the sample is read, filtered and squared, and the position moves to the next pair. -/
theorem sBpfFilters : Obligations.SBpfFilters := by
  intro s v hch hidx hv y y64
  exact execSBpf_written hch hidx hv

/-- Settles O20: the maximum is taken, and the position moves to the next channel. -/
theorem sRmsTakesMaximum : Obligations.SRmsTakesMaximum := by
  intro s
  exact congrArg Host.Outcome.next (nextChan_eq_withPos _ _ _)

/-- Settles O21: the statement writes out R166, R167 and R168 as the model names them. -/
theorem sRatioWritesEffRatio : Obligations.SRatioWritesEffRatio := by
  intro s e rf d p q
  have hratio : s.num.max32 q 0x3F800000 =
      effectiveRatio s.num s.lat.ratio (reductionFactor s.num (coreEnergy s.num s.scr.maxrms)) := rfl
  rw [hratio]
  rfl

end Sys2Proof.Machine
end

section
/-! Bounds on the results of `Num_ref` in an admitted command (40_numerics R124, R147): an exact result between two finite F32
values is rounded to a value between the same two. From this the bounds on the effective ratio
(41_spectral_ratio_modulator R166 to R168, R171). -/

namespace Sys2Proof.Machine

/-! ## Rounding between two values -/

/-- A finite word with its value between two bounds. -/
def FiniteIn (lo hi : ℚ) (x : F32) : Prop := finite32 x ∧ lo ≤ rat32 x ∧ rat32 x ≤ hi

theorem le32_rat {a b : F32} (ha : finite32 a) (hb : finite32 b) : le32 a b ↔ rat32 a ≤ rat32 b := by
  rw [← not_lt, rat32_lt_iff, not_lt]
  exact ⟨fun h => h (not_nan32 ha) (not_nan32 hb), fun h _ _ => h⟩

section Rounds
variable {y : ℝ} {r x lo hi : F32}

/-- Rounding keeps the order to a finite word below. -/
theorem Rounds32.le_rat (h : Rounds32 y r) (hr : finite32 r) (hx : finite32 x) (hle : (rat32 x : ℝ) ≤ y) :
    rat32 x ≤ rat32 r :=
  (le32_rat hx hr).1 ((rounds32_self hx).le32 h hle)

/-- Rounding keeps the order to a finite word above. -/
theorem Rounds32.rat_le (h : Rounds32 y r) (hr : finite32 r) (hx : finite32 x) (hle : y ≤ rat32 x) :
    rat32 r ≤ rat32 x :=
  (le32_rat hr hx).1 (h.le32 (rounds32_self hx) hle)

/-- An exact result between two finite words does not overflow, and stays between them. -/
theorem Rounds32.finiteIn (h : Rounds32 y r) (hlo : finite32 lo) (hhi : finite32 hi) (h1 : (rat32 lo : ℝ) ≤ y)
    (h2 : y ≤ rat32 hi) : FiniteIn (rat32 lo) (rat32 hi) r := by
  have hlower := abs_lt.1 ((rounds32_self hlo).finite_iff.1 hlo)
  have hupper := abs_lt.1 ((rounds32_self hhi).finite_iff.1 hhi)
  have hr : finite32 r := h.finite_iff.2 (abs_lt.2 ⟨hlower.1.trans_le h1, h2.trans_lt hupper.2⟩)
  exact ⟨hr, h.le_rat hr hlo h1, h.rat_le hr hhi h2⟩

end Rounds

/-! ## The operations in an admitted command -/

section Operations
variable {a b lo hi : F32}

theorem admittedRef_mul32 (ha : finite32 a) (hb : finite32 b) (hlo : finite32 lo) (hhi : finite32 hi)
    (h1 : rat32 lo ≤ rat32 a * rat32 b) (h2 : rat32 a * rat32 b ≤ rat32 hi) :
    FiniteIn (rat32 lo) (rat32 hi) ((guarded true numRef).mul32 a b) := by
  have h := (refMul32_rounds ha hb).finiteIn hlo hhi (by exact_mod_cast h1) (by exact_mod_cast h2)
  rwa [guarded_mul32 numRef ha hb h.1]

theorem admittedRef_sub32 (ha : finite32 a) (hb : finite32 b) (hlo : finite32 lo) (hhi : finite32 hi)
    (h1 : rat32 lo ≤ rat32 a - rat32 b) (h2 : rat32 a - rat32 b ≤ rat32 hi) :
    FiniteIn (rat32 lo) (rat32 hi) ((guarded true numRef).sub32 a b) := by
  have h := (refSub32_rounds ha hb).finiteIn hlo hhi (by exact_mod_cast h1) (by exact_mod_cast h2)
  rwa [guarded_sub32 numRef ha hb h.1]

theorem refMax32_eq (ha : finite32 a) (hb : finite32 b) : numRef.max32 a b = if rat32 a < rat32 b then b else a := by
  rw [numRef_compares.max]
  exact if_congr (numRef_compares.lt a b ha hb) rfl rfl

theorem refMin32_eq (ha : finite32 a) (hb : finite32 b) : numRef.min32 a b = if rat32 b < rat32 a then b else a := by
  rw [numRef_compares.min]
  exact if_congr (numRef_compares.lt b a hb ha) rfl rfl

theorem admittedRef_max32 (ha : finite32 a) (hb : finite32 b) : (guarded true numRef).max32 a b = numRef.max32 a b :=
  guarded_max32 numRef ha hb (by rw [refMax32_eq ha hb]; split <;> assumption)

theorem admittedRef_min32 (ha : finite32 a) (hb : finite32 b) : (guarded true numRef).min32 a b = numRef.min32 a b :=
  guarded_min32 numRef ha hb (by rw [refMin32_eq ha hb]; split <;> assumption)

end Operations

/-! ## The constants of R166 to R168 -/

theorem finite32_zero : finite32 f32Zero := ⟨by decide, by decide⟩

theorem finite32_one : finite32 f32One := ⟨by decide, by decide⟩

theorem rat32_f32Zero : rat32 f32Zero = 0 := zero32_iff_rat.1 (.inl rfl)

theorem rat32_f32One : rat32 f32One = 1 := rat32_one

theorem rat32_four : rat32 f32Four = 4 := by
  rw [rat32, show val fmt32 f32Four.toNat = 4 * 2 ^ 149 by decide +kernel]
  norm_num

/-- The constant 0.3 of R167. -/
theorem finiteIn_point3 : FiniteIn 0 1 f32Point3 := by
  have hv : 0 ≤ val fmt32 f32Point3.toNat ∧ val fmt32 f32Point3.toNat ≤ 2 ^ 149 := by decide +kernel
  refine ⟨⟨by decide, by decide⟩, div_nonneg (by exact_mod_cast hv.1) (by positivity), ?_⟩
  rw [rat32, div_le_one (by positivity)]
  exact_mod_cast hv.2

/-! ## The effective ratio -/

/-- Core energy lies between 0 and 1 where its product does not overflow (R166). -/
theorem coreEnergy_finiteIn {m : F32} (hm : finite32 m) (h0 : 0 ≤ rat32 m) (hp : finite32 (numRef.mul32 m f32Four)) :
    FiniteIn 0 1 (coreEnergy (guarded true numRef) m) := by
  have hfour : finite32 f32Four := ⟨by decide, by decide⟩
  have hlower := (refMul32_rounds hm hfour).le_rat hp finite32_zero (by
    rw [rat32_f32Zero, rat32_four]
    exact_mod_cast mul_nonneg h0 zero_le_four)
  rw [rat32_f32Zero] at hlower
  rw [coreEnergy, guarded_mul32 numRef hm hfour hp, admittedRef_min32 hp finite32_one, refMin32_eq hp finite32_one]
  split
  · exact ⟨finite32_one, by rw [rat32_f32One]; exact zero_le_one, rat32_f32One.le⟩
  · exact ⟨hp, hlower, by rw [← rat32_f32One]; exact not_lt.1 ‹_›⟩

/-- The reduction factor lies between 0 and 1 (R167). -/
theorem reductionFactor_finiteIn {e : F32} (he : FiniteIn 0 1 e) : FiniteIn 0 1 (reductionFactor (guarded true numRef) e) := by
  obtain ⟨he, he0, he1⟩ := he
  obtain ⟨hc, hc0, hc1⟩ := finiteIn_point3
  have h := admittedRef_mul32 hc he finite32_zero finite32_one (by rw [rat32_f32Zero]; exact mul_nonneg hc0 he0)
    (by rw [rat32_f32One]; exact mul_le_one₀ hc1 he0 he1)
  rwa [rat32_f32Zero, rat32_f32One] at h

/-- The effective ratio of a ratio of at least 1 lies between 1 and that ratio (R168, R171): each rounding keeps the order
0 ≤ (r - 1) rf ≤ r - 1 ≤ r. -/
theorem effectiveRatio_finiteIn {r rf : F32} (hr : finite32 r) (h1 : 1 ≤ rat32 r) (hrf : FiniteIn 0 1 rf) :
    FiniteIn 1 (rat32 r) (effectiveRatio (guarded true numRef) r rf) := by
  obtain ⟨hrf, hrf0, hrf1⟩ := hrf
  have h0 := rat32_f32Zero
  obtain ⟨hd, hd0, hdr⟩ := admittedRef_sub32 hr finite32_one finite32_zero hr
    (by rw [h0, rat32_f32One]; linarith) (by rw [rat32_f32One]; linarith)
  rw [h0] at hd0
  obtain ⟨hp, hp0, hpd⟩ := admittedRef_mul32 hd hrf finite32_zero hd (by rw [h0]; exact mul_nonneg hd0 hrf0)
    (mul_le_of_le_one_right hd0 hrf1)
  rw [h0] at hp0
  obtain ⟨hq, -, hqr⟩ := admittedRef_sub32 hr hp finite32_zero hr (by rw [h0]; linarith) (by linarith)
  rw [effectiveRatio, admittedRef_max32 hq finite32_one, refMax32_eq hq finite32_one]
  split
  · exact ⟨finite32_one, rat32_f32One.ge, by rwa [rat32_f32One]⟩
  · exact ⟨hq, by rw [← rat32_f32One]; exact not_lt.1 ‹_›, hqr⟩

/-- A word whose bit 31 is 0 has a value that is not negative. -/
theorem rat32_nonneg_of_bit31 {x : F32} (h : x.getLsbD 31 = false) : 0 ≤ rat32 x := by
  rw [← isNeg_eq_getLsbD] at h
  refine div_nonneg ?_ (by positivity)
  simp [val, h]

/-- Settles O56: core energy and the reduction factor lie between 0 and 1, so the ratio is reduced by at most itself less 1. -/
theorem effectiveRatioBound : Obligations.EffectiveRatioBound := by
  intro s href hadm hr hlt hm hbit hprod
  have h1 : 1 ≤ rat32 s.lat.ratio := by
    rw [← rat32_f32One]
    exact not_lt.1 (mt (numRef_compares.lt _ _ hr finite32_one).2 (Bool.eq_false_iff.1 hlt))
  have hrf := reductionFactor_finiteIn (coreEnergy_finiteIn hm (rat32_nonneg_of_bit31 hbit) hprod)
  obtain ⟨heff, hlower, hupper⟩ := effectiveRatio_finiteIn hr h1 hrf
  rw [← numOf_ref href, ← State.num_admitted hadm] at heff hlower hupper
  refine ⟨_, rfl, heff, ?notBelowOne, ?notAboveRatio⟩
  case notBelowOne =>
    rw [← rat32_f32One] at hlower
    exact Bool.eq_false_iff.2 (mt (numRef_compares.lt _ _ heff finite32_one).1 hlower.not_gt)
  case notAboveRatio => exact Bool.eq_false_iff.2 (mt (numRef_compares.gt _ _ heff hr).1 hupper.not_gt)

/-! ## The effective ratio of an empty block -/

/-- The magnitude of a finite number is at most that of the largest one. -/
theorem abs_rat32_le_max {x : F32} (hx : finite32 x) : |rat32 x| ≤ (2 ^ 24 - 1) * 2 ^ 104 := by
  have hmag : mag fmt32 x.toNat ≤ patMag fmt32 (fmt32.inf - 1) := by
    rw [mag_eq_patMag]
    exact (patMag_strictMono fmt32).monotone (Nat.le_sub_one_of_lt (finite32_iff.1 hx))
  have hval : |(val fmt32 x.toNat : ℚ)| ≤ (2 ^ 24 - 1) * 2 ^ 253 := calc
    |(val fmt32 x.toNat : ℚ)| = mag fmt32 x.toNat := by rw [← Int.cast_abs, Int.abs_eq_natAbs, val_natAbs, Int.cast_natCast]
    _ ≤ patMag fmt32 (fmt32.inf - 1) := by exact_mod_cast hmag
    _ = (2 ^ 24 - 1) * 2 ^ 253 := by rw [patMag_fmt32_inf.2]; norm_num
  rw [rat32, abs_div, abs_of_pos (by positivity : (0 : ℚ) < 2 ^ 149), div_le_iff₀ (by positivity)]
  exact hval.trans_eq (by norm_num)

/-- One less than a finite number does not overflow. -/
theorem finite32_sub_one {r : F32} (hr : finite32 r) : finite32 (numRef.sub32 r f32One) := by
  have hq : |rat32 r - rat32 f32One| < overflow32 := by
    have hmax := abs_rat32_le_max hr
    have hone := abs_sub (rat32 r) (rat32 f32One)
    rw [rat32_f32One, abs_one] at hone
    rw [rat32_f32One, overflow32]
    norm_num at hmax ⊢
    linarith
  exact (refSub32_rounds hr finite32_one).finite_iff.2 (by exact_mod_cast hq)

/-- A finite number less a zero is that number, or a zero where it is one. -/
theorem refSub32_zero_right {r z : F32} (hr : finite32 r) (hz : zero32 z) :
    numRef.sub32 r z = r ∨ (zero32 r ∧ zero32 (numRef.sub32 r z)) := by
  have hneg : zero32 (refNeg32 z) := by
    rw [zero32_iff_rat, rat32_refNeg32, zero32_iff_rat.1 hz, neg_zero]
  by_cases h0 : zero32 r
  · exact .inr ⟨h0, refAdd32_zeros h0 hneg⟩
  · exact .inl (refAdd32_zero_right hr h0 hneg)

/-- No reduction: the effective ratio is the requested one, or 1 where that is less (R168). -/
theorem effectiveRatio_zero {r : F32} (hr : finite32 r) :
    effectiveRatio (guarded true numRef) r f32Zero = numRef.max32 r f32One := by
  have hd := finite32_sub_one hr
  have hz : zero32 (numRef.mul32 (numRef.sub32 r f32One) f32Zero) := refMul32_zero_right hd (.inl rfl)
  have hp := (zero32_facts hz).1
  rw [effectiveRatio, guarded_sub32 numRef hr finite32_one hd, guarded_mul32 numRef hd finite32_zero hp]
  rcases refSub32_zero_right hr hz with heq | ⟨h0, hq0⟩
  · rw [guarded_sub32 numRef hr hp (by rwa [heq]), heq, admittedRef_max32 hr finite32_one]
  · have hq := (zero32_facts hq0).1
    rw [guarded_sub32 numRef hr hp hq, admittedRef_max32 hq finite32_one, refMax32_eq hr finite32_one,
      refMax32_eq hq finite32_one, zero32_iff_rat.1 h0, zero32_iff_rat.1 hq0, rat32_f32One, if_pos zero_lt_one,
      if_pos zero_lt_one]

/-- The reduction factor of an empty block (R166, R167, R169). -/
theorem reductionFactor_empty :
    reductionFactor (guarded true numRef) (coreEnergy (guarded true numRef) f32Zero) = f32Zero := by decide +kernel

/-- The effective ratio of an empty block under `Num_ref` (R169). -/
theorem srmRatio_empty {s : State} {r : F32} (href : s.params.num = .ref) (hr : finite32 r) :
    srmRatio s 0 r = numRef.max32 r f32One := by
  rw [srmRatio, numOf_ref href, maxRms, if_pos rfl, reductionFactor_empty, effectiveRatio_zero hr]

end Sys2Proof.Machine
end

section
/-! Commands of zero length (41_spectral_ratio_modulator R169, 42_envelope_gain_engine R193, 43_harmonic_enhancer R217,
44_host_commands R248): each stage is its first micro-operation, or its first and its last, for every instance and whatever of
BUF is written. -/

namespace Sys2Proof.Machine

/-! ## Acceptance -/

/-- A command on no frames is accepted by a prepared core that is not busy: there is no block to write. -/
theorem ready_zero {s : State} (hbusy : isBusy s = false) (hprep : isPrepared s = true) : s.ready 0 where
  notBusy := hbusy
  prepared := hprep
  length := Nat.zero_le _
  block _ _ _ hn := absurd hn (Nat.not_lt_zero _)

/-- An admitted command at its first phase (R147). -/
theorem accept_admitted {s : State} {op : BitVec 4} {len : Index} (h : s.admits (paramsUsed op s.host) len) :
    ∃ x : Ports, accept (cmdWord op len) s = s.started (latched (cmdWord op len) s) (afterLatch op) x ∧
      x.admitted = true ∧ (x.inputs, x.hResp, x.mResp, x.free) = s.environment := by
  obtain ⟨hparams, hblock⟩ := h
  have hall : (paramsUsed op s.host).all isFinite32 = true :=
    List.all_eq_true.2 fun x hx => (isFinite32_iff x).2 (hparams x hx)
  have hadm : inputsAdmitted (cmdWord op len) s = true := by
    simp [inputsAdmitted, cmdOp_cmdWord, cmdLen_cmdWord, hall, (blockFinite_iff s len).2 hblock]
  obtain ⟨x, hx, -, henv⟩ := accept_eq_started (cmdWord op len) s
  have hxadm : inputsAdmitted (cmdWord op len) s = x.admitted := congrArg (fun t : State => t.io.admitted) hx
  rw [cmdOp_cmdWord] at hx
  exact ⟨x, hx, hxadm.symm.trans hadm, henv⟩

/-! ## The stages -/

/-- The core after S_INIT and S_RATIO over no frames, wherever the sequencer goes from there (R161, R168, R169). -/
def State.withEmptySrm (s : State) (q : Pos) : State :=
  ({ s with res := { s.res with effRatio := srmRatio s 0 s.lat.ratio } } : State).withSrm s.hid.bpfMem
    (laneFill (channels s.params) f64Zero s.scr.sumsq) s.scr.filt f32Zero q

/-- The SRM stage over no frames: S_INIT, S_RATIO (R169). -/
theorem runs_srm_empty {s : State} (hadm : s.io.admitted = true) (hlen : s.lat.len = 0)
    (hpos : s.pos = ⟨phaseSInit, 0, 0⟩) : Runs 2 s (s.withEmptySrm ⟨afterSrm s.lat.op, 0, 0⟩) := by
  have hinit := runs_sInit hpos
  rw [hlen, show afterSInit 0 = phaseSRatio from rfl] at hinit
  refine hinit.trans (runs_one (i := .sRatio) rfl ?_)
  rw [State.withEmptySrm, srmRatio, ← State.num_admitted hadm, maxRms, if_pos rfl]
  rfl

/-- The EGE stage over no frames: E_COEF (R193). -/
theorem runs_ege_empty {s : State} (hadm : s.io.admitted = true) (hlen : s.lat.len = 0)
    (hpos : s.pos = ⟨phaseECoef, 0, 0⟩) : Runs 1 s (s.withCoef ⟨afterEge s.lat.op, 0, 0⟩) := by
  have hcoef := runs_eCoef hadm hpos
  rwa [afterECoef, if_pos hlen] at hcoef

/-- The HEN stage over no samples: H_GAIN (R217). -/
theorem runs_hen_empty {s : State} (hlen : s.lat.len = 0) (hpos : s.pos = ⟨phaseHGain, 0, 0⟩) :
    Runs 1 s (s.withGains ⟨phaseDone, 0, 0⟩) := by
  have hgain := runs_hGain hpos
  rwa [afterHGain, if_pos hlen] at hgain

/-- The three stages of a PROCESS over no frames (R238). -/
theorem runs_process_empty {s : State} (hadm : s.io.admitted = true) (hop : s.lat.op = 2) (hlen : s.lat.len = 0)
    (hpos : s.pos = ⟨phaseSInit, 0, 0⟩) :
    Runs 4 s (((s.withEmptySrm ⟨phaseECoef, 0, 0⟩).withCoef ⟨phaseHGain, 0, 0⟩).withGains ⟨phaseDone, 0, 0⟩) := by
  have hsrm := runs_srm_empty hadm hlen hpos
  have hege := runs_ege_empty (s := s.withEmptySrm ⟨phaseECoef, 0, 0⟩) hadm hlen rfl
  have hhen := runs_hen_empty (s := (s.withEmptySrm ⟨phaseECoef, 0, 0⟩).withCoef ⟨phaseHGain, 0, 0⟩) hlen rfl
  rw [hop] at hsrm
  rw [show (s.withEmptySrm ⟨phaseECoef, 0, 0⟩).lat.op = 2 from hop] at hege
  exact (hsrm.trans hege).trans hhen

/-! ## The commands -/

theorem uopBound_process (nch len : Nat) :
    uopBound 2 nch len = (4 + nch * len + nch) + (3 + 5 * len) + (3 + 3 * nch * len) - 4 := rfl

/-- R235 gives a command on no frames at least five micro-operations as PROCESS, three as SRM, two as EGE or HEN. -/
theorem uopBound_empty (nch : Nat) :
    5 ≤ uopBound 2 nch 0 ∧ 3 ≤ uopBound 3 nch 0 ∧ 2 ≤ uopBound 4 nch 0 ∧ 2 ≤ uopBound 5 nch 0 := by
  rw [uopBound_process, uopBound_srm, uopBound_ege, uopBound_hen]
  omega

/-- A command on no frames completes where its stages reach DONE in fewer micro-operations than R235 gives it. -/
theorem runCommand_empty {s a t : State} {op : BitVec 4} {n : Nat} (hop : blockOp op) (hready : s.ready 0)
    (ha : accept (cmdWord op 0) s = a) (hrun : Runs n a t) (hdone : t.pos.phase = phaseDone)
    (hstatus : t.status = s.status ||| stBusy) (hn : n + 1 ≤ uopBound op s.params.nch.toNat 0) :
    runCommand (cmdWord op 0) s = .next { t with status := s.status, pos := ⟨phaseIdle, 0, 0⟩ } :=
  runCommand_of_runs (offerCondition_ready hready hop) ha hrun hdone hstatus (by rwa [cmdOp_cmdWord, cmdLen_cmdWord])

/-- The core is at IDLE with EFF_RATIO = `ratio`, and but for the latches, the scratch registers and the model's own notes as
it was in `s`. -/
def IdleWithRatio (s : State) (ratio : F32) (t : State) : Prop :=
  t = { s with
      res := { s.res with effRatio := ratio }
      lat := t.lat, scr := t.scr, pos := ⟨phaseIdle, 0, 0⟩, io := t.io } ∧
    t.environment = s.environment

section
variable {s : State}

theorem execEge_empty (hready : s.ready 0) (h : s.admits (paramsUsed 4 s.host) 0) :
    ∃ t, execEge 0 s = .next t ∧ IdleWithRatio s s.res.effRatio t := by
  obtain ⟨x, hx, hadm, henv⟩ := accept_admitted h
  rw [latched_ege] at hx
  have hop : blockOp 4 := by unfold blockOp; decide
  exact ⟨_, runCommand_empty hop hready hx (runs_ege_empty hadm rfl rfl) rfl rfl (uopBound_empty _).2.2.1, rfl, henv⟩

theorem execHen_empty (hready : s.ready 0) (h : s.admits (paramsUsed 5 s.host) 0) :
    ∃ t, execHen 0 s = .next t ∧ IdleWithRatio s s.res.effRatio t := by
  obtain ⟨x, hx, -, henv⟩ := accept_admitted h
  rw [latched_hen] at hx
  have hop : blockOp 5 := by unfold blockOp; decide
  exact ⟨_, runCommand_empty hop hready hx (runs_hen_empty rfl rfl) rfl rfl (uopBound_empty _).2.2.2, rfl, henv⟩

theorem execSrm_empty (hready : s.ready 0) (h : s.admits (paramsUsed 3 s.host) 0) :
    ∃ t, execSrm 0 s = .next t ∧ IdleWithRatio s (srmRatio s 0 s.host.pRatio) t := by
  obtain ⟨x, hx, hadm, henv⟩ := accept_admitted h
  rw [latched_srm] at hx
  have hop : blockOp 3 := by unfold blockOp; decide
  exact ⟨_, runCommand_empty hop hready hx (runs_srm_empty hadm rfl rfl) rfl rfl (uopBound_empty _).2.1, rfl, henv⟩

theorem execProcess_empty (hready : s.ready 0) (h : s.admits (paramsUsed 2 s.host) 0) :
    ∃ t, execProcess 0 s = .next t ∧ IdleWithRatio s (srmRatio s 0 s.host.pRatio) t := by
  obtain ⟨x, hx, hadm, henv⟩ := accept_admitted h
  rw [latched_process] at hx
  have hop : blockOp 2 := by unfold blockOp; decide
  exact ⟨_, runCommand_empty hop hready hx (runs_process_empty hadm rfl rfl rfl) rfl rfl (uopBound_empty _).1, rfl, henv⟩

/-- What SRM and PROCESS on no frames leave, with EFF_RATIO's value under `Num_ref`. -/
theorem IdleWithRatio.srm {t : State} (h : IdleWithRatio s (srmRatio s 0 s.host.pRatio) t) (hr : finite32 s.host.pRatio) :
    IdleWithRatio s t.res.effRatio t ∧ (s.params.num = .ref → t.res.effRatio = numRef.max32 s.host.pRatio f32One) := by
  have hratio : t.res.effRatio = srmRatio s 0 s.host.pRatio := congrArg (fun u : State => u.res.effRatio) h.1
  exact ⟨by rwa [hratio], fun href => hratio.trans (srmRatio_empty href hr)⟩

end

/-- Settles O39, command by command. -/
theorem zeroLengthCommands : Obligations.ZeroLengthCommands := by
  intro s hbusy hprep
  have hready : s.ready 0 := ready_zero hbusy hprep
  refine ⟨List.forall_mem_cons.2 ⟨execEge_empty hready, List.forall_mem_singleton.2 (execHen_empty hready)⟩,
    List.forall_mem_cons.2 ⟨fun h => ?srm, List.forall_mem_singleton.2 fun h => ?process⟩⟩
  case srm =>
    obtain ⟨t, hexec, ht⟩ := execSrm_empty hready h
    obtain ⟨⟨hsame, henv⟩, href⟩ := ht.srm (h.1 _ (by simp))
    exact ⟨t, hexec, hsame, henv, href⟩
  case process =>
    obtain ⟨t, hexec, ht⟩ := execProcess_empty hready h
    obtain ⟨⟨hsame, henv⟩, href⟩ := ht.srm (h.1 _ (by simp))
    exact ⟨t, hexec, hsame, henv, href⟩

end Sys2Proof.Machine
end

section
/-! The static curve of the Envelope/Gain Engine under `Num_ref` (42_envelope_gain_engine R189, R194): above the threshold the
rounded difference and its rounded product with the slope do not rise when the threshold does; at the threshold and below the
gain reduction is +0.0. -/

namespace Sys2Proof.Machine

/-! ## Signs of rounded results -/

theorem isNeg_pack {f : Fmt} (hf : f.Sound) (neg : Bool) (num den : Nat) : isNeg f (pack f neg num den) = neg :=
  isNeg_sign_add f ((min_le_left _ _).trans_lt hf.infLt : min f.inf (roundUnits f num den) < f.sign) neg

/-- The sign of a product is that of its factors, zeros included (R125). -/
theorem refMul32_bit31 {a b : F32} (ha : finite32 a) (hb : finite32 b) :
    (refMul32 a b).getLsbD 31 = (a.getLsbD 31 != b.getLsbD 31) := by
  by_cases hone : b = one32
  · rw [refMul32, if_pos hone, hone, show one32.getLsbD 31 = false from rfl, Bool.bne_false]
  · have hcode : mulCode fmt32 (nan32 1 a b) a.toNat b.toNat =
        pack fmt32 (isNeg fmt32 a.toNat != isNeg fmt32 b.toNat) (mag fmt32 a.toNat * mag fmt32 b.toNat)
          (2 ^ fmt32.unit) := by
      simp [mulCode, ha.1, ha.2, hb.1, hb.2]
    have hword : (refMul32 a b).toNat = mulCode fmt32 (nan32 1 a b) a.toNat b.toNat := by
      rw [refMul32, if_neg hone, BitVec.toNat_ofNat]
      exact Nat.mod_eq_of_lt (mulCode_lt 1 a b)
    rw [← isNeg_eq_getLsbD, hword, hcode, isNeg_pack fmt32_sound, isNeg_eq_getLsbD, isNeg_eq_getLsbD]

/-- The rounding of a number above 0 has bit 31 clear. -/
theorem Rounds32.bit31_of_pos {y : ℝ} {r : F32} (h : Rounds32 y r) (hy : 0 < y) : r.getLsbD 31 = false := by
  rw [← isNeg_eq_getLsbD]
  exact Rounded.pos h (by positivity)

/-- A number between 0 and one that does not overflow does not overflow, and is rounded to no more. -/
theorem Rounds32.finiteIn_of_le {y y' : ℝ} {r r' : F32} (h : Rounds32 y r) (h' : Rounds32 y' r') (hr' : finite32 r')
    (h0 : 0 ≤ y) (hle : y ≤ y') : FiniteIn 0 (rat32 r') r := by
  have hbound := h'.finite_iff.1 hr'
  rw [abs_of_nonneg (h0.trans hle)] at hbound
  have hr : finite32 r := h.finite_iff.2 (by rw [abs_of_nonneg h0]; exact hle.trans_lt hbound)
  refine ⟨hr, ?_, (le32_rat hr hr').1 (h.le32 h' hle)⟩
  rw [← rat32_f32Zero]
  exact h.le_rat hr finite32_zero (by rwa [rat32_f32Zero, Rat.cast_zero])

/-! ## One threshold -/

/-- What R147 asks of one evaluation of the static curve above the threshold: finite operands, a slope that is not negative, and
no overflow. -/
structure CurveAdmitted (level thresh slope : F32) : Prop where
  finiteLevel : finite32 level
  finiteThresh : finite32 thresh
  finiteSlope : finite32 slope
  rising : slope.getLsbD 31 = false
  difference : finite32 (numRef.sub32 level thresh)
  product : finite32 (numRef.mul32 (numRef.sub32 level thresh) slope)

/-- A gain reduction: finite and not negative. -/
def IsReduction (g : F32) : Prop := finite32 g ∧ g.getLsbD 31 = false

section Curve
variable {level thresh thresh' slope : F32}

theorem gainReduction_below (hl : finite32 level) (ht : finite32 thresh) (hle : rat32 level ≤ rat32 thresh) :
    gainReduction (guarded true numRef) level thresh slope = f32Zero := by
  rw [gainReduction, guarded_gt32 numRef hl ht]
  exact if_neg (mt (numRef_compares.gt level thresh hl ht).1 hle.not_gt)

theorem CurveAdmitted.gainReduction_above (h : CurveAdmitted level thresh slope) (hlt : rat32 thresh < rat32 level) :
    gainReduction (guarded true numRef) level thresh slope = numRef.mul32 (numRef.sub32 level thresh) slope := by
  have hgt := (numRef_compares.gt _ _ h.finiteLevel h.finiteThresh).2 hlt
  rw [gainReduction, guarded_gt32 numRef h.finiteLevel h.finiteThresh, if_pos hgt,
    guarded_sub32 numRef h.finiteLevel h.finiteThresh h.difference,
    guarded_mul32 numRef h.difference h.finiteSlope h.product]

/-- The difference is positive above the threshold, so the product takes the slope's sign. -/
theorem CurveAdmitted.isReduction (h : CurveAdmitted level thresh slope) :
    IsReduction (gainReduction (guarded true numRef) level thresh slope) := by
  rcases lt_or_ge (rat32 thresh) (rat32 level) with hlt | hle
  · rw [h.gainReduction_above hlt]
    have hpos : (0 : ℝ) < rat32 level - rat32 thresh := sub_pos.2 (by exact_mod_cast hlt)
    have hdiff : (numRef.sub32 level thresh).getLsbD 31 = false :=
      (refSub32_rounds h.finiteLevel h.finiteThresh).bit31_of_pos hpos
    exact ⟨h.product, (refMul32_bit31 h.difference h.finiteSlope).trans (by rw [h.rising, hdiff]; rfl)⟩
  · rw [gainReduction_below h.finiteLevel h.finiteThresh hle]
    exact ⟨finite32_zero, rfl⟩

/-! ## A higher threshold -/

/-- A threshold between a lower one and the level gives a difference that is not greater, and with it a product that is not
greater. -/
theorem CurveAdmitted.raise_below_level (h : CurveAdmitted level thresh slope) (ht : finite32 thresh')
    (hle : rat32 thresh ≤ rat32 thresh') (hlt : rat32 thresh' < rat32 level) :
    CurveAdmitted level thresh' slope ∧
      rat32 (numRef.mul32 (numRef.sub32 level thresh') slope) ≤
        rat32 (numRef.mul32 (numRef.sub32 level thresh) slope) := by
  obtain ⟨hdiff, hdiff0, hdiffle⟩ := (refSub32_rounds h.finiteLevel ht).finiteIn_of_le
    (refSub32_rounds h.finiteLevel h.finiteThresh) h.difference (sub_nonneg.2 (by exact_mod_cast hlt.le))
    (sub_le_sub_left (by exact_mod_cast hle) _)
  have hslope := rat32_nonneg_of_bit31 h.rising
  obtain ⟨hprod, -, hprodle⟩ := (refMul32_rounds hdiff h.finiteSlope).finiteIn_of_le
    (refMul32_rounds h.difference h.finiteSlope) h.product (by exact_mod_cast mul_nonneg hdiff0 hslope)
    (by exact_mod_cast mul_le_mul_of_nonneg_right hdiffle hslope)
  exact ⟨{ h with finiteThresh := ht, difference := hdiff, product := hprod }, hprodle⟩

/-- Raising the threshold gives a gain reduction, and no greater one (R194). -/
theorem CurveAdmitted.raise (h : CurveAdmitted level thresh slope) (ht : finite32 thresh')
    (hle : rat32 thresh ≤ rat32 thresh') :
    IsReduction (gainReduction (guarded true numRef) level thresh' slope) ∧
      rat32 (gainReduction (guarded true numRef) level thresh' slope) ≤
        rat32 (gainReduction (guarded true numRef) level thresh slope) := by
  rcases lt_or_ge (rat32 thresh') (rat32 level) with hlt | hge
  · obtain ⟨h', hmono⟩ := h.raise_below_level ht hle hlt
    refine ⟨h'.isReduction, ?_⟩
    rwa [h'.gainReduction_above hlt, h.gainReduction_above (hle.trans_lt hlt)]
  · rw [gainReduction_below h.finiteLevel ht hge, rat32_f32Zero]
    exact ⟨⟨finite32_zero, rfl⟩, rat32_nonneg_of_bit31 h.isReduction.2⟩

end Curve

/-- Settles O57: the level is the same in both executions, and the curve is monotone in the threshold. -/
theorem thresholdMonotone : Obligations.ThresholdMonotone := by
  intro s thr envDb href hadm hlevel hthresh hthr hgt hdiff hslope hrising hprod
  have hle : rat32 s.lat.thresh ≤ rat32 thr :=
    not_lt.1 (mt (numRef_compares.gt _ _ hthresh hthr).2 (Bool.eq_false_iff.1 hgt))
  have h : CurveAdmitted envDb s.lat.thresh s.scr.slope := ⟨hlevel, hthresh, hslope, hrising, hdiff, hprod⟩
  obtain ⟨hfin, hbit⟩ := h.isReduction
  obtain ⟨⟨hfin', hbit'⟩, hmono⟩ := h.raise hthr hle
  rw [← numOf_ref href, ← State.num_admitted hadm] at hfin hbit hfin' hbit' hmono
  exact ⟨_, _, rfl, rfl, Bool.eq_false_iff.2 (mt (numRef_compares.gt _ _ hfin' hfin).1 hmono.not_gt), hbit', hbit⟩

end Sys2Proof.Machine
end

section
/-! The micro-operations of the Envelope/Gain Engine, one by one (42_envelope_gain_engine R182 to R190). -/

namespace Sys2Proof.Machine

/-- Where E_COEF goes: the first frame, or past the stage on no frames (R193). -/
theorem afterECoef_eq (op : BitVec 4) (len : Index) :
    afterECoef op len = if len ≠ 0 then 0x11 else if op = 2 then 0x18 else 0x03 := by
  rw [ite_not]
  rfl

/-- Settles O22: the statement writes out the clamped ratio, SmoothCoef and Slope as the model names them. -/
theorem eCoefComputes : Obligations.ECoefComputes := by
  intro s ratioIn ratioC coef
  have hcoef : ∀ t, coef t = smoothCoef s.num t (rateInForce s) := fun _ => rfl
  rw [hcoef, hcoef, ← afterECoef_eq]
  rfl

/-- Settles O23: the loop over the channels reads every sample of the frame and folds the magnitudes. -/
theorem eDetDetectsLevel : Obligations.EDetDetectsLevel := by
  intro s x hidx hw
  have hread : ∀ c ∈ channels s.params, readSample s c s.pos.idx = .ok (x c) := fun c hc =>
    have hch := (mem_channels _ _).1 hc
    (readSample_ok_iff _ _ _ _).2 ⟨(inBuf_iff _ _ _).2 ⟨hch, hidx⟩, hw c hch⟩
  obtain ⟨lane, hloop, hlane⟩ := detectLanes_ok hread s.scr.lane f32Zero
  rw [List.foldl_map] at hloop
  exact ⟨lane, execEDet_ok hloop, hlane⟩

/-- Settles O24: OnePole with the coefficient of the branch that the comparison takes. -/
theorem eEnvBlends : Obligations.EEnvBlends := by
  intro s k
  have hblend : s.num.add32 (s.num.mul32 k s.hid.env) (s.num.mul32 (s.num.sub32 0x3F800000 k) s.scr.level) =
      onePole s.num (blendCoef s) s.hid.env s.scr.level := rfl
  rw [hblend]
  rfl

/-- Settles O26: GR takes GRV, and the model notes it. -/
theorem ePubPublishes : Obligations.EPubPublishes := fun _ => rfl

end Sys2Proof.Machine
end

section
/-! Two EGE commands whose ratios are both at most 1.0 (42_envelope_gain_engine R182, R184, R195): E_COEF clamps both ratios to 1.0,
and no later micro-operation of the command reads the latched ratio. -/

namespace Sys2Proof.Machine

/-! ## The clamp -/

/-- A finite ratio that does not exceed 1.0 is clamped to 1.0, bit for bit (R182). -/
theorem admittedRef_max32_one {r : F32} (hr : finite32 r) (hle : numRef.gt32 r f32One = false) :
    (guarded true numRef).max32 r f32One = f32One := by
  have hle : rat32 r ≤ rat32 f32One :=
    not_lt.1 (mt (numRef_compares.gt r f32One hr finite32_one).2 (Bool.eq_false_iff.1 hle))
  rw [admittedRef_max32 hr finite32_one, refMax32_eq hr finite32_one]
  split
  · rfl
  · have heq : rat32 r = rat32 f32One := le_antisymm hle (not_lt.1 ‹_›)
    have hself := rounds32_self hr
    rw [heq] at hself
    refine hself.eq_of_exact finite32_one (mt zero32_iff_rat.1 ?_)
    rw [rat32_f32One]
    exact one_ne_zero

/-- The slope of the ratio 1.0 is +0.0 (R184). -/
theorem admittedRef_slope_one : slopeOf (guarded true numRef) f32One = f32Zero := by
  have hdiv : numRef.div32 f32One f32One = f32One := refOnes.1
  have hsub : numRef.sub32 f32One f32One = f32Zero := refOnes.2
  rw [slopeOf, guarded_div32 numRef finite32_one finite32_one (by rw [hdiv]; exact finite32_one), hdiv,
    guarded_sub32 numRef finite32_one finite32_one (by rw [hsub]; exact finite32_zero), hsub]

/-- E_COEF of an admitted EGE command with such a ratio. -/
theorem eCoef_of_ratio_le_one {s : State} (href : s.params.num = .ref) (hadm : s.io.admitted = true) (hop : s.lat.op = 4)
    (hr : finite32 s.lat.ratio) (hle : numRef.gt32 s.lat.ratio f32One = false) :
    ∃ t, exec .eCoef s = .next t ∧ t.scr.ratioC = f32One ∧ t.scr.slope = f32Zero := by
  have hin : ratioIn s = s.lat.ratio := by rw [ratioIn, hop]; rfl
  have hclamp : (numOf s.params).max32 (ratioIn s) f32One = f32One := by
    rw [numOf_ref href, hin]
    exact admittedRef_max32_one hr hle
  refine ⟨_, execECoef_admitted hadm, hclamp, ?_⟩
  change slopeOf (numOf s.params) ((numOf s.params).max32 (ratioIn s) f32One) = f32Zero
  rw [hclamp, numOf_ref href, admittedRef_slope_one]

/-! ## What does not see the latched ratio -/

/-- The core as it would be had the host-written registers been `h` when the command latched its ratio. -/
def State.withRatioOf (s : State) (h : HostRegs) : State := { s with host := h, lat := { s.lat with ratio := h.pRatio } }

/-- The detection loop reads the parameters, BUF, IDX and whether the command is admitted. -/
theorem detectLanes_congr {s t : State} (hparams : t.params = s.params) (hbuf : t.buf = s.buf)
    (hidx : t.pos.idx = s.pos.idx) (hnum : t.num = s.num) (cs : List Chan) (lane : Vector F32 64) (level : F32) :
    detectLanes t cs lane level = detectLanes s cs lane level := by
  induction cs generalizing lane level with
  | nil => rfl
  | cons c cs ih =>
    have hread : readSample t c s.pos.idx = readSample s c s.pos.idx := readSample_congr s t c _ hparams (by rw [hbuf])
    simp only [detectLanes, ih, hidx, hread, hnum]

/-- The write-back loop reads the parameters, the lanes, IDX and whether the command is admitted. -/
theorem applyLanes_congr {s t : State} (hparams : t.params = s.params) (hlane : t.scr.lane = s.scr.lane)
    (hidx : t.pos.idx = s.pos.idx) (hnum : t.num = s.num) (g : F32) (cs : List Chan) (m : Memory) :
    applyLanes t g cs m = applyLanes s g cs m := by
  induction cs generalizing m with
  | nil => rfl
  | cons c cs ih => simp only [applyLanes, ih, hparams, hlane, hidx, hnum]

section
variable (s : State) (h : HostRegs)

theorem execEDet_withRatioOf : execEDet (s.withRatioOf h) = mapNext (·.withRatioOf h) (execEDet s) := by
  have hsame := detectLanes_congr (t := s.withRatioOf h) (s := s) rfl rfl rfl rfl (channels s.params) s.scr.lane f32Zero
  cases hd : detectLanes s (channels s.params) s.scr.lane f32Zero with
  | error f => rw [execEDet_fault hd, execEDet_fault (s := s.withRatioOf h) (hsame.trans hd)]; rfl
  | ok r => rw [execEDet_ok hd, execEDet_ok (s := s.withRatioOf h) (hsame.trans hd)]; rfl

theorem execEApply_withRatioOf : execEApply (s.withRatioOf h) = mapNext (·.withRatioOf h) (execEApply s) := by
  have hsame := applyLanes_congr (t := s.withRatioOf h) (s := s) rfl rfl rfl rfl (frameGain s.num s.scr.grv)
    (channels s.params) s.buf
  cases ha : applyLanes s (frameGain s.num s.scr.grv) (channels s.params) s.buf with
  | error f => rw [execEApply_fault ha, execEApply_fault (s := s.withRatioOf h) (hsame.trans ha)]; rfl
  | ok m =>
    rw [execEApply_ok ha, execEApply_ok (s := s.withRatioOf h) (hsame.trans ha), nextFrame_eq_withPos,
      nextFrame_eq_withPos]
    rfl

end

/-! ## The frames of an EGE command -/

/-- The phases of an EGE command after E_COEF (44_host_commands R234). -/
inductive FramePhase : PhaseCode → Prop
  | eDet : FramePhase phaseEDet
  | eEnv : FramePhase phaseEEnv
  | eGrc : FramePhase phaseEGrc
  | ePub : FramePhase phaseEPub
  | eApply : FramePhase phaseEApply
  | done : FramePhase phaseDone
  | idle : FramePhase phaseIdle

/-- An EGE command is past E_COEF. -/
structure State.InFrames (s : State) : Prop where
  op : s.lat.op = 4
  phase : FramePhase s.pos.phase

/-- What a micro-operation after E_COEF does: the same whatever the latched ratio is, and the command stays past E_COEF. -/
structure IgnoresRatio (s : State) (i : Instr) : Prop where
  same : ∀ h, exec i (s.withRatioOf h) = mapNext (·.withRatioOf h) (exec i s)
  inFrames : ∀ t, exec i s = .next t → t.InFrames

section
variable {s : State}

theorem ignoresRatio_eDet (hop : s.lat.op = 4) : IgnoresRatio s .eDet where
  same := execEDet_withRatioOf s
  inFrames t ht := by
    obtain ⟨lane, level, -, rfl⟩ := execEDet_next ht
    exact ⟨hop, .eEnv⟩

theorem ignoresRatio_eApply (hop : s.lat.op = 4) : IgnoresRatio s .eApply where
  same := execEApply_withRatioOf s
  inFrames t ht := by
    obtain ⟨-, rfl⟩ := execEApply_next ht
    rw [hop]
    rcases nextFrame_cases phaseEDet (afterEge 4) _ with ⟨-, e⟩ | ⟨-, e⟩ <;> rw [e]
    · exact ⟨hop, .eDet⟩
    · exact ⟨hop, .done⟩

/-- The micro-operation of the phase that the command is at. -/
theorem State.InFrames.decode (h : s.InFrames) (hrun : s.pos.phase ≠ phaseIdle) :
    ∃ i, decodePhase s.pos.phase = .ok i ∧ IgnoresRatio s i := by
  obtain ⟨hop, hphase⟩ := h
  generalize s.pos.phase = p at hphase hrun
  cases hphase with
  | eDet => exact ⟨.eDet, rfl, ignoresRatio_eDet hop⟩
  | eEnv => exact ⟨.eEnv, rfl, fun _ => rfl, by rintro _ ⟨⟩; exact ⟨hop, .eGrc⟩⟩
  | eGrc => exact ⟨.eGrc, rfl, fun _ => rfl, by rintro _ ⟨⟩; exact ⟨hop, .ePub⟩⟩
  | ePub => exact ⟨.ePub, rfl, fun _ => rfl, by rintro _ ⟨⟩; exact ⟨hop, .eApply⟩⟩
  | eApply => exact ⟨.eApply, rfl, ignoresRatio_eApply hop⟩
  | done => exact ⟨.done, rfl, fun _ => rfl, by rintro _ ⟨⟩; exact ⟨hop, .idle⟩⟩
  | idle => exact absurd rfl hrun

/-- The run of an EGE command past E_COEF is the same whatever the latched ratio is, the fault that may end it included. -/
theorem State.InFrames.runSequencer (hs : s.InFrames) (h : HostRegs) (k : Nat) :
    runSequencer k (s.withRatioOf h) = mapNext (·.withRatioOf h) (Machine.runSequencer k s) := by
  induction k generalizing s with
  | zero => rfl
  | succ k ih =>
    by_cases hidle : s.pos.phase = phaseIdle
    · rw [runSequencer_idle _ s hidle, runSequencer_idle _ (s.withRatioOf h) hidle]; rfl
    · obtain ⟨i, hi, hignores⟩ := hs.decode hidle
      simp only [Machine.runSequencer, if_neg hidle, if_neg (show (s.withRatioOf h).pos.phase ≠ phaseIdle from hidle),
        seqStep_of_decode hi, seqStep_of_decode (s := s.withRatioOf h) hi, hignores.same]
      cases hexec : exec i s with
      | next t => exact ih (hignores.inFrames t hexec)
      | fault f => rfl
      | refused r => rfl

/-! ## From E_COEF on -/

theorem withCoef_withRatioOf {h : HostRegs} (hop : s.lat.op = 4)
    (hclamp : (numOf s.params).max32 h.pRatio f32One = (numOf s.params).max32 s.lat.ratio f32One) (q : Pos) :
    (s.withRatioOf h).withCoef q = (s.withCoef q).withRatioOf h := by
  have hin : ratioIn s = s.lat.ratio := by rw [ratioIn, hop]; rfl
  have hin' : ratioIn (s.withRatioOf h) = h.pRatio := by rw [ratioIn, State.withRatioOf, hop]; rfl
  have hclamp' : (numOf s.params).max32 (ratioIn (s.withRatioOf h)) f32One =
      (numOf s.params).max32 (ratioIn s) f32One := by rw [hin, hin', hclamp]
  unfold State.withCoef
  rw [show (s.withRatioOf h).params = s.params from rfl, hclamp']
  rfl

theorem inFrames_withCoef (hop : s.lat.op = 4) : (s.withCoef ⟨afterECoef s.lat.op s.lat.len, 0, 0⟩).InFrames := by
  refine ⟨hop, ?_⟩
  change FramePhase (afterECoef s.lat.op s.lat.len)
  rw [hop, afterECoef]
  split
  · exact .done
  · exact .eDet

/-- The run of an admitted EGE command is the same for two ratios that are clamped alike. -/
theorem runSequencer_clampedAlike {h : HostRegs} (hpos : s.pos = ⟨phaseECoef, 0, 0⟩) (hop : s.lat.op = 4)
    (hadm : s.io.admitted = true)
    (hclamp : (numOf s.params).max32 h.pRatio f32One = (numOf s.params).max32 s.lat.ratio f32One) (k : Nat) :
    runSequencer (k + 1) (s.withRatioOf h) = mapNext (·.withRatioOf h) (runSequencer (k + 1) s) := by
  have hphase : s.pos.phase = phaseECoef := by rw [hpos]
  have hrun : s.pos.phase ≠ phaseIdle := by rw [hphase]; decide
  have hi : decodePhase s.pos.phase = .ok .eCoef := by rw [hphase]; rfl
  have hcoef := (seqStep_of_decode hi).trans (execECoef_admitted hadm)
  have hcoef' := (seqStep_of_decode (s := s.withRatioOf h) hi).trans (execECoef_admitted hadm)
  rw [withCoef_withRatioOf hop hclamp] at hcoef'
  rw [runSequencer_next k s _ hrun hcoef, runSequencer_next k (s.withRatioOf h) _ hrun hcoef']
  exact (inFrames_withCoef hop).runSequencer h k

end

/-! ## The command -/

section
variable {s : State} {len : Index} {r r1 r2 : F32}

/-- The core with `r` as the requested ratio. -/
def State.requesting (s : State) (r : F32) : State := s.withHost { s.host with pRatio := r }

/-- An EGE command with finite inputs is admitted (R147). -/
theorem inputsAdmitted_ege (h : s.admits [s.host.pThresh, r, s.host.pAttack, s.host.pRelease] len) :
    inputsAdmitted (cmdWord 4 len) (s.requesting r) = true := by
  obtain ⟨x, hx, hadm, -⟩ := accept_admitted (s := s.requesting r) (op := 4) h
  exact (congrArg (fun t : State => t.io.admitted) hx).trans hadm

/-- Two admitted EGE commands are accepted alike but for the ratio. -/
theorem accept_ege_requesting (h1 : inputsAdmitted (cmdWord 4 len) (s.requesting r1) = true)
    (h2 : inputsAdmitted (cmdWord 4 len) (s.requesting r2) = true) :
    accept (cmdWord 4 len) (s.requesting r2) =
      (accept (cmdWord 4 len) (s.requesting r1)).withRatioOf { s.host with pRatio := r2 } := by
  rw [accept_eq, accept_eq _ (s.requesting r1), accept_io, accept_io, h1, h2, latched_ege, latched_ege]
  rfl

/-- `t` with the host-written registers and the latches of `s`. -/
def State.withRequestOf (s t : State) : State := { t with host := s.host, lat := s.lat }

theorem mapNext_withRequestOf (s : State) (h : HostRegs) (o : Host.Outcome State Fault Refusal) :
    mapNext s.withRequestOf (mapNext (·.withRatioOf h) o) = mapNext s.withRequestOf o := by
  cases o <;> rfl

/-- Two admitted EGE commands with ratios that are clamped alike do the same, but for the ratio register and the latches. -/
theorem runCommand_ege_clampedAlike (h1 : s.admits [s.host.pThresh, r1, s.host.pAttack, s.host.pRelease] len)
    (h2 : s.admits [s.host.pThresh, r2, s.host.pAttack, s.host.pRelease] len)
    (hclamp : (numOf s.params).max32 r2 f32One = (numOf s.params).max32 r1 f32One) :
    mapNext s.withRequestOf (runCommand (cmdWord 4 len) (s.requesting r1)) =
      mapNext s.withRequestOf (runCommand (cmdWord 4 len) (s.requesting r2)) := by
  have hadm := inputsAdmitted_ege h1
  have hoffer : ∀ r, offerCondition (cmdWord 4 len) (s.requesting r) = offerCondition (cmdWord 4 len) s := fun _ => rfl
  have hbound : 3 + 5 * len.toNat = 2 + 5 * len.toNat + 1 := by omega
  simp only [runCommand, hoffer, cmdOp_cmdWord, cmdLen_cmdWord, uopBound_ege, hbound]
  cases offerCondition (cmdWord 4 len) s with
  | some c => rfl
  | none =>
    have hlat : (accept (cmdWord 4 len) (s.requesting r1)).lat = _ := latched_ege len (s.requesting r1)
    have hpos : (accept (cmdWord 4 len) (s.requesting r1)).pos = ⟨phaseECoef, 0, 0⟩ := by
      rw [accept_pos, cmdOp_cmdWord]; rfl
    have hrun := runSequencer_clampedAlike (h := { s.host with pRatio := r2 }) hpos (by rw [hlat]) hadm
      (by rw [hlat]; exact hclamp) (2 + 5 * len.toNat)
    rw [← accept_ege_requesting hadm (inputsAdmitted_ege h2)] at hrun
    exact (mapNext_withRequestOf s _ _).symm.trans (congrArg _ hrun.symm)

end

/-- Settles O58: both ratios are clamped to 1.0. -/
theorem ratiosBelowOneAreOne : Obligations.RatiosBelowOneAreOne := by
  refine ⟨fun s len r1 r2 href hadmits hle1 hle2 => ?_, fun _ => eCoef_of_ratio_le_one⟩
  obtain ⟨hfinite, hblock⟩ := hadmits
  simp only [List.forall_mem_cons] at hfinite
  obtain ⟨hthresh, hr1, hr2, htimes⟩ := hfinite
  have hadm : ∀ r, finite32 r → s.admits [s.host.pThresh, r, s.host.pAttack, s.host.pRelease] len := fun r hr =>
    ⟨by simp only [List.forall_mem_cons]; exact ⟨hthresh, hr, htimes⟩, hblock⟩
  refine runCommand_ege_clampedAlike (hadm r1 hr1) (hadm r2 hr2) ?_
  rw [numOf_ref href, admittedRef_max32_one hr1 hle1, admittedRef_max32_one hr2 hle2]

end Sys2Proof.Machine
end

section
/-! The micro-operations of the Harmonic Enhancer that come before the write-back, one by one (43_harmonic_enhancer R211 to R214). -/

namespace Sys2Proof.Machine

/-- Where H_GAIN goes: the first pair, or DONE for an empty block (R217). -/
theorem afterHGain_eq (len : Index) : afterHGain len = if len = 0 then 0x03 else 0x19 := rfl

/-- Settles O28: the statement writes out DbToLin and the mix amount as the model names them. -/
theorem hGainComputes : Obligations.HGainComputes := by
  intro s
  have hlg : s.num.pow10_32 (s.num.div32 s.lat.outgain 0x41A00000) = dbToLin s.num s.lat.outgain := rfl
  have hmix : s.num.mul32 0x3DCCCCCD (s.num.max32 0x00000000 (s.num.div32 s.lat.outgain 0x41C00000)) =
      mixAmount s.num s.lat.outgain := rfl
  rw [hlg, hmix, ← afterHGain_eq]
  rfl

/-- H_HPF on a word that exists and has been written, in any command (R211). -/
theorem execHHpf_written {s : State} {v : F32} (hch : s.pos.ch.toNat < s.params.nch.toNat)
    (hidx : s.pos.idx.toNat < s.params.maxlen.toNat) (hv : memRead s.buf (bufAddr s.pos.ch s.pos.idx) = some v) :
    execHHpf s = .next (samePair phaseHSat (highPassed v s)) :=
  execHHpf_ok ((readSample_ok_iff _ _ _ v).2 ⟨(inBuf_iff _ _ _).2 ⟨hch, hidx⟩, hv⟩)

/-- Settles O29: the sample is read, kept in its lane and filtered. -/
theorem hHpfFilters : Obligations.HHpfFilters := by
  intro s v hch hidx hv y
  exact execHHpf_written hch hidx hv

/-- Settles O30: the statement writes out the saturation kernel as the model names it. -/
theorem hSatSaturates : Obligations.HSatSaturates := by
  intro s
  have hsat : s.num.add32 s.scr.filt (s.num.mul32 0x3F000000 (s.num.mul32 s.scr.filt s.scr.filt)) =
      saturate s.num s.scr.filt := rfl
  rw [hsat]
  rfl

end Sys2Proof.Machine
end

section
/-! A word of BUF that has been written stays written (10_state R54): the core only ever writes whole words to BUF, so no
micro-operation and no command takes a word's value away. -/

namespace Sys2Proof.Machine

theorem memWrite_keeps_written {m : Memory} {w w' : WordAddr} (d : Word) (h : (memRead m w').isSome = true) :
    (memRead (memWrite m w d) w').isSome = true := by
  by_cases hw : w' = w
  · rw [hw, memRead_memWrite_same]; rfl
  · rwa [memRead_memWrite_other _ _ _ _ hw]

theorem foldl_memWrite_keeps_written {w' : WordAddr} (cs : List Chan) (w : Chan → WordAddr) (d : Chan → Word)
    {m : Memory} (h : (memRead m w').isSome = true) :
    (memRead (cs.foldl (fun m c => memWrite m (w c) (d c)) m) w').isSome = true := by
  induction cs generalizing m with
  | nil => exact h
  | cons c cs ih => exact ih (memWrite_keeps_written _ h)

section
variable {s t : State} {c : Chan} {n : Index}

/-- E_APPLY and H_MAC write words, and no other micro-operation changes BUF (20_memory R73). -/
theorem microOperation_keeps_written {i : Instr} (hb : busOf i = .phase) (ht : exec i s = .next t)
    (h : s.written c n) : t.written c n := by
  by_cases hbuf : t.buf = s.buf
  · unfold State.written; rwa [hbuf]
  · rcases (writers_of_microOperation hb ht).buf hbuf with rfl | rfl | ⟨c, n, D, rfl⟩
    · obtain ⟨-, rfl⟩ := execEApply_next ht
      rw [nextFrame_eq_withPos]
      exact foldl_memWrite_keeps_written _ _ _ h
    · obtain ⟨-, rfl⟩ := execHMac_next ht
      rw [nextPair_eq_withPos]
      exact memWrite_keeps_written _ h
    · cases hb

/-- The sequencer's turn is a micro-operation, or nothing at IDLE. -/
theorem seqStep_next (ht : seqStep s = .next t) : t = s ∨ ∃ i, busOf i = .phase ∧ exec i s = .next t := by
  rw [seqStep_eq] at ht
  cases hd : decodePhase s.pos.phase with
  | ok i => rw [hd] at ht; exact .inr ⟨i, (decodePhase_spec _ _ hd).1, ht⟩
  | error e =>
    simp only [hd] at ht
    split at ht <;> cases ht
    exact .inl rfl

theorem runCommand_keeps_written {w : Word} (ht : runCommand w s = .next t) (h : s.written c n) : t.written c n := by
  have hstep : ∀ u v : State, u.written c n → seqStep u = .next v → v.written c n := by
    intro u v hu hv
    rcases seqStep_next hv with rfl | ⟨i, hb, hi⟩
    · exact hu
    · exact microOperation_keeps_written hb hi hu
  rcases runCommand_cases w s with ⟨cond, -, e⟩ | ⟨-, e⟩ <;> rw [e] at ht
  · cases ht; exact h
  · exact runSequencer_induct (·.written c n) hstep _ _ _ (show (accept w s).written c n from h) ht

end

end Sys2Proof.Machine
end

section
/-! Silence through the Harmonic Enhancer (43_harmonic_enhancer R218): with a quiet filter every sample of a block of zeros is
filtered to a zero, saturated to a zero, and written back as a sum of two zeros. -/

namespace Sys2Proof.Machine

/-! ## The gain and the mix under `Num_ref` -/

/-- A quotient by a divisor of at least 1 does not overflow. -/
theorem refDiv32_finite {a b : F32} (ha : finite32 a) (hb : finite32 b ∧ 1 ≤ rat32 b) :
    finite32 (numRef.div32 a b) := by
  obtain ⟨hbfin, h1⟩ := hb
  have hround := refDiv32_rounds ha hbfin (by linarith)
  have h1' : (1 : ℝ) ≤ |(rat32 b : ℝ)| := by exact_mod_cast h1.trans (le_abs_self _)
  refine hround.finite_iff.2 (lt_of_le_of_lt ?_ ((rounds32_self ha).finite_iff.1 ha))
  rw [abs_div]
  exact div_le_self (abs_nonneg _) h1'

theorem one_le_rat32_iff {x : F32} : 1 ≤ rat32 x ↔ 2 ^ 149 ≤ val fmt32 x.toNat := by
  rw [rat32, one_le_div (by positivity)]
  exact_mod_cast Iff.rfl

/-- The divisor of R212. -/
theorem finite_one_le_twenty : finite32 f32Twenty ∧ 1 ≤ rat32 f32Twenty :=
  ⟨⟨by decide, by decide⟩, one_le_rat32_iff.2 (by decide +kernel)⟩

/-- The divisor of R213. -/
theorem finite_one_le_twentyFour : finite32 f32TwentyFour ∧ 1 ≤ rat32 f32TwentyFour :=
  ⟨⟨by decide, by decide⟩, one_le_rat32_iff.2 (by decide +kernel)⟩

/-- The quotient of R212 and of R213 is `Num_ref`'s own in an admitted command. -/
theorem admittedRef_div32 {a b : F32} (ha : finite32 a) (hb : finite32 b ∧ 1 ≤ rat32 b) :
    (guarded true numRef).div32 a b = numRef.div32 a b :=
  guarded_div32 numRef ha hb.1 (refDiv32_finite ha hb)

/-- In an admitted command whose linear gain is finite, DbToLin is `Num_ref`'s own (R212). -/
theorem admittedRef_dbToLin {gdb : F32} (hg : finite32 gdb) (hlg : finite32 (dbToLin numRef gdb)) :
    dbToLin (guarded true numRef) gdb = dbToLin numRef gdb := by
  rw [dbToLin, admittedRef_div32 hg finite_one_le_twenty]
  exact guarded_pow10 numRef (refDiv32_finite hg finite_one_le_twenty) hlg

/-- In an admitted command whose mix amount is finite, it is `Num_ref`'s own (R213). -/
theorem admittedRef_mixAmount {gdb : F32} (hg : finite32 gdb) (hmix : finite32 (mixAmount numRef gdb)) :
    mixAmount (guarded true numRef) gdb = mixAmount numRef gdb := by
  have hq := refDiv32_finite hg finite_one_le_twentyFour
  have hmax : finite32 (numRef.max32 f32Zero (numRef.div32 gdb f32TwentyFour)) := by
    rw [refMax32_eq finite32_zero hq]
    split
    · exact hq
    · exact finite32_zero
  rw [mixAmount, admittedRef_div32 hg finite_one_le_twentyFour, admittedRef_max32 finite32_zero hq]
  exact guarded_mul32 numRef ⟨by decide, by decide⟩ hmax hmix

/-! ## Zeros through one sample -/

/-- The saturation of a zero is a zero (R214). -/
theorem saturate_zero {y : F32} (hy : zero32 y) : zero32 (saturate (guarded true numRef) y) :=
  guarded_add_zeros hy
    (guarded_mul_zero ⟨by decide, by decide⟩ (guarded_mul_zero (zero32_facts hy).1 hy))

/-- A multiply-accumulate of zeros with finite factors is a zero (R136, R216). -/
theorem guarded_mac_zeros {x y g k : F32} (hx : zero32 x) (hy : zero32 y) (hg : finite32 g) (hk : finite32 k) :
    zero32 ((guarded true numRef).mac32 x g y k) := by
  have hsum : zero32 (numRef.mac32 x g y k) :=
    refAdd32_zeros (refMul32_zero_left _ _ hx hg) (refMul32_zero_left _ _ hy hk)
  rwa [guarded_mac32 numRef (zero32_facts hx).1 hg (zero32_facts hy).1 hk (zero32_facts hsum).1]

/-- A zero sample whose filter output is a zero is written back as a zero. -/
theorem henSample_zero {gdb x y : F32} (hg : finite32 gdb) (hlg : finite32 (dbToLin numRef gdb))
    (hmix : finite32 (mixAmount numRef gdb)) (hx : zero32 x) (hy : zero32 y) :
    zero32 (henSample (guarded true numRef) gdb x y) := by
  rw [henSample, admittedRef_dbToLin hg hlg, admittedRef_mixAmount hg hmix]
  exact guarded_mac_zeros hx (saturate_zero hy) hlg hmix

/-! ## A channel of zeros -/

/-- A quiet filter stays quiet over zeros, and the channel stays silent. -/
theorem henRun_zeros {K : Kernel} {k : KCoef} {quiet : KMem → Prop} (hK : QuietKernel K k quiet) {gdb : F32}
    (hg : finite32 gdb) (hlg : finite32 (dbToLin numRef gdb)) (hmix : finite32 (mixAmount numRef gdb)) {m : KMem}
    (hm : quiet m) {xs : List F32} (hxs : ∀ x ∈ xs, zero32 x) :
    ∀ z ∈ (henRun (guarded true numRef) K k gdb m xs).1, zero32 z := by
  induction xs generalizing m with
  | nil => exact List.forall_mem_nil _
  | cons x xs ih =>
    obtain ⟨hx, hrest⟩ := List.forall_mem_cons.1 hxs
    obtain ⟨hy, hm'⟩ := hK.step m x hm hx
    exact List.forall_mem_cons.2 ⟨henSample_zero hg hlg hmix hx hy, ih hm' hrest⟩

theorem mem_channelBlock {m : Memory} {c : Chan} {len : Nat} {v : F32} :
    v ∈ channelBlock m c len ↔ ∃ n < len, (memRead m (bufAddr c (BitVec.ofNat 24 n))).getD 0 = v := by
  simp [channelBlock]

/-- A sample of the block is one of its channel's samples. -/
theorem mem_channelBlock_of_memRead {m : Memory} {c : Chan} {n len : Index} {v : F32} (hn : n.toNat < len.toNat)
    (hv : memRead m (bufAddr c n) = some v) : v ∈ channelBlock m c len.toNat :=
  mem_channelBlock.2 ⟨n.toNat, hn, by rw [BitVec.ofNat_toNat, BitVec.setWidth_eq, hv, Option.getD_some]⟩

/-- A channel whose written words are zeros has zeros for its samples. -/
theorem channelBlock_zeros {m : Memory} {c : Chan} {len : Index}
    (h : ∀ (n : Index) (v : F32), n.toNat < len.toNat → memRead m (bufAddr c n) = some v → zero32 v) :
    ∀ x ∈ channelBlock m c len.toNat, zero32 x := by
  intro x hx
  obtain ⟨n, hn, rfl⟩ := mem_channelBlock.1 hx
  cases hv : memRead m (bufAddr c (BitVec.ofNat 24 n)) with
  | none => exact .inl rfl
  | some v => exact h _ v (by rwa [toNat_ofNat_index hn]) hv

/-! ## The command -/

/-- Settles O60: HEN completes with each channel's block as the algorithm gives it, which is zeros; and the words of the block
are still written. -/
theorem silenceStaysSilent : Obligations.SilenceStaysSilent := by
  intro s len quiet hwf href hready hK hquiet hzero hg hlg hmix
  have hadm : s.admits [s.host.pOutgain] len :=
    ⟨List.forall_mem_singleton.2 hg, fun c n hc hn v hv => (zero32_facts (hzero c n v hc hn hv)).1⟩
  obtain ⟨t, hexec, -, -, -, hblock, -⟩ := henCommand s len hwf hready hadm
  refine ⟨t, hexec, fun c n hc hn => ?_⟩
  have hwritten : t.written c n := runCommand_keeps_written hexec (hready.block c n hc hn)
  obtain ⟨z, hz⟩ := Option.isSome_iff_exists.1 hwritten
  have hmem : z ∈ channelBlock t.buf c len.toNat := mem_channelBlock_of_memRead hn hz
  rw [hblock c hc, numOf_ref href] at hmem
  have hsamples := channelBlock_zeros fun n v hn hv => hzero c n v hc hn hv
  exact ⟨z, hz, henRun_zeros hK hg hlg hmix (hquiet c hc) hsamples z hmem⟩

end Sys2Proof.Machine
end

section
/-! Transactions that write, and offers of a command word: WR register by register (44_host_commands R244), the checks of a WR to
CMD in their order (R231), and what a command offered in the atomic view and not accepted does (60_exceptions R261, R269). -/

namespace Sys2Proof.Machine

/-! ## WR (44_host_commands R244) -/

/-- What a write to a register of each number does (30_encoding R92). -/
theorem writeReg_eq (r : BitVec 8) (d : Word) (s : State) :
    writeReg r d s =
      if r.toNat = 0x00 then offer d s
      else if r.toNat = 0x01 then acknowledge d s
      else if r.toNat = 0x02 then { s with host := { s.host with reqSrLo := d } }
      else if r.toNat = 0x03 then { s with host := { s.host with reqSrHi := d } }
      else if r.toNat = 0x04 then { s with host := { s.host with reqBs := d } }
      else if r.toNat = 0x05 then { s with host := { s.host with pThresh := d } }
      else if r.toNat = 0x06 then { s with host := { s.host with pRatio := d } }
      else if r.toNat = 0x07 then { s with host := { s.host with pAttack := d } }
      else if r.toNat = 0x08 then { s with host := { s.host with pRelease := d } }
      else if r.toNat = 0x09 then { s with host := { s.host with pOutgain := d } }
      else s := by
  unfold writeReg
  split <;> simp_all

/-- An acknowledgement clears the bits of 6:2 that are written as 1. -/
theorem acknowledge_eq (d : Word) (s : State) :
    acknowledge d s = { s with status := s.status &&& ~~~(d.extractLsb' 0 7 &&& 0x7C) } := by
  rw [← BitVec.setWidth_eq_extractLsb' (by decide)]
  rfl

theorem execWr_reserved {a : WordAddr} (d : Word) (s : State) (h : reservedAddr a = true) : execWr a d s = .next s := by
  unfold execWr; rw [if_pos h]

theorem execWr_register {a : WordAddr} (d : Word) (s : State) (h : ¬reservedAddr a = true) :
    execWr a d s = .next (writeReg (a.setWidth 8) d s) := by
  unfold execWr; rw [if_neg h]

/-- Settles O9: a reserved address is none of the numbers and is ignored; a register's number is its address. -/
theorem wrRegisters : Obligations.WrRegisters := by
  intro a D s
  by_cases hres : reservedAddr a = true
  · have ha := toNat_of_reserved hres
    repeat rw [if_neg (by omega)]
    exact execWr_reserved D s hres
  · have hexec := execWr_register D s hres
    rw [writeReg_eq, toNat_of_not_reserved hres, acknowledge_eq] at hexec
    exact hexec

/-! ## The checks of an offer (44_host_commands R231, 60_exceptions R269) -/

/-- The checks of R231 in their order, the illegal words written out (30_encoding R100). -/
theorem offer_checks (w : Word) (s : State) :
    offer w s =
      if isBusy s then raise .cmdovr s
      else if (cmdOp w).toNat ∉ [1, 2, 3, 4, 5] ∨ cmdRsv w ≠ 0 ∨ (cmdOp w = 1 ∧ cmdLen w ≠ 0) then raise .badcmd s
      else if cmdOp w ≠ 1 ∧ isPrepared s = false then raise .noprep s
      else if cmdOp w ≠ 1 ∧ s.params.maxlen.toNat < (cmdLen w).toNat then raise .badlen s
      else accept w s := by
  unfold offer offerCondition
  simp only [← cmdIllegal_iff]
  split_ifs <;> rfl

/-- Settles O10: CMD's write is the offer, which goes through its checks in the statement's order; acceptance ends with LATCH. -/
theorem wrCmdOffers : Obligations.WrCmdOffers := by
  intro W s
  have hexec : exec (.wr 0 W) s = .next (offer W s) := rfl
  rw [hexec, offer_checks]
  simp only [apply_ite Host.Outcome.next]
  rfl

/-! ## Commands in the atomic view (44_host_commands R249) -/

/-- A decoded command in the atomic view is the offer of its word. -/
theorem exec_of_decodeCommand {W : Word} {i : Instr} (h : decode .command [W] = .ok i) (s : State) :
    exec i s = runCommand W s := by
  have hbus : busOf i = .command := busOf_of_decode h
  have hword : encode i = [W] := encode_of_decode h
  cases i with
  | prepare | process | srm | ege | hen => cases hword; rfl
  | wr | rd | wrs | rds | rdgr | latch | prep | done | sInit | sBpf | sRms | sRatio | eCoef | eDet | eEnv | eGrc | ePub
  | eApply | hGain | hHpf | hSat | hMac => cases hbus

/-- PREPARE is the one command whose OP is 1. -/
theorem cmdOp_ne_one_of_decode {W : Word} {i : Instr} (h : decode .command [W] = .ok i) (hi : i ≠ .prepare) :
    cmdOp W ≠ 1 := by
  intro hop
  rw [decode, decodeCommand, if_pos hop] at h
  split_ifs at h
  cases h
  exact hi rfl

/-- A word that decodes is not illegal. -/
theorem cmdIllegal_of_decode {W : Word} {i : Instr} (h : decode .command [W] = .ok i) : cmdIllegal W = false := by
  by_contra hill
  cases (decodeCommand_illegal (Bool.not_eq_false _ ▸ hill)).symm.trans h

theorem runCommand_dropped {W : Word} {s : State} {c : Condition} (h : offerCondition W s = some c) :
    runCommand W s = .next (raise c s) := by
  unfold runCommand; rw [h]

/-- An offer to an idle core of a legal word other than PREPARE, by its last two checks. -/
theorem offerCondition_of_legal {W : Word} {s : State} (hbusy : isBusy s = false) (hlegal : cmdIllegal W = false)
    (hop : cmdOp W ≠ 1) :
    offerCondition W s =
      if isPrepared s = false then some .noprep
      else if s.params.maxlen.toNat < (cmdLen W).toNat then some .badlen
      else none := by
  rw [offerCondition, if_neg (Bool.eq_false_iff.1 hbusy), if_neg (Bool.eq_false_iff.1 hlegal)]
  simp only [hop, ne_eq, not_false_eq_true, true_and]

/-- Settles O33: each premise selects the condition of its check, and the dropped offer raises it. -/
theorem commandsDropped : Obligations.CommandsDropped := by
  intro W i s hd
  rw [exec_of_decodeCommand hd]
  refine ⟨fun hbusy => runCommand_dropped (c := .cmdovr) (if_pos hbusy), fun hi hbusy => ?_⟩
  have hoffer := offerCondition_of_legal hbusy (cmdIllegal_of_decode hd) (cmdOp_ne_one_of_decode hd hi)
  refine ⟨fun hprep => runCommand_dropped (c := .noprep) ?noprep, fun hprep hlen => runCommand_dropped (c := .badlen) ?badlen⟩
  case noprep => exact hoffer.trans (if_pos hprep)
  case badlen =>
    have hnot : ¬isPrepared s = false := by rw [show isPrepared s = true from hprep]; decide
    exact hoffer.trans ((if_neg hnot).trans (if_pos hlen))

end Sys2Proof.Machine
end

section
/-! LATCH, PREP and DONE (44_host_commands R233, R235, R237): the micro-operations that no stage has. -/

namespace Sys2Proof.Machine

/-- What the model notes at LATCH: PREPARE has no inputs, and those of any other command are admitted (40_numerics R147). -/
theorem inputsAdmitted_iff (w : Word) (s : State) :
    inputsAdmitted w s = true ↔ cmdOp w = 1 ∨ s.admits (paramsUsed (cmdOp w) s.host) (cmdLen w) := by
  have hparams : (paramsUsed (cmdOp w) s.host).all isFinite32 = true ↔ ∀ x ∈ paramsUsed (cmdOp w) s.host, finite32 x := by
    simp only [List.all_eq_true, isFinite32_iff]
  rw [inputsAdmitted, Bool.and_eq_true, Bool.or_eq_true, decide_eq_true_eq, hparams, blockFinite_iff]
  by_cases hop : cmdOp w = 1
  · simp only [hop, true_or, and_true, iff_true]
    exact List.forall_mem_nil _
  · simp only [hop, false_or, State.admits]

/-- A number from 1 to 5 is the OP of a command. -/
theorem cmdOp_cases {op : BitVec 4} (h1 : 1 ≤ op.toNat) (h5 : op.toNat ≤ 5) :
    op = 1 ∨ op = 2 ∨ op = 3 ∨ op = 4 ∨ op = 5 := by
  revert op; decide

section
variable {op : BitVec 4} (h : op = 1 ∨ op = 2 ∨ op = 3 ∨ op = 4 ∨ op = 5)
include h

/-- The F32 parameters of each command, by its number (R233). -/
theorem paramsUsed_eq (x : HostRegs) :
    paramsUsed op x =
      if op.toNat = 1 then []
      else if op.toNat = 2 then [x.pThresh, x.pRatio, x.pAttack, x.pRelease, x.pOutgain]
      else if op.toNat = 3 then [x.pRatio]
      else if op.toNat = 4 then [x.pThresh, x.pRatio, x.pAttack, x.pRelease]
      else [x.pOutgain] := by
  rcases h with rfl | rfl | rfl | rfl | rfl <;> rfl

/-- The first phase of each command, by its number (R234). -/
theorem afterLatch_eq :
    afterLatch op =
      if op.toNat = 1 then 0x02 else if op.toNat = 2 ∨ op.toNat = 3 then 0x08 else if op.toNat = 4 then 0x10 else 0x18 := by
  rcases h with rfl | rfl | rfl | rfl | rfl <;> rfl

end

/-- The latches of each command, register by register (R233). -/
theorem latched_eq {w : Word} (h : cmdOp w = 1 ∨ cmdOp w = 2 ∨ cmdOp w = 3 ∨ cmdOp w = 4 ∨ cmdOp w = 5) (s : State) :
    let op := (cmdOp w).toNat
    latched w s =
      { op := cmdOp w
        len := cmdLen w
        thresh := if op = 2 ∨ op = 4 then s.host.pThresh else s.lat.thresh
        ratio := if op = 2 ∨ op = 3 ∨ op = 4 then s.host.pRatio else s.lat.ratio
        attack := if op = 2 ∨ op = 4 then s.host.pAttack else s.lat.attack
        release := if op = 2 ∨ op = 4 then s.host.pRelease else s.lat.release
        outgain := if op = 2 ∨ op = 5 then s.host.pOutgain else s.lat.outgain
        sr := if op = 1 then requestedRate s else s.lat.sr
        bs := if op = 1 then s.host.reqBs else s.lat.bs } := by
  unfold latched
  rcases h with e | e | e | e | e <;> simp only [e] <;> rfl

/-- Settles O15: `latched` copies what the command's clause of R233 names, `inputsAdmitted` notes whether R147 admits the command,
and `afterLatch` is the phase. -/
theorem latchCopiesOperands : Obligations.LatchCopiesOperands := by
  intro s op used h1 h5
  have hop := cmdOp_cases (op := cmdOp s.io.offered) h1 h5
  have hexec : exec .latch s = .next (latchOffered s) := rfl
  refine ⟨inputsAdmitted s.io.offered s, (inputsAdmitted_iff s.io.offered s).trans ?used, hexec.trans (congrArg _ ?state)⟩
  case used => rw [paramsUsed_eq hop, ← BitVec.toNat_inj]; rfl
  case state => unfold latchOffered; rw [latched_eq hop, afterLatch_eq hop]; rfl

/-- Settles O16: `prepared` is the six steps of R237, its fields those that the statement names. -/
theorem prepConfigures : Obligations.PrepConfigures := by
  intro s valid sr
  refine ⟨goTo phaseDone (prepared s), rfl, ?state, rateInForce_prepared s, fun c => ?memories⟩
  case state =>
    have hstatus : (prepared s).status = s.status ||| 0x01 ||| (if rateValid s.num s.lat.sr then 0 else 0x04) := by
      rw [prepared_status]
      generalize s.status = st
      generalize rateValid s.num s.lat.sr = v
      revert st v
      decide
    rw [prepared_eq, hstatus]
    rfl
  case memories =>
    rw [prepared_eq]
    exact ⟨laneGet_laneFill _ _ _ _, laneGet_laneFill _ _ _ _⟩

/-- Settles O17: DONE's mask leaves every bit of STATUS but BUSY. -/
theorem doneClearsBusy : Obligations.DoneClearsBusy := fun _ => rfl

end Sys2Proof.Machine
end

section
/-! The atomic view of a command (44_host_commands R249) as a run of the core step by step: with nothing pending every step is the
sequencer's turn, and an idle sequencer waits. -/

namespace Sys2Proof.Machine

/-! ## What the environment sees of a micro-operation -/

/-- Of the model's own fields the micro-operation `i` has changed at most the list of GR values, if it is E_PUB, and the note on the
command's inputs, if it is LATCH. -/
def IoChange (i : Instr) (s t : State) : Prop :=
  ∃ log b, t.io = { s.io with grLog := log, admitted := b } ∧ (i ≠ .ePub → log = s.io.grLog) ∧
    (i ≠ .latch → b = s.io.admitted)

theorem ioChange_of_eq {i : Instr} {s t : State} (h : t.io = s.io) : IoChange i s t := ⟨_, _, h, fun _ => rfl, fun _ => rfl⟩

theorem microOperation_io {i : Instr} {s t : State} (hb : busOf i = .phase) (ht : exec i s = .next t) : IoChange i s t := by
  cases i with
  | wr | rd | wrs | rds | rdgr | prepare | process | srm | ege | hen => cases hb
  | latch => cases ht; exact ⟨_, _, rfl, fun _ => rfl, fun h => absurd rfl h⟩
  | ePub => cases ht; exact ⟨_, _, rfl, fun h => absurd rfl h, fun _ => rfl⟩
  | prep => cases ht; exact ioChange_of_eq (prepared_io s)
  | done | sInit | sRatio | eCoef | eEnv | eGrc | hGain | hSat => cases ht; exact ioChange_of_eq rfl
  | sBpf => obtain ⟨v, -, rfl⟩ := execSBpf_next ht; exact ioChange_of_eq (nextPair_io _ _ _)
  | sRms => cases ht; exact ioChange_of_eq (nextChan_io _ _ _)
  | eDet => obtain ⟨lane, level, -, rfl⟩ := execEDet_next ht; exact ioChange_of_eq rfl
  | eApply => obtain ⟨-, rfl⟩ := execEApply_next ht; exact ioChange_of_eq (nextFrame_io _ _ _)
  | hHpf => obtain ⟨v, -, rfl⟩ := execHHpf_next ht; exact ioChange_of_eq rfl
  | hMac => obtain ⟨-, rfl⟩ := execHMac_next ht; exact ioChange_of_eq (nextPair_io _ _ _)

theorem microOperation_environment {i : Instr} {s t : State} (hb : busOf i = .phase) (ht : exec i s = .next t) :
    t.environment = s.environment := by
  obtain ⟨log, b, hio, -⟩ := microOperation_io hb ht
  rw [State.environment, hio]
  rfl

/-- The sequencer consumes no input. -/
theorem seqStep_inputs {s t : State} (ht : seqStep s = .next t) : t.io.inputs = s.io.inputs := by
  rcases seqStep_next ht with rfl | ⟨i, hb, hi⟩
  · rfl
  · exact congrArg Prod.fst (microOperation_environment hb hi)

/-! ## Steps with nothing pending -/

section
variable {s : State} (k : Nat)

theorem run_succ_next {t : State} (h : step s = .next t) :
    Host.Core.run Sys2Proof.core (k + 1) s = Host.Core.run Sys2Proof.core k t := by
  have hstep : Sys2Proof.core.step s = .next t := h
  simp only [Host.Core.run, hstep]

theorem run_succ_fault {f : Fault} (h : step s = .fault f) : Host.Core.run Sys2Proof.core (k + 1) s = .fault f := by
  have hstep : Sys2Proof.core.step s = .fault f := h
  simp only [Host.Core.run, hstep]

theorem run_succ_refused {r : Refusal} (h : step s = .refused r) :
    Host.Core.run Sys2Proof.core (k + 1) s = .refused r := by
  have hstep : Sys2Proof.core.step s = .refused r := h
  simp only [Host.Core.run, hstep]

end

/-- With nothing pending, `k` steps of the core are at most `k` micro-operations: an idle sequencer waits (60_exceptions R280). -/
theorem run_eq_runSequencer (k : Nat) {s : State} (hin : s.io.inputs = []) :
    Host.Core.run Sys2Proof.core k s = runSequencer k s := by
  induction k generalizing s with
  | zero => rfl
  | succ k ih =>
    have hstep : step s = seqStep s := step_of_no_input s hin
    by_cases hidle : s.pos.phase = phaseIdle
    · rw [run_succ_next k (hstep.trans (seqStep_idle hidle)), ih hin, runSequencer_idle _ _ hidle, runSequencer_idle _ _ hidle]
    · rw [runSequencer, if_neg hidle]
      cases ht : seqStep s with
      | next t => exact (run_succ_next k (hstep.trans ht)).trans (ih ((seqStep_inputs ht).trans hin))
      | fault f => exact run_succ_fault k (hstep.trans ht)
      | refused r => exact run_succ_refused k (hstep.trans ht)

/-- A step that takes a WR of a word to CMD from port H is the offer of the word. -/
theorem step_wrCmd (W : Word) (s : State) :
    step (s.withInputs [.host 0x80000000 W]) = .next (offer W (s.withInputs [])) :=
  step_of_decode (i := .wr 0 W) (fetch_host rfl) rfl

theorem offer_inputs (w : Word) (s : State) : (offer w s).io.inputs = s.io.inputs := by
  rcases offer_cases w s with ⟨c, -, e⟩ | ⟨-, e⟩ <;> rw [e] <;> rfl

/-- Settles O40: the WR is the offer, and the steps after it are the sequencer's; a dropped offer leaves the sequencer idle. -/
theorem atomicCommandIsSequencerRun : Obligations.AtomicCommandIsSequencerRun := by
  intro W i s hd hidle hin
  have hs : s.withInputs [] = s := by rw [← hin]; rfl
  have hwr := step_wrCmd W s
  rw [hs] at hwr
  rw [exec_of_decodeCommand hd, Nat.add_comm, run_succ_next _ hwr, run_eq_runSequencer _ ((offer_inputs W s).trans hin)]
  unfold runCommand offer
  cases hc : offerCondition W s with
  | some c => exact (runSequencer_idle _ (raise c s) (congrArg Pos.phase hidle.2)).symm
  | none => rfl

end Sys2Proof.Machine
end

section
/-! How many micro-operations a command still takes before DONE, position by position (44_host_commands R234, R235): every turn of
the sequencer takes one away, or faults at a word that nothing has written (10_state R54). -/

namespace Sys2Proof.Machine

/-! ## Counting -/

/-- The pairs from (c, i) on, in the order of the loops over pairs (41_spectral_ratio_modulator R162). -/
def pairsFrom (nch len c i : Nat) : Nat := (nch - c) * len - i

section
variable {nch len c i : Nat}

theorem len_le_pairs (hc : c < nch) : len ≤ (nch - c) * len := Nat.le_mul_of_pos_left len (Nat.sub_pos_of_lt hc)

theorem pairsFrom_pos (hc : c < nch) (hi : i < len) : 1 ≤ pairsFrom nch len c i := by
  have := len_le_pairs (len := len) hc
  unfold pairsFrom; omega

theorem pairsFrom_nextSample (hc : c < nch) (hi : i + 1 < len) :
    pairsFrom nch len c (i + 1) + 1 ≤ pairsFrom nch len c i := by
  have := len_le_pairs (len := len) hc
  unfold pairsFrom; omega

theorem pairsFrom_nextChan (hc : c + 1 < nch) (hi : i < len) :
    pairsFrom nch len (c + 1) 0 + 1 ≤ pairsFrom nch len c i := by
  have hrow : (nch - c) * len = (nch - (c + 1)) * len + len := by
    rw [← Nat.succ_mul]; congr 1; omega
  unfold pairsFrom; omega

theorem pairsFrom_le (nch len c i : Nat) : pairsFrom nch len c i ≤ nch * len :=
  (Nat.sub_le _ _).trans (Nat.mul_le_mul_right len (Nat.sub_le nch c))

end

/-- The turns of a PROCESS after its EGE stage, DONE not counted; no other command has any (R234). -/
def turnsAfterEge (op : BitVec 4) (nch len : Nat) : Nat := if op = 2 then 1 + 3 * (nch * len) else 0

/-- The turns of a PROCESS after its SRM stage. -/
def turnsAfterSrm (op : BitVec 4) (nch len : Nat) : Nat := if op = 2 then 1 + 5 * len + turnsAfterEge op nch len else 0

/-- A position that a command `op` of `len` frames takes, at most `n` turns before DONE. -/
inductive TurnsLeft (op : BitVec 4) (nch : Nat) (len : Index) (n : Nat) : Pos → Prop
  | prep {i : Index} {c : Chan} (hop : op = 1) (hn : 1 ≤ n) : TurnsLeft op nch len n ⟨phasePrep, i, c⟩
  | sInit {i : Index} {c : Chan} (hop : op = 2 ∨ op = 3)
    (hn : 2 + nch * len.toNat + nch + turnsAfterSrm op nch len.toNat ≤ n) : TurnsLeft op nch len n ⟨phaseSInit, i, c⟩
  | sBpf {i : Index} {c : Chan} (hop : op = 2 ∨ op = 3) (hc : c.toNat < nch) (hi : i.toNat < len.toNat)
    (hn : pairsFrom nch len.toNat c.toNat i.toNat + nch + 1 + turnsAfterSrm op nch len.toNat ≤ n) :
    TurnsLeft op nch len n ⟨phaseSBpf, i, c⟩
  | sRms {i : Index} {c : Chan} (hop : op = 2 ∨ op = 3) (hc : c.toNat < nch)
    (hn : (nch - c.toNat) + 1 + turnsAfterSrm op nch len.toNat ≤ n) : TurnsLeft op nch len n ⟨phaseSRms, i, c⟩
  | sRatio {i : Index} {c : Chan} (hop : op = 2 ∨ op = 3) (hn : 1 + turnsAfterSrm op nch len.toNat ≤ n) :
    TurnsLeft op nch len n ⟨phaseSRatio, i, c⟩
  | eCoef {i : Index} {c : Chan} (hop : op = 2 ∨ op = 4)
    (hn : 1 + 5 * len.toNat + turnsAfterEge op nch len.toNat ≤ n) : TurnsLeft op nch len n ⟨phaseECoef, i, c⟩
  | eDet {i : Index} {c : Chan} (hop : op = 2 ∨ op = 4) (hi : i.toNat < len.toNat)
    (hn : 5 * (len.toNat - i.toNat) + turnsAfterEge op nch len.toNat ≤ n) : TurnsLeft op nch len n ⟨phaseEDet, i, c⟩
  | eEnv {i : Index} {c : Chan} (hop : op = 2 ∨ op = 4) (hi : i.toNat < len.toNat)
    (hn : 5 * (len.toNat - i.toNat) + turnsAfterEge op nch len.toNat ≤ n + 1) : TurnsLeft op nch len n ⟨phaseEEnv, i, c⟩
  | eGrc {i : Index} {c : Chan} (hop : op = 2 ∨ op = 4) (hi : i.toNat < len.toNat)
    (hn : 5 * (len.toNat - i.toNat) + turnsAfterEge op nch len.toNat ≤ n + 2) : TurnsLeft op nch len n ⟨phaseEGrc, i, c⟩
  | ePub {i : Index} {c : Chan} (hop : op = 2 ∨ op = 4) (hi : i.toNat < len.toNat)
    (hn : 5 * (len.toNat - i.toNat) + turnsAfterEge op nch len.toNat ≤ n + 3) : TurnsLeft op nch len n ⟨phaseEPub, i, c⟩
  | eApply {i : Index} {c : Chan} (hop : op = 2 ∨ op = 4) (hi : i.toNat < len.toNat)
    (hn : 5 * (len.toNat - i.toNat) + turnsAfterEge op nch len.toNat ≤ n + 4) : TurnsLeft op nch len n ⟨phaseEApply, i, c⟩
  | hGain {i : Index} {c : Chan} (hop : op = 2 ∨ op = 5) (hn : 1 + 3 * (nch * len.toNat) ≤ n) :
    TurnsLeft op nch len n ⟨phaseHGain, i, c⟩
  | hHpf {i : Index} {c : Chan} (hop : op = 2 ∨ op = 5) (hc : c.toNat < nch) (hi : i.toNat < len.toNat)
    (hn : 3 * pairsFrom nch len.toNat c.toNat i.toNat ≤ n) : TurnsLeft op nch len n ⟨phaseHHpf, i, c⟩
  | hSat {i : Index} {c : Chan} (hop : op = 2 ∨ op = 5) (hc : c.toNat < nch) (hi : i.toNat < len.toNat)
    (hn : 3 * pairsFrom nch len.toNat c.toNat i.toNat ≤ n + 1) : TurnsLeft op nch len n ⟨phaseHSat, i, c⟩
  | hMac {i : Index} {c : Chan} (hop : op = 2 ∨ op = 5) (hc : c.toNat < nch) (hi : i.toNat < len.toNat)
    (hn : 3 * pairsFrom nch len.toNat c.toNat i.toNat ≤ n + 2) : TurnsLeft op nch len n ⟨phaseHMac, i, c⟩
  | done {i : Index} {c : Chan} : TurnsLeft op nch len n ⟨phaseDone, i, c⟩

/-- Such a position is one of the command's sequence (R234). -/
theorem TurnsLeft.phaseOfOp {op : BitVec 4} {nch n : Nat} {len : Index} {q : Pos} (h : TurnsLeft op nch len n q) :
    phaseOfOp op q.phase = true := by
  cases h with
  | prep hop => subst hop; rfl
  | sInit hop | sBpf hop | sRms hop | sRatio hop => exact phaseOfOp_of_srmPhase hop rfl
  | eCoef hop | eDet hop | eEnv hop | eGrc hop | ePub hop | eApply hop => exact phaseOfOp_of_egePhase hop rfl
  | hGain hop | hHpf hop | hSat hop | hMac hop => exact phaseOfOp_of_henPhase hop rfl
  | done => exact phaseOfOp_done op

/-! ## The next position -/

section
variable {op : BitVec 4} {nch n : Nat} {len : Index}

/-- A loop over pairs is at a pair with fewer to come, or past its last one. -/
theorem pairPos_cases (a f : PhaseCode) {q : Pos} (hnch : nch ≤ 64) (hc : q.ch.toNat < nch) (hi : q.idx.toNat < len.toNat) :
    (∃ i c, pairPos a f nch len.toNat q = ⟨a, i, c⟩ ∧ c.toNat < nch ∧ i.toNat < len.toNat ∧
      pairsFrom nch len.toNat c.toNat i.toNat + 1 ≤ pairsFrom nch len.toNat q.ch.toNat q.idx.toNat) ∨
    (pairPos a f nch len.toNat q = ⟨f, 0, 0⟩ ∧ 1 ≤ pairsFrom nch len.toNat q.ch.toNat q.idx.toNat) := by
  unfold pairPos
  split
  · rename_i hs
    refine .inl ⟨_, _, rfl, hc, ?_, ?_⟩ <;> rw [idx_succ hs]
    · exact hs
    · exact pairsFrom_nextSample hc hs
  · split
    · rename_i hch
      refine .inl ⟨_, _, rfl, ?_, Nat.zero_lt_of_lt hi, ?_⟩ <;> rw [ch_succ hch hnch]
      · exact hch
      · exact pairsFrom_nextChan hch hi
    · exact .inr ⟨rfl, pairsFrom_pos hc hi⟩

theorem turnsLeft_afterEge (hn : turnsAfterEge op nch len.toNat ≤ n) : TurnsLeft op nch len n ⟨afterEge op, 0, 0⟩ := by
  unfold turnsAfterEge at hn
  unfold afterEge
  split at hn <;> rename_i hop
  · rw [if_pos hop]; exact .hGain (.inl hop) hn
  · rw [if_neg hop]; exact .done

theorem turnsLeft_afterSrm (hn : turnsAfterSrm op nch len.toNat ≤ n) : TurnsLeft op nch len n ⟨afterSrm op, 0, 0⟩ := by
  unfold turnsAfterSrm at hn
  unfold afterSrm
  split at hn <;> rename_i hop
  · rw [if_pos hop]; exact .eCoef (.inl hop) hn
  · rw [if_neg hop]; exact .done

theorem index_pos {len : Index} (h : len ≠ 0) : 0 < len.toNat := Nat.pos_of_ne_zero fun e => h (BitVec.eq_of_toNat_eq e)

theorem turnsLeft_afterSInit (hop : op = 2 ∨ op = 3) (hnch : 0 < nch)
    (hn : 1 + nch * len.toNat + nch + turnsAfterSrm op nch len.toNat ≤ n) :
    TurnsLeft op nch len n ⟨afterSInit len, 0, 0⟩ := by
  unfold afterSInit
  split
  · exact .sRatio hop (by omega)
  · rename_i hlen
    have hle := pairsFrom_le nch len.toNat 0 0
    exact .sBpf hop hnch (index_pos hlen) (show pairsFrom nch len.toNat 0 0 + nch + 1 + _ ≤ n by omega)

theorem turnsLeft_afterECoef (hop : op = 2 ∨ op = 4) (hn : 5 * len.toNat + turnsAfterEge op nch len.toNat ≤ n) :
    TurnsLeft op nch len n ⟨afterECoef op len, 0, 0⟩ := by
  unfold afterECoef
  split
  · exact turnsLeft_afterEge (by omega)
  · rename_i hlen
    exact .eDet hop (index_pos hlen) hn

theorem turnsLeft_afterHGain (hop : op = 2 ∨ op = 5) (hnch : 0 < nch) (hn : 3 * (nch * len.toNat) ≤ n) :
    TurnsLeft op nch len n ⟨afterHGain len, 0, 0⟩ := by
  unfold afterHGain
  split
  · exact .done
  · rename_i hlen
    have hle := pairsFrom_le nch len.toNat 0 0
    exact .hHpf hop hnch (index_pos hlen) (show 3 * pairsFrom nch len.toNat 0 0 ≤ n by omega)

theorem turnsLeft_chanPos {q : Pos} (hop : op = 2 ∨ op = 3) (hnch : nch ≤ 64) (hc : q.ch.toNat < nch)
    (hn : (nch - q.ch.toNat) + turnsAfterSrm op nch len.toNat ≤ n) :
    TurnsLeft op nch len n (chanPos phaseSRms phaseSRatio nch q) := by
  unfold chanPos
  split
  · rename_i hch
    have hnext := ch_succ hch hnch
    exact .sRms hop (by omega) (by omega)
  · exact .sRatio hop (by omega)

theorem turnsLeft_framePos {q : Pos} (hop : op = 2 ∨ op = 4) (hi : q.idx.toNat < len.toNat)
    (hn : 5 * (len.toNat - q.idx.toNat) + turnsAfterEge op nch len.toNat ≤ n + 5) :
    TurnsLeft op nch len n (framePos phaseEDet (afterEge op) len.toNat q) := by
  unfold framePos
  split
  · rename_i hs
    have hnext := idx_succ hs
    exact .eDet hop (by omega) (by omega)
  · exact turnsLeft_afterEge (by omega)

theorem turnsLeft_srmPairs {q : Pos} (hop : op = 2 ∨ op = 3) (hnch : nch ≤ 64) (hc : q.ch.toNat < nch)
    (hi : q.idx.toNat < len.toNat)
    (hn : pairsFrom nch len.toNat q.ch.toNat q.idx.toNat + nch + turnsAfterSrm op nch len.toNat ≤ n) :
    TurnsLeft op nch len n (pairPos phaseSBpf phaseSRms nch len.toNat q) := by
  rcases pairPos_cases phaseSBpf phaseSRms hnch hc hi with ⟨i, c, e, hc', hi', hleft⟩ | ⟨e, hleft⟩ <;> rw [e]
  · exact .sBpf hop hc' hi' (by omega)
  · exact .sRms hop (Nat.zero_lt_of_lt hc) (show nch - 0 + 1 + _ ≤ n by omega)

theorem turnsLeft_henPairs {q : Pos} (hop : op = 2 ∨ op = 5) (hnch : nch ≤ 64) (hc : q.ch.toNat < nch)
    (hi : q.idx.toNat < len.toNat) (hn : 3 * pairsFrom nch len.toNat q.ch.toNat q.idx.toNat ≤ n + 3) :
    TurnsLeft op nch len n (pairPos phaseHHpf phaseDone nch len.toNat q) := by
  rcases pairPos_cases phaseHHpf phaseDone hnch hc hi with ⟨i, c, e, hc', hi', hleft⟩ | ⟨e, -⟩ <;> rw [e]
  · exact .hHpf hop hc' hi' (by omega)
  · exact .done

end

/-! ## One micro-operation -/

/-- The outcome is a next state at a position of which `Q` holds, or the fault of an unwritten word of the block. -/
inductive Moves (s : State) (Q : Pos → Prop) : Host.Outcome State Fault Refusal → Prop
  | next {t : State} (h : Q t.pos) : Moves s Q (.next t)
  | unwritten (h : ¬s.blockWritten s.lat.len) : Moves s Q (.fault .unwrittenWord)

/-- A command at work on a block that lies in BUF, at most `n` turns before DONE. -/
structure State.Working (n : Nat) (s : State) : Prop where
  wf : s.params.wf = true
  length : s.lat.len.toNat ≤ s.params.maxlen.toNat
  left : TurnsLeft s.lat.op s.params.nch.toNat s.lat.len n s.pos

section
variable {s : State} {Q : Pos → Prop}

/-- A read of a word of the block. -/
theorem readSample_block {c : Chan} {n : Index} (hlen : s.lat.len.toNat ≤ s.params.maxlen.toNat)
    (hc : c.toNat < s.params.nch.toNat) (hn : n.toNat < s.lat.len.toNat) :
    (∃ v, readSample s c n = .ok v) ∨ (readSample s c n = .error .unwrittenWord ∧ ¬s.blockWritten s.lat.len) := by
  have hin : inBuf s.params c n = true := (inBuf_iff _ _ _).2 ⟨hc, hn.trans_le hlen⟩
  cases hv : memRead s.buf (bufAddr c n) with
  | some v => exact .inl ⟨v, (readSample_ok_iff _ _ _ v).2 ⟨hin, hv⟩⟩
  | none =>
    refine .inr ⟨readSample_unwritten hin hv, fun hw => ?_⟩
    have hsome : (memRead s.buf (bufAddr c n)).isSome = true := hw c n hc hn
    rw [hv] at hsome
    cases hsome

theorem moves_sBpf (hlen : s.lat.len.toNat ≤ s.params.maxlen.toNat) (hc : s.pos.ch.toNat < s.params.nch.toNat)
    (hi : s.pos.idx.toNat < s.lat.len.toNat)
    (hQ : Q (pairPos phaseSBpf phaseSRms s.params.nch.toNat s.lat.len.toNat s.pos)) : Moves s Q (execSBpf s) := by
  rcases readSample_block hlen hc hi with ⟨v, hv⟩ | ⟨hf, hw⟩
  · rw [execSBpf_ok hv, nextPair_eq_withPos]; exact .next hQ
  · rw [execSBpf_fault hf]; exact .unwritten hw

theorem moves_hHpf (hlen : s.lat.len.toNat ≤ s.params.maxlen.toNat) (hc : s.pos.ch.toNat < s.params.nch.toNat)
    (hi : s.pos.idx.toNat < s.lat.len.toNat) (hQ : Q { s.pos with phase := phaseHSat }) : Moves s Q (execHHpf s) := by
  rcases readSample_block hlen hc hi with ⟨v, hv⟩ | ⟨hf, hw⟩
  · rw [execHHpf_ok hv]; exact .next hQ
  · rw [execHHpf_fault hf]; exact .unwritten hw

theorem moves_eDet (hlen : s.lat.len.toNat ≤ s.params.maxlen.toNat) (hi : s.pos.idx.toNat < s.lat.len.toNat)
    (hQ : Q ⟨phaseEEnv, s.pos.idx, 0⟩) : Moves s Q (execEDet s) := by
  rcases detectLanes_spec s (channels s.params) s.scr.lane f32Zero with ⟨vs, -, e⟩ | ⟨f, c, hc, hf, e⟩
  · rw [execEDet_ok e]; exact .next hQ
  · rcases readSample_block hlen ((mem_channels _ _).1 hc) hi with ⟨v, hv⟩ | ⟨hu, hw⟩
    · cases hv.symm.trans hf
    · cases hu.symm.trans hf
      rw [execEDet_fault e]
      exact .unwritten hw

theorem moves_eApply (hlen : s.lat.len.toNat ≤ s.params.maxlen.toNat) (hi : s.pos.idx.toNat < s.lat.len.toNat)
    (hQ : Q (framePos phaseEDet (afterEge s.lat.op) s.lat.len.toNat s.pos)) : Moves s Q (execEApply s) := by
  rw [execEApply_inBuf (hi.trans_le hlen)]
  exact .next hQ

theorem moves_hMac (hlen : s.lat.len.toNat ≤ s.params.maxlen.toNat) (hc : s.pos.ch.toNat < s.params.nch.toNat)
    (hi : s.pos.idx.toNat < s.lat.len.toNat)
    (hQ : Q (pairPos phaseHHpf phaseDone s.params.nch.toNat s.lat.len.toNat s.pos)) : Moves s Q (execHMac s) := by
  rw [execHMac_inBuf hc (hi.trans_le hlen)]
  exact .next hQ

theorem moves_sRms (hQ : Q (chanPos phaseSRms phaseSRatio s.params.nch.toNat s.pos)) : Moves s Q (execSRms s) := by
  unfold execSRms
  rw [nextChan_eq_withPos]
  exact .next hQ

end

/-- The micro-operation of a working command: it brings DONE one turn nearer. -/
theorem State.Working.turn {n : Nat} {s : State} (h : s.Working (n + 1)) :
    s.pos.phase = phaseDone ∨
      ∃ i, decodePhase s.pos.phase = .ok i ∧ Moves s (TurnsLeft s.lat.op s.params.nch.toNat s.lat.len n) (exec i s) := by
  obtain ⟨hwf, hlen, hleft⟩ := h
  obtain ⟨hpos, hnch, -⟩ := wf_bounds hwf
  generalize hq : s.pos = q at hleft
  cases hleft with
  | done => exact .inl rfl
  | prep => exact .inr ⟨.prep, rfl, .next .done⟩
  | sInit hop hn => exact .inr ⟨.sInit, rfl, .next (turnsLeft_afterSInit hop hpos (by omega))⟩
  | sBpf hop hc hi hn =>
    refine .inr ⟨.sBpf, rfl, moves_sBpf hlen ?_ ?_ ?_⟩ <;> rw [hq]
    exacts [hc, hi, turnsLeft_srmPairs hop hnch hc hi (by dsimp only; omega)]
  | sRms hop hc hn =>
    refine .inr ⟨.sRms, rfl, moves_sRms ?_⟩
    rw [hq]
    exact turnsLeft_chanPos hop hnch hc (by dsimp only; omega)
  | sRatio hop hn => exact .inr ⟨.sRatio, rfl, .next (turnsLeft_afterSrm (by omega))⟩
  | eCoef hop hn => exact .inr ⟨.eCoef, rfl, .next (turnsLeft_afterECoef hop (by omega))⟩
  | eDet hop hi hn =>
    refine .inr ⟨.eDet, rfl, moves_eDet hlen ?_ ?_⟩ <;> rw [hq]
    exacts [hi, .eEnv hop hi hn]
  | eEnv hop hi hn =>
    refine .inr ⟨.eEnv, rfl, .next ?_⟩
    rw [sameFrame_pos, hq]
    exact .eGrc hop hi hn
  | eGrc hop hi hn =>
    refine .inr ⟨.eGrc, rfl, .next ?_⟩
    rw [sameFrame_pos, hq]
    exact .ePub hop hi hn
  | ePub hop hi hn =>
    refine .inr ⟨.ePub, rfl, .next ?_⟩
    rw [sameFrame_pos, hq]
    exact .eApply hop hi hn
  | eApply hop hi hn =>
    refine .inr ⟨.eApply, rfl, moves_eApply hlen ?_ ?_⟩ <;> rw [hq]
    exacts [hi, turnsLeft_framePos hop hi hn]
  | hGain hop hn => exact .inr ⟨.hGain, rfl, .next (turnsLeft_afterHGain hop hpos (by omega))⟩
  | hHpf hop hc hi hn =>
    refine .inr ⟨.hHpf, rfl, moves_hHpf hlen ?_ ?_ ?_⟩ <;> rw [hq]
    exacts [hc, hi, .hSat hop hc hi hn]
  | hSat hop hc hi hn =>
    refine .inr ⟨.hSat, rfl, .next ?_⟩
    rw [samePair_pos, hq]
    exact .hMac hop hc hi hn
  | hMac hop hc hi hn =>
    refine .inr ⟨.hMac, rfl, moves_hMac hlen ?_ ?_ ?_⟩ <;> rw [hq]
    exacts [hc, hi, turnsLeft_henPairs hop hnch hc hi hn]

/-- With no turn left the command is at DONE. -/
theorem State.Working.phase_zero {s : State} (h : s.Working 0) : s.pos.phase = phaseDone := by
  obtain ⟨hwf, -, hleft⟩ := h
  generalize s.pos = q at hleft
  cases hleft with
  | done => rfl
  | prep hop hn => omega
  | sInit hop hn | sRatio hop hn | eCoef hop hn | hGain hop hn => omega
  | sRms hop hc hn => omega
  | eDet hop hi hn | eEnv hop hi hn | eGrc hop hi hn | ePub hop hi hn | eApply hop hi hn => omega
  | sBpf hop hc hi hn | hHpf hop hc hi hn | hSat hop hc hi hn | hMac hop hc hi hn =>
    have := pairsFrom_pos hc hi
    omega

/-! ## What a command keeps until DONE -/

/-- `t` is `s` some turns further in the same command. -/
structure SameCommand (s t : State) : Prop where
  params : t.params = s.params
  host : t.host = s.host
  lat : t.lat = s.lat
  status : s.lat.op ≠ 1 → t.status = s.status
  effRatio : s.lat.op = 4 → t.res.effRatio = s.res.effRatio
  environment : t.environment = s.environment
  admitted : t.io.admitted = s.io.admitted
  grLog : s.lat.op = 3 ∨ s.lat.op = 5 → t.io.grLog = s.io.grLog
  written : ∀ c n, s.written c n → t.written c n

theorem SameCommand.refl (s : State) : SameCommand s s :=
  ⟨rfl, rfl, rfl, fun _ => rfl, fun _ => rfl, rfl, rfl, fun _ => rfl, fun _ _ => id⟩

theorem SameCommand.trans {s t u : State} (h : SameCommand s t) (h' : SameCommand t u) : SameCommand s u where
  params := h'.params.trans h.params
  host := h'.host.trans h.host
  lat := h'.lat.trans h.lat
  status hop := (h'.status (by rwa [h.lat])).trans (h.status hop)
  effRatio hop := (h'.effRatio (by rwa [h.lat])).trans (h.effRatio hop)
  environment := h'.environment.trans h.environment
  admitted := h'.admitted.trans h.admitted
  grLog hop := (h'.grLog (by rwa [h.lat])).trans (h.grLog hop)
  written c n hw := h'.written c n (h.written c n hw)

/-- A block that is written stays so. -/
theorem SameCommand.blockWritten {s t : State} (h : SameCommand s t) {len : Index} (hw : s.blockWritten len) :
    t.blockWritten len := fun c n hc hn => h.written c n (hw c n (h.params ▸ hc) hn)

theorem phaseOfOp_prep (op : BitVec 4) (h : phaseOfOp op phasePrep = true) : op = 1 := by revert op; decide

/-- The sequencer is at a micro-operation of the command, DONE excepted. -/
structure State.AtTurn (s : State) (i : Instr) : Prop where
  ofOp : phaseOfOp s.lat.op s.pos.phase = true
  notDone : s.pos.phase ≠ phaseDone
  decodes : decodePhase s.pos.phase = .ok i

/-- One turn other than DONE: what changes has its writer, and the phases of the command exclude the other writers. -/
theorem State.AtTurn.sameCommand {s t : State} {i : Instr} (h : s.AtTurn i) (ht : exec i s = .next t) :
    SameCommand s t := by
  obtain ⟨hof, hdone, hi⟩ := h
  obtain ⟨hb, hcode⟩ := decodePhase_spec _ _ hi
  have hphase : ∀ p, encode i = [p.setWidth 32] → phaseOfOp s.lat.op p = true ∧ p ≠ phaseDone := fun p hp =>
    phase_inj (hcode.symm.trans hp) ▸ ⟨hof, hdone⟩
  have hbus : ∀ a d, i ≠ .wr a d := by rintro a d rfl; cases hb
  have hlatch : i ≠ .latch := by
    rintro rfl
    exact Bool.eq_false_iff.1 (phaseOfOp_latch _) (hphase phaseLatch rfl).1
  have w := writers_of_microOperation hb ht
  obtain ⟨log, b, hio, hlog, hadm⟩ := microOperation_io hb ht
  refine
    { params := w.params, host := ?host, lat := ?lat, status := fun hop => ?status, effRatio := fun hop => ?effRatio
      environment := microOperation_environment hb ht, admitted := by rw [hio]; exact hadm hlatch
      grLog := fun hop => ?grLog, written := fun _ _ => microOperation_keeps_written hb ht }
  case host =>
    by_contra hne
    obtain ⟨a, d, e⟩ := w.host hne
    exact hbus a d e
  case lat =>
    by_contra hne
    rcases w.lat hne with e | ⟨d, e⟩
    exacts [hlatch e, hbus 0 d e]
  case status =>
    rcases w.status with e | ⟨rfl, -⟩ | ⟨rfl, -⟩ | ⟨d, e, -⟩ | ⟨d, e, -⟩
    · exact e
    · exact absurd (phaseOfOp_prep _ (hphase phasePrep rfl).1) hop
    · exact absurd rfl (hphase phaseDone rfl).2
    · exact absurd e (hbus 0 d)
    · exact absurd e (hbus 1 d)
  case effRatio =>
    by_contra hne
    obtain rfl := w.effRatio hne
    have hsrm := phaseOfOp_srm _ _ rfl (hphase phaseSRatio rfl).1
    rw [hop] at hsrm
    exact absurd hsrm (by decide)
  case grLog =>
    rw [hio]
    refine hlog ?_
    rintro rfl
    have hege := phaseOfOp_ege _ _ rfl (hphase phaseEPub rfl).1
    rcases hop with e | e <;> rw [e] at hege <;> exact absurd hege (by decide)

/-! ## The turns of a command -/

/-- One turn of a working command: done, or one turn nearer to DONE, or the fault of a word of the block that nothing has
written. -/
theorem State.Working.step {n : Nat} {s : State} (h : s.Working (n + 1)) :
    s.pos.phase = phaseDone ∨
      (∃ i t, s.AtTurn i ∧ exec i s = .next t ∧ t.Working n) ∨
      (s.pos.phase ≠ phaseIdle ∧ seqStep s = .fault .unwrittenWord ∧ ¬s.blockWritten s.lat.len) := by
  by_cases hdone : s.pos.phase = phaseDone
  · exact .inl hdone
  obtain ⟨i, hi, hmove⟩ := h.turn.resolve_left hdone
  have hturn : s.AtTurn i := ⟨h.left.phaseOfOp, hdone, hi⟩
  generalize ho : exec i s = o at hmove
  cases hmove with
  | @next t hleft =>
    have hsame := hturn.sameCommand ho
    refine .inr (.inl ⟨i, t, hturn, ho, ?_, ?_, ?_⟩)
    · rw [hsame.params]; exact h.wf
    · rw [hsame.params, hsame.lat]; exact h.length
    · rw [hsame.params, hsame.lat]; exact hleft
  | unwritten hw =>
    refine .inr (.inr ⟨fun hidle => ?_, (seqStep_of_decode hi).trans ho, hw⟩)
    rw [hidle] at hi
    cases hi

/-- A working command comes to DONE, or faults at a word of its block that nothing has written. A map `f` of the core that
commutes with the command's turns takes its run along. -/
theorem State.Working.runs {n : Nat} {s : State} (h : s.Working n) {f : State → State}
    (hf : ∀ u v i, u.AtTurn i → SameCommand s u → exec i u = .next v → Runs 1 (f u) (f v)) :
    (∃ m t, m ≤ n ∧ Runs m s t ∧ Runs m (f s) (f t) ∧ t.pos.phase = phaseDone ∧ SameCommand s t) ∨
      (runSequencer n s = .fault .unwrittenWord ∧ ¬s.blockWritten s.lat.len) := by
  induction n generalizing s with
  | zero => exact .inl ⟨0, s, Nat.le_refl 0, .refl s, .refl _, h.phase_zero, .refl s⟩
  | succ n ih =>
    rcases h.step with hdone | ⟨i, t, hturn, ht, hwork⟩ | ⟨hrun, hfault, hw⟩
    · exact .inl ⟨0, s, Nat.zero_le _, .refl s, .refl _, hdone, .refl s⟩
    · have hsame := hturn.sameCommand ht
      have hone := runs_one hturn.decodes ht
      have hone' := hf _ _ _ hturn (.refl s) ht
      rcases ih hwork fun u v j hu hsu => hf u v j hu (hsame.trans hsu) with
        ⟨m, u, hm, hrun, hrun', hudone, hsu⟩ | ⟨hfault, hw⟩
      · refine .inl ⟨m + 1, u, Nat.succ_le_succ hm, ?_, ?_, hudone, hsame.trans hsu⟩ <;> rw [Nat.add_comm]
        exacts [hone.trans hrun, hone'.trans hrun']
      · refine .inr ⟨?_, fun hs => hw ?_⟩
        · rw [Nat.add_comm, hone]; exact hfault
        · rw [hsame.lat]; exact hsame.blockWritten hs
    · exact .inr ⟨runSequencer_fault _ _ _ hrun hfault, hw⟩

/-- The run of a working command itself. -/
theorem State.Working.reaches_done {n : Nat} {s : State} (h : s.Working n) :
    (∃ m t, m ≤ n ∧ Runs m s t ∧ t.pos.phase = phaseDone ∧ SameCommand s t) ∨
      (runSequencer n s = .fault .unwrittenWord ∧ ¬s.blockWritten s.lat.len) := by
  refine (h.runs (f := id) fun _ _ _ hu _ ht => runs_one hu.decodes ht).imp_left ?_
  rintro ⟨m, t, hm, hrun, -, hdone, hsame⟩
  exact ⟨m, t, hm, hrun, hdone, hsame⟩

/-! ## The bound of R235 -/

theorem srmTurns_le_uopBound {op : BitVec 4} (h : op = 2 ∨ op = 3) (nch len : Nat) :
    2 + nch * len + nch + turnsAfterSrm op nch len ≤ uopBound op nch len - 2 := by
  rcases h with rfl | rfl
  · rw [uopBound_process, Nat.mul_assoc]
    change 2 + nch * len + nch + (1 + 5 * len + (1 + 3 * (nch * len))) ≤ _
    omega
  · rw [uopBound_srm]
    change 2 + nch * len + nch + 0 ≤ _
    omega

theorem egeTurns_le_uopBound {op : BitVec 4} (h : op = 2 ∨ op = 4) (nch len : Nat) :
    1 + 5 * len + turnsAfterEge op nch len ≤ uopBound op nch len - 2 := by
  rcases h with rfl | rfl
  · rw [uopBound_process, Nat.mul_assoc]
    change 1 + 5 * len + (1 + 3 * (nch * len)) ≤ _
    omega
  · rw [uopBound_ege]
    change 1 + 5 * len + 0 ≤ _
    omega

theorem henTurns_le_uopBound {op : BitVec 4} (h : op = 2 ∨ op = 5) (nch len : Nat) :
    1 + 3 * (nch * len) ≤ uopBound op nch len - 2 := by
  rcases h with rfl | rfl
  · rw [uopBound_process, Nat.mul_assoc]; omega
  · rw [uopBound_hen, Nat.mul_assoc]; omega

/-- Every position of a command is within the bound of R235, LATCH and DONE taken off it. -/
theorem turnsLeft_of_phaseOfOp {op : BitVec 4} {nch : Nat} {len : Index} {q : Pos} (hof : phaseOfOp op q.phase = true)
    (hi : samplePhase q.phase = true → q.idx.toNat < len.toNat) (hc : q.ch.toNat < nch) :
    TurnsLeft op nch len (uopBound op nch len.toNat - 2) q := by
  obtain ⟨p, i, c⟩ := q
  have hpairs := pairsFrom_le nch len.toNat c.toNat i.toNat
  simp only [phaseOfOp, srmPhase, egePhase, henPhase, Bool.or_eq_true, Bool.and_eq_true, beq_iff_eq] at hof hi hc
  rcases hof with (((rfl | ⟨rfl, rfl⟩) | ⟨hop, hp⟩) | ⟨hop, hp⟩) | ⟨hop, hp⟩
  · exact .done
  · exact .prep rfl (Nat.le_refl 1)
  · have hbound := srmTurns_le_uopBound hop nch len.toNat
    rcases hp with ((rfl | rfl) | rfl) | rfl
    · exact .sInit hop hbound
    · exact .sBpf hop hc (hi rfl) (by omega)
    · exact .sRms hop hc (by omega)
    · exact .sRatio hop (by omega)
  · have hbound := egeTurns_le_uopBound hop nch len.toNat
    rcases hp with ((((rfl | rfl) | rfl) | rfl) | rfl) | rfl
    · exact .eCoef hop hbound
    · exact .eDet hop (hi rfl) (by omega)
    · exact .eEnv hop (hi rfl) (by omega)
    · exact .eGrc hop (hi rfl) (by omega)
    · exact .ePub hop (hi rfl) (by omega)
    · exact .eApply hop (hi rfl) (by omega)
  · have hbound := henTurns_le_uopBound hop nch len.toNat
    rcases hp with ((rfl | rfl) | rfl) | rfl
    · exact .hGain hop hbound
    · exact .hHpf hop hc (hi rfl) (by omega)
    · exact .hSat hop hc (hi rfl) (by omega)
    · exact .hMac hop hc (hi rfl) (by omega)

theorem two_le_uopBound (op : BitVec 4) (nch len : Nat) : 2 ≤ uopBound op nch len := by
  unfold uopBound
  split_ifs <;> omega

/-- A machine with the invariant is idle, or at work on a command within the command's bound. -/
theorem State.Inv.working {s : State} (h : s.Inv) (hrun : s.pos.phase ≠ phaseIdle) :
    s.Working (uopBound s.lat.op s.params.nch.toNat s.lat.len.toNat - 2) :=
  ⟨h.params, h.len hrun, turnsLeft_of_phaseOfOp (h.phase hrun) h.idx h.ch⟩

/-- The state after DONE is idle, the invariant given. -/
theorem State.Inv.idle {s : State} (h : s.Inv) (hp : s.pos.phase = phaseIdle) : s.idle := by
  obtain ⟨hi, hc⟩ := h.idlePos hp
  refine ⟨Bool.eq_false_iff.2 fun hb => h.busy.1 hb hp, ?_⟩
  rw [← hp, ← hi, ← hc]

/-- Settles O41: an idle machine is there already; a working one comes to DONE, and with DONE to IDLE, or faults on the way. -/
theorem commandsReachDone : Obligations.CommandsReachDone := by
  intro s hs hin
  by_cases hidle : s.pos.phase = phaseIdle
  · exact ⟨0, Nat.zero_le _, .inl ⟨s, rfl, hs.idle hidle⟩⟩
  have hbound := two_le_uopBound s.lat.op s.params.nch.toNat s.lat.len.toNat
  rcases (hs.working hidle).reaches_done with ⟨m, t, hm, hrun, hdone, -⟩ | ⟨hfault, -⟩
  · have hend := (hrun.trans (runs_done hdone)).finish rfl (Nat.le_refl (m + 1))
    have hinv := runSequencer_induct State.Inv seqStep_keeps_inv _ _ _ hs hend
    exact ⟨m + 1, by omega, .inl ⟨_, (run_eq_runSequencer _ hin).trans hend, hinv.idle rfl⟩⟩
  · exact ⟨_, Nat.sub_le _ 2, .inr ((run_eq_runSequencer _ hin).trans hfault)⟩

end Sys2Proof.Machine
end

section
/-! A stage run by its own command and the same stage inside a PROCESS (44_host_commands R234, R238): the same micro-operations on
the same operands, but for the phase that follows the stage. -/

namespace Sys2Proof.Machine

/-! ## The core of a stage's command, inside another command -/

/-- The core `s` of a stage's command, with the host-written registers, STATUS, latches and model's notes of the command `p`; `log`
is what GR took before the stage. -/
def State.inside (s p : State) (log : List F32) : State :=
  { s with
    host := p.host
    status := p.status
    lat := { p.lat with len := s.lat.len }
    io := { p.io with grLog := log ++ s.io.grLog, admitted := s.io.admitted } }

/-- The position inside a command that goes on at phase `e` where the stage's own command is at DONE. -/
def exitPos (e : PhaseCode) (q : Pos) : Pos := if q.phase = phaseDone then ⟨e, 0, 0⟩ else q

/-- The same inside a command that goes on at phase `e` after the stage. -/
def State.stageOf (s p : State) (log : List F32) (e : PhaseCode) : State := (s.inside p log).withPos (exitPos e s.pos)

section
variable {s p : State} {log : List F32} {e a f : PhaseCode}

theorem exitPos_of_ne {q : Pos} (h : q.phase ≠ phaseDone) : exitPos e q = q := if_neg h

theorem stageOf_of_ne (h : s.pos.phase ≠ phaseDone) : s.stageOf p log e = s.inside p log := by
  rw [State.stageOf, exitPos_of_ne h]
  rfl

theorem stageOf_of_done (h : s.pos.phase = phaseDone) : s.stageOf p log e = (s.inside p log).withPos ⟨e, 0, 0⟩ := by
  rw [State.stageOf, exitPos, if_pos h]

/-! ## Moves -/

theorem goTo_stageOf (hf : f ≠ phaseDone) : (goTo f s).stageOf p log e = goTo f (s.inside p log) := stageOf_of_ne hf

theorem goTo_done_stageOf : (goTo phaseDone s).stageOf p log e = goTo e (s.inside p log) := stageOf_of_done rfl

theorem sameFrame_stageOf (hf : f ≠ phaseDone) : (sameFrame f s).stageOf p log e = sameFrame f (s.inside p log) :=
  stageOf_of_ne hf

theorem samePair_stageOf (hf : f ≠ phaseDone) : (samePair f s).stageOf p log e = samePair f (s.inside p log) :=
  stageOf_of_ne hf

theorem nextPair_stageOf (ha : a ≠ phaseDone) (hf : f = phaseDone → e = phaseDone) :
    (nextPair a f s).stageOf p log e = nextPair a f (s.inside p log) := by
  have hpos (q : Pos) (nch len : Nat) : exitPos e (pairPos a f nch len q) = pairPos a f nch len q := by
    unfold pairPos
    split_ifs
    · exact exitPos_of_ne ha
    · exact exitPos_of_ne ha
    · by_cases hdone : f = phaseDone
      · subst hdone
        rw [hf rfl]
        exact if_pos rfl
      · exact exitPos_of_ne hdone
  rw [nextPair_eq_withPos, nextPair_eq_withPos]
  exact congrArg (s.inside p log).withPos (hpos _ _ _)

theorem nextChan_stageOf (ha : a ≠ phaseDone) (hf : f ≠ phaseDone) :
    (nextChan a f s).stageOf p log e = nextChan a f (s.inside p log) := by
  have hpos (q : Pos) (nch : Nat) : exitPos e (chanPos a f nch q) = chanPos a f nch q := by
    unfold chanPos
    split_ifs
    · exact exitPos_of_ne ha
    · exact exitPos_of_ne hf
  rw [nextChan_eq_withPos, nextChan_eq_withPos]
  exact congrArg (s.inside p log).withPos (hpos _ _)

theorem nextFrame_stageOf (ha : a ≠ phaseDone) :
    (nextFrame a phaseDone s).stageOf p log e = nextFrame a e (s.inside p log) := by
  have hpos (q : Pos) (len : Nat) : exitPos e (framePos a phaseDone len q) = framePos a e len q := by
    unfold framePos
    split_ifs
    · exact exitPos_of_ne ha
    · exact if_pos rfl
  rw [nextFrame_eq_withPos, nextFrame_eq_withPos]
  exact congrArg (s.inside p log).withPos (hpos _ _)

/-! ## Micro-operation by micro-operation -/

/-- Inside the command `p` the micro-operation `i` does what it does in the stage's own command. -/
def CarriesOver (s p : State) (log : List F32) (e : PhaseCode) (i : Instr) : Prop :=
  ∀ t, exec i s = .next t → exec i (s.inside p log) = .next (t.stageOf p log e)

theorem carriesOver_sInit : CarriesOver s p log e .sInit := by
  rintro _ ⟨⟩
  rw [goTo_stageOf (by unfold afterSInit; split <;> decide)]
  rfl

theorem carriesOver_sBpf : CarriesOver s p log e .sBpf := by
  intro t ht
  obtain ⟨v, hv, rfl⟩ := execSBpf_next ht
  rw [nextPair_stageOf (by decide) (fun h => absurd h (by decide))]
  exact execSBpf_ok (s := s.inside p log) hv

theorem carriesOver_sRms : CarriesOver s p log e .sRms := by
  rintro _ ⟨⟩
  rw [nextChan_stageOf (by decide) (by decide)]
  rfl

theorem carriesOver_sRatio (hop : s.lat.op = 3) (hratio : p.lat.ratio = s.lat.ratio) :
    CarriesOver s p log (afterSrm p.lat.op) .sRatio := by
  rintro _ ⟨⟩
  rw [hop, show afterSrm 3 = phaseDone from rfl, goTo_done_stageOf]
  change execSRatio (s.inside p log) = _
  unfold execSRatio
  rw [show (s.inside p log).lat.ratio = s.lat.ratio from hratio]
  rfl

/-- E_COEF, where EFF_RATIO, the ratio of a PROCESS, is the one that the EGE command has latched (42_envelope_gain_engine R181). -/
theorem carriesOver_eCoef (hop : s.lat.op = 4) (hp : p.lat.op = 2) (hratio : s.res.effRatio = s.lat.ratio)
    (hattack : p.lat.attack = s.lat.attack) (hrelease : p.lat.release = s.lat.release) :
    CarriesOver s p log (afterEge p.lat.op) .eCoef := by
  rintro _ ⟨⟩
  have hin : ratioIn (s.inside p log) = ratioIn s := by
    unfold ratioIn
    rw [hop, show (s.inside p log).lat.op = 2 from hp]
    exact hratio
  have hnext (u : State) : (goTo (afterECoef s.lat.op s.lat.len) u).stageOf p log (afterEge p.lat.op) =
      goTo (afterECoef p.lat.op s.lat.len) (u.inside p log) := by
    rw [hop]
    unfold afterECoef
    split
    · exact goTo_done_stageOf
    · exact goTo_stageOf (by decide)
  rw [hnext]
  change execECoef (s.inside p log) = _
  unfold execECoef
  rw [hin, show (s.inside p log).lat.attack = s.lat.attack from hattack,
    show (s.inside p log).lat.release = s.lat.release from hrelease]
  rfl

theorem carriesOver_eDet : CarriesOver s p log e .eDet := by
  intro t ht
  obtain ⟨lane, level, hd, rfl⟩ := execEDet_next ht
  have hsame := detectLanes_congr (t := s.inside p log) (s := s) rfl rfl rfl rfl (channels s.params) s.scr.lane f32Zero
  rw [sameFrame_stageOf (by decide)]
  exact execEDet_ok (s := s.inside p log) (hsame.trans hd)

theorem carriesOver_eEnv : CarriesOver s p log e .eEnv := by
  rintro _ ⟨⟩
  rw [sameFrame_stageOf (by decide)]
  rfl

theorem carriesOver_eGrc (hthresh : p.lat.thresh = s.lat.thresh) : CarriesOver s p log e .eGrc := by
  rintro _ ⟨⟩
  rw [sameFrame_stageOf (by decide)]
  change execEGrc (s.inside p log) = _
  unfold execEGrc
  rw [show (s.inside p log).lat.thresh = s.lat.thresh from hthresh]
  rfl

theorem carriesOver_ePub : CarriesOver s p log e .ePub := by
  rintro _ ⟨⟩
  rw [sameFrame_stageOf (by decide)]
  exact congrArg (fun l => Host.Outcome.next (sameFrame phaseEApply { s.inside p log with
    res := { s.res with gr := s.scr.grv }, io := { (s.inside p log).io with grLog := l } })) (List.append_assoc _ _ _)

theorem carriesOver_eApply (hop : s.lat.op = 4) : CarriesOver s p log (afterEge p.lat.op) .eApply := by
  intro t ht
  obtain ⟨hin, rfl⟩ := execEApply_next ht
  rw [hop, show afterEge 4 = phaseDone from rfl, nextFrame_stageOf (by decide)]
  exact execEApply_ok (s := s.inside p log) (applyLanes_ok _ _ _ _ hin)

theorem carriesOver_hGain (hgain : p.lat.outgain = s.lat.outgain) : CarriesOver s p log phaseDone .hGain := by
  rintro _ ⟨⟩
  have hnext (u : State) : (goTo (afterHGain s.lat.len) u).stageOf p log phaseDone =
      goTo (afterHGain s.lat.len) (u.inside p log) := by
    unfold afterHGain
    split
    · exact goTo_done_stageOf
    · exact goTo_stageOf (by decide)
  rw [hnext]
  change execHGain (s.inside p log) = _
  unfold execHGain
  rw [show (s.inside p log).lat.outgain = s.lat.outgain from hgain]
  rfl

theorem carriesOver_hHpf : CarriesOver s p log e .hHpf := by
  intro t ht
  obtain ⟨v, hv, rfl⟩ := execHHpf_next ht
  rw [samePair_stageOf (by decide)]
  exact execHHpf_ok (s := s.inside p log) hv

theorem carriesOver_hSat : CarriesOver s p log e .hSat := by
  rintro _ ⟨⟩
  rw [samePair_stageOf (by decide)]
  rfl

theorem carriesOver_hMac : CarriesOver s p log phaseDone .hMac := by
  intro t ht
  obtain ⟨hin, rfl⟩ := execHMac_next ht
  rw [nextPair_stageOf (by decide) (fun _ => rfl)]
  exact execHMac_ok (s := s.inside p log) ((writeSample_ok_iff _ _ _ _ _ _).2 ⟨hin, rfl⟩)

/-! ## Stage by stage -/

theorem phaseOfOp_three {q : PhaseCode} : phaseOfOp 3 q = true → q ≠ phaseDone → srmPhase q = true := by
  revert q; decide

theorem phaseOfOp_four {q : PhaseCode} : phaseOfOp 4 q = true → q ≠ phaseDone → egePhase q = true := by
  revert q; decide

theorem phaseOfOp_five {q : PhaseCode} : phaseOfOp 5 q = true → q ≠ phaseDone → henPhase q = true := by
  revert q; decide

variable {i : Instr}

/-- The SRM stage reads LEN and the ratio of the latches. -/
theorem carriesOver_srm (h : s.AtTurn i) (hop : s.lat.op = 3) (hratio : p.lat.ratio = s.lat.ratio) :
    CarriesOver s p log (afterSrm p.lat.op) i := by
  obtain ⟨hof, hdone, hi⟩ := h
  rw [hop] at hof
  have hsrm := phaseOfOp_three hof hdone
  simp only [srmPhase, Bool.or_eq_true, beq_iff_eq] at hsrm
  rcases hsrm with ((hp | hp) | hp) | hp <;> rw [hp] at hi <;> cases hi
  · exact carriesOver_sInit
  · exact carriesOver_sBpf
  · exact carriesOver_sRms
  · exact carriesOver_sRatio hop hratio

/-- The EGE stage reads LEN, the threshold and the times of the latches, and the ratio where R181 finds it. -/
theorem carriesOver_ege (h : s.AtTurn i) (hop : s.lat.op = 4) (hp : p.lat.op = 2) (hratio : s.res.effRatio = s.lat.ratio)
    (hthresh : p.lat.thresh = s.lat.thresh) (hattack : p.lat.attack = s.lat.attack)
    (hrelease : p.lat.release = s.lat.release) : CarriesOver s p log (afterEge p.lat.op) i := by
  obtain ⟨hof, hdone, hi⟩ := h
  rw [hop] at hof
  have hege := phaseOfOp_four hof hdone
  simp only [egePhase, Bool.or_eq_true, beq_iff_eq] at hege
  rcases hege with ((((hq | hq) | hq) | hq) | hq) | hq <;> rw [hq] at hi <;> cases hi
  · exact carriesOver_eCoef hop hp hratio hattack hrelease
  · exact carriesOver_eDet
  · exact carriesOver_eEnv
  · exact carriesOver_eGrc hthresh
  · exact carriesOver_ePub
  · exact carriesOver_eApply hop

/-- The HEN stage reads LEN and the gain of the latches. -/
theorem carriesOver_hen (h : s.AtTurn i) (hop : s.lat.op = 5) (hgain : p.lat.outgain = s.lat.outgain) :
    CarriesOver s p log phaseDone i := by
  obtain ⟨hof, hdone, hi⟩ := h
  rw [hop] at hof
  have hhen := phaseOfOp_five hof hdone
  simp only [henPhase, Bool.or_eq_true, beq_iff_eq] at hhen
  rcases hhen with ((hq | hq) | hq) | hq <;> rw [hq] at hi <;> cases hi
  · exact carriesOver_hGain hgain
  · exact carriesOver_hHpf
  · exact carriesOver_hSat
  · exact carriesOver_hMac

/-- A turn of the stage's command is a turn of the other command. -/
theorem CarriesOver.runs {t : State} (h : CarriesOver s p log e i) (hs : s.AtTurn i) (ht : exec i s = .next t) :
    Runs 1 (s.stageOf p log e) (t.stageOf p log e) := by
  rw [stageOf_of_ne hs.notDone]
  exact runs_one (s := s.inside p log) hs.decodes (h t ht)

end

end Sys2Proof.Machine
end

section
/-! PROCESS as the SRM, EGE and HEN commands one after the other (44_host_commands R238): each command comes to DONE whatever its
values are, and its turns are turns of the PROCESS. -/

namespace Sys2Proof.Machine

/-! ## A command on a block, from acceptance to DONE -/

/-- The core after DONE, with STATUS as it was before acceptance. -/
def State.finished (s : State) (st : BitVec 7) : State := { s with status := st, pos := ⟨phaseIdle, 0, 0⟩ }

/-- The run of the command `op` on `len` frames from `s` to `q` at DONE, which a map `f` of the core takes along. -/
structure CommandRun (s : State) (op : BitVec 4) (len : Index) (f : State → State) (q : State) : Prop where
  runs : ∃ m ≤ uopBound op s.params.nch.toNat len.toNat - 2, Runs m (f (accept (cmdWord op len) s)) (f q)
  done : q.pos.phase = phaseDone
  same : SameCommand (accept (cmdWord op len) s) q
  exec : runCommand (cmdWord op len) s = .next (q.finished s.status)

section
variable {s : State} {op : BitVec 4} {len : Index}

theorem accept_lat_op (op : BitVec 4) (len : Index) (s : State) : (accept (cmdWord op len) s).lat.op = op := by
  rw [accept_lat, latched_op, cmdOp_cmdWord]

theorem accept_lat_len (op : BitVec 4) (len : Index) (s : State) : (accept (cmdWord op len) s).lat.len = len := by
  rw [accept_lat, latched_len, cmdLen_cmdWord]

/-- An accepted command on a block is at work, within its bound. -/
theorem working_accept (hwf : s.params.wf = true) (hready : s.ready len) (hop : blockOp op) :
    (accept (cmdWord op len) s).Working (uopBound op s.params.nch.toNat len.toNat - 2) := by
  have henter := enterable_afterLatch len (op := op) (.inr hop)
  refine ⟨hwf, by rw [accept_lat_len]; exact hready.length, ?_⟩
  rw [accept_lat_op, accept_lat_len, accept_pos, cmdOp_cmdWord]
  exact turnsLeft_of_phaseOfOp henter.ofOp henter.samples (wf_bounds hwf).1

theorem blockOp_ne_one (hop : blockOp op) : op ≠ 1 := by
  rcases hop with rfl | rfl | rfl | rfl <;> decide

/-- A command on a written block completes, admitted or not. -/
theorem exists_commandRun (hwf : s.params.wf = true) (hready : s.ready len) (hop : blockOp op) {f : State → State}
    (hf : ∀ u v i, u.AtTurn i → SameCommand (accept (cmdWord op len) s) u → exec i u = .next v → Runs 1 (f u) (f v)) :
    ∃ q, CommandRun s op len f q := by
  rcases (working_accept hwf hready hop).runs hf with ⟨m, q, hm, hrun, hrun', hdone, hsame⟩ | ⟨-, hw⟩
  · refine ⟨q, ⟨m, hm, hrun'⟩, hdone, hsame, ?_⟩
    have hstatus := hsame.status (by rw [accept_lat_op]; exact blockOp_ne_one hop)
    have hbound := two_le_uopBound op s.params.nch.toNat len.toNat
    exact runCommand_of_runs (offerCondition_ready hready hop) rfl hrun hdone hstatus
      (by rw [cmdOp_cmdWord, cmdLen_cmdWord]; omega)
  · rw [accept_lat_len] at hw
    exact absurd hready.block hw

/-- After the command the block is ready for the next one. -/
theorem CommandRun.ready {f : State → State} {q : State} (h : CommandRun s op len f q) (hready : s.ready len) :
    (q.finished s.status).ready len where
  notBusy := hready.notBusy
  prepared := hready.prepared
  length := h.same.params ▸ hready.length
  block := h.same.blockWritten (s := accept (cmdWord op len) s) hready.block

/-- SRM and HEN publish no gain reduction. -/
theorem CommandRun.grLog {f : State → State} {q : State} (h : CommandRun s op len f q) (hop : op = 3 ∨ op = 5) :
    q.io.grLog = [] :=
  h.same.grLog (by rw [accept_lat_op]; exact hop)

theorem inputsAdmitted_of_admits (h : s.admits (paramsUsed op s.host) len) : inputsAdmitted (cmdWord op len) s = true :=
  (inputsAdmitted_iff _ _).2 (.inr (by rwa [cmdOp_cmdWord, cmdLen_cmdWord]))

/-- SRM leaves BUF alone (20_memory R74). -/
theorem srm_buf {t : State} (hwf : s.params.wf = true) (hready : s.ready len) (hadm : s.admits [s.host.pRatio] len)
    (ht : exec (.srm len) s = .next t) : t.buf = s.buf := by
  obtain ⟨u, hu, hstate, -⟩ := srmCommand s len hwf hready hadm
  cases hu.symm.trans ht
  rw [hstate]

end

/-! ## The stages inside a PROCESS -/

/-- The core of the command `p` with the parameters, results, hidden state, scratch registers and BUF of `t`. -/
def State.holding (p t : State) (log : List F32) (q : Pos) : State :=
  { p with
    params := t.params, res := t.res, hid := t.hid, scr := t.scr, buf := t.buf, pos := q
    io := { p.io with grLog := log } }

theorem inside_eq_holding {s p : State} {log : List F32} (hlen : s.lat.len = p.lat.len)
    (hadm : s.io.admitted = p.io.admitted) : s.inside p log = p.holding s (log ++ s.io.grLog) s.pos := by
  unfold State.inside State.holding
  rw [hlen, hadm]

section
variable {s p q : State} {op : BitVec 4} {len : Index} {log : List F32} {e : PhaseCode}

/-- The command's turns inside `p`, where both are admitted alike. -/
theorem CommandRun.inside (h : CommandRun s op len (·.stageOf p log e) q) (hstart : afterLatch op ≠ phaseDone)
    (hlen : p.lat.len = len) (hadm : inputsAdmitted (cmdWord op len) s = p.io.admitted) :
    ∃ m ≤ uopBound op s.params.nch.toNat len.toNat - 2,
      Runs m (p.holding s log ⟨afterLatch op, 0, 0⟩) (p.holding q (log ++ q.io.grLog) ⟨e, 0, 0⟩) := by
  obtain ⟨m, hm, hrun⟩ := h.runs
  refine ⟨m, hm, ?_⟩
  have hlen' : (accept (cmdWord op len) s).lat.len = p.lat.len := (accept_lat_len op len s).trans hlen.symm
  rw [stageOf_of_ne (by rw [accept_pos, cmdOp_cmdWord]; exact hstart), inside_eq_holding hlen' hadm, stageOf_of_done h.done,
    inside_eq_holding (by rw [h.same.lat, hlen']) (h.same.admitted.trans hadm), accept_pos, cmdOp_cmdWord] at hrun
  have hlog : log ++ (accept (cmdWord op len) s).io.grLog = log := List.append_nil log
  rw [hlog] at hrun
  exact hrun

/-- SRM, with the turns of its stage inside `p`. -/
theorem exists_srmRun (hwf : s.params.wf = true) (hready : s.ready len) (hratio : p.lat.ratio = s.host.pRatio)
    (log : List F32) : ∃ q, CommandRun s 3 len (·.stageOf p log (afterSrm p.lat.op)) q := by
  refine exists_commandRun hwf hready (by unfold blockOp; decide) fun u v i hu hsame ht => ?_
  have hlat : u.lat = _ := hsame.lat.trans (latched_srm len s)
  exact (carriesOver_srm hu (by rw [hlat]) (by rw [hlat]; exact hratio)).runs hu ht

/-- EGE with the ratio that EFF_RATIO holds, with the turns of its stage inside the PROCESS `p`. -/
theorem exists_egeRun (hwf : s.params.wf = true) (hready : s.ready len) (hop : p.lat.op = 2)
    (hratio : s.res.effRatio = s.host.pRatio) (hthresh : p.lat.thresh = s.host.pThresh)
    (hattack : p.lat.attack = s.host.pAttack) (hrelease : p.lat.release = s.host.pRelease) (log : List F32) :
    ∃ q, CommandRun s 4 len (·.stageOf p log (afterEge p.lat.op)) q := by
  refine exists_commandRun hwf hready (by unfold blockOp; decide) fun u v i hu hsame ht => ?_
  have hlat : u.lat = _ := hsame.lat.trans (latched_ege len s)
  have heff : u.res.effRatio = s.res.effRatio := hsame.effRatio (accept_lat_op 4 len s)
  refine (carriesOver_ege hu ?op hop ?ratio ?thresh ?attack ?release).runs hu ht
  all_goals rw [hlat]
  exacts [heff.trans hratio, hthresh, hattack, hrelease]

/-- HEN, with the turns of its stage inside `p`. -/
theorem exists_henRun (hwf : s.params.wf = true) (hready : s.ready len) (hgain : p.lat.outgain = s.host.pOutgain)
    (log : List F32) : ∃ q, CommandRun s 5 len (·.stageOf p log phaseDone) q := by
  refine exists_commandRun hwf hready (by unfold blockOp; decide) fun u v i hu hsame ht => ?_
  have hlat : u.lat = _ := hsame.lat.trans (latched_hen len s)
  exact (carriesOver_hen hu (by rw [hlat]) (by rw [hlat]; exact hgain)).runs hu ht

/-- PROCESS by itself. -/
theorem exists_processRun (hwf : s.params.wf = true) (hready : s.ready len) : ∃ q, CommandRun s 2 len id q :=
  exists_commandRun hwf hready (by unfold blockOp; decide) fun _ _ _ hu _ ht => runs_one hu.decodes ht

end

/-! ## The three commands inside one PROCESS -/

/-- The core between the SRM and the EGE command: the host requests the ratio that the SRM stage has written. -/
def State.handingOver (q : State) (st : BitVec 7) (x : HostRegs) : State :=
  (q.finished st).withHost { x with pRatio := q.res.effRatio }

/-- The runs of SRM from `s`, of EGE and of HEN, their turns inside the command `p`: each starts from what the one before it
leaves. -/
structure StageRuns (s p : State) (len : Index) (q1 q2 q3 : State) : Prop where
  srm : CommandRun s 3 len (·.stageOf p [] (afterSrm p.lat.op)) q1
  ege : CommandRun (q1.handingOver s.status s.host) 4 len (·.stageOf p [] (afterEge p.lat.op)) q2
  hen : CommandRun (q2.finished s.status) 5 len (·.stageOf p q2.io.grLog phaseDone) q3

theorem accept_lat_process (len : Index) (s : State) :
    (accept (cmdWord 2 len) s).lat =
      { op := 2, len := len, thresh := s.host.pThresh, ratio := s.host.pRatio, attack := s.host.pAttack
        release := s.host.pRelease, outgain := s.host.pOutgain, sr := s.lat.sr, bs := s.lat.bs } :=
  latched_process len s

section
variable {s p q1 q2 q3 : State} {len : Index}

theorem StageRuns.params_srm (h : StageRuns s p len q1 q2 q3) : q1.params = s.params := h.srm.same.params

theorem StageRuns.params_ege (h : StageRuns s p len q1 q2 q3) : q2.params = s.params :=
  h.ege.same.params.trans h.params_srm

theorem StageRuns.params_hen (h : StageRuns s p len q1 q2 q3) : q3.params = s.params :=
  h.hen.same.params.trans h.params_ege

/-- The three commands complete whatever the values are that one hands to the next. -/
theorem exists_stageRuns (hwf : s.params.wf = true) (hready : s.ready len) :
    ∃ q1 q2 q3, StageRuns s (accept (cmdWord 2 len) s) len q1 q2 q3 := by
  have hlat := accept_lat_process len s
  generalize accept (cmdWord 2 len) s = p at hlat
  obtain ⟨q1, h1⟩ := exists_srmRun (p := p) hwf hready (by rw [hlat]) []
  have hparams1 : q1.params = s.params := h1.same.params
  have hready2 : (q1.handingOver s.status s.host).ready len := { h1.ready hready with }
  obtain ⟨q2, h2⟩ := exists_egeRun (p := p) (hparams1 ▸ hwf) hready2 (by rw [hlat]) rfl (by rw [hlat]; rfl)
    (by rw [hlat]; rfl) (by rw [hlat]; rfl) []
  have hparams2 : q2.params = s.params := h2.same.params.trans hparams1
  have hhost2 : q2.host = { s.host with pRatio := q1.res.effRatio } := h2.same.host
  have hgain : (q2.finished s.status).host.pOutgain = s.host.pOutgain := by
    rw [show (q2.finished s.status).host = _ from hhost2]
  obtain ⟨q3, h3⟩ := exists_henRun (p := p) (hparams2 ▸ hwf) (h2.ready hready2) (by rw [hlat]; exact hgain.symm) q2.io.grLog
  exact ⟨q1, q2, q3, h1, h2, h3⟩

/-- Where the values handed over are finite, the three commands are admitted as the PROCESS is (40_numerics R147). -/
theorem StageRuns.admitted (h : StageRuns s p len q1 q2 q3) (hwf : s.params.wf = true) (hready : s.ready len)
    (hadm : s.admits [s.host.pThresh, s.host.pRatio, s.host.pAttack, s.host.pRelease, s.host.pOutgain] len)
    (hratio : finite32 q1.res.effRatio) (hblock : (q2.finished s.status).blockAdmitted len) :
    inputsAdmitted (cmdWord 3 len) s = true ∧ inputsAdmitted (cmdWord 4 len) (q1.handingOver s.status s.host) = true ∧
      inputsAdmitted (cmdWord 5 len) (q2.finished s.status) = true := by
  obtain ⟨hparams, hblock0⟩ := hadm
  simp only [List.forall_mem_cons] at hparams
  obtain ⟨hthresh, hratio0, hattack, hrelease, hgain, -⟩ := hparams
  have hsrm : s.admits [s.host.pRatio] len := ⟨List.forall_mem_singleton.2 hratio0, hblock0⟩
  have hbuf : q1.buf = s.buf := srm_buf (t := q1.finished s.status) hwf hready hsrm h.srm.exec
  have hblock1 : (q1.handingOver s.status s.host).blockAdmitted len := fun c n hc hn v hv =>
    hblock0 c n (h.params_srm ▸ hc) hn v (hbuf ▸ hv)
  have hhost2 : q2.host = { s.host with pRatio := q1.res.effRatio } := h.ege.same.host
  refine ⟨inputsAdmitted_of_admits (op := 3) hsrm, inputsAdmitted_of_admits (op := 4) ⟨?ege, hblock1⟩,
    inputsAdmitted_of_admits (op := 5) ⟨?hen, hblock⟩⟩
  case ege => exact List.forall_mem_cons.2 ⟨hthresh, List.forall_mem_cons.2 ⟨hratio,
    List.forall_mem_cons.2 ⟨hattack, List.forall_mem_singleton.2 hrelease⟩⟩⟩
  case hen =>
    refine List.forall_mem_singleton.2 ?_
    rw [show (q2.finished s.status).host = _ from hhost2]
    exact hgain

/-- The three stages and DONE fit in the bound of a PROCESS (44_host_commands R235). -/
theorem stageTurns_le_uopBound {m1 m2 m3 nch len : Nat} (h1 : m1 ≤ uopBound 3 nch len - 2)
    (h2 : m2 ≤ uopBound 4 nch len - 2) (h3 : m3 ≤ uopBound 5 nch len - 2) :
    m1 + m2 + m3 + 1 ≤ uopBound 2 nch len := by
  rw [uopBound_srm] at h1
  rw [uopBound_ege] at h2
  rw [uopBound_hen, Nat.mul_assoc] at h3
  rw [uopBound_process, Nat.mul_assoc]
  omega

/-- Where all are admitted alike, the commands' turns follow one another inside `p`. -/
theorem StageRuns.runs (h : StageRuns s p len q1 q2 q3) (hlen : p.lat.len = len) (hop : p.lat.op = 2)
    (hadm1 : inputsAdmitted (cmdWord 3 len) s = p.io.admitted)
    (hadm2 : inputsAdmitted (cmdWord 4 len) (q1.handingOver s.status s.host) = p.io.admitted)
    (hadm3 : inputsAdmitted (cmdWord 5 len) (q2.finished s.status) = p.io.admitted) :
    ∃ m, m + 1 ≤ uopBound 2 s.params.nch.toNat len.toNat ∧
      Runs m (p.holding s [] ⟨phaseSInit, 0, 0⟩) (p.holding q3 q2.io.grLog ⟨phaseDone, 0, 0⟩) := by
  obtain ⟨m1, hm1, hsrm⟩ := h.srm.inside (by decide) hlen hadm1
  obtain ⟨m2, hm2, hege⟩ := h.ege.inside (by decide) hlen hadm2
  obtain ⟨m3, hm3, hhen⟩ := h.hen.inside (by decide) hlen hadm3
  rw [h.srm.grLog (.inl rfl), hop] at hsrm
  rw [hop] at hege
  rw [h.hen.grLog (.inr rfl), List.append_nil] at hhen
  exact ⟨m1 + m2 + m3, stageTurns_le_uopBound hm1 (h.params_srm ▸ hm2) (h.params_ege ▸ hm3), (hsrm.trans hege).trans hhen⟩

/-- What the PROCESS comes to whose turns are those of the three commands. -/
theorem StageRuns.execProcess (h : StageRuns s (accept (cmdWord 2 len) s) len q1 q2 q3) (hwf : s.params.wf = true)
    (hready : s.ready len)
    (hadm : s.admits [s.host.pThresh, s.host.pRatio, s.host.pAttack, s.host.pRelease, s.host.pOutgain] len)
    (hratio : finite32 q1.res.effRatio) (hblock : (q2.finished s.status).blockAdmitted len) :
    execProcess len s =
      .next (((accept (cmdWord 2 len) s).holding q3 q2.io.grLog ⟨phaseDone, 0, 0⟩).finished s.status) := by
  obtain ⟨hadm1, hadm2, hadm3⟩ := h.admitted hwf hready hadm hratio hblock
  have hadm' : (accept (cmdWord 2 len) s).io.admitted = true := inputsAdmitted_of_admits (op := 2) hadm
  obtain ⟨m, hm, hrun⟩ := h.runs (accept_lat_len 2 len s) (accept_lat_op 2 len s) (hadm1.trans hadm'.symm)
    (hadm2.trans hadm'.symm) (hadm3.trans hadm'.symm)
  have hpos : (accept (cmdWord 2 len) s).pos = ⟨phaseSInit, 0, 0⟩ := by rw [accept_pos, cmdOp_cmdWord]; rfl
  rw [← hpos] at hrun
  exact runCommand_of_runs (offerCondition_ready hready (op := 2) (.inl rfl)) rfl hrun rfl rfl
    (by rw [cmdOp_cmdWord, cmdLen_cmdWord]; exact hm)

end

/-- Settles O38: each of the four commands runs to DONE; and where the ratio and the block handed over are finite, all four are
admitted, so the turns of the three are, one after the other, those of the PROCESS. -/
theorem processIsTheThreeStages : Obligations.ProcessIsTheThreeStages := by
  intro s len hwf hready hadm
  obtain ⟨q1, q2, q3, h⟩ := exists_stageRuns hwf hready
  obtain ⟨q, hq⟩ := exists_processRun hwf hready
  refine ⟨q.finished s.status, q1.finished s.status, q2.finished s.status, q3.finished s.status, h.srm.exec, h.ege.exec,
    h.hen.exec, hq.exec, hq.same.environment, fun hratio hblock => ?_⟩
  have hexec := h.execProcess hwf hready hadm hratio hblock
  rw [Host.Outcome.next.inj (hq.exec.symm.trans hexec)]
  refine ⟨?_, rfl⟩
  unfold State.holding
  rw [accept_lat_process, h.params_hen]
  rfl

end Sys2Proof.Machine
end

section
/-! A sticky bit that is set makes no difference to what comes after it (60_exceptions R261): every operation but the read and the
write of STATUS carries further sticky bits along. -/

namespace Sys2Proof.Machine

/-! ## Changes of the state that an operation carries along -/

/-- The operation `o` does the same with the state changed by `f`, and its next state is changed by `f` as well. -/
def Carries (f : State → State) (o : State → Host.Outcome State Fault Refusal) : Prop := ∀ s, o (f s) = mapNext f (o s)

section Carried
variable {f : State → State}

theorem carries_seqStep (hphase : ∀ s, (f s).pos.phase = s.pos.phase)
    (hexec : ∀ i, busOf i = .phase → Carries f (exec i)) : Carries f seqStep := by
  intro s
  rw [seqStep_eq, seqStep_eq, hphase]
  cases hd : decodePhase s.pos.phase with
  | ok i => exact hexec i (decodePhase_spec _ _ hd).1 s
  | error e => by_cases he : e = .idlePhase <;> simp [he, mapNext]

theorem carries_runSequencer (hphase : ∀ s, (f s).pos.phase = s.pos.phase) (hseq : Carries f seqStep) (k : Nat) :
    Carries f (runSequencer k) := by
  induction k with
  | zero => exact fun s => rfl
  | succ k ih =>
    intro s
    by_cases hidle : s.pos.phase = phaseIdle
    · rw [runSequencer_idle _ s hidle, runSequencer_idle _ (f s) ((hphase s).trans hidle)]; rfl
    · simp only [runSequencer, hphase, if_neg hidle, hseq s]
      cases seqStep s with
      | next t => exact ih t
      | fault | refused => rfl

end Carried

/-! ## The bits -/

section StickyBits
variable {m : BitVec 7}

/-- Sticky bits are neither PREPARED nor BUSY (10_state R31). -/
theorem getLsbD_sticky (hm : m &&& 0x7C = m) : m.getLsbD 0 = false ∧ m.getLsbD 1 = false := by
  rw [← hm]; simp

theorem isPrepared_withStatusBits (hm : m &&& 0x7C = m) (s : State) : isPrepared (s.withStatusBits m) = isPrepared s := by
  rw [isPrepared, State.withStatusBits, BitVec.getLsbD_or, (getLsbD_sticky hm).1, Bool.or_false, isPrepared]

theorem isBusy_withStatusBits (hm : m &&& 0x7C = m) (s : State) : isBusy (s.withStatusBits m) = isBusy s := by
  rw [isBusy, State.withStatusBits, BitVec.getLsbD_or, (getLsbD_sticky hm).2, Bool.or_false, isBusy]

/-- Bits set after others are bits set before them. -/
theorem stSet_or (st mask m : BitVec 7) : stSet (st ||| m) mask = stSet st mask ||| m := by
  rw [stSet, stSet, BitVec.or_assoc, BitVec.or_comm m, BitVec.or_assoc]

/-- Clearing BUSY leaves sticky bits set. -/
theorem stClear_busy_or (hm : m &&& 0x7C = m) (st : BitVec 7) : stClear (st ||| m) stBusy = stClear st stBusy ||| m := by
  have hkept : m &&& ~~~stBusy = m :=
    calc m &&& ~~~stBusy = m &&& 0x7C &&& ~~~stBusy := by rw [hm]
      _ = m &&& 0x7C := by rw [BitVec.and_assoc]; rfl
      _ = m := hm
  rw [stClear, stClear, BitVec.and_or_distrib_right, hkept]

/-! ## The operations that write STATUS -/

theorem raise_withStatusBits (c : Condition) (s : State) : raise c (s.withStatusBits m) = (raise c s).withStatusBits m :=
  congrArg (fun st => { s with status := st }) (stSet_or s.status (condBit c) m)

theorem accept_withStatusBits (w : Word) (s : State) : accept w (s.withStatusBits m) = (accept w s).withStatusBits m :=
  congrArg (fun st => { accept w s with status := st }) (stSet_or s.status stBusy m)

theorem prepared_withStatusBits (s : State) : prepared (s.withStatusBits m) = (prepared s).withStatusBits m := by
  have hstatus : (prepared (s.withStatusBits m)).status = (prepared s).status ||| m := by
    rw [prepared_status, prepared_status]
    change stSet (if rateValid s.num s.lat.sr then s.status ||| m else stSet (s.status ||| m) (condBit .srdef)) stPrepared = _
    rw [stSet_or, ← apply_ite (· ||| m), stSet_or]
    rfl
  rw [prepared_eq, prepared_eq s, hstatus]
  rfl

theorem carries_done (hm : m &&& 0x7C = m) : Carries (·.withStatusBits m) execDone := fun s =>
  congrArg (fun st => Host.Outcome.next (goTo phaseIdle { s with status := st })) (stClear_busy_or hm s.status)

/-! ## The operations that do not see STATUS -/

theorem carries_sBpf : Carries (·.withStatusBits m) execSBpf := by
  intro s
  cases hr : readSample s s.pos.ch s.pos.idx with
  | error f => rw [execSBpf_fault hr, execSBpf_fault (s := s.withStatusBits m) hr]; rfl
  | ok v =>
    rw [execSBpf_ok hr, execSBpf_ok (s := s.withStatusBits m) hr, nextPair_eq_withPos, nextPair_eq_withPos]
    rfl

theorem carries_sRms : Carries (·.withStatusBits m) execSRms := by
  intro s
  unfold execSRms
  rw [nextChan_eq_withPos, nextChan_eq_withPos]
  rfl

theorem carries_hHpf : Carries (·.withStatusBits m) execHHpf := by
  intro s
  cases hr : readSample s s.pos.ch s.pos.idx with
  | error f => rw [execHHpf_fault hr, execHHpf_fault (s := s.withStatusBits m) hr]; rfl
  | ok v => rw [execHHpf_ok hr, execHHpf_ok (s := s.withStatusBits m) hr]; rfl

theorem carries_eDet : Carries (·.withStatusBits m) execEDet := by
  intro s
  have hsame := detectLanes_congr (t := s.withStatusBits m) (s := s) rfl rfl rfl rfl (channels s.params) s.scr.lane f32Zero
  cases hd : detectLanes s (channels s.params) s.scr.lane f32Zero with
  | error f => rw [execEDet_fault hd, execEDet_fault (s := s.withStatusBits m) (hsame.trans hd)]; rfl
  | ok r => rw [execEDet_ok hd, execEDet_ok (s := s.withStatusBits m) (hsame.trans hd)]; rfl

theorem carries_eApply : Carries (·.withStatusBits m) execEApply := by
  intro s
  have hsame := applyLanes_congr (t := s.withStatusBits m) (s := s) rfl rfl rfl rfl (frameGain s.num s.scr.grv)
    (channels s.params) s.buf
  cases ha : applyLanes s (frameGain s.num s.scr.grv) (channels s.params) s.buf with
  | error f => rw [execEApply_fault ha, execEApply_fault (s := s.withStatusBits m) (hsame.trans ha)]; rfl
  | ok b =>
    rw [execEApply_ok ha, execEApply_ok (s := s.withStatusBits m) (hsame.trans ha), nextFrame_eq_withPos,
      nextFrame_eq_withPos]
    rfl

theorem carries_hMac : Carries (·.withStatusBits m) execHMac := by
  intro s
  cases hw : writeSample s.params s.buf s.pos.ch s.pos.idx (outputSample s) with
  | error f => rw [execHMac_fault hw, execHMac_fault (s := s.withStatusBits m) hw]; rfl
  | ok b =>
    rw [execHMac_ok hw, execHMac_ok (s := s.withStatusBits m) hw, nextPair_eq_withPos, nextPair_eq_withPos]
    rfl

/-! ## Micro-operations and commands -/

/-- Of the micro-operations PREP and DONE alone write STATUS, and none reads it. -/
theorem carries_microOperation (hm : m &&& 0x7C = m) {i : Instr} (hb : busOf i = .phase) :
    Carries (·.withStatusBits m) (exec i) := by
  cases i with
  | wr | rd | wrs | rds | rdgr | prepare | process | srm | ege | hen => cases hb
  | latch | sInit | sRatio | eCoef | eEnv | eGrc | ePub | hGain | hSat => exact fun s => rfl
  | prep => exact fun s => congrArg (fun t => Host.Outcome.next (goTo phaseDone t)) (prepared_withStatusBits s)
  | done => exact carries_done hm
  | sBpf => exact carries_sBpf
  | sRms => exact carries_sRms
  | eDet => exact carries_eDet
  | eApply => exact carries_eApply
  | hHpf => exact carries_hHpf
  | hMac => exact carries_hMac

/-- The checks of an offer read PREPARED and BUSY alone (44_host_commands R231). -/
theorem offerCondition_withStatusBits (hm : m &&& 0x7C = m) (w : Word) (s : State) :
    offerCondition w (s.withStatusBits m) = offerCondition w s := by
  unfold offerCondition
  rw [isBusy_withStatusBits hm, isPrepared_withStatusBits hm]
  rfl

theorem offer_withStatusBits (hm : m &&& 0x7C = m) (w : Word) (s : State) :
    offer w (s.withStatusBits m) = (offer w s).withStatusBits m := by
  unfold offer
  rw [offerCondition_withStatusBits hm]
  cases offerCondition w s with
  | some c => exact raise_withStatusBits c s
  | none => exact accept_withStatusBits w s

/-- A command in the atomic view: dropped, or accepted and run. -/
theorem carries_command (hm : m &&& 0x7C = m) (w : Word) : Carries (·.withStatusBits m) (runCommand w) := by
  have hseq : Carries (·.withStatusBits m) seqStep := carries_seqStep (fun _ => rfl) fun _ => carries_microOperation hm
  intro s
  unfold runCommand
  rw [offerCondition_withStatusBits hm]
  cases offerCondition w s with
  | some c => exact congrArg _ (raise_withStatusBits c s)
  | none =>
    rw [accept_withStatusBits]
    exact carries_runSequencer (f := (·.withStatusBits m)) (fun _ => rfl) hseq _ (accept w s)

/-! ## Transactions -/

/-- A register number other than STATUS's belongs to an address other than STATUS's (30_encoding R92). -/
theorem register_ne_status {a : WordAddr} (hres : ¬reservedAddr a = true) (ha : a ≠ 1) : (a.setWidth 8).toNat ≠ 1 := by
  rw [toNat_of_not_reserved hres]
  exact fun h => ha (BitVec.eq_of_toNat_eq h)

theorem carries_wr (hm : m &&& 0x7C = m) {a : WordAddr} (d : Word) (ha : a ≠ 1) :
    Carries (·.withStatusBits m) (execWr a d) := by
  intro s
  by_cases hres : reservedAddr a = true
  · rw [execWr_reserved d _ hres, execWr_reserved d _ hres]; rfl
  · rw [execWr_register d _ hres, execWr_register d _ hres]
    refine congrArg Host.Outcome.next ?_
    have hstatus := register_ne_status hres ha
    unfold writeReg
    split
    · exact offer_withStatusBits hm d s
    · exact absurd ‹_› hstatus
    all_goals rfl

/-- A register other than STATUS shows no bit of it. -/
theorem regValue_withStatusBits {r : BitVec 8} (hr : r.toNat ≠ 1) (s : State) :
    regValue (s.withStatusBits m) r = regValue s r := by
  rw [regValue_eq, regValue_eq, if_neg hr, if_neg hr]
  rfl

/-- Of STATUS, what a register had at acceptance depends on BUSY alone (20_memory R85). -/
theorem oldValue_withStatusBits (hm : m &&& 0x7C = m) (r : BitVec 8) (s : State) :
    oldValue (s.withStatusBits m) r = oldValue s r := by
  unfold oldValue
  rw [isBusy_withStatusBits hm]
  rfl

theorem carries_rd (hm : m &&& 0x7C = m) {a : WordAddr} (ha : a ≠ 1) : Carries (·.withStatusBits m) (execRd a) := by
  intro s
  by_cases hres : reservedAddr a = true
  · rw [execRd_reserved _ hres, execRd_reserved _ hres]; rfl
  · rw [execRd_register _ hres, execRd_register _ hres]
    unfold readReg
    rw [oldValue_withStatusBits hm, regValue_withStatusBits (register_ne_status hres ha)]
    cases oldValue s (a.setWidth 8) <;> rfl

theorem carries_wrs (hm : m &&& 0x7C = m) (c : Chan) (n : Index) (d : Word) :
    Carries (·.withStatusBits m) (execWrs c n d) := by
  intro s
  have hbusy := isBusy_withStatusBits hm s
  by_cases h : isBusy s = true ∨ inBuf s.params c n = false
  · rw [execWrs_ignored h, execWrs_ignored (s := s.withStatusBits m) (hbusy ▸ h)]; rfl
  · obtain ⟨hb, hin⟩ : isBusy s = false ∧ inBuf s.params c n = true := by simpa using h
    rw [execWrs_written hb hin, execWrs_written (s := s.withStatusBits m) (hbusy.trans hb) hin]; rfl

theorem carries_rds (hm : m &&& 0x7C = m) (c : Chan) (n : Index) : Carries (·.withStatusBits m) (execRds c n) := by
  intro s
  have hbusy := isBusy_withStatusBits hm s
  cases hin : inBuf s.params c n with
  | false => rw [execRds_outside hin, execRds_outside (s := s.withStatusBits m) hin]; rfl
  | true =>
    cases hb : isBusy s with
    | true => rw [execRds_busy hin hb, execRds_busy (s := s.withStatusBits m) hin (hbusy.trans hb)]; rfl
    | false =>
      cases hv : memRead s.buf (bufAddr c n) with
      | some v => rw [execRds_written hin hb hv, execRds_written (s := s.withStatusBits m) hin (hbusy.trans hb) hv]; rfl
      | none => rw [execRds_unwritten hin hb hv, execRds_unwritten (s := s.withStatusBits m) hin (hbusy.trans hb) hv]; rfl

end StickyBits

/-- Settles O49, by the kind of the operation: the checks of an offer and the accesses to BUF read PREPARED and BUSY alone, and the
operations that write STATUS set and clear other bits of it. -/
theorem stickyBitsNeverBlock : Obligations.StickyBitsNeverBlock := by
  intro i s m hm hrd hwr
  cases i with
  | wr a d => exact carries_wr hm d (fun ha => hwr d (by rw [ha])) s
  | rd a => exact carries_rd hm (fun ha => hrd (by rw [ha])) s
  | wrs c n d => exact carries_wrs hm c n d s
  | rds c n => exact carries_rds hm c n s
  | rdgr => rfl
  | prepare | process | srm | ege | hen => exact carries_command hm _ s
  | latch | prep | done | sInit | sBpf | sRms | sRatio | eCoef | eDet | eEnv | eGrc | ePub | eApply | hGain | hHpf | hSat
  | hMac => exact carries_microOperation hm rfl s

end Sys2Proof.Machine
end
